-- ==== Sys2Proof/Word.lean ====
section
/-! DEFINITION. The word and byte types of the VPE (00_scope.md R13: all quantities are unsigned). -/

namespace Sys2Proof

/-- A 32-bit register or command word (10_state.md R32, 30_encoding.md R121). -/
abbrev Word := BitVec 32

/-- One byte lane of a chunk, or one byte of a drive (41_parity_math.md R200). -/
abbrev Byte := BitVec 8

end Sys2Proof
end

