-- ==== Sys2Proof/Config.lean ====
section
/-! DEFINITION. What an implementation fixes (00_scope.md R10) and the values the spec leaves open. -/

namespace Sys2Proof.Config

/-- `CHUNK` of 00_scope.md R10: bytes per chunk. -/
def CHUNK : Nat := 4096

/-- log2 of `CHUNK`; blocks of memory are read and written by halving. -/
def chunkLog : Nat := 12

/-- `NBUF` of 00_scope.md R10: chunk buffers in the block. -/
def NBUF : Nat := 4

/-- `MAX_DRIVES` of 00_scope.md R10. -/
def MAX_DRIVES : Nat := 512

/-- `MAX_DPD` of 00_scope.md R10. -/
def MAX_DPD : Nat := 64

/-- `MAX_DOMAINS` of 00_scope.md R10. -/
def MAX_DOMAINS : Nat := 32

/-- `MAX_GPD` of 00_scope.md R10. -/
def MAX_GPD : Nat := 8

/-- `MAX_GROUPS` of 00_scope.md R10. -/
def MAX_GROUPS : Nat := 64

/-- `MAX_CHUNKS` of 00_scope.md R10. -/
def MAX_CHUNKS : Nat := 2 ^ 20

/-- The low byte of `GF_POLY` = 0x11D (00_scope.md R10): what a carry out of bit 7 is reduced by. -/
def gfReduction : Byte := 0x1D

/-- `GF_GEN` of 00_scope.md R10. -/
def gfGenerator : Byte := 0x02

/-- The constant of register `ID` (10_state.md R33). -/
def idValue : Word := 0x56504531

/-- The constant of register `VERSION` (10_state.md R33). -/
def versionValue : Word := 0x00000001

/-- `VPE_BASE` (20_memory.md R91, U1): chosen by the platform, no rule depends on it.
DESIGN CHOICE (log 15), safe: an opaque constant. -/
opaque vpeBase : Nat

/-- Word `word` of report entry `entry` as a host reads it while idle, for an entry at or past `REPORT_COUNT`
(93_implementation_defined.md U11: any value). A free value of each epoch; nothing constrains it.
DESIGN CHOICE (log 23), safe: an opaque constant. -/
opaque staleReportWord (epoch entry word : Nat) : Word

end Sys2Proof.Config
end

