-- ==== Sys2Proof/Syntax.lean ====
section
/-! DEFINITION. The VPE's commands, one constructor per row of the opcode table (30_encoding.md R123). -/

namespace Sys2Proof

/-- The strategy bit F of `REBUILD` (44_integrity_rebuild.md R310). -/
inductive Strategy where
  | restoreInPlace
  | promoteSpare
deriving DecidableEq, Repr

/-- The commands with the operands their word carries (30_encoding.md R123, R141): `ID` is 16 bits, `F` one bit,
`BUF` three bits (its legal values 0..3 are a check of WellFormed). Operands in `ARG0`, `ARG1`, `CFG_*`, `TARGET*` and
the buffers are registers, not syntax. -/
inductive Instr where
  | nop
  | init
  | reset
  | setOnlineDrive (drive : BitVec 16) (value : Bool)
  | setOnlineDomain (domain : BitVec 16) (value : Bool)
  | writeChunk (drive : BitVec 16) (buf : BitVec 3)
  | encodeStripe (domain : BitVec 16)
  | recombine (buf : BitVec 3)
  | readChunk (drive : BitVec 16) (buf : BitVec 3)
  | peek (drive : BitVec 16)
  | decodeChunk (drive : BitVec 16) (buf : BitVec 3)
  | classify
  | rebuild (strategy : Strategy)
  | queryDrive (drive : BitVec 16)
  | queryGroup (group : BitVec 16)
  | querySlot (domain : BitVec 16)
deriving DecidableEq, Repr

end Sys2Proof
end

