-- ==== Sys2Proof/WellFormed.lean ====
section
/-! DEFINITION. Which instruction terms have an encoding: BUF must name one of the NBUF buffers (30_encoding.md R121, R125 c). -/

namespace Sys2Proof

/-- `BUF < NBUF` (30_encoding.md R125 c). -/
def bufferInRange (buf : BitVec 3) : Bool := buf.toNat < Config.NBUF

/-- The checks of 30_encoding.md R125 that a term can fail. ID, F and the strategy may take any value. -/
def Instr.wellFormed : Instr → Bool
  | .nop => true
  | .init => true
  | .reset => true
  | .setOnlineDrive _ _ => true
  | .setOnlineDomain _ _ => true
  | .writeChunk _ buf => bufferInRange buf
  | .encodeStripe _ => true
  | .recombine buf => bufferInRange buf
  | .readChunk _ buf => bufferInRange buf
  | .peek _ => true
  | .decodeChunk _ buf => bufferInRange buf
  | .classify => true
  | .rebuild _ => true
  | .queryDrive _ => true
  | .queryGroup _ => true
  | .querySlot _ => true

end Sys2Proof
end

