-- ==== Sys2Proof/Decode.lean ====
section
/-! DEFINITION. Decoding of a command word (30_encoding.md R121, R122, R123, R125) and the encoder of R141. -/

namespace Sys2Proof

/-! ### Fields of format C (30_encoding.md R121) -/

/-- `OPC` = w[7:0]. -/
def fieldOpc (w : Word) : BitVec 8 := w.extractLsb' 0 8
/-- `F` = w[8]. -/
def fieldF (w : Word) : Bool := w.getLsbD 8
/-- `BUF` = w[11:9]. -/
def fieldBuf (w : Word) : BitVec 3 := w.extractLsb' 9 3
/-- `RSV` = w[15:12]. -/
def fieldRsv (w : Word) : BitVec 4 := w.extractLsb' 12 4
/-- `ID` = w[31:16]. -/
def fieldId (w : Word) : BitVec 16 := w.extractLsb' 16 16

/-! ### The opcode table (spec/opcode_table.json) -/

/-- One row of the opcode table: the row's words are those with `w &&& mask = pattern` (30_encoding.md R125). -/
structure OpcodeRow where
  mnemonic : String
  mask : Word
  pattern : Word
deriving DecidableEq, Repr

/-- The opcode table (30_encoding.md R123, R125). -/
def opcodeRows : List OpcodeRow :=
  [ ⟨"NOP", 0xFFFFFFFF, 0x00000000⟩,
    ⟨"INIT", 0xFFFFFFFF, 0x00000001⟩,
    ⟨"RESET", 0xFFFFFFFF, 0x00000002⟩,
    ⟨"SET_ONLINE_DRIVE", 0x0000FEFF, 0x00000010⟩,
    ⟨"SET_ONLINE_DOMAIN", 0x0000FEFF, 0x00000011⟩,
    ⟨"WRITE_CHUNK", 0x0000F9FF, 0x00000020⟩,
    ⟨"ENCODE_STRIPE", 0x0000FFFF, 0x00000021⟩,
    ⟨"RECOMBINE", 0xFFFFF9FF, 0x00000022⟩,
    ⟨"READ_CHUNK", 0x0000F9FF, 0x00000030⟩,
    ⟨"PEEK", 0x0000FFFF, 0x00000031⟩,
    ⟨"DECODE_CHUNK", 0x0000F9FF, 0x00000032⟩,
    ⟨"CLASSIFY", 0xFFFFFFFF, 0x00000040⟩,
    ⟨"REBUILD", 0xFFFFFEFF, 0x00000041⟩,
    ⟨"QUERY_DRIVE", 0x0000FFFF, 0x00000050⟩,
    ⟨"QUERY_GROUP", 0x0000FFFF, 0x00000051⟩,
    ⟨"QUERY_SLOT", 0x0000FFFF, 0x00000052⟩ ]

/-- Why a word does not decode (30_encoding.md R125, R127). Each of them completes with `INVALID_COMMAND`. -/
inductive DecodeError where
  /-- OPC is no row of the table (R127). -/
  | reservedOpcode
  /-- RSV is not 0 (R125 a). -/
  | reservedBits
  /-- A field the row does not use is not 0 (R125 b). -/
  | unusedField
  /-- BUF ≥ NBUF on a row that uses BUF (R125 c). -/
  | bufferRange
deriving DecidableEq, Repr

/-- Which of the fields F, BUF and ID a row uses (30_encoding.md R123), and the command it stands for. -/
structure DecodeRow where
  usesF : Bool
  usesBuf : Bool
  usesId : Bool
  instr : Instr
deriving DecidableEq, Repr

/-- The value of F as the strategy of `REBUILD` (44_integrity_rebuild.md R310). -/
def strategyOfFlag : Bool → Strategy
  | false => .restoreInPlace
  | true => .promoteSpare

/-- The strategy as F (44_integrity_rebuild.md R310). -/
def flagOfStrategy : Strategy → Bool
  | .restoreInPlace => false
  | .promoteSpare => true

/-- The row of 30_encoding.md R123 whose OPC is the word's, with the word's operands in it. -/
def decodeRow (w : Word) : Option DecodeRow :=
  let id := fieldId w
  let f := fieldF w
  let b := fieldBuf w
  match (fieldOpc w).toNat with
  | 0x00 => some ⟨false, false, false, .nop⟩
  | 0x01 => some ⟨false, false, false, .init⟩
  | 0x02 => some ⟨false, false, false, .reset⟩
  | 0x10 => some ⟨true, false, true, .setOnlineDrive id f⟩
  | 0x11 => some ⟨true, false, true, .setOnlineDomain id f⟩
  | 0x20 => some ⟨false, true, true, .writeChunk id b⟩
  | 0x21 => some ⟨false, false, true, .encodeStripe id⟩
  | 0x22 => some ⟨false, true, false, .recombine b⟩
  | 0x30 => some ⟨false, true, true, .readChunk id b⟩
  | 0x31 => some ⟨false, false, true, .peek id⟩
  | 0x32 => some ⟨false, true, true, .decodeChunk id b⟩
  | 0x40 => some ⟨false, false, false, .classify⟩
  | 0x41 => some ⟨true, false, false, .rebuild (strategyOfFlag f)⟩
  | 0x50 => some ⟨false, false, true, .queryDrive id⟩
  | 0x51 => some ⟨false, false, true, .queryGroup id⟩
  | 0x52 => some ⟨false, false, true, .querySlot id⟩
  | _ => none

/-- Decoding of a command word (30_encoding.md R125): the row of its OPC, provided RSV is 0, every field the row does
not use is 0, and BUF names a buffer where the row uses it. Total: every other word is refused by name. -/
def decode (w : Word) : Except DecodeError Instr :=
  match decodeRow w with
  | none => .error .reservedOpcode
  | some row =>
    if fieldRsv w ≠ 0 then .error .reservedBits
    else if (!row.usesF && fieldF w) || (!row.usesBuf && fieldBuf w != 0) || (!row.usesId && fieldId w != 0) then
      .error .unusedField
    else if row.usesBuf && !bufferInRange (fieldBuf w) then .error .bufferRange
    else .ok row.instr

/-- `enc(OPC, ID, F, BUF)` of 30_encoding.md R141: the fields in their places, RSV = 0. -/
def encodeFields (opc : BitVec 8) (id : BitVec 16) (f : Bool) (buf : BitVec 3) : Word :=
  id ++ 0#4 ++ buf ++ BitVec.ofBool f ++ opc

/-- The command word of an instruction (30_encoding.md R141). -/
def encode : Instr → Word
  | .nop => encodeFields 0x00 0 false 0
  | .init => encodeFields 0x01 0 false 0
  | .reset => encodeFields 0x02 0 false 0
  | .setOnlineDrive drive value => encodeFields 0x10 drive value 0
  | .setOnlineDomain domain value => encodeFields 0x11 domain value 0
  | .writeChunk drive buf => encodeFields 0x20 drive false buf
  | .encodeStripe domain => encodeFields 0x21 domain false 0
  | .recombine buf => encodeFields 0x22 0 false buf
  | .readChunk drive buf => encodeFields 0x30 drive false buf
  | .peek drive => encodeFields 0x31 drive false 0
  | .decodeChunk drive buf => encodeFields 0x32 drive false buf
  | .classify => encodeFields 0x40 0 false 0
  | .rebuild strategy => encodeFields 0x41 0 (flagOfStrategy strategy) 0
  | .queryDrive drive => encodeFields 0x50 drive false 0
  | .queryGroup group => encodeFields 0x51 group false 0
  | .querySlot domain => encodeFields 0x52 domain false 0

/-- The instruction the decoder reads from a table row's bits, numbered as the opcode table numbers them: a command is
one 32-bit word (30_encoding.md R128), and bits at or above `nbits` are 0. -/
def decodeTableWord (nbits w : Nat) : Option Instr :=
  match decode (BitVec.ofNat 32 (w % 2 ^ nbits)) with
  | .ok i => some i
  | .error _ => none

end Sys2Proof
end

