-- ==== Sys2Proof/Machine/State.lean ====
section
/-! DEFINITION. The state of the VPE and its drive array (10_state.md), the environment's inputs, the machine after
reset, and the reasons a step can stop. -/

namespace Sys2Proof.Machine

/-- The contents of one chunk: `CHUNK` byte lanes, lane i in bits [8i+7:8i], so that word i of a buffer is bits
[32i+31:32i] (20_memory.md R94, 41_parity_math.md R204). -/
abbrev Chunk := BitVec (8 * Config.CHUNK)

/-- Sparse byte memory: (address, byte) pairs in the canonical form `Memory.wf` (Machine/Ops.lean). -/
abbrev Memory := List Host.Cell

/-- The error codes of 60_exceptions.md R340. Their numbers are `ErrCode.code`; 13..255 cannot be written (U24). -/
inductive ErrCode where
  | none
  | invalidDrive
  | alreadyInitialized
  | insufficientCapacity
  | driveOffline
  | unrecoverableData
  | partialRebuild
  | notInitialized
  | invalidCommand
  | invalidConfig
  | invalidRole
  | invalidRange
  | driveIo
deriving DecidableEq, Repr

/-- The per-drive state `pstate[p]` (10_state.md R63). -/
inductive PState where
  | native
  | spareFree
  | promoted
  | retired
deriving DecidableEq, Repr

/-- One answer of the drive port (20_memory.md R97). `junk` is the environment's draw of the chunk that the range of a
write holds after `err` ("the bytes of the written range hold any value"; U14). A free value: nothing constrains it,
it comes with the response (log 4). -/
inductive DriveResponse where
  | ok
  | err (junk : Chunk)
deriving DecidableEq, Repr

/-- One access of the engine to the drive port (20_memory.md R96): drive, byte offset, and the length read or the chunk
the range holds after the write (`stored`), and whether the port answered `ok`. -/
inductive DriveAccess where
  | read (drive off len : Nat) (ok : Bool)
  | write (drive off : Nat) (stored : Chunk) (ok : Bool)
deriving DecidableEq, Repr

/-- The width of a host access. The bus carries only `word` (20_memory.md R92). -/
inductive AccessSize where
  | byte
  | halfword
  | word
  | doubleword
deriving DecidableEq, Repr

/-- What the world outside the engine does next (00_scope.md R8; log 1, log 2). -/
inductive Input where
  /-- A host read at a window offset; `draw` is the value a result register returns while BUSY: a free value, nothing
  constrains it (10_state.md R68, log 4). -/
  | hostRead (off : BitVec 16) (size : AccessSize) (draw : Word)
  /-- A host write at a window offset. -/
  | hostWrite (off : BitVec 16) (size : AccessSize) (data : Word)
  /-- The environment schedules the completion of the command in flight (70_reset_and_hazards.md R380). -/
  | complete
  /-- The completion of the command in flight and a host write of `data` to `IRQ_STATUS` in the same step
  (10_state.md R38). -/
  | completeWithIrqWrite (data : Word)
  /-- The platform asserts hardware reset after `accesses` drive accesses of the command in flight; `junk` is what a
  chunk being written at that moment then holds, `bufs` and `report` what the buffers and the 16384 bytes of the report
  RAM then hold: free values, nothing constrains them (70_reset_and_hazards.md R370, R371; log 4, log 7). -/
  | hardwareReset (accesses : Nat) (junk : Chunk) (bufs : Vector Chunk 4) (report : BitVec 131072)
deriving DecidableEq, Repr

/-- The configuration registers `CFG_*` (10_state.md R43), and with the same shape the latched topology registers
`TOPO_TOTAL` to `TOPO_SCHEME` and `TOPO_GSIZE0..7` (R45). -/
structure TopoParams where
  total : Word
  dpd : Word
  spares : Word
  ngroups : Word
  chunks : Word
  scheme : Word
  gsize : Vector Word 8
deriving DecidableEq, Repr

/-- The derived topology registers (10_state.md R44). -/
structure TopoDerived where
  ndom : Word
  ndata : Word
  totalData : Word
  totalLp : Word
  totalGp : Word
  totalSpare : Word
  datacap : BitVec 64
deriving DecidableEq, Repr

/-- The command in flight while BUSY (10_state.md R30 g, R66): its word, and the operands and the online flags as they
stood at acceptance. -/
structure Flight where
  word : Word
  arg0 : Word
  arg1 : Word
  targets : BitVec 512
  bufs : Vector Chunk 4
  online : BitVec 512
deriving DecidableEq, Repr

/-- The state of the VPE, of its drive array, and of what the environment does next. INVENTORY.md lists the rule that
names each field. -/
structure State where
  /-- STATUS.DONE (R34). -/
  done : Bool
  /-- STATUS.INITIALIZED (R34). -/
  initialized : Bool
  /-- STATUS.OVERRUN (R34, R67). -/
  overrun : Bool
  /-- STATUS.CLASS_VALID (R34, R302). -/
  classValid : Bool
  /-- STATUS.ERR (R34, R340). -/
  err : ErrCode
  /-- CMD (R35). -/
  cmd : Word
  /-- ARG0 (R36). -/
  arg0 : Word
  /-- ARG1 (R36). -/
  arg1 : Word
  /-- IRQ_EN.DONE_EN (R37). -/
  irqEn : Bool
  /-- IRQ_STATUS.DONE_PEND (R38). -/
  donePend : Bool
  /-- PEEK_DATA (R40). -/
  peekData : Word
  /-- QRES0 (R41). -/
  qres0 : Word
  /-- QRES1 (R41). -/
  qres1 : Word
  /-- REPORT_COUNT (R42). -/
  reportCount : Word
  /-- CFG_* (R43). -/
  cfg : TopoParams
  /-- TOPO_TOTAL to TOPO_SCHEME, TOPO_GSIZE0..7 (R45). -/
  topo : TopoParams
  /-- TOPO_NDOM to TOPO_DATACAP (R44). -/
  derived : TopoDerived
  /-- ONLINE0..15: bit p is online[p] (R46). -/
  online : BitVec 512
  /-- TARGET0..15: bit p selects drive p (R47). -/
  targets : BitVec 512
  /-- CLASS_GRP0..3: bits [2G+1:2G] are group G's class (R48). -/
  classGrp : BitVec 128
  /-- CLASS_DOM0..1: bits [2D+1:2D] are domain D's class (R49). -/
  classDom : BitVec 64
  /-- CLASS_ROLLUP[1:0] (R50). -/
  classRollup : BitVec 2
  /-- BUF[0..3] (R51). -/
  bufs : Vector Chunk 4
  /-- Report RAM, keyed by window offset 0x8000..0xBFFF (R52). -/
  report : Memory
  /-- serve[D][s] (R62); empty when discarded. -/
  serve : List (List Nat)
  /-- pstate[p] (R63); empty when discarded. -/
  pstate : List PState
  /-- The command in flight; STATUS.BUSY is 1 exactly when there is one (R30 g, R66). -/
  flight : Option Flight
  /-- Drive contents, keyed by `driveKey` (R65, R95); the drive array's state. -/
  drives : Memory
  /-- The model's own: what the environment does next (log 1, log 2). -/
  inputs : List Input
  /-- The model's own: the drive port's coming answers; none left means `ok` (log 3). -/
  responses : List DriveResponse
  /-- The model's own: the accesses of the command in flight or last completed, newest first (log 17). -/
  traffic : List DriveAccess
  /-- The model's own: the word the last host read returned (log 16). -/
  readData : Word
  /-- The model's own: how many commands were accepted and hardware resets taken, at which the free values of the report
  entries past `REPORT_COUNT` change (log 23). -/
  epoch : Nat
deriving DecidableEq, Repr

/-- Why a step faults. The VPE itself has no fault (60_exceptions.md R344). -/
inductive Fault where
  /-- Raised by the drive port operations where the engine would access a byte outside the drive space of 20_memory.md
  R90 (b). R96 says no rule produces such an access; only states no run reaches raise it. Safe: the model stops. -/
  | noSuchDriveByte
deriving DecidableEq, Repr

/-- Why a step is refused. -/
inductive Refusal where
  /-- Raised by no arm of exec: every command has its meaning. Safe: the model stops. -/
  | notModelled (mnemonic : String)
  /-- Raised by a host access that is not 32 bits wide: the host bus cannot carry it (20_memory.md R92, U2). Safe. -/
  | hostAccessSize
  /-- Raised by a 32-bit host access at a misaligned offset: the host bus cannot carry it (20_memory.md R92, U2). Safe. -/
  | hostAccessMisaligned
deriving DecidableEq, Repr

/-- All topology or configuration registers 0 (10_state.md R43, R45). -/
def TopoParams.zero : TopoParams :=
  { total := 0, dpd := 0, spares := 0, ngroups := 0, chunks := 0, scheme := 0, gsize := #v[0, 0, 0, 0, 0, 0, 0, 0] }

/-- All derived topology registers 0 (10_state.md R44). -/
def TopoDerived.zero : TopoDerived :=
  { ndom := 0, ndata := 0, totalData := 0, totalLp := 0, totalGp := 0, totalSpare := 0, datacap := 0 }

/-- The machine after hardware reset (70_reset_and_hazards.md R370, 10_state.md R32). The buffers, the report RAM and
the drives hold zeros: DESIGN CHOICE, unsafe (log 5, log 6). `inputs`, `responses`, `traffic`, `readData` and `epoch`
are the model's own: DESIGN CHOICE (log 1, log 3, log 16, log 17, log 23). -/
def State.reset : State :=
  { done := false
    initialized := false
    overrun := false
    classValid := false
    err := .none
    cmd := 0
    arg0 := 0
    arg1 := 0
    irqEn := false
    donePend := false
    peekData := 0
    qres0 := 0
    qres1 := 0
    reportCount := 0
    cfg := TopoParams.zero
    topo := TopoParams.zero
    derived := TopoDerived.zero
    online := 0
    targets := 0
    classGrp := BitVec.allOnes 128
    classDom := BitVec.allOnes 64
    classRollup := 3
    bufs := #v[0, 0, 0, 0]
    report := []
    serve := []
    pstate := []
    flight := none
    drives := []
    inputs := []
    responses := []
    traffic := []
    readData := 0
    epoch := 0 }

end Sys2Proof.Machine
end

