-- ==== Sys2Proof/Machine/Ops.lean ====
section
/-! DEFINITION. The named operations over memory, register words, flag registers, slot assignment and the drive port,
and the completion of a command, which every command and every error ends in (60_exceptions.md R341). The VPE takes no
exception and has no return from one (R344). -/

namespace Sys2Proof.Machine

/-! ### Byte memory -/

/-- What an address that memory does not list reads as. DESIGN CHOICE, unsafe (log 5, log 6): 0. -/
def Memory.unlisted : Byte := 0

/-- The byte at an address. -/
def Memory.read : Memory → Nat → Byte
  | [], _ => Memory.unlisted
  | (k, v) :: m, a => if k = a then v else Memory.read m a

/-- The canonical form: addresses strictly rising, no entry equal to what an unlisted address reads as. -/
abbrev Memory.wf (m : Memory) : Prop :=
  m.Pairwise (fun c d => c.1 < d.1) ∧ ∀ c ∈ m, c.2 ≠ Memory.unlisted

/-- `n` bytes from address `a` as a little-endian number (20_memory.md R94). -/
def Memory.readBytes (m : Memory) (a : Nat) : Nat → Nat
  | 0 => 0
  | n + 1 => (m.read a).toNat + 256 * Memory.readBytes m (a + 1) n

/-- The `2 ^ k` bytes from address `a` as a little-endian number: `readBytes m a (2 ^ k)`, by halving. -/
def Memory.readBlock : Nat → Memory → Nat → Nat
  | 0, m, a => (m.read a).toNat
  | k + 1, m, a =>
    if m.isEmpty then 0
    else
      Memory.readBlock k (m.filter fun c => decide (c.1 < a + 2 ^ k)) a
        + 2 ^ (8 * 2 ^ k) * Memory.readBlock k (m.filter fun c => decide (a + 2 ^ k ≤ c.1)) (a + 2 ^ k)

/-- The entries of the `2 ^ k` bytes of the little-endian number `v` from address `a`, unlisted bytes left out. -/
def Memory.cellsOf : Nat → Nat → Nat → Memory
  | 0, a, v => if BitVec.ofNat 8 v = Memory.unlisted then [] else [(a, BitVec.ofNat 8 v)]
  | k + 1, a, v =>
    if v = 0 then []
    else Memory.cellsOf k a (v % 2 ^ (8 * 2 ^ k)) ++ Memory.cellsOf k (a + 2 ^ k) (v / 2 ^ (8 * 2 ^ k))

/-- The `2 ^ k` bytes from address `a` become those of the little-endian number `v`; every other byte stays. -/
def Memory.writeBlock (k : Nat) (m : Memory) (a v : Nat) : Memory :=
  m.filter (fun c => decide (c.1 < a)) ++ (Memory.cellsOf k a v ++ m.filter fun c => decide (a + 2 ^ k ≤ c.1))

/-! ### Register words and flag registers -/

/-- Bits [32w+31:32w] of a register array: its word `w` (10_state.md R32, R46, R47, R48, R51). -/
def wordAt {n : Nat} (v : BitVec n) (w : Nat) : Word := v.extractLsb' (32 * w) 32

/-- The register array with its word `w` replaced. -/
def setWordAt {n : Nat} (v : BitVec n) (w : Nat) (x : Word) : BitVec n :=
  (v &&& ~~~((BitVec.allOnes 32).setWidth n <<< (32 * w))) ||| (x.setWidth n <<< (32 * w))

/-- Flag `p` of a flag register array (10_state.md R46, R47). -/
def flagAt (v : BitVec 512) (p : Nat) : Bool := v.getLsbD p

/-- The flag register array with the `n` flags from `lo` set to `b`. -/
def setFlags (v : BitVec 512) (lo n : Nat) (b : Bool) : BitVec 512 :=
  if b then v ||| (BitVec.ofNat 512 (2 ^ n - 1) <<< lo) else v &&& ~~~(BitVec.ofNat 512 (2 ^ n - 1) <<< lo)

/-- The flag register array with flag `p` set to `b`. -/
def setFlag (v : BitVec 512) (p : Nat) (b : Bool) : BitVec 512 := setFlags v p 1 b

/-- `n` two-bit fields packed from bit 0 up, field i in bits [2i+1:2i] (10_state.md R48, R49). -/
def packFields (f : Nat → BitVec 2) : Nat → Nat
  | 0 => 0
  | n + 1 => packFields f n + 4 ^ n * (f n).toNat

/-- `n` flags packed from bit 0 up. -/
def packBits (f : Nat → Bool) : Nat → Nat
  | 0 => 0
  | n + 1 => packBits f n + 2 ^ n * (f n).toNat

/-- Two-bit field `i` of a register array (10_state.md R48, R49). -/
def fieldAt {n : Nat} (v : BitVec n) (i : Nat) : BitVec 2 := v.extractLsb' (2 * i) 2

/-- Byte lane `i` of a chunk (41_parity_math.md R204). -/
def laneAt (x : Chunk) (i : Nat) : Byte := x.extractLsb' (8 * i) 8

/-! ### Latched topology (10_state.md R45, R60) -/

/-- TOTAL. -/
def State.total (s : State) : Nat := s.topo.total.toNat
/-- DPD. -/
def State.dpd (s : State) : Nat := s.topo.dpd.toNat
/-- NG. -/
def State.ng (s : State) : Nat := s.topo.ngroups.toNat
/-- CHUNKS. -/
def State.chunks (s : State) : Nat := s.topo.chunks.toNat
/-- NDOM = TOTAL div DPD (10_state.md R60). -/
def State.ndom (s : State) : Nat := s.total / s.dpd

/-- Group size register `i` of a parameter set; there are eight (10_state.md R43, R45). -/
def TopoParams.gsizeAt (t : TopoParams) (i : Nat) : Nat := (t.gsize[i]?.getD 0).toNat

/-- The sizes of the first NG groups. -/
def TopoParams.sizes (t : TopoParams) : List Nat := (List.range t.ngroups.toNat).map t.gsizeAt

/-! ### Slot assignment and drive states (10_state.md R62, R63) -/

/-- `serve[D][k]` of an assignment; entries never written read as drive 0 (log 18). -/
def serveOf (serve : List (List Nat)) (D k : Nat) : Nat := (serve.getD D []).getD k 0

/-- `serve[D][k]`. -/
def State.serveAt (s : State) (D k : Nat) : Nat := serveOf s.serve D k

/-- `serve[D][k] <- q`. -/
def State.setServe (s : State) (D k q : Nat) : State :=
  { s with serve := s.serve.set D ((s.serve.getD D []).set k q) }

/-- `pstate[p]`; entries never written read as RETIRED (log 18). -/
def State.pstateAt (s : State) (p : Nat) : PState := s.pstate.getD p .retired

/-- `pstate[p] <- x`. -/
def State.setPState (s : State) (p : Nat) (x : PState) : State := { s with pstate := s.pstate.set p x }

/-! ### The drive port (20_memory.md R95 to R98) -/

/-- Bytes from one drive's first key to the next's: the most a drive holds (00_scope.md R10). -/
def driveSpan : Nat := Config.MAX_CHUNKS * Config.CHUNK

/-- The memory key of byte `off` of physical drive `p` (20_memory.md R95). -/
def driveKey (p off : Nat) : Nat := p * driveSpan + off

/-- Byte `off` of physical drive `p`. -/
def State.driveByte (s : State) (p off : Nat) : Byte := s.drives.read (driveKey p off)

/-- Chunk `c` of physical drive `p` in a drive memory (10_state.md R65). -/
def chunkIn (m : Memory) (p c : Nat) : Chunk :=
  BitVec.ofNat _ (m.readBlock Config.chunkLog (driveKey p (c * Config.CHUNK)))

/-- Chunk `c` of physical drive `p`. -/
def State.driveChunk (s : State) (p c : Nat) : Chunk := chunkIn s.drives p c

/-- The drive memory with chunk `c` of physical drive `p` replaced. -/
def withChunk (m : Memory) (p c : Nat) (v : Chunk) : Memory :=
  m.writeBlock Config.chunkLog (driveKey p (c * Config.CHUNK)) v.toNat

/-- Whether bytes off..off+n-1 of drive p lie in the drive space (20_memory.md R90 b, R96). -/
def State.inDriveSpace (s : State) (p off n : Nat) : Bool :=
  decide (p < s.total) && decide (off + n ≤ s.chunks * Config.CHUNK)

/-- The drive port's next answer (20_memory.md R97); with none listed, `ok` (log 3). -/
def State.response (s : State) : DriveResponse := s.responses.headD .ok

/-- The state after an access: its answer is used up and the access is in the traffic. -/
def State.afterAccess (s : State) (a : DriveAccess) : State :=
  { s with responses := s.responses.tail, traffic := a :: s.traffic }

/-- What an engine step that uses the drive port comes to: a value and a state, an `err` answer and a state, or an
access outside the drive space. -/
inductive PortResult (α : Type) where
  | ok (a : α) (s : State)
  | err (s : State)
  | absent

/-- `DriveRead(p, off, n)` (20_memory.md R97): the value `v` of the drives' bytes, or `err`. -/
def driveRead {α : Type} (p off n : Nat) (v : Memory → α) (s : State) : PortResult α :=
  if s.inDriveSpace p off n then
    match s.response with
    | .ok => .ok (v s.drives) (s.afterAccess (.read p off n true))
    | .err _ => .err (s.afterAccess (.read p off n false))
  else .absent

/-- `rdchunk(q, c)` (42_encode.md R260). -/
def rdchunk (q c : Nat) (s : State) : PortResult Chunk :=
  driveRead q (c * Config.CHUNK) Config.CHUNK (fun m => chunkIn m q c) s

/-- `wrchunk(q, c, v)` (42_encode.md R260): `ok` stores v, `err` leaves the range at the environment's draw
(20_memory.md R97). -/
def wrchunk (q c : Nat) (v : Chunk) (s : State) : PortResult Unit :=
  if s.inDriveSpace q (c * Config.CHUNK) Config.CHUNK then
    match s.response with
    | .ok =>
      .ok () { s.afterAccess (.write q (c * Config.CHUNK) v true) with drives := withChunk s.drives q c v }
    | .err junk =>
      .err { s.afterAccess (.write q (c * Config.CHUNK) junk false) with drives := withChunk s.drives q c junk }
  else .absent

/-- The chunks read so far, each with its slot. -/
abbrev SlotChunks := List (Nat × Chunk)

/-- The chunk read for a slot. -/
def chunkOfSlot (known : SlotChunks) (k : Nat) : Chunk :=
  match known with
  | [] => 0
  | (j, x) :: rest => if j = k then x else chunkOfSlot rest k

/-- Chunk `c` of the serving drive of each listed slot of domain `D`, read in the list's order (41_parity_math.md R206,
R227). The first `err` ends the reading, and the reads after it are not made: DESIGN CHOICE, the spec does not say whether
they are (R227, R284, R315; log 26). -/
def readSlots (D c : Nat) : List Nat → State → PortResult SlotChunks
  | [], s => .ok [] s
  | k :: ks, s =>
    match rdchunk (s.serveAt D k) c s with
    | .absent => .absent
    | .err s1 => .err s1
    | .ok x s1 =>
      match readSlots D c ks s1 with
      | .absent => .absent
      | .err s2 => .err s2
      | .ok known s2 => .ok ((k, x) :: known) s2

/-- The listed chunks written to chunk `c` of the serving drives of their slots of domain `D`, in the list's order. The
first `err` ends the writing. -/
def writeSlots (D c : Nat) : SlotChunks → State → PortResult Unit
  | [], s => .ok () s
  | (k, x) :: rest, s =>
    match wrchunk (s.serveAt D k) c x s with
    | .absent => .absent
    | .err s1 => .err s1
    | .ok _ s1 => writeSlots D c rest s1

/-! ### Completion (60_exceptions.md R341) -/

/-- `finish(E)`: ERR <- E, BUSY <- 0, DONE <- 1, DONE_PEND <- 1, in one step (60_exceptions.md R341). -/
def finish (e : ErrCode) (s : State) : State :=
  { s with err := e, flight := none, done := true, donePend := true }

/-- The command ends with error code `e` (60_exceptions.md R341, R344): the next state is the completion's. -/
def finishWith (e : ErrCode) (s : State) : Host.Outcome State Fault Refusal := .next (finish e s)

/-- What a command does after its last drive access: `after` on success, `DRIVE_IO` on `err` (42_encode.md R260). -/
def PortResult.orDriveIo {α : Type} (r : PortResult α) (after : α → State → Host.Outcome State Fault Refusal) :
    Host.Outcome State Fault Refusal :=
  match r with
  | .ok a s => after a s
  | .err s => finishWith .driveIo s
  | .absent => .fault .noSuchDriveByte

end Sys2Proof.Machine
end

