-- ==== Sys2Proof/Machine/Field.lean ====
section
/-! DEFINITION. The byte field GF(2^8) and its lane-wise operations on chunks (41_parity_math.md R200 to R205). -/

namespace Sys2Proof.Machine

/-- `a` times 2: one turn of the loop of 41_parity_math.md R201. -/
def gfDouble (a : Byte) : Byte := if a.getLsbD 7 then (a <<< 1) ^^^ Config.gfReduction else a <<< 1

/-- The bit-serial loop of 41_parity_math.md R201, `n` turns. -/
def gfMulLoop : Nat → Byte → Byte → Byte → Byte
  | 0, _, _, r => r
  | n + 1, a, b, r => gfMulLoop n (gfDouble a) (b >>> 1) (if b.getLsbD 0 then r ^^^ a else r)

/-- `gf_mul(a, b)` (41_parity_math.md R201). -/
def gfMul (a b : Byte) : Byte := gfMulLoop 8 a b 0

/-- `gf_pow(a, n)` (41_parity_math.md R202). -/
def gfPow (a : Byte) : Nat → Byte
  | 0 => 1
  | n + 1 => gfMul (gfPow a n) a

/-- `gf_inv(a)` = `gf_pow(a, 254)` (41_parity_math.md R203). -/
def gfInv (a : Byte) : Byte := gfPow a 254

/-- `gf_div(a, b)` (41_parity_math.md R203). -/
def gfDiv (a b : Byte) : Byte := gfMul a (gfInv b)

/-- `f` in each of the `2 ^ k` byte lanes of a number, by halving; for `f` with `f 0 = 0`. -/
def mapLanes (f : Byte → Byte) : Nat → Nat → Nat
  | 0, x => (f (BitVec.ofNat 8 x)).toNat
  | k + 1, x =>
    if x = 0 then 0
    else mapLanes f k (x % 2 ^ (8 * 2 ^ k)) + 2 ^ (8 * 2 ^ k) * mapLanes f k (x / 2 ^ (8 * 2 ^ k))

/-- `c · X`: `gf_mul(c, X[i])` in every lane (41_parity_math.md R204, 00_scope.md R14). -/
def scale (c : Byte) (x : Chunk) : Chunk := BitVec.ofNat _ (mapLanes (gfMul c) Config.chunkLog x.toNat)

/-- `X / c`: `gf_div(X[i], c)` in every lane (41_parity_math.md R204). -/
def unscale (x : Chunk) (c : Byte) : Chunk :=
  let inv := gfInv c
  BitVec.ofNat _ (mapLanes (fun b => gfMul b inv) Config.chunkLog x.toNat)

/-- `⊕` of the chunks of the listed indices; over none, the all-zero chunk (00_scope.md R14). -/
def xorOver (ks : List Nat) (f : Nat → Chunk) : Chunk := ks.foldr (fun k acc => f k ^^^ acc) 0

end Sys2Proof.Machine
end

