-- ==== Sys2Proof/Machine/Flags.lean ====
section
/-! DEFINITION. Every status flag of the VPE (10_state.md R34, R38, R76): STATUS, IRQ_STATUS and the interrupt line, and
the numbers of the coded registers. There are no arithmetic condition codes (R76). -/

namespace Sys2Proof.Machine

/-- The numeric error codes (60_exceptions.md R340). -/
def ErrCode.code : ErrCode → BitVec 8
  | .none => 0
  | .invalidDrive => 1
  | .alreadyInitialized => 2
  | .insufficientCapacity => 3
  | .driveOffline => 4
  | .unrecoverableData => 5
  | .partialRebuild => 6
  | .notInitialized => 7
  | .invalidCommand => 8
  | .invalidConfig => 9
  | .invalidRole => 10
  | .invalidRange => 11
  | .driveIo => 12

/-- STATUS.BUSY (10_state.md R34): a command is in flight. -/
def State.busy (s : State) : Bool := s.flight.isSome

/-- The word `STATUS` reads as (10_state.md R34): BUSY, DONE, INITIALIZED, OVERRUN, CLASS_VALID in bits 0 to 4, ERR in
[15:8], reserved bits 0. -/
def State.statusWord (s : State) : Word :=
  0#16 ++ s.err.code ++ 0#3 ++ BitVec.ofBool s.classValid ++ BitVec.ofBool s.overrun ++ BitVec.ofBool s.initialized
    ++ BitVec.ofBool s.done ++ BitVec.ofBool s.busy

/-- The interrupt output: DONE_EN AND DONE_PEND (60_exceptions.md R350). -/
def State.irq (s : State) : Bool := s.irqEn && s.donePend

/-- A held write was dropped while BUSY (10_state.md R67). -/
def State.dropWrite (s : State) : State := { s with overrun := true }

/-- The classification encoding (10_state.md R75). -/
inductive IntegrityClass where
  | ok
  | recoverable
  | dataLoss
  | notPresent
deriving DecidableEq, Repr

/-- The number of a class (10_state.md R75). -/
def IntegrityClass.code : IntegrityClass → BitVec 2
  | .ok => 0
  | .recoverable => 1
  | .dataLoss => 2
  | .notPresent => 3

/-- The role of a drive (10_state.md R64). -/
inductive Role where
  | data
  | localParity
  | globalParity
  | hotSpare
  | retired
deriving DecidableEq, Repr

/-- The role codes (10_state.md R64). -/
def Role.code : Role → BitVec 3
  | .data => 0
  | .localParity => 1
  | .globalParity => 2
  | .hotSpare => 3
  | .retired => 4

/-- The rebuild report status codes (10_state.md R53). -/
inductive ReportStatus where
  | restored
  | promoted
  | unrecoverable
  | partialRebuild
  | skippedOnline
  | noSpare
  | invalidTarget
deriving DecidableEq, Repr

/-- The number of a report status (10_state.md R53). -/
def ReportStatus.code : ReportStatus → BitVec 8
  | .restored => 1
  | .promoted => 2
  | .unrecoverable => 3
  | .partialRebuild => 4
  | .skippedOnline => 5
  | .noSpare => 6
  | .invalidTarget => 7

/-- RESTORED, PROMOTED and SKIPPED_ONLINE are successes (44_integrity_rebuild.md R319). -/
def ReportStatus.success : ReportStatus → Bool
  | .restored => true
  | .promoted => true
  | .skippedOnline => true
  | .unrecoverable => false
  | .partialRebuild => false
  | .noSpare => false
  | .invalidTarget => false

end Sys2Proof.Machine
end

