-- ==== Sys2Proof/Machine/Operands.lean ====
section
/-! DEFINITION. Every operand form of the commands: fields of the word (30_encoding.md R122), the operand registers as
latched at acceptance (10_state.md R66, 30_encoding.md R124), and the chunk buffers (10_state.md R51). -/

namespace Sys2Proof.Machine

/-- What acceptance of word `w` latches (10_state.md R66, 70_reset_and_hazards.md R382). -/
def State.latchFor (s : State) (w : Word) : Flight :=
  { word := w
    arg0 := s.arg0
    arg1 := s.arg1
    targets := s.targets
    bufs := s.bufs
    online := s.online }

/-- The latched operands of the command in flight; with none in flight, what an acceptance now would latch (log 8). -/
def State.latch (s : State) : Flight := s.flight.getD (s.latchFor s.cmd)

/-- Acceptance of a `CMD` write of word `w` (10_state.md R35): CMD <- w, BUSY <- 1, DONE <- 0, ERR <- 0, the operands
latched (R66). The traffic of the command before is cleared (log 17), and a new epoch begins (log 23). -/
def State.accept (s : State) (w : Word) : State :=
  { s with
    cmd := w, done := false, err := .none, flight := some (s.latchFor w), traffic := [], epoch := s.epoch + 1 }

/-- `ARG0` as an unsigned operand (30_encoding.md R122). -/
def State.opArg0 (s : State) : Nat := s.latch.arg0.toNat

/-- `ARG1` as an unsigned operand (30_encoding.md R122). -/
def State.opArg1 (s : State) : Nat := s.latch.arg1.toNat

/-- Source buffer operand `BUF[b]`, as at acceptance (42_encode.md R263, 10_state.md R66). -/
def State.opBuf (s : State) (b : Nat) : Chunk := s.latch.bufs[b]?.getD 0

/-- The contents of `BUF[b]` (10_state.md R51). -/
def State.bufAt (s : State) (b : Nat) : Chunk := s.bufs[b]?.getD 0

/-- Destination buffer operand: `BUF[b] <- x`. There is no buffer 4 or above (30_encoding.md R125 c; log 20). -/
def State.setBuf (s : State) (b : Nat) (x : Chunk) : State := { s with bufs := s.bufs.setIfInBounds b x }

/-- The target set of `REBUILD` as latched at acceptance, ascending (44_integrity_rebuild.md R311). -/
def State.opTargets (s : State) : List Nat := (List.range 512).filter fun p => flagAt s.latch.targets p

end Sys2Proof.Machine
end

