-- ==== Sys2Proof/Machine/Layout.lean ====
section
/-! DEFINITION. Slots, groups and roles (10_state.md R60 to R64), the coefficients (41_parity_math.md R205), and where a
drive stands (42_encode.md R260). -/

namespace Sys2Proof.Machine

/-- What the parity equations of a domain depend on: the group sizes GSIZE[0..NG-1] and the scheme (10_state.md R60). -/
structure Layout where
  sizes : List Nat
  plain : Bool
deriving DecidableEq, Repr

/-- NG. -/
def Layout.ng (L : Layout) : Nat := L.sizes.length
/-- NDATA (10_state.md R60). -/
def Layout.ndata (L : Layout) : Nat := L.sizes.sum
/-- `start(g)`: the first data slot of group g (40_topology_control.md R168). -/
def Layout.start (L : Layout) (g : Nat) : Nat := (L.sizes.take g).sum
/-- GSIZE[g]. -/
def Layout.size (L : Layout) (g : Nat) : Nat := L.sizes.getD g 0
/-- The data slots of group g, ascending (10_state.md R61). -/
def Layout.slotsOf (L : Layout) (g : Nat) : List Nat := List.range' (L.start g) (L.size g)
/-- Slot `LP(g)` (10_state.md R61). -/
def Layout.lpSlot (L : Layout) (g : Nat) : Nat := L.ndata + g
/-- Slot `GP` (10_state.md R61). -/
def Layout.gpSlot (L : Layout) : Nat := L.ndata + L.ng
/-- How many served slots a domain has: slots 0..NDATA+NG (00_scope.md R16). -/
def Layout.served (L : Layout) : Nat := L.ndata + L.ng + 1

/-- The group that holds data slot `k`, counted along the group sizes (10_state.md R61). -/
def groupIn : List Nat → Nat → Nat
  | [], _ => 0
  | n :: ns, k => if k < n then 0 else groupIn ns (k - n) + 1

/-- `group(k)` of data slot k (10_state.md R61, 42_encode.md R260). -/
def Layout.groupOf (L : Layout) (k : Nat) : Nat := groupIn L.sizes k

/-- `coef(k)` (41_parity_math.md R205). -/
def Layout.coef (L : Layout) (k : Nat) : Byte := if L.plain then 1 else gfPow Config.gfGenerator k

/-- What a slot is (10_state.md R61). -/
inductive SlotKind where
  | data (group : Nat)
  | localParity (group : Nat)
  | globalParity
  | spare
deriving DecidableEq, Repr

/-- The kind of slot s (10_state.md R61). -/
def Layout.kindOf (L : Layout) (s : Nat) : SlotKind :=
  if s < L.ndata then .data (L.groupOf s)
  else if s < L.gpSlot then .localParity (s - L.ndata)
  else if s = L.gpSlot then .globalParity
  else .spare

/-- The role of a slot (10_state.md R64). -/
def SlotKind.role : SlotKind → Role
  | .data _ => .data
  | .localParity _ => .localParity
  | .globalParity => .globalParity
  | .spare => .hotSpare

/-- The group a slot belongs to: its own for a data or local-parity slot, none for the others
(40_topology_control.md R166). -/
def SlotKind.group? : SlotKind → Option Nat
  | .data g => some g
  | .localParity g => some g
  | .globalParity => none
  | .spare => none

/-- The layout that topology parameters give. SCHEME 0 is WEIGHTED, 1 PLAIN_XOR (10_state.md R43; log 19). -/
def TopoParams.layout (t : TopoParams) : Layout := { sizes := t.sizes, plain := t.scheme != 0 }

/-- The layout of the latched topology (10_state.md R45, R60). -/
def State.layout (s : State) : Layout := s.topo.layout

/-- NDATA of the latched topology. -/
def State.ndata (s : State) : Nat := s.layout.ndata

/-- The domain of physical drive p (10_state.md R61). -/
def State.domainOf (s : State) (p : Nat) : Nat := p / s.dpd

/-- The served slot of `slot_of(p)`, if p serves one of its domain's (42_encode.md R260). -/
def State.slotOf (s : State) (p : Nat) : Option Nat :=
  (List.range s.layout.served).find? fun k => s.serveAt (s.domainOf p) k == p

/-- The kind of the slot that drive p serves, if it serves one. -/
def State.servedKind (s : State) (p : Nat) : Option SlotKind := (s.slotOf p).map s.layout.kindOf

/-- The role of physical drive p (10_state.md R64). -/
def State.roleOf (s : State) (p : Nat) : Role :=
  match s.servedKind p with
  | some kind => kind.role
  | none => if s.pstateAt p = .spareFree then .hotSpare else .retired

end Sys2Proof.Machine
end

