-- ==== Sys2Proof/Machine/Solver.lean ====
section
/-! DEFINITION. Failure sets, determinedness, classification and reconstruction (41_parity_math.md R210 to R227). `off`
is a failure set F_D as a predicate on the served slots; `d` is the chunk of each slot. -/

namespace Sys2Proof.Machine

/-! ### Failure set (41_parity_math.md R210) -/

/-- F_D from a snapshot of the online flags and a slot assignment (41_parity_math.md R210): slot k fails exactly when
its serving drive's flag is 0. -/
def failureSet (on : BitVec 512) (serve : List (List Nat)) (D : Nat) : Nat → Bool :=
  fun k => !flagAt on (serveOf serve D k)

/-- `U_g`: the data slots of group g in the failure set, ascending. -/
def Layout.lost (L : Layout) (off : Nat → Bool) (g : Nat) : List Nat := (L.slotsOf g).filter off

/-- The data slots of group g not in the failure set, ascending. -/
def Layout.kept (L : Layout) (off : Nat → Bool) (g : Nat) : List Nat := (L.slotsOf g).filter fun k => !off k

/-- `poff_g`. -/
def Layout.lpOff (L : Layout) (off : Nat → Bool) (g : Nat) : Bool := off (L.lpSlot g)

/-- `qoff`. -/
def Layout.gpOff (L : Layout) (off : Nat → Bool) : Bool := off L.gpSlot

/-- The groups other than g. -/
def Layout.otherGroups (L : Layout) (g : Nat) : List Nat := (List.range L.ng).filter fun h => h != g

/-! ### Determinedness (41_parity_math.md R212 to R214) -/

/-- `need_g` (41_parity_math.md R213). -/
def Layout.need (L : Layout) (off : Nat → Bool) (g : Nat) : Int :=
  ((L.lost off g).length : Int) - (if L.lpOff off g then 0 else 1)

/-- Whether the unknowns of group g are determined: the closed forms of 41_parity_math.md R213 (WEIGHTED) and R214
(PLAIN_XOR). DEDUCED (log 14), safe: the spec derives them from the rank criterion of R212. -/
def Layout.determined (L : Layout) (off : Nat → Bool) (g : Nat) : Bool :=
  if L.plain then
    if L.lpOff off g then
      (L.lost off g).length == 0
        || ((L.lost off g).length == 1 && !L.gpOff off
            && (L.otherGroups g).all fun h => !(L.lpOff off h && (L.lost off h).length != 0))
    else decide ((L.lost off g).length ≤ 1)
  else
    decide (L.need off g ≤ 0)
      || (decide (L.need off g = 1) && !L.gpOff off && (L.otherGroups g).all fun h => decide (L.need off h ≤ 0))

/-! ### Classification (41_parity_math.md R220 to R223) -/

/-- `gclass(D, g)` (41_parity_math.md R220). -/
def Layout.gclass (L : Layout) (off : Nat → Bool) (g : Nat) : IntegrityClass :=
  if (L.lost off g).isEmpty && !L.lpOff off g then .ok
  else if L.determined off g then .recoverable
  else .dataLoss

/-- `qclass(D)` (41_parity_math.md R221). -/
def Layout.qclass (L : Layout) (off : Nat → Bool) : IntegrityClass :=
  if !L.gpOff off then .ok
  else if (List.range L.ng).all fun g => L.gclass off g != .dataLoss then .recoverable
  else .dataLoss

/-- `sclass(D, s)` of a served slot (41_parity_math.md R223). -/
def Layout.sclass (L : Layout) (off : Nat → Bool) (s : Nat) : IntegrityClass :=
  match (L.kindOf s).group? with
  | some g => L.gclass off g
  | none => L.qclass off

/-- The rollup of a list of classes (41_parity_math.md R222). -/
def rollup (cs : List IntegrityClass) : IntegrityClass :=
  if cs.any fun c => c == .dataLoss then .dataLoss
  else if cs.any fun c => c == .recoverable then .recoverable
  else .ok

/-! ### Reconstruction (41_parity_math.md R224, R225) -/

/-- Which case of 41_parity_math.md R224 gives a data slot's value. `undetermined` stands for none of them; the engine
asks for a value only where the class is not DATA_LOSS, and there one of the cases applies (log 13). -/
inductive SolveCase where
  | known
  | caseL
  | caseW2 (i j : Nat)
  | caseW1
  | caseX1
  | undetermined
deriving DecidableEq, Repr

/-- The case of data slot k (41_parity_math.md R224). -/
def Layout.solveCase (L : Layout) (off : Nat → Bool) (k : Nat) : SolveCase :=
  if !off k then .known
  else
    match L.lost off (L.groupOf k) with
    | [_] =>
      if !L.lpOff off (L.groupOf k) then .caseL
      else if L.plain then .caseX1
      else .caseW1
    | [i, j] => if !L.plain && !L.lpOff off (L.groupOf k) then .caseW2 i j else .undetermined
    | _ => .undetermined

/-- Case L: `P_g` ⊕ the other data chunks of the group (41_parity_math.md R224). -/
def Layout.valueL (L : Layout) (d : Nat → Chunk) (k : Nat) : Chunk :=
  d (L.lpSlot (L.groupOf k)) ^^^ xorOver ((L.slotsOf (L.groupOf k)).filter fun j => j != k) d

/-- The value of a data slot that is online or of case L: what Q' of W2 and W1 takes for the slots outside U_g
(41_parity_math.md R224). -/
def Layout.valueKnownOrL (L : Layout) (off : Nat → Bool) (d : Nat → Chunk) (m : Nat) : Chunk :=
  if off m then L.valueL d m else d m

/-- P' of group g (41_parity_math.md R224, W2): its local parity ⊕ its kept data chunks. -/
def Layout.pRest (L : Layout) (off : Nat → Bool) (d : Nat → Chunk) (g : Nat) : Chunk :=
  d (L.lpSlot g) ^^^ xorOver (L.kept off g) d

/-- Q' for the unknowns `unknowns` of one group (41_parity_math.md R224, W2 and W1). -/
def Layout.qRest (L : Layout) (off : Nat → Bool) (d : Nat → Chunk) (unknowns : List Nat) : Chunk :=
  d L.gpSlot ^^^ xorOver ((List.range L.ndata).filter fun m => !unknowns.contains m)
    (fun m => scale (L.coef m) (L.valueKnownOrL off d m))

/-- The other groups with a lost data slot: `h ≠ g, U_h ≠ ∅`. -/
def Layout.otherLossy (L : Layout) (off : Nat → Bool) (g : Nat) : List Nat :=
  (L.otherGroups g).filter fun h => !(L.lost off h).isEmpty

/-- The data slots not in the failure set, ascending. -/
def Layout.keptData (L : Layout) (off : Nat → Bool) : List Nat := (List.range L.ndata).filter fun m => !off m

/-- `val(D, F, k, c)` of data slot k (41_parity_math.md R224). The chunk of `undetermined` is never used (log 13). -/
def Layout.value (L : Layout) (off : Nat → Bool) (d : Nat → Chunk) (k : Nat) : Chunk :=
  match L.solveCase off k with
  | .known => d k
  | .caseL => L.valueL d k
  | .caseW2 i j =>
    let p := L.pRest off d (L.groupOf k)
    let vi := unscale (L.qRest off d [i, j] ^^^ scale (L.coef j) p) (L.coef i ^^^ L.coef j)
    if k = i then vi else p ^^^ vi
  | .caseW1 => unscale (L.qRest off d [k]) (L.coef k)
  | .caseX1 =>
    d L.gpSlot ^^^ xorOver (L.keptData off) d ^^^ xorOver (L.otherLossy off (L.groupOf k)) (L.pRest off d)
  | .undetermined => 0

/-- Local parity of group g from data chunks (41_parity_math.md R207). -/
def Layout.localParity (L : Layout) (d : Nat → Chunk) (g : Nat) : Chunk := xorOver (L.slotsOf g) d

/-- Global parity from data chunks (41_parity_math.md R207). -/
def Layout.globalParity (L : Layout) (d : Nat → Chunk) : Chunk :=
  xorOver (List.range L.ndata) fun k => scale (L.coef k) (d k)

/-- `tval(D, F, s, c)` of served slot s (41_parity_math.md R225). -/
def Layout.content (L : Layout) (off : Nat → Bool) (d : Nat → Chunk) (s : Nat) : Chunk :=
  match L.kindOf s with
  | .data _ => L.value off d s
  | .localParity g => if off s then L.localParity (L.value off d) g else d s
  | .globalParity => if off s then L.globalParity (L.value off d) else d s
  | .spare => d s

/-! ### Source sets (41_parity_math.md R226) -/

/-- `src` of a lost data slot, as a list without order (41_parity_math.md R226). -/
def Layout.dataSources (L : Layout) (off : Nat → Bool) (k : Nat) : List Nat :=
  let g := L.groupOf k
  match L.solveCase off k with
  | .known => []
  | .caseL => L.lpSlot g :: L.kept off g
  | .caseW2 _ _ =>
    L.keptData off ++ (L.gpSlot :: (if L.lpOff off g then [] else [L.lpSlot g]) ++ (L.otherLossy off g).map L.lpSlot)
  | .caseW1 =>
    L.keptData off ++ (L.gpSlot :: (if L.lpOff off g then [] else [L.lpSlot g]) ++ (L.otherLossy off g).map L.lpSlot)
  | .caseX1 => L.keptData off ++ (L.gpSlot :: (L.otherLossy off g).map L.lpSlot)
  | .undetermined => []

/-- The members of `src(D, F, s)`, without order (41_parity_math.md R226). -/
def Layout.sourceMembers (L : Layout) (off : Nat → Bool) (s : Nat) : List Nat :=
  match L.kindOf s with
  | .data _ => L.dataSources off s
  | .localParity g => L.kept off g ++ (L.lost off g).flatMap (L.dataSources off)
  | .globalParity =>
    L.keptData off ++ ((List.range L.ndata).filter off).flatMap (L.dataSources off)
  | .spare => []

/-- `src(D, F, s)` in ascending slot order (41_parity_math.md R226, R227). -/
def Layout.sources (L : Layout) (off : Nat → Bool) (s : Nat) : List Nat :=
  (List.range L.served).filter fun t => (L.sourceMembers off s).contains t

end Sys2Proof.Machine
end

