-- ==== Sys2Proof/Machine/AccessCommands.lean ====
section
/-! DEFINITION. READ_CHUNK, PEEK and DECODE_CHUNK (43_access_decode.md R280 to R285). -/

namespace Sys2Proof.Machine

/-- READ_CHUNK (43_access_decode.md R281). -/
def execReadChunk (drive : BitVec 16) (buf : BitVec 3) (s : State) : Host.Outcome State Fault Refusal :=
  if !s.initialized then finishWith .notInitialized s
  else if s.total ≤ drive.toNat then finishWith .invalidDrive s
  else if s.chunks ≤ s.opArg0 then finishWith .invalidRange s
  else if !flagAt s.online drive.toNat then finishWith .driveOffline s
  else (rdchunk drive.toNat s.opArg0 s).orDriveIo fun x s1 => finishWith .none (s1.setBuf buf.toNat x)

/-- The legal byte ranges of PEEK (43_access_decode.md R282), on exact naturals. -/
def State.peekInRange (s : State) (off n : Nat) : Bool :=
  decide (1 ≤ n) && decide (n ≤ 4) && decide (off + n ≤ s.chunks * Config.CHUNK)

/-- PEEK (43_access_decode.md R283). -/
def execPeek (drive : BitVec 16) (s : State) : Host.Outcome State Fault Refusal :=
  if !s.initialized then finishWith .notInitialized s
  else if s.total ≤ drive.toNat then finishWith .invalidDrive s
  else if !s.peekInRange s.opArg0 s.opArg1 then finishWith .invalidRange s
  else if !flagAt s.online drive.toNat then finishWith .driveOffline s
  else
    (driveRead drive.toNat s.opArg0 s.opArg1
        (fun m => m.readBytes (driveKey drive.toNat s.opArg0) s.opArg1) s).orDriveIo
      fun v s1 => finishWith .none { s1 with peekData := BitVec.ofNat 32 v }

/-- DECODE_CHUNK (43_access_decode.md R284). The failure set is that of the snapshot taken at acceptance. -/
def execDecodeChunk (drive : BitVec 16) (buf : BitVec 3) (s : State) : Host.Outcome State Fault Refusal :=
  if !s.initialized then finishWith .notInitialized s
  else if s.total ≤ drive.toNat then finishWith .invalidDrive s
  else if s.chunks ≤ s.opArg0 then finishWith .invalidRange s
  else
    match s.slotOf drive.toNat with
    | none => finishWith .invalidRole s
    | some k =>
      if flagAt s.online drive.toNat then
        (rdchunk drive.toNat s.opArg0 s).orDriveIo fun x s1 => finishWith .none (s1.setBuf buf.toNat x)
      else
        let D := s.domainOf drive.toNat
        let off := failureSet s.latch.online s.serve D
        if s.layout.sclass off k = .dataLoss then finishWith .unrecoverableData s
        else
          (readSlots D s.opArg0 (s.layout.sources off k) s).orDriveIo fun known s1 =>
            finishWith .none (s1.setBuf buf.toNat (s.layout.content off (chunkOfSlot known) k))

end Sys2Proof.Machine
end

