-- ==== Sys2Proof/Machine/ControlCommands.lean ====
section
/-! DEFINITION. NOP, INIT, RESET, SET_ONLINE_DRIVE and SET_ONLINE_DOMAIN (40_topology_control.md R150 to R158). -/

namespace Sys2Proof.Machine

/-- `cfg_ok()`: conditions V1 to V8 (40_topology_control.md R151), on exact naturals. -/
def TopoParams.valid (t : TopoParams) : Bool :=
  (decide (1 ≤ t.ngroups.toNat) && decide (t.ngroups.toNat ≤ Config.MAX_GPD))
    && (t.sizes.all fun n => decide (1 ≤ n))
    && decide (t.sizes.sum + t.ngroups.toNat + 1 + t.spares.toNat = t.dpd.toNat)
    && decide (t.dpd.toNat ≤ Config.MAX_DPD)
    && (decide (1 ≤ t.total.toNat) && decide (t.total.toNat ≤ Config.MAX_DRIVES)
        && decide (t.total.toNat % t.dpd.toNat = 0))
    && (decide (t.total.toNat / t.dpd.toNat ≤ Config.MAX_DOMAINS)
        && decide (t.total.toNat / t.dpd.toNat * t.ngroups.toNat ≤ Config.MAX_GROUPS))
    && (decide (1 ≤ t.chunks.toNat) && decide (t.chunks.toNat ≤ Config.MAX_CHUNKS))
    && decide (t.scheme.toNat ≤ 1)

/-- Group size register `i` as INIT latches it: 0 for i ≥ NG (10_state.md R45, 40_topology_control.md R152). -/
def TopoParams.latchedSize (t : TopoParams) (i : Nat) : Word :=
  if i < t.ngroups.toNat then t.gsize[i]?.getD 0 else 0

/-- What INIT latches from the configuration registers (10_state.md R45, 40_topology_control.md R152). -/
def TopoParams.latched (t : TopoParams) : TopoParams :=
  { t with
    gsize := #v[t.latchedSize 0, t.latchedSize 1, t.latchedSize 2, t.latchedSize 3, t.latchedSize 4, t.latchedSize 5,
      t.latchedSize 6, t.latchedSize 7] }

/-- The derived topology registers (40_topology_control.md R153). -/
def TopoParams.derive (t : TopoParams) : TopoDerived :=
  let ndom := t.total.toNat / t.dpd.toNat
  let ndata := t.sizes.sum
  { ndom := BitVec.ofNat 32 ndom
    ndata := BitVec.ofNat 32 ndata
    totalData := BitVec.ofNat 32 (ndom * ndata)
    totalLp := BitVec.ofNat 32 (ndom * t.ngroups.toNat)
    totalGp := BitVec.ofNat 32 ndom
    totalSpare := BitVec.ofNat 32 (ndom * t.spares.toNat)
    datacap := BitVec.ofNat 64 (ndom * ndata * t.chunks.toNat * Config.CHUNK) }

/-- The identity assignment: `serve[D][s]` = D·DPD + s for every served slot (10_state.md R62). -/
def TopoParams.identityServe (t : TopoParams) : List (List Nat) :=
  (List.range (t.total.toNat / t.dpd.toNat)).map fun D =>
    (List.range t.layout.served).map fun k => D * t.dpd.toNat + k

/-- The drive states at INIT: NATIVE in served slots, SPARE_FREE in spare slots (10_state.md R63). -/
def TopoParams.initialPState (t : TopoParams) : List PState :=
  (List.range t.total.toNat).map fun p =>
    if p % t.dpd.toNat < t.layout.served then .native else .spareFree

/-- CLASS_* back to NOT_PRESENT (40_topology_control.md R152, R154). -/
def State.clearClasses (s : State) : State :=
  { s with classGrp := BitVec.allOnes 128, classDom := BitVec.allOnes 64, classRollup := 3 }

/-- The state changes of a successful INIT (40_topology_control.md R152). -/
def State.buildTopology (s : State) : State :=
  { s.clearClasses with
    topo := s.cfg.latched
    derived := s.cfg.derive
    online := setFlags 0 0 s.cfg.total.toNat true
    serve := s.cfg.identityServe
    pstate := s.cfg.initialPState
    classValid := false
    reportCount := 0
    initialized := true }

/-- The state changes of RESET while initialised (40_topology_control.md R154). -/
def State.dropTopology (s : State) : State :=
  { s.clearClasses with
    topo := TopoParams.zero
    derived := TopoDerived.zero
    online := 0
    serve := []
    pstate := []
    reportCount := 0
    initialized := false }

/-- NOP (40_topology_control.md R155). -/
def execNop (s : State) : Host.Outcome State Fault Refusal := finishWith .none s

/-- INIT (40_topology_control.md R152). CFG_* writes are held while BUSY, so the registers are as at acceptance (R67). -/
def execInit (s : State) : Host.Outcome State Fault Refusal :=
  if s.initialized then finishWith .alreadyInitialized s
  else if !s.cfg.valid then finishWith .invalidConfig s
  else finishWith .none s.buildTopology

/-- RESET (40_topology_control.md R154). -/
def execReset (s : State) : Host.Outcome State Fault Refusal :=
  finishWith .none { (if s.initialized then s.dropTopology else s) with classValid := false }

/-- SET_ONLINE_DRIVE (40_topology_control.md R156). -/
def execSetOnlineDrive (drive : BitVec 16) (value : Bool) (s : State) : Host.Outcome State Fault Refusal :=
  if !s.initialized then finishWith .notInitialized s
  else if s.total ≤ drive.toNat then finishWith .invalidDrive s
  else finishWith .none { s with online := setFlag s.online drive.toNat value, classValid := false }

/-- SET_ONLINE_DOMAIN (40_topology_control.md R157). -/
def execSetOnlineDomain (domain : BitVec 16) (value : Bool) (s : State) : Host.Outcome State Fault Refusal :=
  if !s.initialized then finishWith .notInitialized s
  else if s.ndom ≤ domain.toNat then finishWith .invalidRange s
  else
    finishWith .none
      { s with online := setFlags s.online (domain.toNat * s.dpd) s.dpd value, classValid := false }

end Sys2Proof.Machine
end

