-- ==== Sys2Proof/Machine/EncodeCommands.lean ====
section
/-! DEFINITION. WRITE_CHUNK, ENCODE_STRIPE and RECOMBINE (42_encode.md R260 to R263). -/

namespace Sys2Proof.Machine

/-- Whether the serving drive of slot k of domain D is online. -/
def State.slotOnline (s : State) (D k : Nat) : Bool := flagAt s.online (s.serveAt D k)

/-- The slots WRITE_CHUNK needs online: every data slot, LP(g) and GP (42_encode.md R261). -/
def Layout.writeNeeds (L : Layout) (g : Nat) : List Nat := List.range L.ndata ++ [L.lpSlot g, L.gpSlot]

/-- What WRITE_CHUNK writes, in order: the data chunk, LP(g) and GP, with slot k's chunk replaced by `x`
(42_encode.md R261). -/
def Layout.stripeUpdate (L : Layout) (k : Nat) (x : Chunk) (d : Nat → Chunk) : SlotChunks :=
  let d' := fun j => if j = k then x else d j
  [(k, x), (L.lpSlot (L.groupOf k), L.localParity d' (L.groupOf k)), (L.gpSlot, L.globalParity d')]

/-- What ENCODE_STRIPE writes, in order: LP(0) to LP(NG-1), then GP (42_encode.md R262). -/
def Layout.stripeParities (L : Layout) (d : Nat → Chunk) : SlotChunks :=
  (List.range L.ng).map (fun g => (L.lpSlot g, L.localParity d g)) ++ [(L.gpSlot, L.globalParity d)]

/-- WRITE_CHUNK (42_encode.md R261). Every read precedes every write. -/
def execWriteChunk (drive : BitVec 16) (buf : BitVec 3) (s : State) : Host.Outcome State Fault Refusal :=
  if !s.initialized then finishWith .notInitialized s
  else if s.total ≤ drive.toNat then finishWith .invalidDrive s
  else if s.chunks ≤ s.opArg0 then finishWith .insufficientCapacity s
  else
    match s.slotOf drive.toNat with
    | none => finishWith .invalidRole s
    | some k =>
      if s.ndata ≤ k then finishWith .invalidRole s
      else if !(s.layout.writeNeeds (s.layout.groupOf k)).all (s.slotOnline (s.domainOf drive.toNat)) then
        finishWith .driveOffline s
      else
        (readSlots (s.domainOf drive.toNat) s.opArg0 ((List.range s.ndata).filter fun j => j != k) s).orDriveIo
          fun known s1 =>
            (writeSlots (s.domainOf drive.toNat) s.opArg0
              (s.layout.stripeUpdate k (s.opBuf buf.toNat) (chunkOfSlot known)) s1).orDriveIo
              fun _ s2 => finishWith .none s2

/-- ENCODE_STRIPE (42_encode.md R262). -/
def execEncodeStripe (domain : BitVec 16) (s : State) : Host.Outcome State Fault Refusal :=
  if !s.initialized then finishWith .notInitialized s
  else if s.ndom ≤ domain.toNat ∨ s.chunks ≤ s.opArg0 then finishWith .invalidRange s
  else if !(List.range s.layout.served).all (s.slotOnline domain.toNat) then finishWith .driveOffline s
  else
    (readSlots domain.toNat s.opArg0 (List.range s.ndata) s).orDriveIo fun known s1 =>
      (writeSlots domain.toNat s.opArg0 (s.layout.stripeParities (chunkOfSlot known)) s1).orDriveIo
        fun _ s2 => finishWith .none s2

/-- The buffers a RECOMBINE mask selects (42_encode.md R263). -/
def maskedBuffers (mask : Word) : List Nat := (List.range Config.NBUF).filter mask.getLsbD

/-- RECOMBINE (42_encode.md R263). It needs no topology. -/
def execRecombine (buf : BitVec 3) (s : State) : Host.Outcome State Fault Refusal :=
  if s.latch.arg1.extractLsb' 4 28 ≠ 0 then finishWith .invalidRange s
  else finishWith .none (s.setBuf buf.toNat (xorOver (maskedBuffers s.latch.arg1) s.opBuf))

end Sys2Proof.Machine
end

