-- ==== Sys2Proof/Machine/IntegrityCommands.lean ====
section
/-! DEFINITION. CLASSIFY and REBUILD (44_integrity_rebuild.md R300 to R320). -/

namespace Sys2Proof.Machine

/-! ### CLASSIFY (44_integrity_rebuild.md R301) -/

/-- The class CLASSIFY writes for global group G (44_integrity_rebuild.md R301). -/
def State.groupClass (s : State) (on : BitVec 512) (G : Nat) : IntegrityClass :=
  if G < s.ndom * s.ng then s.layout.gclass (failureSet on s.serve (G / s.ng)) (G % s.ng) else .notPresent

/-- The class CLASSIFY writes for domain D (44_integrity_rebuild.md R301). -/
def State.domainClass (s : State) (on : BitVec 512) (D : Nat) : IntegrityClass :=
  if D < s.ndom then s.layout.qclass (failureSet on s.serve D) else .notPresent

/-- The rollup over all domains (41_parity_math.md R222). -/
def State.rollupClass (s : State) (on : BitVec 512) : IntegrityClass :=
  rollup ((List.range s.ndom).flatMap fun D =>
    s.layout.qclass (failureSet on s.serve D)
      :: (List.range s.ng).map fun g => s.layout.gclass (failureSet on s.serve D) g)

/-- CLASSIFY (44_integrity_rebuild.md R301), on the flags as at acceptance. -/
def execClassify (s : State) : Host.Outcome State Fault Refusal :=
  if !s.initialized then finishWith .notInitialized s
  else
    finishWith .none
      { s with
        classGrp := BitVec.ofNat 128 (packFields (fun G => (s.groupClass s.latch.online G).code) Config.MAX_GROUPS)
        classDom := BitVec.ofNat 64 (packFields (fun D => (s.domainClass s.latch.online D).code) Config.MAX_DOMAINS)
        classRollup := (s.rollupClass s.latch.online).code
        classValid := true }

/-! ### REBUILD: target order (44_integrity_rebuild.md R312) -/

/-- The order key of a target (44_integrity_rebuild.md R312). -/
structure TargetKey where
  domain : Nat
  group : Nat
  kind : Nat
  slot : Nat
deriving DecidableEq, Repr

/-- Lexicographic order of the keys (44_integrity_rebuild.md R312). -/
def TargetKey.before (a b : TargetKey) : Bool :=
  decide (a.domain < b.domain)
    || (a.domain == b.domain
        && (decide (a.group < b.group)
            || (a.group == b.group
                && (decide (a.kind < b.kind) || (a.kind == b.kind && decide (a.slot < b.slot))))))

/-- The key of target p (44_integrity_rebuild.md R312). -/
def State.targetKey (s : State) (p : Nat) : TargetKey :=
  match s.slotOf p with
  | none => { domain := s.domainOf p, group := s.ng + 1, kind := 0, slot := p % s.dpd }
  | some k =>
    match s.layout.kindOf k with
    | .data g => { domain := s.domainOf p, group := g, kind := 0, slot := k }
    | .localParity g => { domain := s.domainOf p, group := g, kind := 1, slot := k }
    | .globalParity => { domain := s.domainOf p, group := s.ng, kind := 0, slot := k }
    | .spare => { domain := s.domainOf p, group := s.ng + 1, kind := 0, slot := k }

/-- A target put into its place in a list that is in key order. -/
def State.insertTarget (s : State) (p : Nat) : List Nat → List Nat
  | [] => [p]
  | q :: qs => if (s.targetKey p).before (s.targetKey q) then p :: q :: qs else q :: s.insertTarget p qs

/-- The targets in key order (44_integrity_rebuild.md R312). -/
def State.orderTargets (s : State) (targets : List Nat) : List Nat := targets.foldr s.insertTarget []

/-! ### REBUILD: one target (44_integrity_rebuild.md R313 to R318) -/

/-- What a report entry records (44_integrity_rebuild.md R318); `none` is written as all ones. -/
structure ReportEntry where
  target : Nat
  status : ReportStatus
  count : Nat
  first : Option Nat
  dest : Option Nat
  sources : BitVec 64
deriving DecidableEq, Repr

/-- The 8 words of an entry, word 0 lowest (10_state.md R52, 44_integrity_rebuild.md R318). -/
def ReportEntry.words (e : ReportEntry) : BitVec 256 :=
  0#64 ++ e.sources
    ++ 0#16 ++ (match e.dest with | some q => BitVec.ofNat 16 q | none => 0xFFFF#16)
    ++ (match e.first with | some c => BitVec.ofNat 32 c | none => 0xFFFFFFFF#32)
    ++ BitVec.ofNat 32 e.count
    ++ 0#8 ++ e.status.code ++ BitVec.ofNat 16 e.target

/-- The window offset of report entry n (10_state.md R52). -/
def reportAddr (n : Nat) : Nat := 0x8000 + 32 * n

/-- Report entry n becomes `e` (44_integrity_rebuild.md R318). -/
def State.writeReport (s : State) (n : Nat) (e : ReportEntry) : State :=
  { s with report := s.report.writeBlock 5 (reportAddr n) e.words.toNat }

/-- An entry of a target for which nothing was attempted (44_integrity_rebuild.md R313). -/
def ReportEntry.unattempted (p : Nat) (status : ReportStatus) (first : Option Nat) : ReportEntry :=
  { target := p, status := status, count := 0, first := first, dest := none, sources := 0 }

/-- The source bitmap of domain D (44_integrity_rebuild.md R318): bit i is set exactly when drive D·DPD + i serves a slot
of `src`. -/
def State.sourceBitmap (s : State) (D : Nat) (src : List Nat) : BitVec 64 :=
  BitVec.ofNat 64 (packBits (fun i => src.any fun m => s.serveAt D m == D * s.dpd + i) 64)

/-- The spare a promotion takes: the lowest-numbered free, online spare of domain D (44_integrity_rebuild.md R314). -/
def State.freeSpare (s : State) (D : Nat) : Option Nat :=
  (List.range' (D * s.dpd) s.dpd).find? fun q => s.pstateAt q == .spareFree && flagAt s.online q

/-- How a target's chunks came out (44_integrity_rebuild.md R315). -/
inductive RebuildRun where
  | finished (s : State)
  | stoppedAt (c : Nat) (s : State)
  | absent

/-- Reconstruct chunks c to c+n-1 of slot k of domain D onto drive `dest` (44_integrity_rebuild.md R315). A chunk's source
reads end at the first `err`: DESIGN CHOICE (log 26). -/
def rebuildChunks (off : Nat → Bool) (D k dest : Nat) : Nat → Nat → State → RebuildRun
  | 0, _, s => .finished s
  | n + 1, c, s =>
    match readSlots D c (s.layout.sources off k) s with
    | .absent => .absent
    | .err s1 => .stoppedAt c s1
    | .ok known s1 =>
      match wrchunk dest c (s.layout.content off (chunkOfSlot known) k) s1 with
      | .absent => .absent
      | .err s2 => .stoppedAt c s2
      | .ok _ s2 => rebuildChunks off D k dest n (c + 1) s2

/-- The commit of a rebuilt target: RESTORE_IN_PLACE sets its flag (44_integrity_rebuild.md R316), PROMOTE_SPARE
reassigns slot k to the spare q (R317). -/
def State.commitRebuild (s : State) (strategy : Strategy) (p D k q : Nat) : State :=
  match strategy with
  | .restoreInPlace => { s with online := setFlag s.online p true }
  | .promoteSpare => ((s.setServe D k q).setPState q .promoted).setPState p .retired

/-- Where the chunks of target p go: p itself, or the chosen spare (44_integrity_rebuild.md R313 cases 4 and 5). -/
def State.rebuildDest (s : State) (strategy : Strategy) (p D : Nat) : Option Nat :=
  match strategy with
  | .restoreInPlace => some p
  | .promoteSpare => s.freeSpare D

/-- The status of a target whose chunks were all written (44_integrity_rebuild.md R316, R317). -/
def successStatus : Strategy → ReportStatus
  | .restoreInPlace => .restored
  | .promoteSpare => .promoted

/-- `rebuild_one(p)` (44_integrity_rebuild.md R313): its entry and the state after it; none where an access would leave
the drive space. `on` is the snapshot, `F` the failure sets at acceptance. `slot_of(p)` is read when the target is
processed: DEDUCED, unsafe (log 11). -/
def rebuildOne (strategy : Strategy) (on : BitVec 512) (F : Nat → Nat → Bool) (p : Nat) (s : State) :
    Option (ReportEntry × State) :=
  match s.slotOf p with
  | none => some (.unattempted p .invalidTarget none, s)
  | some k =>
    let D := s.domainOf p
    if flagAt on p then some (.unattempted p .skippedOnline none, s)
    else if s.layout.sclass (F D) k = .dataLoss then some (.unattempted p .unrecoverable (some 0), s)
    else
      match s.rebuildDest strategy p D with
      | none => some (.unattempted p .noSpare none, s)
      | some q =>
        let sources := s.sourceBitmap D (s.layout.sources (F D) k)
        match rebuildChunks (F D) D k q s.chunks 0 s with
        | .absent => none
        | .stoppedAt c s1 =>
          some ({ target := p, status := .partialRebuild, count := c, first := some c, dest := some q,
                  sources := sources }, s1)
        | .finished s1 =>
          some ({ target := p, status := successStatus strategy, count := s.chunks, first := none, dest := some q,
                  sources := sources }, s1.commitRebuild strategy p D k q)

/-! ### REBUILD (44_integrity_rebuild.md R311, R319) -/

/-- The targets in order, entry n upwards: their statuses and the state after them (44_integrity_rebuild.md R311). -/
def rebuildTargets (strategy : Strategy) (on : BitVec 512) (F : Nat → Nat → Bool) :
    List Nat → Nat → State → Option (List ReportStatus × State)
  | [], _, s => some ([], s)
  | p :: ps, n, s =>
    match rebuildOne strategy on F p s with
    | none => none
    | some (e, s1) =>
      match rebuildTargets strategy on F ps (n + 1) (s1.writeReport n e) with
      | none => none
      | some (es, s2) => some (e.status :: es, s2)

/-- The aggregate error (44_integrity_rebuild.md R319). -/
def aggregateError (es : List ReportStatus) : ErrCode :=
  if es.all ReportStatus.success then .none
  else if !es.any ReportStatus.success && es.any (fun e => e == .unrecoverable) then .unrecoverableData
  else .partialRebuild

/-- REBUILD (44_integrity_rebuild.md R311). The failure sets are those of the snapshot and of `serve` at acceptance
(log 12). -/
def execRebuild (strategy : Strategy) (s : State) : Host.Outcome State Fault Refusal :=
  if !s.initialized then finishWith .notInitialized s
  else if s.opTargets.any fun p => decide (s.total ≤ p) then finishWith .invalidDrive s
  else
    match rebuildTargets strategy s.latch.online (failureSet s.latch.online s.serve) (s.orderTargets s.opTargets) 0
        { s with classValid := false, reportCount := BitVec.ofNat 32 s.opTargets.length } with
    | none => .fault .noSuchDriveByte
    | some (es, s1) => finishWith (aggregateError es) s1

end Sys2Proof.Machine
end

