-- ==== Sys2Proof/Machine/QueryCommands.lean ====
section
/-! DEFINITION. QUERY_DRIVE, QUERY_GROUP and QUERY_SLOT (40_topology_control.md R165 to R171). -/

namespace Sys2Proof.Machine

/-- `QRES0` of `drive_record(p)` (40_topology_control.md R166): role [2:0], online [3], promoted [4], domain [15:8],
slot [23:16], group [31:24]. -/
def State.driveRecord0 (s : State) (p : Nat) : Word :=
  BitVec.ofNat 8 (((s.servedKind p).bind SlotKind.group?).getD 0xFF)
    ++ BitVec.ofNat 8 ((s.slotOf p).getD (p % s.dpd))
    ++ BitVec.ofNat 8 (s.domainOf p)
    ++ 0#3 ++ BitVec.ofBool (s.pstateAt p == .promoted) ++ BitVec.ofBool (flagAt s.online p) ++ (s.roleOf p).code

/-- `QRES1` of `drive_record(p)` (40_topology_control.md R166): the global group id [15:0], 0xFFFF for none. -/
def State.driveRecord1 (s : State) (p : Nat) : Word :=
  0#16 ++ BitVec.ofNat 16
    (match (s.servedKind p).bind SlotKind.group? with
      | some g => s.domainOf p * s.ng + g
      | none => 0xFFFF)

/-- `QRES0` of `group_record(G)` (40_topology_control.md R168): domain, group, start, size. -/
def State.groupRecord0 (s : State) (G : Nat) : Word :=
  BitVec.ofNat 8 (s.layout.size (G % s.ng)) ++ BitVec.ofNat 8 (s.layout.start (G % s.ng))
    ++ BitVec.ofNat 8 (G % s.ng) ++ BitVec.ofNat 8 (G / s.ng)

/-- `QRES1` of `group_record(G)` (40_topology_control.md R168): the LP slot and the GP slot. -/
def State.groupRecord1 (s : State) (G : Nat) : Word :=
  0#16 ++ BitVec.ofNat 8 s.layout.gpSlot ++ BitVec.ofNat 8 (s.layout.lpSlot (G % s.ng))

/-- `QRES0` of `slot_record(D, k)` (40_topology_control.md R170): serving drive [15:0], role [18:16], online [19]. -/
def State.slotRecord0 (s : State) (D k : Nat) : Word :=
  0#12 ++ BitVec.ofBool (flagAt s.online (s.serveAt D k)) ++ (s.layout.kindOf k).role.code
    ++ BitVec.ofNat 16 (s.serveAt D k)

/-- `QRES1` of `slot_record(D, k)` (40_topology_control.md R170): the group [7:0], 0xFF for GP. -/
def State.slotRecord1 (s : State) (k : Nat) : Word :=
  0#24 ++ BitVec.ofNat 8 ((s.layout.kindOf k).group?.getD 0xFF)

/-- QUERY_DRIVE (40_topology_control.md R165). -/
def execQueryDrive (drive : BitVec 16) (s : State) : Host.Outcome State Fault Refusal :=
  if !s.initialized then finishWith .notInitialized s
  else if s.total ≤ drive.toNat then finishWith .invalidDrive s
  else finishWith .none { s with qres0 := s.driveRecord0 drive.toNat, qres1 := s.driveRecord1 drive.toNat }

/-- QUERY_GROUP (40_topology_control.md R167). -/
def execQueryGroup (group : BitVec 16) (s : State) : Host.Outcome State Fault Refusal :=
  if !s.initialized then finishWith .notInitialized s
  else if s.ndom * s.ng ≤ group.toNat then finishWith .invalidRange s
  else finishWith .none { s with qres0 := s.groupRecord0 group.toNat, qres1 := s.groupRecord1 group.toNat }

/-- QUERY_SLOT (40_topology_control.md R169). -/
def execQuerySlot (domain : BitVec 16) (s : State) : Host.Outcome State Fault Refusal :=
  if !s.initialized then finishWith .notInitialized s
  else if s.ndom ≤ domain.toNat ∨ s.layout.gpSlot < s.opArg0 then finishWith .invalidRange s
  else
    finishWith .none { s with qres0 := s.slotRecord0 domain.toNat s.opArg0, qres1 := s.slotRecord1 s.opArg0 }

end Sys2Proof.Machine
end

