-- ==== Sys2Proof/Machine/Dispatch.lean ====
section
/-! DEFINITION. exec: the engine runs one decoded command to its completion (30_encoding.md R120), one arm per command. -/

namespace Sys2Proof.Machine

def exec (i : Instr) (s : State) : Host.Outcome State Fault Refusal :=
  match i with
  | .nop => Sys2Proof.Machine.execNop s
  | .init => Sys2Proof.Machine.execInit s
  | .reset => Sys2Proof.Machine.execReset s
  | .setOnlineDrive drive value => Sys2Proof.Machine.execSetOnlineDrive drive value s
  | .setOnlineDomain domain value => Sys2Proof.Machine.execSetOnlineDomain domain value s
  | .writeChunk drive buf => Sys2Proof.Machine.execWriteChunk drive buf s
  | .encodeStripe domain => Sys2Proof.Machine.execEncodeStripe domain s
  | .recombine buf => Sys2Proof.Machine.execRecombine buf s
  | .readChunk drive buf => Sys2Proof.Machine.execReadChunk drive buf s
  | .peek drive => Sys2Proof.Machine.execPeek drive s
  | .decodeChunk drive buf => Sys2Proof.Machine.execDecodeChunk drive buf s
  | .classify => Sys2Proof.Machine.execClassify s
  | .rebuild strategy => Sys2Proof.Machine.execRebuild strategy s
  | .queryDrive drive => Sys2Proof.Machine.execQueryDrive drive s
  | .queryGroup group => Sys2Proof.Machine.execQueryGroup group s
  | .querySlot domain => Sys2Proof.Machine.execQuerySlot domain s

end Sys2Proof.Machine
end

