-- ==== Sys2Proof/Machine/Window.lean ====
section
/-! DEFINITION. The register window: the register map, and what a host read and a host write of each register does
(10_state.md R32 to R53, R67, R68; 20_memory.md R90 to R94). -/

namespace Sys2Proof.Machine

/-- The registers of the window (10_state.md R32). -/
inductive Reg where
  | id
  | version
  | status
  | cmd
  | arg0
  | arg1
  | irqEn
  | irqStatus
  | ctrl
  | peekData
  | qres0
  | qres1
  | reportCount
  | cfgTotal
  | cfgDpd
  | cfgSpares
  | cfgNgroups
  | cfgChunks
  | cfgScheme
  | cfgGsize (i : Nat)
  | topoNdom
  | topoNdata
  | topoTotalData
  | topoTotalLp
  | topoTotalGp
  | topoTotalSpare
  | topoDatacapLo
  | topoDatacapHi
  | topoTotal
  | topoDpd
  | topoSpares
  | topoNgroups
  | topoChunks
  | topoScheme
  | topoGsize (i : Nat)
  | online (w : Nat)
  | target (w : Nat)
  | classGrp (w : Nat)
  | classDom (w : Nat)
  | classRollup
  | bufWord (b i : Nat)
  | reportWord (e j : Nat)
deriving DecidableEq, Repr

/-- The registers with an offset of their own (10_state.md R32). -/
def singleRegAt : Nat → Option Reg
  | 0x0000 => some .id
  | 0x0004 => some .version
  | 0x0008 => some .status
  | 0x000C => some .cmd
  | 0x0010 => some .arg0
  | 0x0014 => some .arg1
  | 0x0018 => some .irqEn
  | 0x001C => some .irqStatus
  | 0x0020 => some .ctrl
  | 0x0024 => some .peekData
  | 0x0028 => some .qres0
  | 0x002C => some .qres1
  | 0x0030 => some .reportCount
  | 0x0040 => some .cfgTotal
  | 0x0044 => some .cfgDpd
  | 0x0048 => some .cfgSpares
  | 0x004C => some .cfgNgroups
  | 0x0050 => some .cfgChunks
  | 0x0054 => some .cfgScheme
  | 0x0080 => some .topoNdom
  | 0x0084 => some .topoNdata
  | 0x0088 => some .topoTotalData
  | 0x008C => some .topoTotalLp
  | 0x0090 => some .topoTotalGp
  | 0x0094 => some .topoTotalSpare
  | 0x0098 => some .topoDatacapLo
  | 0x009C => some .topoDatacapHi
  | 0x00A0 => some .topoTotal
  | 0x00A4 => some .topoDpd
  | 0x00A8 => some .topoSpares
  | 0x00AC => some .topoNgroups
  | 0x00B0 => some .topoChunks
  | 0x00B4 => some .topoScheme
  | 0x0218 => some .classRollup
  | _ => none

/-- The register at an aligned byte offset, the arrays included (10_state.md R32); none for an unmapped offset. -/
def regAt (a : Nat) : Option Reg :=
  if 0x0060 ≤ a ∧ a < 0x0080 then some (.cfgGsize ((a - 0x0060) / 4))
  else if 0x00C0 ≤ a ∧ a < 0x00E0 then some (.topoGsize ((a - 0x00C0) / 4))
  else if 0x0100 ≤ a ∧ a < 0x0140 then some (.online ((a - 0x0100) / 4))
  else if 0x0140 ≤ a ∧ a < 0x0180 then some (.target ((a - 0x0140) / 4))
  else if 0x0200 ≤ a ∧ a < 0x0210 then some (.classGrp ((a - 0x0200) / 4))
  else if 0x0210 ≤ a ∧ a < 0x0218 then some (.classDom ((a - 0x0210) / 4))
  else if 0x1000 ≤ a ∧ a < 0x5000 then some (.bufWord ((a - 0x1000) / 0x1000) (a % 0x1000 / 4))
  else if 0x8000 ≤ a ∧ a < 0xC000 then some (.reportWord ((a - 0x8000) / 32) (a % 32 / 4))
  else singleRegAt a

/-- Word `j` of report entry `e` as stored (10_state.md R52), little-endian (20_memory.md R94). -/
def State.reportWordAt (s : State) (e j : Nat) : Word :=
  BitVec.ofNat 32 (s.report.readBlock 2 (0x8000 + 32 * e + 4 * j))

/-- What a host read of word `j` of report entry `e` returns while the engine is idle (10_state.md R52): the word stored
there for an entry below `REPORT_COUNT`, any value for the others (93_implementation_defined.md U11; log 23). -/
def State.reportRead (s : State) (e j : Nat) : Word :=
  if e < s.reportCount.toNat then s.reportWordAt e j else Config.staleReportWord s.epoch e j

/-- What a host read of a register returns while the engine is idle (10_state.md R33 to R53). -/
def State.regValue (s : State) : Reg → Word
  | .id => Config.idValue
  | .version => Config.versionValue
  | .status => s.statusWord
  | .cmd => s.cmd
  | .arg0 => s.arg0
  | .arg1 => s.arg1
  | .irqEn => (BitVec.ofBool s.irqEn).setWidth 32
  | .irqStatus => (BitVec.ofBool s.donePend).setWidth 32
  | .ctrl => 0
  | .peekData => s.peekData
  | .qres0 => s.qres0
  | .qres1 => s.qres1
  | .reportCount => s.reportCount
  | .cfgTotal => s.cfg.total
  | .cfgDpd => s.cfg.dpd
  | .cfgSpares => s.cfg.spares
  | .cfgNgroups => s.cfg.ngroups
  | .cfgChunks => s.cfg.chunks
  | .cfgScheme => s.cfg.scheme
  | .cfgGsize i => s.cfg.gsize[i]?.getD 0
  | .topoNdom => s.derived.ndom
  | .topoNdata => s.derived.ndata
  | .topoTotalData => s.derived.totalData
  | .topoTotalLp => s.derived.totalLp
  | .topoTotalGp => s.derived.totalGp
  | .topoTotalSpare => s.derived.totalSpare
  | .topoDatacapLo => s.derived.datacap.extractLsb' 0 32
  | .topoDatacapHi => s.derived.datacap.extractLsb' 32 32
  | .topoTotal => s.topo.total
  | .topoDpd => s.topo.dpd
  | .topoSpares => s.topo.spares
  | .topoNgroups => s.topo.ngroups
  | .topoChunks => s.topo.chunks
  | .topoScheme => s.topo.scheme
  | .topoGsize i => s.topo.gsize[i]?.getD 0
  | .online w => wordAt s.online w
  | .target w => wordAt s.targets w
  | .classGrp w => wordAt s.classGrp w
  | .classDom w => wordAt s.classDom w
  | .classRollup => s.classRollup.setWidth 32
  | .bufWord b i => wordAt (s.bufAt b) i
  | .reportWord e j => s.reportRead e j

/-- The registers whose host reads are a draw while BUSY (10_state.md R68). -/
def Reg.drawnWhileBusy : Reg → Bool
  | .id => false
  | .version => false
  | .status => false
  | .cmd => false
  | .arg0 => false
  | .arg1 => false
  | .irqEn => false
  | .irqStatus => false
  | .ctrl => false
  | .peekData => true
  | .qres0 => true
  | .qres1 => true
  | .reportCount => true
  | .cfgTotal => false
  | .cfgDpd => false
  | .cfgSpares => false
  | .cfgNgroups => false
  | .cfgChunks => false
  | .cfgScheme => false
  | .cfgGsize _ => false
  | .topoNdom => true
  | .topoNdata => true
  | .topoTotalData => true
  | .topoTotalLp => true
  | .topoTotalGp => true
  | .topoTotalSpare => true
  | .topoDatacapLo => true
  | .topoDatacapHi => true
  | .topoTotal => true
  | .topoDpd => true
  | .topoSpares => true
  | .topoNgroups => true
  | .topoChunks => true
  | .topoScheme => true
  | .topoGsize _ => true
  | .online _ => true
  | .target _ => false
  | .classGrp _ => true
  | .classDom _ => true
  | .classRollup => true
  | .bufWord _ _ => true
  | .reportWord _ _ => true

/-- The registers whose host writes are dropped while BUSY (10_state.md R32 "held", R67). -/
def Reg.held : Reg → Bool
  | .cmd => true
  | .arg0 => true
  | .arg1 => true
  | .cfgTotal => true
  | .cfgDpd => true
  | .cfgSpares => true
  | .cfgNgroups => true
  | .cfgChunks => true
  | .cfgScheme => true
  | .cfgGsize _ => true
  | .target _ => true
  | .bufWord _ _ => true
  | .id => false
  | .version => false
  | .status => false
  | .irqEn => false
  | .irqStatus => false
  | .ctrl => false
  | .peekData => false
  | .qres0 => false
  | .qres1 => false
  | .reportCount => false
  | .topoNdom => false
  | .topoNdata => false
  | .topoTotalData => false
  | .topoTotalLp => false
  | .topoTotalGp => false
  | .topoTotalSpare => false
  | .topoDatacapLo => false
  | .topoDatacapHi => false
  | .topoTotal => false
  | .topoDpd => false
  | .topoSpares => false
  | .topoNgroups => false
  | .topoChunks => false
  | .topoScheme => false
  | .topoGsize _ => false
  | .online _ => false
  | .classGrp _ => false
  | .classDom _ => false
  | .classRollup => false
  | .reportWord _ _ => false

/-- `IRQ_STATUS` is write 1 to clear (10_state.md R38). -/
def State.writeIrqStatus (s : State) (v : Word) : State :=
  { s with donePend := s.donePend && !v.getLsbD 0 }

/-- `CTRL`: a write with bit 0 set clears OVERRUN (10_state.md R39). -/
def State.writeCtrl (s : State) (v : Word) : State := { s with overrun := s.overrun && !v.getLsbD 0 }

/-- What a host write that is taken does (10_state.md R35 to R51): acceptance for `CMD`, storage for the RW registers,
nothing for the read-only ones. -/
def State.writeReg (s : State) (v : Word) : Reg → State
  | .id => s
  | .version => s
  | .status => s
  | .cmd => s.accept v
  | .arg0 => { s with arg0 := v }
  | .arg1 => { s with arg1 := v }
  | .irqEn => { s with irqEn := v.getLsbD 0 }
  | .irqStatus => s.writeIrqStatus v
  | .ctrl => s.writeCtrl v
  | .peekData => s
  | .qres0 => s
  | .qres1 => s
  | .reportCount => s
  | .cfgTotal => { s with cfg := { s.cfg with total := v } }
  | .cfgDpd => { s with cfg := { s.cfg with dpd := v } }
  | .cfgSpares => { s with cfg := { s.cfg with spares := v } }
  | .cfgNgroups => { s with cfg := { s.cfg with ngroups := v } }
  | .cfgChunks => { s with cfg := { s.cfg with chunks := v } }
  | .cfgScheme => { s with cfg := { s.cfg with scheme := v } }
  | .cfgGsize i => { s with cfg := { s.cfg with gsize := s.cfg.gsize.setIfInBounds i v } }
  | .topoNdom => s
  | .topoNdata => s
  | .topoTotalData => s
  | .topoTotalLp => s
  | .topoTotalGp => s
  | .topoTotalSpare => s
  | .topoDatacapLo => s
  | .topoDatacapHi => s
  | .topoTotal => s
  | .topoDpd => s
  | .topoSpares => s
  | .topoNgroups => s
  | .topoChunks => s
  | .topoScheme => s
  | .topoGsize _ => s
  | .online _ => s
  | .target w => { s with targets := setWordAt s.targets w v }
  | .classGrp _ => s
  | .classDom _ => s
  | .classRollup => s
  | .bufWord b i => s.setBuf b (setWordAt (s.bufAt b) i v)
  | .reportWord _ _ => s

/-- The word a host read at an aligned offset returns (20_memory.md R93, 10_state.md R68): 0 at an unmapped offset, the
draw for a result register while BUSY, the register's value otherwise. -/
def State.windowRead (s : State) (a : Nat) (draw : Word) : Word :=
  match regAt a with
  | none => 0
  | some r => if r.drawnWhileBusy && s.busy then draw else s.regValue r

/-- The state after a host write at an aligned offset (20_memory.md R93, 10_state.md R67): nothing at an unmapped
offset, dropped with OVERRUN for a held register while BUSY, taken otherwise. -/
def State.windowWrite (s : State) (a : Nat) (v : Word) : State :=
  match regAt a with
  | none => s
  | some r => if r.held && s.busy then s.dropWrite else s.writeReg v r

/-- Why the host bus cannot carry an access, if it cannot (20_memory.md R92). -/
def busRefusal (off : BitVec 16) (size : AccessSize) : Option Refusal :=
  if size ≠ .word then some .hostAccessSize
  else if off.toNat % 4 ≠ 0 then some .hostAccessMisaligned
  else none

/-- `MemRead(off, 4)` (20_memory.md R91 to R94): no side effect but the word on the bus. -/
def hostRead (off : BitVec 16) (size : AccessSize) (draw : Word) (s : State) : Host.Outcome State Fault Refusal :=
  match busRefusal off size with
  | some r => .refused r
  | none => .next { s with readData := s.windowRead off.toNat draw }

/-- `MemWrite(off, 4, v)` (20_memory.md R91 to R94). -/
def hostWrite (off : BitVec 16) (size : AccessSize) (v : Word) (s : State) : Host.Outcome State Fault Refusal :=
  match busRefusal off size with
  | some r => .refused r
  | none => .next (s.windowWrite off.toNat v)

end Sys2Proof.Machine
end

