-- ==== Sys2Proof/Machine/Run.lean ====
section
/-! DEFINITION. Running the command in flight, hardware reset, and what each input of the environment does
(30_encoding.md R120, 70_reset_and_hazards.md R370, R371, R380, 10_state.md R38). -/

namespace Sys2Proof.Machine

/-- Execution of a command word (30_encoding.md R120): a word that does not decode completes with INVALID_COMMAND and
changes nothing else. -/
def runWord (w : Word) (s : State) : Host.Outcome State Fault Refusal :=
  match decode w with
  | .ok i => exec i s
  | .error _ => finishWith .invalidCommand s

/-- The completion the environment schedules (70_reset_and_hazards.md R380): the command in flight runs and completes;
with none in flight nothing happens (log 2). -/
def completeFlight (s : State) : Host.Outcome State Fault Refusal :=
  match s.flight with
  | none => .next s
  | some f => runWord f.word s

/-! ### Hardware reset (70_reset_and_hazards.md R370, R371) -/

/-- The drives after the first `n` of the listed accesses, oldest first; the access that the reset meets, if it is a
write, leaves its chunk at `junk` (70_reset_and_hazards.md R370, U16). -/
def replayAccesses (junk : Chunk) : Nat → List DriveAccess → Memory → Memory
  | _, [], m => m
  | 0, .read _ _ _ _ :: _, m => m
  | 0, .write p off _ _ :: _, m => m.writeBlock Config.chunkLog (driveKey p off) junk.toNat
  | n + 1, .read _ _ _ _ :: rest, m => replayAccesses junk n rest m
  | n + 1, .write p off stored _ :: rest, m =>
    replayAccesses junk n rest (m.writeBlock Config.chunkLog (driveKey p off) stored.toNat)

/-- The accesses the command in flight would make, oldest first. -/
def State.flightAccesses (s : State) : List DriveAccess :=
  match completeFlight { s with traffic := [] } with
  | .next t => t.traffic.reverse
  | .fault _ => []
  | .refused _ => []

/-- The drives when the command in flight is abandoned after `n` accesses (70_reset_and_hazards.md R370; log 7). -/
def State.abandonedDrives (s : State) (n : Nat) (junk : Chunk) : Memory :=
  match s.flight with
  | none => s.drives
  | some _ => replayAccesses junk n s.flightAccesses s.drives

/-- Hardware reset (70_reset_and_hazards.md R370): every register at its reset value, the command in flight abandoned
without completion, the buffers and the report RAM at the environment's draw (R371), the drives as they are but for what
the abandoned command wrote; a new epoch begins (log 23). -/
def hardwareReset (accesses : Nat) (junk : Chunk) (bufs : Vector Chunk 4) (report : BitVec 131072) (s : State) : State :=
  { State.reset with
    bufs := bufs
    report := Memory.writeBlock 14 [] 0x8000 report.toNat
    drives := s.abandonedDrives accesses junk
    inputs := s.inputs
    responses := s.responses.drop (min accesses s.flightAccesses.length)
    readData := s.readData
    epoch := s.epoch + 1 }

/-! ### Inputs (00_scope.md R8) -/

/-- What one input does to the state it is taken from. Where a completion and a write to `IRQ_STATUS` meet, the write
comes first, so that the completion wins (10_state.md R38; log 22). -/
def takeInput (s : State) : Input → Host.Outcome State Fault Refusal
  | .hostRead off size draw => hostRead off size draw s
  | .hostWrite off size data => hostWrite off size data s
  | .complete => completeFlight s
  | .completeWithIrqWrite data => completeFlight (s.writeIrqStatus data)
  | .hardwareReset accesses junk bufs report => .next (hardwareReset accesses junk bufs report s)

/-- The next thing that happens: the first input, taken off the list; with no input left, the completion of the command
in flight (70_reset_and_hazards.md R390; log 2). -/
def advance (s : State) : Host.Outcome State Fault Refusal :=
  match s.inputs with
  | [] => completeFlight s
  | i :: rest => takeInput { s with inputs := rest } i

/-- The state right after the acceptance of command word `w`, with its completion scheduled next. -/
def submitted (s : State) (w : Word) : State := { s.accept w with inputs := .complete :: s.inputs }

end Sys2Proof.Machine
end

