-- ==== Sys2Proof/Machine/Step.lean ====
section
/-! DEFINITION. One step of the machine, and where a command to run is placed. -/

namespace Sys2Proof.Machine

/-- One step: the next input of the environment, or the completion of the command in flight (log 1, log 2). -/
def step (s : State) : Host.Outcome State Fault Refusal := advance s

/-- The state in which the command whose bits are `w` has been accepted and completes in the very next step: the VPE
has no program counter, a command is placed by a write to `CMD` (10_state.md R31, R35; log 1). -/
def State.withFetchWord (s : State) (nbits w : Nat) : State := submitted s (BitVec.ofNat 32 (w % 2 ^ nbits))

end Sys2Proof.Machine
end

