-- ==== Sys2Proof/Safety.lean ====
section
/-! DEFINITION. What a good state of the machine is: the invariants that the spec's rules give its registers, its latch,
its topology and its slot assignment; stripe consistency; the rank criterion of determinedness; what a REBUILD does with
one target; and which bytes a drive access writes. -/

namespace Sys2Proof.Machine

/-! ### Invariants -/

/-- The byte memories are in canonical form. -/
abbrev State.memoriesCanonical (s : State) : Prop := Memory.wf s.report ∧ Memory.wf s.drives

/-- While a command is in flight, what was latched at acceptance is what the registers, the buffers and the online flags
hold (10_state.md R66, R67), DONE is 0 and ERR is 0 (R34, R35). -/
abbrev State.latchHolds (s : State) : Prop :=
  ∀ f ∈ s.flight, f = s.latchFor s.cmd ∧ s.done = false ∧ s.err = .none

/-- While no topology is latched, its registers are 0, every flag is 0, the assignment is discarded, and the
classification and the report are empty (10_state.md R42, R44, R45, R46, R62; 40_topology_control.md R154). -/
abbrev State.uninitializedClear (s : State) : Prop :=
  s.initialized = false →
    s.topo = TopoParams.zero ∧ s.derived = TopoDerived.zero ∧ s.online = 0 ∧ s.serve = [] ∧ s.pstate = []
      ∧ s.classGrp = BitVec.allOnes 128 ∧ s.classDom = BitVec.allOnes 64 ∧ s.classRollup = 3
      ∧ s.classValid = false ∧ s.reportCount = 0

/-- A latched topology satisfies V1 to V8, its sizes past NG are 0, the derived registers are those of
40_topology_control.md R153, and flags past TOTAL are 0 (10_state.md R44, R45, R46). -/
abbrev State.topologyLegal (s : State) : Prop :=
  s.initialized = true →
    s.topo.valid = true ∧ s.topo.latched = s.topo ∧ s.derived = s.topo.derive
      ∧ ∀ p, p < 512 → s.total ≤ p → flagAt s.online p = false

/-- The shape of the assignment: one row per domain, one entry per served slot, one drive state per drive
(10_state.md R62, R63). -/
abbrev State.assignmentShape (s : State) : Prop :=
  s.initialized = true →
    s.serve.length = s.ndom ∧ (∀ row ∈ s.serve, row.length = s.layout.served) ∧ s.pstate.length = s.total

/-- Each served slot is served by a drive of its own domain, no two by the same one, and a drive serves a slot exactly
when its state is NATIVE or PROMOTED (10_state.md R63). -/
abbrev State.assignmentLegal (s : State) : Prop :=
  s.initialized = true →
    (∀ D, D < s.ndom → ∀ k, k < s.layout.served → s.serveAt D k < s.total ∧ s.domainOf (s.serveAt D k) = D)
      ∧ (∀ D, D < s.ndom → ∀ k, k < s.layout.served → ∀ j, j < s.layout.served →
          s.serveAt D k = s.serveAt D j → k = j)
      ∧ ∀ p, p < s.total →
          ((s.slotOf p).isSome = true ↔ s.pstateAt p = .native ∨ s.pstateAt p = .promoted)

/-- The invariant of the machine. -/
structure State.Inv (s : State) : Prop where
  memories : s.memoriesCanonical
  latch : s.latchHolds
  cleared : s.uninitializedClear
  topology : s.topologyLegal
  shape : s.assignmentShape
  assignment : s.assignmentLegal

/-- The drive port answers `ok` to every access it has an answer for (20_memory.md R97: the premise "no drive-port
error"). -/
abbrev State.portOk (s : State) : Prop := ∀ r ∈ s.responses, r = .ok

/-! ### Parts of the register window, by byte offset (10_state.md R32) -/

/-- CMD, ARG0, ARG1, CFG_*, TARGETw and the buffer words: the offsets whose writes are held (10_state.md R67). -/
abbrev heldOffset (a : Nat) : Prop :=
  a = 0x000C ∨ a = 0x0010 ∨ a = 0x0014 ∨ (0x0040 ≤ a ∧ a < 0x0058) ∨ (0x0060 ≤ a ∧ a < 0x0080)
    ∨ (0x0140 ≤ a ∧ a < 0x0180) ∨ (0x1000 ≤ a ∧ a < 0x5000)

/-- PEEK_DATA, QRES0, QRES1, REPORT_COUNT, TOPO_*, ONLINEw, CLASS_*, the buffer words and the report words: the offsets
whose reads are a draw while BUSY (10_state.md R68). -/
abbrev resultOffset (a : Nat) : Prop :=
  (0x0024 ≤ a ∧ a < 0x0034) ∨ (0x0080 ≤ a ∧ a < 0x00B8) ∨ (0x00C0 ≤ a ∧ a < 0x00E0) ∨ (0x0100 ≤ a ∧ a < 0x0140)
    ∨ (0x0200 ≤ a ∧ a < 0x021C) ∨ (0x1000 ≤ a ∧ a < 0x5000) ∨ (0x8000 ≤ a ∧ a < 0xC000)

/-- The offsets of the register map, as ranges of words (10_state.md R32). -/
abbrev mappedOffset (a : Nat) : Prop :=
  a < 0x0034 ∨ (0x0040 ≤ a ∧ a < 0x0058) ∨ (0x0060 ≤ a ∧ a < 0x00B8) ∨ (0x00C0 ≤ a ∧ a < 0x00E0)
    ∨ (0x0100 ≤ a ∧ a < 0x0180) ∨ (0x0200 ≤ a ∧ a < 0x021C) ∨ (0x1000 ≤ a ∧ a < 0x5000)
    ∨ (0x8000 ≤ a ∧ a < 0xC000)

/-! ### Stripe consistency (41_parity_math.md R206 to R208) -/

/-- `S(D, k, c)`: chunk c of the drive serving slot k of domain D (41_parity_math.md R206). -/
def State.slotChunk (s : State) (D c k : Nat) : Chunk := s.driveChunk (s.serveAt D k) c

/-- The slot chunks of a stripe satisfy both parity equations (41_parity_math.md R207, R208). -/
def Layout.consistent (L : Layout) (d : Nat → Chunk) : Prop :=
  (∀ g, g < L.ng → d (L.lpSlot g) = L.localParity d g) ∧ d L.gpSlot = L.globalParity d

/-- Chunk c of domain D is consistent (41_parity_math.md R208). -/
def State.stripeConsistent (s : State) (D c : Nat) : Prop := s.layout.consistent (s.slotChunk D c)

/-! ### The rank criterion (41_parity_math.md R211, R212) -/

/-- The unit row of unknown k is a GF(2^8) combination of the equations of 41_parity_math.md R211: `lam g` multiplies the
local-parity equation of group g (0 where LP(g) is offline), `mu` the global-parity equation (0 where GP is offline). -/
def Layout.rankDetermined (L : Layout) (off : Nat → Bool) (k : Nat) : Prop :=
  ∃ (lam : Nat → Byte) (mu : Byte),
    (∀ g, g < L.ng → L.lpOff off g = true → lam g = 0)
      ∧ (L.gpOff off = true → mu = 0)
      ∧ ∀ j, j < L.ndata → off j = true →
          lam (L.groupOf j) ^^^ gfMul mu (L.coef j) = if j = k then 1 else 0

/-- The group sizes the capacity limits allow: every group has a data slot, and a domain of at most 64 drives
has at most 62 data slots (40_topology_control.md R151 V1 to V4; log 25). -/
def Layout.legal (L : Layout) : Prop := (∀ n ∈ L.sizes, 1 ≤ n) ∧ L.ndata ≤ 62

/-! ### Drive bytes (20_memory.md R95, R97) -/

/-- Address `a` of the drive memory lies in chunk `c` of physical drive `q`. -/
abbrev inChunk (q c a : Nat) : Prop :=
  driveKey q (c * Config.CHUNK) ≤ a ∧ a < driveKey q (c * Config.CHUNK) + Config.CHUNK

/-- Address `a` of the drive memory lies in chunks 0 to `n`-1 of physical drive `q`. -/
abbrev inFirstChunks (q n a : Nat) : Prop := driveKey q 0 ≤ a ∧ a < driveKey q (n * Config.CHUNK)

/-- The byte that an access leaves at address `a` of the drive memory, if it writes it: the byte of the chunk the range
holds afterwards. -/
def DriveAccess.byteAt : DriveAccess → Nat → Option Byte
  | .read _ _ _ _, _ => none
  | .write q off stored _, a =>
    if driveKey q off ≤ a ∧ a < driveKey q off + Config.CHUNK then some (laneAt stored (a - driveKey q off)) else none

/-! ### What a REBUILD does with one target (44_integrity_rebuild.md R313 to R318)

`s` is the state at acceptance, `u` the state when target p is processed, `v` the state after its report entry, number n,
is written. -/

/-- Report entry n as 44_integrity_rebuild.md R318 lays it out; `D` is the target's domain and `drives` the drives its
sources were read from. -/
def State.reportEntry (v : State) (n p : Nat) (status : ReportStatus) (count first dest : Word) (D : Nat)
    (drives : List Nat) : Prop :=
  v.reportWordAt n 0 = status.code.setWidth 32 <<< 16 ||| BitVec.ofNat 32 p
    ∧ v.reportWordAt n 1 = count ∧ v.reportWordAt n 2 = first ∧ v.reportWordAt n 3 = dest
    ∧ (∀ i, i < 64 → ((v.reportWordAt n (4 + i / 32)).getLsbD (i % 32) = true ↔ D * v.dpd + i ∈ drives))
    ∧ v.reportWordAt n 6 = 0 ∧ v.reportWordAt n 7 = 0

/-- The target is only reported: nothing is written for it (44_integrity_rebuild.md R313 cases 1 to 4). -/
def State.onlyReported (u v : State) (n p : Nat) (status : ReportStatus) (first : Word) : Prop :=
  v = { u with report := v.report } ∧ v.reportEntry n p status 0 first 0xFFFF (p / u.dpd) []

/-- Drive q is the spare a promotion in domain D takes: the lowest-numbered free, online one
(44_integrity_rebuild.md R314). -/
def State.chosenSpare (u : State) (D q : Nat) : Prop :=
  D * u.dpd ≤ q ∧ q < D * u.dpd + u.dpd ∧ u.pstateAt q = .spareFree ∧ flagAt u.online q = true
    ∧ ∀ r, D * u.dpd ≤ r → r < q → ¬(u.pstateAt r = .spareFree ∧ flagAt u.online r = true)

/-- Where the chunks of target p go (44_integrity_rebuild.md R313 case 5, R314). -/
def State.destinationOf (u : State) (strategy : Strategy) (p dest : Nat) : Prop :=
  match strategy with
  | .restoreInPlace => dest = p
  | .promoteSpare => u.chosenSpare (p / u.dpd) dest

/-- The commit of a target whose chunks were all written: RESTORE sets its flag and nothing more (44_integrity_rebuild.md
R316); PROMOTE gives slot k of the target's domain to `dest`, which is PROMOTED while p retires, and nothing more
(R317). -/
def State.commits (u v : State) (strategy : Strategy) (p k dest : Nat) : Prop :=
  match strategy with
  | .restoreInPlace =>
    v.serve = u.serve ∧ v.pstate = u.pstate ∧ flagAt v.online p = true
      ∧ ∀ q, q ≠ p → flagAt v.online q = flagAt u.online q
  | .promoteSpare =>
    v.online = u.online
      ∧ (∀ E j, E < u.ndom → j < u.layout.served →
          v.serveAt E j = if E = p / u.dpd ∧ j = k then dest else u.serveAt E j)
      ∧ ∀ r, r < u.total → v.pstateAt r = if r = dest then .promoted else if r = p then .retired else u.pstateAt r

/-- The chunks of target p, whose slot is k, are reconstructed onto `dest` (44_integrity_rebuild.md R315). A chunk takes
`per` accesses, the reads of its sources and one write (log 26). If they are all answered `ok`, every chunk of `dest`
holds slot k's content and the commit follows; if access j is the first that is answered `err`, chunk j div `per` is the
first unrecoverable one: the chunks before it hold slot k's content, it holds the port's draw if j is its write, and
nothing is committed. `off` is the failure set at acceptance. -/
def State.reconstructs (u v : State) (strategy : Strategy) (n p k dest : Nat) (status : ReportStatus) (off : Nat → Bool) :
    Prop :=
  let D := p / u.dpd
  let src := u.layout.sources off k
  let per := src.length + 1
  ((∀ r ∈ u.responses.take (u.chunks * per), r = .ok) →
      status = successStatus strategy
        ∧ v = { u with
                report := v.report, online := v.online, serve := v.serve, pstate := v.pstate, drives := v.drives
                responses := u.responses.drop (u.chunks * per), traffic := v.traffic }
        ∧ u.commits v strategy p k dest
        ∧ (∀ c, c < u.chunks → v.driveChunk dest c = u.layout.content off (u.slotChunk D c) k)
        ∧ (∀ a, ¬inFirstChunks dest u.chunks a → v.drives.read a = u.drives.read a)
        ∧ v.reportEntry n p status u.topo.chunks 0xFFFFFFFF (BitVec.ofNat 32 dest) D (src.map (u.serveAt D)))
    ∧ ∀ j junk, j < u.chunks * per → (∀ r ∈ u.responses.take j, r = .ok) → u.responses[j]? = some (.err junk) →
        status = .partialRebuild
          ∧ v = { u with
                  report := v.report, drives := v.drives, responses := u.responses.drop (j + 1), traffic := v.traffic }
          ∧ (∀ c, c < j / per → v.driveChunk dest c = u.layout.content off (u.slotChunk D c) k)
          ∧ v.driveChunk dest (j / per) = (if j % per = src.length then junk else u.driveChunk dest (j / per))
          ∧ (∀ a, ¬inFirstChunks dest (j / per + 1) a → v.drives.read a = u.drives.read a)
          ∧ v.reportEntry n p status (BitVec.ofNat 32 (j / per)) (BitVec.ofNat 32 (j / per)) (BitVec.ofNat 32 dest) D
              (src.map (u.serveAt D))

/-- `rebuild_one(p)`, first matching case (44_integrity_rebuild.md R313), and its entry in the report (R318); every other
entry stays. The slot is the one p serves when it is processed (log 11), flags and failure set those at acceptance
(R315; log 12). -/
def State.rebuildsTarget (s u v : State) (strategy : Strategy) (n p : Nat) (status : ReportStatus) : Prop :=
  let off := fun j => !flagAt s.online (s.serveAt (p / s.dpd) j)
  (∀ a, ¬(reportAddr n ≤ a ∧ a < reportAddr n + 32) → v.report.read a = u.report.read a)
    ∧ (u.slotOf p = none → status = .invalidTarget ∧ u.onlyReported v n p status 0xFFFFFFFF)
    ∧ ∀ k, u.slotOf p = some k →
        (flagAt s.online p = true → status = .skippedOnline ∧ u.onlyReported v n p status 0xFFFFFFFF)
          ∧ (flagAt s.online p = false → s.layout.sclass off k = .dataLoss →
              status = .unrecoverable ∧ u.onlyReported v n p status 0)
          ∧ (flagAt s.online p = false → s.layout.sclass off k ≠ .dataLoss → strategy = .promoteSpare →
              (∀ q, ¬u.chosenSpare (p / s.dpd) q) → status = .noSpare ∧ u.onlyReported v n p status 0xFFFFFFFF)
          ∧ ∀ dest, flagAt s.online p = false → s.layout.sclass off k ≠ .dataLoss → u.destinationOf strategy p dest →
              u.reconstructs v strategy n p k dest status off

/-- The order key of target p as a list, compared lexicographically (44_integrity_rebuild.md R312): domain; group, NG for
GP and NG + 1 for a drive that serves no slot; 1 for a local parity; slot. -/
def State.orderKey (s : State) (p : Nat) : List Nat :=
  match s.slotOf p with
  | none => [p / s.dpd, s.ng + 1, 0, p % s.dpd]
  | some k =>
    if k < s.ndata then [p / s.dpd, s.layout.groupOf k, 0, k]
    else if k < s.ndata + s.ng then [p / s.dpd, k - s.ndata, 1, k]
    else [p / s.dpd, s.ng, 0, k]

end Sys2Proof.Machine
end

