-- ==== Sys2Proof/Certificates/Slice0/Obligations.lean ====
section
/-! DEFINITION. The statements for the provers. Rules are cited R<n> with their file; log entries are
notes/assumptions/<n>.md. Throughout, the fields `inputs`, `responses`, `traffic`, `readData` and `epoch` of State are the
model's own (logs 1, 2, 3, 16, 17, 23), as is the choice that a command in flight completes when no input is left
(log 2). -/

open Sys2Proof Sys2Proof.Machine

/-! ### Encoding (30_encoding.md) -/

/-- Decoding the word of a well-formed command gives the command back, for every operand the encoding admits. -/
def Obligations.DecodeOfEncode : Prop :=
  ∀ i : Instr, i.wellFormed = true → decode (encode i) = .ok i

/-- A word that decodes is the word of the command it decodes to, which is well formed; and (R125, last sentence) a word
decodes exactly when it matches a row of the opcode table under the row's mask. -/
def Obligations.EncodeOfDecode : Prop :=
  (∀ (w : Word) (i : Instr), decode w = .ok i → encode i = w ∧ i.wellFormed = true)
    ∧ ∀ w : Word, (∃ i, decode w = .ok i) ↔ ∃ r ∈ opcodeRows, w &&& r.mask = r.pattern

/-- R143: the words the spec writes out decode to their commands, and its illegal examples do not decode. -/
def Obligations.SpecWordsDecode : Prop :=
  decode 0x000F0010 = .ok (.setOnlineDrive 15 false) ∧ decode 0x000F0110 = .ok (.setOnlineDrive 15 true)
    ∧ decode 0x00030420 = .ok (.writeChunk 3 2) ∧ decode 0x00000622 = .ok (.recombine 3)
    ∧ decode 0x00020232 = .ok (.decodeChunk 2 1) ∧ decode 0x00000141 = .ok (.rebuild .promoteSpare)
    ∧ decode 0x00080051 = .ok (.queryGroup 8) ∧ decode 0x00060031 = .ok (.peek 6)
    ∧ decode 0x00000040 = .ok .classify
    ∧ decode 0x00000003 = .error .reservedOpcode ∧ decode 0x00001000 = .error .reservedBits
    ∧ decode 0x00000140 = .error .unusedField ∧ decode 0x00000820 = .error .bufferRange

/-! ### Steps (00_scope.md R9, 30_encoding.md R120) -/

/-- A step at which the command in flight completes is exec of the decoded command; where a write to IRQ_STATUS meets the
completion, exec runs on the state after that write (R38). A command placed by withFetchWord runs in the very next step,
from the state its acceptance leaves. That inputs come from a list, and that a completion follows an empty one, is the
model's choice (logs 1, 2, 22). -/
def Obligations.StepRunsDecodedCommand : Prop :=
  (∀ (s : State) (f : Flight) (i : Instr), s.flight = some f → decode f.word = .ok i →
    (s.inputs = [] → step s = exec i s)
      ∧ (∀ rest, s.inputs = .complete :: rest → step s = exec i { s with inputs := rest })
      ∧ (∀ v rest, s.inputs = .completeWithIrqWrite v :: rest →
          step s = exec i { s with inputs := rest, donePend := s.donePend && !v.getLsbD 0 }))
    ∧ ∀ (s : State) (w : Word) (i : Instr), decode w = .ok i →
        step (s.withFetchWord 32 w.toNat) = exec i (s.accept w)

/-- A word that does not decode completes with INVALID_COMMAND and no other effect (R120, R127); NOP completes with ERR 0
and no other effect (R155). Completion at an empty input list is the model's choice (log 2). -/
def Obligations.IllegalWordAndNopOnlyComplete : Prop :=
  (∀ (s : State) (f : Flight) (e : DecodeError), s.flight = some f → decode f.word = .error e →
    (s.inputs = [] →
      step s = .next { s with err := .invalidCommand, flight := none, done := true, donePend := true })
      ∧ ∀ rest, s.inputs = .complete :: rest →
        step s = .next { s with inputs := rest, err := .invalidCommand, flight := none, done := true, donePend := true })
    ∧ ∀ s : State, exec .nop s = .next { s with err := .none, flight := none, done := true, donePend := true }

/-! ### Host accesses (10_state.md, 20_memory.md) -/

/-- R35: CMD is 0 after reset; a write is accepted when idle and dropped with OVERRUN when busy; a read returns the last
accepted word. What acceptance latches is R66's; the record of drive accesses (log 17) and the epoch (log 23) are the
model's own, left open here. -/
def Obligations.CmdWriteAcceptedOrDropped : Prop :=
  State.reset.cmd = 0
    ∧ (∀ (s : State) (w : Word) (rest : List Input), s.inputs = .hostWrite 0x000C .word w :: rest →
        (s.flight = none →
          ∃ t, step s = .next t
            ∧ t = { s with
                    inputs := rest, cmd := w, done := false, err := .none, traffic := t.traffic, epoch := t.epoch
                    flight := some { word := w, arg0 := s.arg0, arg1 := s.arg1, targets := s.targets, bufs := s.bufs,
                                     online := s.online } })
          ∧ ∀ f, s.flight = some f → step s = .next { s with inputs := rest, overrun := true })
    ∧ ∀ (s : State) (draw : Word) (rest : List Input), s.inputs = .hostRead 0x000C .word draw :: rest →
        step s = .next { s with inputs := rest, readData := s.cmd }

/-- R67: while BUSY a write to a held register is dropped and sets OVERRUN; IRQ_EN, IRQ_STATUS and CTRL are taken; a write
to any other offset is ignored, busy or idle, and does not set OVERRUN. -/
def Obligations.HeldWritesDroppedWhileBusy : Prop :=
  ∀ (s : State) (off : BitVec 16) (v : Word) (rest : List Input),
    s.inputs = .hostWrite off .word v :: rest → off.toNat % 4 = 0 →
      (∀ f, s.flight = some f → heldOffset off.toNat → step s = .next { s with inputs := rest, overrun := true })
        ∧ (off = 0x0018 → step s = .next { s with inputs := rest, irqEn := v.getLsbD 0 })
        ∧ (off = 0x001C → step s = .next { s with inputs := rest, donePend := s.donePend && !v.getLsbD 0 })
        ∧ (off = 0x0020 → step s = .next { s with inputs := rest, overrun := s.overrun && !v.getLsbD 0 })
        ∧ (¬heldOffset off.toNat → off ≠ 0x0018 → off ≠ 0x001C → off ≠ 0x0020 →
            step s = .next { s with inputs := rest })

/-- R68: while BUSY a read of a result register returns the environment's draw; the other registers read exactly at all
times. -/
def Obligations.BusyReadsDrawnOrExact : Prop :=
  ∀ (s : State) (off : BitVec 16) (draw : Word) (rest : List Input),
    s.inputs = .hostRead off .word draw :: rest → off.toNat % 4 = 0 →
      (∀ f, s.flight = some f → resultOffset off.toNat → step s = .next { s with inputs := rest, readData := draw })
        ∧ (off = 0x0000 → step s = .next { s with inputs := rest, readData := 0x56504531 })
        ∧ (off = 0x0004 → step s = .next { s with inputs := rest, readData := 0x00000001 })
        ∧ (off = 0x0008 → step s = .next { s with inputs := rest, readData := s.statusWord })
        ∧ (off = 0x000C → step s = .next { s with inputs := rest, readData := s.cmd })
        ∧ (off = 0x0010 → step s = .next { s with inputs := rest, readData := s.arg0 })
        ∧ (off = 0x0014 → step s = .next { s with inputs := rest, readData := s.arg1 })
        ∧ (off = 0x0018 → step s = .next { s with inputs := rest, readData := if s.irqEn then 1 else 0 })
        ∧ (off = 0x001C → step s = .next { s with inputs := rest, readData := if s.donePend then 1 else 0 })
        ∧ (off = 0x0040 → step s = .next { s with inputs := rest, readData := s.cfg.total })
        ∧ (off = 0x0044 → step s = .next { s with inputs := rest, readData := s.cfg.dpd })
        ∧ (off = 0x0048 → step s = .next { s with inputs := rest, readData := s.cfg.spares })
        ∧ (off = 0x004C → step s = .next { s with inputs := rest, readData := s.cfg.ngroups })
        ∧ (off = 0x0050 → step s = .next { s with inputs := rest, readData := s.cfg.chunks })
        ∧ (off = 0x0054 → step s = .next { s with inputs := rest, readData := s.cfg.scheme })
        ∧ (∀ i : Fin 8, off.toNat = 0x0060 + 4 * i.val →
            step s = .next { s with inputs := rest, readData := s.cfg.gsize[i] })
        ∧ (∀ w, w < 16 → off.toNat = 0x0140 + 4 * w →
            step s = .next { s with inputs := rest, readData := s.targets.extractLsb' (32 * w) 32 })

/-- R32, R40 to R52: while idle a read of a result register returns the register; CTRL reads 0. A report word of an entry
below REPORT_COUNT is read as it is stored; one past it reads as any value, the same for every read of an epoch (U11 of
93_implementation_defined.md, R106; log 23, the model's choice). -/
def Obligations.IdleReadsReturnResults : Prop :=
  ∀ (s : State) (off : BitVec 16) (draw : Word) (rest : List Input),
    s.flight = none → s.inputs = .hostRead off .word draw :: rest →
      (off = 0x0020 → step s = .next { s with inputs := rest, readData := 0 })
        ∧ (off = 0x0024 → step s = .next { s with inputs := rest, readData := s.peekData })
        ∧ (off = 0x0028 → step s = .next { s with inputs := rest, readData := s.qres0 })
        ∧ (off = 0x002C → step s = .next { s with inputs := rest, readData := s.qres1 })
        ∧ (off = 0x0030 → step s = .next { s with inputs := rest, readData := s.reportCount })
        ∧ (off = 0x0080 → step s = .next { s with inputs := rest, readData := s.derived.ndom })
        ∧ (off = 0x0084 → step s = .next { s with inputs := rest, readData := s.derived.ndata })
        ∧ (off = 0x0088 → step s = .next { s with inputs := rest, readData := s.derived.totalData })
        ∧ (off = 0x008C → step s = .next { s with inputs := rest, readData := s.derived.totalLp })
        ∧ (off = 0x0090 → step s = .next { s with inputs := rest, readData := s.derived.totalGp })
        ∧ (off = 0x0094 → step s = .next { s with inputs := rest, readData := s.derived.totalSpare })
        ∧ (off = 0x0098 → step s = .next { s with inputs := rest, readData := s.derived.datacap.extractLsb' 0 32 })
        ∧ (off = 0x009C → step s = .next { s with inputs := rest, readData := s.derived.datacap.extractLsb' 32 32 })
        ∧ (off = 0x00A0 → step s = .next { s with inputs := rest, readData := s.topo.total })
        ∧ (off = 0x00A4 → step s = .next { s with inputs := rest, readData := s.topo.dpd })
        ∧ (off = 0x00A8 → step s = .next { s with inputs := rest, readData := s.topo.spares })
        ∧ (off = 0x00AC → step s = .next { s with inputs := rest, readData := s.topo.ngroups })
        ∧ (off = 0x00B0 → step s = .next { s with inputs := rest, readData := s.topo.chunks })
        ∧ (off = 0x00B4 → step s = .next { s with inputs := rest, readData := s.topo.scheme })
        ∧ (∀ i : Fin 8, off.toNat = 0x00C0 + 4 * i.val →
            step s = .next { s with inputs := rest, readData := s.topo.gsize[i] })
        ∧ (∀ w, w < 16 → off.toNat = 0x0100 + 4 * w →
            step s = .next { s with inputs := rest, readData := s.online.extractLsb' (32 * w) 32 })
        ∧ (∀ w, w < 4 → off.toNat = 0x0200 + 4 * w →
            step s = .next { s with inputs := rest, readData := s.classGrp.extractLsb' (32 * w) 32 })
        ∧ (∀ w, w < 2 → off.toNat = 0x0210 + 4 * w →
            step s = .next { s with inputs := rest, readData := s.classDom.extractLsb' (32 * w) 32 })
        ∧ (off = 0x0218 → step s = .next { s with inputs := rest, readData := s.classRollup.setWidth 32 })
        ∧ (∀ i, i < 4096 → off.toNat = 0x8000 + 4 * i → i / 8 < s.reportCount.toNat →
            step s = .next
              { s with
                inputs := rest
                readData := s.report.read (0x8000 + 4 * i + 3) ++ s.report.read (0x8000 + 4 * i + 2)
                  ++ s.report.read (0x8000 + 4 * i + 1) ++ s.report.read (0x8000 + 4 * i) })
        ∧ ∀ i, i < 4096 → off.toNat = 0x8000 + 4 * i → s.reportCount.toNat ≤ i / 8 →
            step s = .next { s with inputs := rest, readData := Config.staleReportWord s.epoch (i / 8) (i % 8) }

/-- R34, R340: the fields of STATUS, the reserved bits 0, and the numbers of the error codes. -/
def Obligations.StatusRegisterFields : Prop :=
  (∀ s : State,
    s.statusWord.getLsbD 0 = s.flight.isSome ∧ s.statusWord.getLsbD 1 = s.done
      ∧ s.statusWord.getLsbD 2 = s.initialized ∧ s.statusWord.getLsbD 3 = s.overrun
      ∧ s.statusWord.getLsbD 4 = s.classValid ∧ s.statusWord.extractLsb' 5 3 = 0
      ∧ s.statusWord.extractLsb' 8 8 = s.err.code ∧ s.statusWord.extractLsb' 16 16 = 0)
    ∧ [ErrCode.none, .invalidDrive, .alreadyInitialized, .insufficientCapacity, .driveOffline, .unrecoverableData,
        .partialRebuild, .notInitialized, .invalidCommand, .invalidConfig, .invalidRole, .invalidRange, .driveIo].map
        (fun e => e.code.toNat) = List.range 13

/-- R93: a read of an unmapped offset returns 0, a write to one changes nothing, and a read anywhere in the window changes
nothing but the word on the bus. -/
def Obligations.UnmappedAndReadsInert : Prop :=
  (∀ (s : State) (off : BitVec 16) (draw : Word) (rest : List Input),
    s.inputs = .hostRead off .word draw :: rest → off.toNat % 4 = 0 → ¬mappedOffset off.toNat →
      step s = .next { s with inputs := rest, readData := 0 })
    ∧ (∀ (s : State) (off : BitVec 16) (v : Word) (rest : List Input),
        s.inputs = .hostWrite off .word v :: rest → off.toNat % 4 = 0 → ¬mappedOffset off.toNat →
          step s = .next { s with inputs := rest })
    ∧ ∀ (s : State) (off : BitVec 16) (draw : Word) (rest : List Input),
        s.inputs = .hostRead off .word draw :: rest → off.toNat % 4 = 0 →
          ∃ x, step s = .next { s with inputs := rest, readData := x }

/-- R92: a host access that is narrower or wider than 32 bits, or misaligned, is refused. -/
def Obligations.BusCarriesAlignedWordsOnly : Prop :=
  ∀ (s : State) (off : BitVec 16) (size : AccessSize) (v : Word) (rest : List Input),
    (s.inputs = .hostRead off size v :: rest ∨ s.inputs = .hostWrite off size v :: rest) →
      (size ≠ .word → step s = .refused .hostAccessSize)
        ∧ (size = .word → off.toNat % 4 ≠ 0 → step s = .refused .hostAccessMisaligned)

/-- R36, R43, R47: an idle host write stores any 32-bit value in ARG0, ARG1 and every CFG register, and a word of target bits
in TARGETw, bit i of which selects drive 32w + i; nothing else changes. -/
def Obligations.IdleWritesStoreOperands : Prop :=
  (∀ (s : State) (off : BitVec 16) (v : Word) (rest : List Input),
    s.flight = none → s.inputs = .hostWrite off .word v :: rest →
      (off = 0x0010 → step s = .next { s with inputs := rest, arg0 := v })
        ∧ (off = 0x0014 → step s = .next { s with inputs := rest, arg1 := v })
        ∧ (off = 0x0040 → step s = .next { s with inputs := rest, cfg := { s.cfg with total := v } })
        ∧ (off = 0x0044 → step s = .next { s with inputs := rest, cfg := { s.cfg with dpd := v } })
        ∧ (off = 0x0048 → step s = .next { s with inputs := rest, cfg := { s.cfg with spares := v } })
        ∧ (off = 0x004C → step s = .next { s with inputs := rest, cfg := { s.cfg with ngroups := v } })
        ∧ (off = 0x0050 → step s = .next { s with inputs := rest, cfg := { s.cfg with chunks := v } })
        ∧ (off = 0x0054 → step s = .next { s with inputs := rest, cfg := { s.cfg with scheme := v } })
        ∧ (∀ i : Fin 8, off.toNat = 0x0060 + 4 * i.val →
            step s = .next { s with inputs := rest, cfg := { s.cfg with gsize := s.cfg.gsize.set i v } }))
    ∧ ∀ (s : State) (off : BitVec 16) (v : Word) (rest : List Input) (w : Nat),
        s.flight = none → s.inputs = .hostWrite off .word v :: rest → w < 16 → off.toNat = 0x0140 + 4 * w →
          ∃ t, step s = .next t ∧ t = { s with inputs := rest, targets := t.targets }
            ∧ ∀ p, p < 512 → flagAt t.targets p = if p / 32 = w then v.getLsbD (p % 32) else flagAt s.targets p

/-- R51, R94: an idle host write to word i of buffer b puts byte j of the word in byte 4i + j of the buffer, every other
byte of every buffer stays, and an idle read of a buffer word packs its four bytes little-endian. -/
def Obligations.BufferWordsLittleEndian : Prop :=
  (∀ (s : State) (off : BitVec 16) (v : Word) (rest : List Input) (b i : Nat),
    s.flight = none → s.inputs = .hostWrite off .word v :: rest → b < 4 → i < 1024 →
      off.toNat = 0x1000 + 0x1000 * b + 4 * i →
        ∃ t, step s = .next t ∧ t = { s with inputs := rest, bufs := t.bufs }
          ∧ ∀ e k, e < 4 → k < 4096 →
              laneAt (t.bufAt e) k = if e = b ∧ k / 4 = i then v.extractLsb' (8 * (k % 4)) 8 else laneAt (s.bufAt e) k)
    ∧ ∀ (s : State) (off : BitVec 16) (draw : Word) (rest : List Input) (b i : Nat),
        s.flight = none → s.inputs = .hostRead off .word draw :: rest → b < 4 → i < 1024 →
          off.toNat = 0x1000 + 0x1000 * b + 4 * i →
            step s = .next
              { s with
                inputs := rest
                readData := laneAt (s.bufAt b) (4 * i + 3) ++ laneAt (s.bufAt b) (4 * i + 2)
                  ++ laneAt (s.bufAt b) (4 * i + 1) ++ laneAt (s.bufAt b) (4 * i) }

/-! ### Completion, errors, interrupt (60_exceptions.md) -/

/-- R38: DONE_PEND is 0 after reset, 1 after every completion whatever the error, cleared by a host write with bit 0 set
and kept by one without, busy or idle, and read in bit 0; where a completion and such a write meet, the completion wins. A
completion also leaves BUSY 0 and DONE 1 (R341). -/
def Obligations.CompletionSetsDoneAndPending : Prop :=
  State.reset.donePend = false
    ∧ (∀ (s t : State) (f : Flight), s.flight = some f →
        ((∃ rest, s.inputs = .complete :: rest) ∨ ∃ v rest, s.inputs = .completeWithIrqWrite v :: rest) →
        step s = .next t → t.donePend = true ∧ t.done = true ∧ t.busy = false)
    ∧ (∀ (s : State) (v : Word) (rest : List Input), s.inputs = .hostWrite 0x001C .word v :: rest →
        step s = .next { s with inputs := rest, donePend := if v.getLsbD 0 then false else s.donePend })
    ∧ ∀ (s : State) (draw : Word) (rest : List Input), s.inputs = .hostRead 0x001C .word draw :: rest →
        step s = .next { s with inputs := rest, readData := if s.donePend then 1 else 0 }

/-- R341: every command that answers leaves BUSY 0, DONE 1 and DONE_PEND 1. An error of any command but WRITE_CHUNK,
ENCODE_STRIPE and REBUILD has no effect beyond the completion, and so has any error of WRITE_CHUNK and ENCODE_STRIPE but
DRIVE_IO; these two change nothing but the chunk at ARG0 of the drives of the slots they write (R261: s, LP(g), GP; R262:
every LP, GP). A REBUILD that fails its checks has no effect; else it changes nothing but CLASS_VALID, the report, flags,
assignment and chunks: a RESTORE those of targets, a PROMOTE those of drives that were free, online spares. Where a write
errs (R261, R262, R97; WRITE_CHUNK's write j of three, ENCODE_STRIPE's write j of NG + 1), the command completes with
DRIVE_IO, the writes before it are made, its chunk holds the port's draw, and nothing else changes. The answers used up and
the traffic are the model's own (logs 3, 17). -/
def Obligations.ErrorsHaveNoOtherEffect : Prop :=
  (∀ (i : Instr) (s t : State), exec i s = .next t →
    t.busy = false ∧ t.done = true ∧ t.donePend = true
      ∧ (t.err ≠ .none → (∀ p b, i ≠ .writeChunk p b) → (∀ D, i ≠ .encodeStripe D) → (∀ st, i ≠ .rebuild st) →
          t = finish t.err { s with responses := t.responses, traffic := t.traffic })
      ∧ (((∃ p b, i = .writeChunk p b) ∨ ∃ D, i = .encodeStripe D) →
          t = finish t.err { s with drives := t.drives, responses := t.responses, traffic := t.traffic }
            ∧ (t.err ≠ .none → t.err ≠ .driveIo → t = finish t.err s))
      ∧ (∀ p b, i = .writeChunk p b → ∀ a,
          (∀ k, s.slotOf p.toNat = some k → ∀ j ∈ [k, s.ndata + s.layout.groupOf k, s.ndata + s.ng],
            ¬inChunk (s.serveAt (p.toNat / s.dpd) j) s.opArg0 a) →
          t.drives.read a = s.drives.read a)
      ∧ (∀ D, i = .encodeStripe D → ∀ a,
          (∀ j, s.ndata ≤ j → j ≤ s.ndata + s.ng → ¬inChunk (s.serveAt D.toNat j) s.opArg0 a) →
          t.drives.read a = s.drives.read a)
      ∧ ∀ st, i = .rebuild st →
          (t.err = .notInitialized ∨ t.err = .invalidDrive → t = finish t.err s)
            ∧ t = finish t.err
                { s with
                  classValid := t.classValid, reportCount := t.reportCount, report := t.report, online := t.online
                  serve := t.serve, pstate := t.pstate, drives := t.drives, responses := t.responses
                  traffic := t.traffic }
            ∧ (st = .restoreInPlace → ∀ a, (∀ p ∈ s.opTargets, ¬inFirstChunks p s.chunks a) →
                t.drives.read a = s.drives.read a)
            ∧ (st = .promoteSpare → ∀ a,
                (∀ q, s.pstateAt q = .spareFree → flagAt s.online q = true → ¬inFirstChunks q s.chunks a) →
                t.drives.read a = s.drives.read a))
  ∧ (∀ (s : State) (p : BitVec 16) (b : BitVec 3) (k j : Nat) (junk : Chunk),
    s.Inv → s.initialized = true → p.toNat < s.total → s.opArg0 < s.chunks →
    s.slotOf p.toNat = some k → k < s.ndata →
    (s.layout.writeNeeds (s.layout.groupOf k)).all (s.slotOnline (p.toNat / s.dpd)) = true →
    j < 3 → (∀ r ∈ s.responses.take (s.ndata - 1 + j), r = .ok) → s.responses[s.ndata - 1 + j]? = some (.err junk) →
      let D := p.toNat / s.dpd
      let data := fun m => if m = k then s.opBuf b.toNat else s.slotChunk D s.opArg0 m
      let writes := [(p.toNat, s.opBuf b.toNat),
        (s.serveAt D (s.ndata + s.layout.groupOf k), xorOver (s.layout.slotsOf (s.layout.groupOf k)) data),
        (s.serveAt D (s.ndata + s.ng), xorOver (List.range s.ndata) fun m => scale (s.layout.coef m) (data m))]
      ∃ t, exec (.writeChunk p b) s = .next t
        ∧ t = finish .driveIo
            { s with drives := t.drives, responses := s.responses.drop (s.ndata + j), traffic := t.traffic }
        ∧ (∀ i q v, writes[i]? = some (q, v) →
            t.driveChunk q s.opArg0 = if i < j then v else if i = j then junk else s.driveChunk q s.opArg0)
        ∧ ∀ a, (∀ w ∈ writes, ¬inChunk w.1 s.opArg0 a) → t.drives.read a = s.drives.read a)
  ∧ ∀ (s : State) (D : BitVec 16) (j : Nat) (junk : Chunk),
    s.Inv → s.initialized = true → D.toNat < s.ndom → s.opArg0 < s.chunks →
    (∀ k, k ≤ s.ndata + s.ng → flagAt s.online (s.serveAt D.toNat k) = true) →
    j ≤ s.ng → (∀ r ∈ s.responses.take (s.ndata + j), r = .ok) → s.responses[s.ndata + j]? = some (.err junk) →
      let data := s.slotChunk D.toNat s.opArg0
      let parity := fun i => if i < s.ng then xorOver (s.layout.slotsOf i) data
        else xorOver (List.range s.ndata) fun m => scale (s.layout.coef m) (data m)
      ∃ t, exec (.encodeStripe D) s = .next t
        ∧ t = finish .driveIo
            { s with drives := t.drives, responses := s.responses.drop (s.ndata + j + 1), traffic := t.traffic }
        ∧ (∀ i, i ≤ s.ng →
            t.driveChunk (s.serveAt D.toNat (s.ndata + i)) s.opArg0 =
              if i < j then parity i
              else if i = j then junk else s.driveChunk (s.serveAt D.toNat (s.ndata + i)) s.opArg0)
        ∧ ∀ a, (∀ i, i ≤ s.ng → ¬inChunk (s.serveAt D.toNat (s.ndata + i)) s.opArg0 a) →
            t.drives.read a = s.drives.read a

/-- R36, R40 to R43, R46, R47, R62, R316, R386: the engine writes a result register, a buffer, a flag, the topology, the
assignment or a drive only by the commands whose rules say so, and never the registers the host writes; a REBUILD sets
flags only, only under RESTORE_IN_PLACE, and only of targets that were offline at acceptance. -/
def Obligations.RegistersWrittenOnlyByTheirCommands : Prop :=
  ∀ (i : Instr) (s t : State), exec i s = .next t →
    (t.cmd = s.cmd ∧ t.arg0 = s.arg0 ∧ t.arg1 = s.arg1 ∧ t.irqEn = s.irqEn ∧ t.overrun = s.overrun
        ∧ t.targets = s.targets ∧ t.cfg = s.cfg ∧ t.inputs = s.inputs ∧ t.readData = s.readData)
      ∧ (t.peekData ≠ s.peekData → (∃ p, i = .peek p) ∧ t.err = .none)
      ∧ (t.qres0 ≠ s.qres0 ∨ t.qres1 ≠ s.qres1 →
          ((∃ p, i = .queryDrive p) ∨ (∃ G, i = .queryGroup G) ∨ ∃ D, i = .querySlot D) ∧ t.err = .none)
      ∧ (t.reportCount ≠ s.reportCount → i = .init ∨ i = .reset ∨ ∃ st, i = .rebuild st)
      ∧ (t.topo ≠ s.topo ∨ t.derived ≠ s.derived ∨ t.initialized ≠ s.initialized → i = .init ∨ i = .reset)
      ∧ (t.serve ≠ s.serve ∨ t.pstate ≠ s.pstate → i = .init ∨ i = .reset ∨ i = .rebuild .promoteSpare)
      ∧ (t.classGrp ≠ s.classGrp ∨ t.classDom ≠ s.classDom ∨ t.classRollup ≠ s.classRollup →
          i = .init ∨ i = .reset ∨ i = .classify)
      ∧ (t.bufs ≠ s.bufs → (∃ p b, i = .readChunk p b) ∨ (∃ p b, i = .decodeChunk p b) ∨ ∃ b, i = .recombine b)
      ∧ (t.report ≠ s.report → ∃ st, i = .rebuild st)
      ∧ (t.drives ≠ s.drives → (∃ p b, i = .writeChunk p b) ∨ (∃ D, i = .encodeStripe D) ∨ ∃ st, i = .rebuild st)
      ∧ ∀ p, flagAt t.online p ≠ flagAt s.online p →
          i = .init ∨ i = .reset ∨ (∃ v, i = .setOnlineDrive (BitVec.ofNat 16 p) v)
            ∨ (∃ D v, i = .setOnlineDomain D v ∧ D.toNat * s.dpd ≤ p ∧ p < D.toNat * s.dpd + s.dpd)
            ∨ (i = .rebuild .restoreInPlace ∧ p ∈ s.opTargets ∧ flagAt s.latch.online p = false
                ∧ flagAt t.online p = true)

/-- R350, R37: the line is DONE_EN AND DONE_PEND; a pending interrupt stays until the host writes IRQ_STATUS with bit 0 set
or hardware reset comes; a write to IRQ_EN leaves DONE_PEND, so that enabling while pending raises the line at once. -/
def Obligations.InterruptLineFollowsEnableAndPending : Prop :=
  (∀ s : State, s.irq = true ↔ s.irqEn = true ∧ s.donePend = true)
    ∧ (∀ s t : State, step s = .next t → s.donePend = true → t.donePend = false →
        (∃ v rest, (s.inputs = .hostWrite 0x001C .word v :: rest ∨ s.inputs = .completeWithIrqWrite v :: rest)
            ∧ v.getLsbD 0 = true)
          ∨ ∃ n junk bufs report rest, s.inputs = .hardwareReset n junk bufs report :: rest)
    ∧ ∀ (s t : State) (v : Word) (rest : List Input), s.inputs = .hostWrite 0x0018 .word v :: rest → step s = .next t →
        t.donePend = s.donePend ∧ t.irq = (v.getLsbD 0 && s.donePend)

/-- R342, R340 code 7: before INIT every command but NOP, INIT, RESET and RECOMBINE completes with NOT_INITIALIZED,
whatever its operands, and changes nothing else. -/
def Obligations.CommandsNeedInit : Prop :=
  ∀ (i : Instr) (s : State), s.initialized = false → i ≠ .nop → i ≠ .init → i ≠ .reset → (∀ b, i ≠ .recombine b) →
    exec i s = .next (finish .notInitialized s)

/-- R342: WRITE_CHUNK, READ_CHUNK, PEEK and DECODE_CHUNK report the first failing check in the order drive, range or
capacity, role, offline, and change nothing else. WRITE_CHUNK is DRIVE_OFFLINE where the serving drive of any data slot of
the domain, of LP(g) or of GP is offline (R261). ENCODE_STRIPE is INVALID_RANGE for a domain past NDOM or a chunk past
CHUNKS, then DRIVE_OFFLINE where the serving drive of any served slot of the domain is offline (R262). -/
def Obligations.DriveCommandChecksInOrder : Prop :=
  (∀ (s : State) (p : BitVec 16) (b : BitVec 3), s.initialized = true →
    (s.total ≤ p.toNat →
      exec (.writeChunk p b) s = .next (finish .invalidDrive s)
        ∧ exec (.readChunk p b) s = .next (finish .invalidDrive s)
        ∧ exec (.peek p) s = .next (finish .invalidDrive s)
        ∧ exec (.decodeChunk p b) s = .next (finish .invalidDrive s))
      ∧ (p.toNat < s.total → s.chunks ≤ s.opArg0 →
          exec (.writeChunk p b) s = .next (finish .insufficientCapacity s)
            ∧ exec (.readChunk p b) s = .next (finish .invalidRange s)
            ∧ exec (.decodeChunk p b) s = .next (finish .invalidRange s))
      ∧ (p.toNat < s.total → (s.opArg1 = 0 ∨ 4 < s.opArg1 ∨ s.chunks * Config.CHUNK < s.opArg0 + s.opArg1) →
          exec (.peek p) s = .next (finish .invalidRange s))
      ∧ (p.toNat < s.total → s.opArg0 < s.chunks → s.slotOf p.toNat = none →
          exec (.writeChunk p b) s = .next (finish .invalidRole s)
            ∧ exec (.decodeChunk p b) s = .next (finish .invalidRole s))
      ∧ (∀ k, p.toNat < s.total → s.opArg0 < s.chunks → s.slotOf p.toNat = some k → s.ndata ≤ k →
          exec (.writeChunk p b) s = .next (finish .invalidRole s))
      ∧ (∀ k j, p.toNat < s.total → s.opArg0 < s.chunks → s.slotOf p.toNat = some k → k < s.ndata →
          (j < s.ndata ∨ j = s.ndata + s.layout.groupOf k ∨ j = s.ndata + s.ng) →
          flagAt s.online (s.serveAt (p.toNat / s.dpd) j) = false →
          exec (.writeChunk p b) s = .next (finish .driveOffline s))
      ∧ (p.toNat < s.total → s.opArg0 < s.chunks → flagAt s.online p.toNat = false →
          exec (.readChunk p b) s = .next (finish .driveOffline s))
      ∧ (p.toNat < s.total → 1 ≤ s.opArg1 → s.opArg1 ≤ 4 → s.opArg0 + s.opArg1 ≤ s.chunks * Config.CHUNK →
          flagAt s.online p.toNat = false → exec (.peek p) s = .next (finish .driveOffline s)))
    ∧ ∀ (s : State) (D : BitVec 16), s.initialized = true →
        (s.ndom ≤ D.toNat ∨ s.chunks ≤ s.opArg0 → exec (.encodeStripe D) s = .next (finish .invalidRange s))
          ∧ ∀ k, D.toNat < s.ndom → s.opArg0 < s.chunks → k ≤ s.ndata + s.ng →
              flagAt s.online (s.serveAt D.toNat k) = false →
              exec (.encodeStripe D) s = .next (finish .driveOffline s)

/-! ### Engine control and flags (40_topology_control.md) -/

/-- R152, R153: INIT of a legal configuration latches it, derives the counts, sets every drive online, assigns every
served slot its own drive, and touches nothing else; INIT while initialised, or of an illegal configuration, only
completes with its error. -/
def Obligations.InitBuildsTopology : Prop :=
  (∀ s : State, s.initialized = true → exec .init s = .next (finish .alreadyInitialized s))
  ∧ (∀ s : State, s.initialized = false → s.cfg.valid = false → exec .init s = .next (finish .invalidConfig s))
  ∧ ∀ s : State, s.initialized = false → s.cfg.valid = true →
    ∃ t, exec .init s = .next t
      ∧ t = finish .none
          { s with
            topo := t.topo, derived := t.derived, online := t.online, serve := t.serve, pstate := t.pstate
            classGrp := BitVec.allOnes 128, classDom := BitVec.allOnes 64, classRollup := 3
            classValid := false, reportCount := 0, initialized := true }
      ∧ t.topo = { s.cfg with gsize := t.topo.gsize }
      ∧ (∀ i : Fin 8, t.topo.gsize[i] = if i.val < s.cfg.ngroups.toNat then s.cfg.gsize[i] else 0)
      ∧ t.derived.ndom.toNat = s.cfg.total.toNat / s.cfg.dpd.toNat
      ∧ t.derived.ndata.toNat = s.cfg.sizes.sum
      ∧ t.derived.totalData.toNat = t.derived.ndom.toNat * t.derived.ndata.toNat
      ∧ t.derived.totalLp.toNat = t.derived.ndom.toNat * s.cfg.ngroups.toNat
      ∧ t.derived.totalGp = t.derived.ndom
      ∧ t.derived.totalSpare.toNat = t.derived.ndom.toNat * s.cfg.spares.toNat
      ∧ t.derived.datacap.toNat = t.derived.totalData.toNat * s.cfg.chunks.toNat * 4096
      ∧ (∀ p, p < 512 → flagAt t.online p = decide (p < s.cfg.total.toNat))
      ∧ (∀ D, D < t.derived.ndom.toNat → ∀ k, k ≤ t.derived.ndata.toNat + s.cfg.ngroups.toNat →
          t.serveAt D k = D * s.cfg.dpd.toNat + k)
      ∧ ∀ p, p < s.cfg.total.toNat →
          t.pstateAt p =
            if p % s.cfg.dpd.toNat ≤ t.derived.ndata.toNat + s.cfg.ngroups.toNat then .native else .spareFree

/-- R151: the configuration check is conditions V1 to V8, and a configuration that passes has DPD ≥ 3. -/
def Obligations.ConfigCheckConditions : Prop :=
  (∀ t : TopoParams, t.valid = true → 3 ≤ t.dpd.toNat)
    ∧ ∀ t : TopoParams, t.valid = true ↔
    (1 ≤ t.ngroups.toNat ∧ t.ngroups.toNat ≤ 8)
      ∧ (∀ i : Fin 8, i.val < t.ngroups.toNat → 1 ≤ t.gsize[i].toNat)
      ∧ ((List.finRange 8).filter fun i => decide (i.val < t.ngroups.toNat)).foldr (fun i n => t.gsize[i].toNat + n) 0
          + t.ngroups.toNat + 1 + t.spares.toNat = t.dpd.toNat
      ∧ t.dpd.toNat ≤ 64
      ∧ (1 ≤ t.total.toNat ∧ t.total.toNat ≤ 512 ∧ t.total.toNat % t.dpd.toNat = 0)
      ∧ (t.total.toNat / t.dpd.toNat ≤ 32 ∧ t.total.toNat / t.dpd.toNat * t.ngroups.toNat ≤ 64)
      ∧ (1 ≤ t.chunks.toNat ∧ t.chunks.toNat ≤ 2 ^ 20)
      ∧ (t.scheme = 0 ∨ t.scheme = 1)

/-- R154: RESET while initialised clears the topology, the flags, the assignment, the classification and the report
count, and keeps everything else; when not initialised it changes nothing but CLASS_VALID. -/
def Obligations.ResetDropsTopology : Prop :=
  ∀ s : State,
    (s.initialized = true →
      exec .reset s = .next (finish .none
        { s with
          topo := TopoParams.zero, derived := TopoDerived.zero, online := 0, serve := [], pstate := []
          classGrp := BitVec.allOnes 128, classDom := BitVec.allOnes 64, classRollup := 3
          reportCount := 0, initialized := false, classValid := false }))
      ∧ (s.initialized = false → exec .reset s = .next (finish .none { s with classValid := false }))

/-- R156, R157: SET_ONLINE_DRIVE sets that drive's flag and SET_ONLINE_DOMAIN the flags of its domain's drives; both clear
CLASS_VALID and change nothing else; a drive past TOTAL is INVALID_DRIVE, a domain past NDOM is INVALID_RANGE. -/
def Obligations.SetOnlineSetsFlags : Prop :=
  (∀ (s : State) (p : BitVec 16) (v : Bool), s.initialized = true →
    (p.toNat < s.total → p.toNat < 512 →
      ∃ t, exec (.setOnlineDrive p v) s = .next t
        ∧ t = finish .none { s with online := t.online, classValid := false }
        ∧ flagAt t.online p.toNat = v
        ∧ ∀ q, q ≠ p.toNat → flagAt t.online q = flagAt s.online q)
      ∧ (s.total ≤ p.toNat → exec (.setOnlineDrive p v) s = .next (finish .invalidDrive s)))
    ∧ ∀ (s : State) (D : BitVec 16) (v : Bool), s.initialized = true →
        (D.toNat < s.ndom →
          ∃ t, exec (.setOnlineDomain D v) s = .next t
            ∧ t = finish .none { s with online := t.online, classValid := false }
            ∧ ∀ q, q < 512 →
                flagAt t.online q =
                  if D.toNat * s.dpd ≤ q ∧ q < D.toNat * s.dpd + s.dpd then v else flagAt s.online q)
          ∧ (s.ndom ≤ D.toNat → exec (.setOnlineDomain D v) s = .next (finish .invalidRange s))

/-- R165, R166: QUERY_DRIVE puts the drive's role, flag, promotion, domain, slot, group and global group id in its fields
of QRES0 and QRES1, and changes nothing else; a drive past TOTAL is INVALID_DRIVE. -/
def Obligations.QueryDriveRecord : Prop :=
  (∀ (s : State) (p : BitVec 16), s.initialized = true → s.total ≤ p.toNat →
    exec (.queryDrive p) s = .next (finish .invalidDrive s))
  ∧ ∀ (s : State) (p : BitVec 16), s.Inv → s.initialized = true → p.toNat < s.total →
    ∃ t, exec (.queryDrive p) s = .next t
      ∧ t = finish .none { s with qres0 := t.qres0, qres1 := t.qres1 }
      ∧ t.qres0.getLsbD 3 = flagAt s.online p.toNat
      ∧ t.qres0.getLsbD 4 = decide (s.pstateAt p.toNat = .promoted)
      ∧ t.qres0.extractLsb' 5 3 = 0
      ∧ (t.qres0.extractLsb' 8 8).toNat = p.toNat / s.dpd
      ∧ t.qres1.extractLsb' 16 16 = 0
      ∧ (∀ k, s.slotOf p.toNat = some k →
          (t.qres0.extractLsb' 16 8).toNat = k
            ∧ (k < s.ndata →
                t.qres0.extractLsb' 0 3 = 0 ∧ (t.qres0.extractLsb' 24 8).toNat = s.layout.groupOf k
                  ∧ (t.qres1.extractLsb' 0 16).toNat = p.toNat / s.dpd * s.ng + s.layout.groupOf k)
            ∧ (s.ndata ≤ k → k < s.ndata + s.ng →
                t.qres0.extractLsb' 0 3 = 1 ∧ (t.qres0.extractLsb' 24 8).toNat = k - s.ndata
                  ∧ (t.qres1.extractLsb' 0 16).toNat = p.toNat / s.dpd * s.ng + (k - s.ndata))
            ∧ (k = s.ndata + s.ng →
                t.qres0.extractLsb' 0 3 = 2 ∧ t.qres0.extractLsb' 24 8 = 0xFF ∧ t.qres1.extractLsb' 0 16 = 0xFFFF))
      ∧ (s.slotOf p.toNat = none →
          (t.qres0.extractLsb' 16 8).toNat = p.toNat % s.dpd
            ∧ t.qres0.extractLsb' 0 3 = (if s.pstateAt p.toNat = .spareFree then 3 else 4)
            ∧ t.qres0.extractLsb' 24 8 = 0xFF ∧ t.qres1.extractLsb' 0 16 = 0xFFFF)

/-- R167, R168: QUERY_GROUP puts the group's domain, number, start, size, LP slot and GP slot in their fields, and changes
nothing else; a group past NDOM·NG is INVALID_RANGE. -/
def Obligations.QueryGroupRecord : Prop :=
  ∀ (s : State) (G : BitVec 16), s.Inv → s.initialized = true →
    (G.toNat < s.ndom * s.ng →
      ∃ t, exec (.queryGroup G) s = .next t
        ∧ t = finish .none { s with qres0 := t.qres0, qres1 := t.qres1 }
        ∧ (t.qres0.extractLsb' 0 8).toNat = G.toNat / s.ng
        ∧ (t.qres0.extractLsb' 8 8).toNat = G.toNat % s.ng
        ∧ (t.qres0.extractLsb' 16 8).toNat = (s.topo.sizes.take (G.toNat % s.ng)).sum
        ∧ (t.qres0.extractLsb' 24 8).toNat = s.topo.gsizeAt (G.toNat % s.ng)
        ∧ (t.qres1.extractLsb' 0 8).toNat = s.ndata + G.toNat % s.ng
        ∧ (t.qres1.extractLsb' 8 8).toNat = s.ndata + s.ng
        ∧ t.qres1.extractLsb' 16 16 = 0)
      ∧ (s.ndom * s.ng ≤ G.toNat → exec (.queryGroup G) s = .next (finish .invalidRange s))

/-- R169, R170: QUERY_SLOT puts the serving drive, the slot's role, the drive's flag and the slot's group in their fields,
and changes nothing else; a domain past NDOM or a slot that is not served is INVALID_RANGE. -/
def Obligations.QuerySlotRecord : Prop :=
  ∀ (s : State) (D : BitVec 16), s.Inv → s.initialized = true →
    (D.toNat < s.ndom → s.opArg0 ≤ s.ndata + s.ng →
      ∃ t, exec (.querySlot D) s = .next t
        ∧ t = finish .none { s with qres0 := t.qres0, qres1 := t.qres1 }
        ∧ (t.qres0.extractLsb' 0 16).toNat = s.serveAt D.toNat s.opArg0
        ∧ t.qres0.getLsbD 19 = flagAt s.online (s.serveAt D.toNat s.opArg0)
        ∧ t.qres0.extractLsb' 20 12 = 0
        ∧ t.qres1.extractLsb' 8 24 = 0
        ∧ (s.opArg0 < s.ndata →
            t.qres0.extractLsb' 16 3 = 0 ∧ (t.qres1.extractLsb' 0 8).toNat = s.layout.groupOf s.opArg0)
        ∧ (s.ndata ≤ s.opArg0 → s.opArg0 < s.ndata + s.ng →
            t.qres0.extractLsb' 16 3 = 1 ∧ (t.qres1.extractLsb' 0 8).toNat = s.opArg0 - s.ndata)
        ∧ (s.opArg0 = s.ndata + s.ng → t.qres0.extractLsb' 16 3 = 2 ∧ t.qres1.extractLsb' 0 8 = 0xFF))
      ∧ (s.ndom ≤ D.toNat ∨ s.ndata + s.ng < s.opArg0 → exec (.querySlot D) s = .next (finish .invalidRange s))

/-- R302: CLASS_VALID becomes 1 only by CLASSIFY, 0 by a successful SET_ONLINE_*, by a REBUILD that passes its operand
checks, by a successful INIT, by RESET and by hardware reset, and no other command changes it; while no CLASSIFY, INIT or
RESET runs the CLASS_* registers keep the last classification. -/
def Obligations.ClassValidSetAndCleared : Prop :=
  (∀ (i : Instr) (s t : State), exec i s = .next t →
    t.classValid =
      match i with
      | .classify => s.classValid || s.initialized
      | .setOnlineDrive _ _ => s.classValid && decide (t.err ≠ .none)
      | .setOnlineDomain _ _ => s.classValid && decide (t.err ≠ .none)
      | .init => s.classValid && decide (t.err ≠ .none)
      | .reset => false
      | .rebuild _ => s.classValid && !(s.initialized && s.opTargets.all fun p => decide (p < s.total))
      | _ => s.classValid)
    ∧ (∀ (i : Instr) (s t : State), exec i s = .next t → i ≠ .classify → i ≠ .init → i ≠ .reset →
        t.classGrp = s.classGrp ∧ t.classDom = s.classDom ∧ t.classRollup = s.classRollup)
    ∧ ∀ (s t : State) (n : Nat) (junk : Chunk) (bufs : Vector Chunk 4) (report : BitVec 131072) (rest : List Input),
        s.inputs = .hardwareReset n junk bufs report :: rest → step s = .next t → t.classValid = false

/-! ### Parity encoding (42_encode.md) -/

/-- R261: WRITE_CHUNK writes the buffer to the drive and recomputes the group's local parity and the global parity of the
stripe from all data; every other byte of every drive, and all else, stays. -/
def Obligations.WriteChunkWritesStripe : Prop :=
  ∀ (s : State) (p : BitVec 16) (b : BitVec 3) (k : Nat),
    s.Inv → s.initialized = true → bufferInRange b = true → p.toNat < s.total → s.opArg0 < s.chunks →
    s.slotOf p.toNat = some k → k < s.ndata →
    (∀ j, j < s.ndata → flagAt s.online (s.serveAt (p.toNat / s.dpd) j) = true) →
    flagAt s.online (s.serveAt (p.toNat / s.dpd) (s.ndata + s.layout.groupOf k)) = true →
    flagAt s.online (s.serveAt (p.toNat / s.dpd) (s.ndata + s.ng)) = true →
    s.portOk →
      let D := p.toNat / s.dpd
      let c := s.opArg0
      let lp := s.serveAt D (s.ndata + s.layout.groupOf k)
      let gp := s.serveAt D (s.ndata + s.ng)
      let data := fun j => if j = k then s.opBuf b.toNat else s.slotChunk D c j
      ∃ t, exec (.writeChunk p b) s = .next t
        ∧ t = finish .none { s with drives := t.drives, responses := t.responses, traffic := t.traffic }
        ∧ t.driveChunk p.toNat c = s.opBuf b.toNat
        ∧ t.driveChunk lp c = xorOver (s.layout.slotsOf (s.layout.groupOf k)) data
        ∧ t.driveChunk gp c = xorOver (List.range s.ndata) (fun j => scale (s.layout.coef j) (data j))
        ∧ ∀ a,
            (∀ q ∈ [p.toNat, lp, gp],
              ¬(driveKey q (c * Config.CHUNK) ≤ a ∧ a < driveKey q (c * Config.CHUNK) + Config.CHUNK)) →
            t.drives.read a = s.drives.read a

/-- R261, R262, R260: a read error in WRITE_CHUNK or in ENCODE_STRIPE writes nothing: with the command's checks passed and
the first error at one of its reads (NDATA - 1 of them, NDATA for ENCODE_STRIPE), it completes with DRIVE_IO, the drives
and all else unchanged. The answers used up and the traffic are the model's own (logs 3, 17, 26). -/
def Obligations.WriteChunkReadErrorWritesNothing : Prop :=
  (∀ (s : State) (p : BitVec 16) (b : BitVec 3) (k n : Nat) (junk : Chunk),
    s.Inv → s.initialized = true → p.toNat < s.total → s.opArg0 < s.chunks →
    s.slotOf p.toNat = some k → k < s.ndata →
    (s.layout.writeNeeds (s.layout.groupOf k)).all (s.slotOnline (p.toNat / s.dpd)) = true →
    n + 1 < s.ndata → (∀ r ∈ s.responses.take n, r = .ok) → s.responses[n]? = some (.err junk) →
      ∃ t, exec (.writeChunk p b) s = .next t
        ∧ t = finish .driveIo { s with responses := s.responses.drop (n + 1), traffic := t.traffic })
  ∧ ∀ (s : State) (D : BitVec 16) (n : Nat) (junk : Chunk),
    s.Inv → s.initialized = true → D.toNat < s.ndom → s.opArg0 < s.chunks →
    (∀ k, k ≤ s.ndata + s.ng → flagAt s.online (s.serveAt D.toNat k) = true) →
    n < s.ndata → (∀ r ∈ s.responses.take n, r = .ok) → s.responses[n]? = some (.err junk) →
      ∃ t, exec (.encodeStripe D) s = .next t
        ∧ t = finish .driveIo { s with responses := s.responses.drop (n + 1), traffic := t.traffic }

/-- R208: WRITE_CHUNK keeps a consistent chunk of the domain consistent. -/
def Obligations.WriteChunkKeepsConsistency : Prop :=
  ∀ (s t : State) (p : BitVec 16) (b : BitVec 3),
    s.Inv → s.initialized = true → s.portOk → exec (.writeChunk p b) s = .next t → t.err = .none →
    s.stripeConsistent (p.toNat / s.dpd) s.opArg0 → t.stripeConsistent (p.toNat / s.dpd) s.opArg0

/-- R262, R208: ENCODE_STRIPE makes the chunk consistent: every parity slot holds its parity of the data, which stays, as
does every byte outside the parity chunks and all else. -/
def Obligations.EncodeStripeMakesConsistent : Prop :=
  ∀ (s : State) (D : BitVec 16),
    s.Inv → s.initialized = true → D.toNat < s.ndom → s.opArg0 < s.chunks →
    (∀ k, k ≤ s.ndata + s.ng → flagAt s.online (s.serveAt D.toNat k) = true) → s.portOk →
      ∃ t, exec (.encodeStripe D) s = .next t
        ∧ t = finish .none { s with drives := t.drives, responses := t.responses, traffic := t.traffic }
        ∧ t.stripeConsistent D.toNat s.opArg0
        ∧ ∀ a,
            (∀ k, s.ndata ≤ k → k ≤ s.ndata + s.ng →
              ¬(driveKey (s.serveAt D.toNat k) (s.opArg0 * Config.CHUNK) ≤ a
                ∧ a < driveKey (s.serveAt D.toNat k) (s.opArg0 * Config.CHUNK) + Config.CHUNK)) →
            t.drives.read a = s.drives.read a

/-- R263: RECOMBINE puts the exclusive-or of the selected buffers, as at acceptance, in BUF[b], and changes nothing else;
a mask bit above bit 3 is INVALID_RANGE. -/
def Obligations.RecombineXorsBuffers : Prop :=
  ∀ (s : State) (b : BitVec 3), bufferInRange b = true →
    (s.latch.arg1.toNat < 16 →
      ∃ t, exec (.recombine b) s = .next t
        ∧ t = finish .none { s with bufs := t.bufs }
        ∧ (∀ e, e < 4 → e ≠ b.toNat → t.bufAt e = s.bufAt e)
        ∧ ∀ i, i < 4096 →
            laneAt (t.bufAt b.toNat) i =
              (if s.latch.arg1.getLsbD 0 then laneAt (s.opBuf 0) i else 0)
                ^^^ (if s.latch.arg1.getLsbD 1 then laneAt (s.opBuf 1) i else 0)
                ^^^ (if s.latch.arg1.getLsbD 2 then laneAt (s.opBuf 2) i else 0)
                ^^^ (if s.latch.arg1.getLsbD 3 then laneAt (s.opBuf 3) i else 0))
      ∧ (16 ≤ s.latch.arg1.toNat → exec (.recombine b) s = .next (finish .invalidRange s))

/-! ### Access and decoding (43_access_decode.md) -/

/-- R281: READ_CHUNK of an online drive puts its chunk in BUF[b], byte for byte, and changes nothing else; on a drive
error BUF[b] is unchanged. -/
def Obligations.ReadChunkReadsDrive : Prop :=
  ∀ (s : State) (p : BitVec 16) (b : BitVec 3),
    s.initialized = true → bufferInRange b = true → p.toNat < s.total → s.opArg0 < s.chunks →
    flagAt s.online p.toNat = true →
      (s.response = .ok →
        ∃ t, exec (.readChunk p b) s = .next t
          ∧ t = finish .none { s with bufs := t.bufs, responses := s.responses.tail, traffic := t.traffic }
          ∧ (∀ e, e < 4 → e ≠ b.toNat → t.bufAt e = s.bufAt e)
          ∧ ∀ i, i < 4096 → laneAt (t.bufAt b.toNat) i = s.driveByte p.toNat (s.opArg0 * 4096 + i))
        ∧ ∀ junk, s.response = .err junk →
            ∃ t, exec (.readChunk p b) s = .next t
              ∧ t = finish .driveIo { s with responses := s.responses.tail, traffic := t.traffic }

/-- R282, R283: PEEK of a legal range of an online drive puts byte j of the range in bits [8j+7:8j] of PEEK_DATA, zeros
above, and changes nothing else; on a drive error PEEK_DATA is unchanged. -/
def Obligations.PeekReadsBytes : Prop :=
  ∀ (s : State) (p : BitVec 16),
    s.initialized = true → p.toNat < s.total → 1 ≤ s.opArg1 → s.opArg1 ≤ 4 →
    s.opArg0 + s.opArg1 ≤ s.chunks * 4096 → flagAt s.online p.toNat = true →
      (s.response = .ok →
        ∃ t, exec (.peek p) s = .next t
          ∧ t = finish .none { s with peekData := t.peekData, responses := s.responses.tail, traffic := t.traffic }
          ∧ ∀ j, j < 4 →
              t.peekData.extractLsb' (8 * j) 8 =
                if j < s.opArg1 then s.driveByte p.toNat (s.opArg0 + j) else 0)
        ∧ ∀ junk, s.response = .err junk →
            ∃ t, exec (.peek p) s = .next t
              ∧ t = finish .driveIo { s with responses := s.responses.tail, traffic := t.traffic }

/-- R284: DECODE_CHUNK of an online serving drive is a raw read into BUF[b]; of an offline one whose slot is not DATA_LOSS
it puts the content that R225's formulas give from the stripe in BUF[b], where the reads of its sources (R226) are answered
ok; of a DATA_LOSS slot it completes with UNRECOVERABLE_DATA. Where a read it makes is answered with an error, it
completes with DRIVE_IO and BUF[b] is unchanged. Nothing else changes. The answers used up and the traffic are the model's
own (logs 3, 17, 26). -/
def Obligations.DecodeChunkGivesContent : Prop :=
  ∀ (s : State) (p : BitVec 16) (b : BitVec 3) (k : Nat),
    s.Inv → s.initialized = true → bufferInRange b = true → p.toNat < s.total → s.opArg0 < s.chunks →
    s.slotOf p.toNat = some k →
      let D := p.toNat / s.dpd
      let off := fun j => !flagAt s.online (s.serveAt D j)
      let reads := (s.layout.sources off k).length
      (flagAt s.online p.toNat = true →
        (s.response = .ok →
          ∃ t, exec (.decodeChunk p b) s = .next t
            ∧ t = finish .none { s with bufs := t.bufs, responses := s.responses.tail, traffic := t.traffic }
            ∧ (∀ e, e < 4 → e ≠ b.toNat → t.bufAt e = s.bufAt e)
            ∧ t.bufAt b.toNat = s.driveChunk p.toNat s.opArg0)
          ∧ ∀ junk, s.response = .err junk →
              ∃ t, exec (.decodeChunk p b) s = .next t
                ∧ t = finish .driveIo { s with responses := s.responses.tail, traffic := t.traffic })
        ∧ (flagAt s.online p.toNat = false → s.layout.sclass off k ≠ .dataLoss →
            ((∀ r ∈ s.responses.take reads, r = .ok) →
              ∃ t, exec (.decodeChunk p b) s = .next t
                ∧ t = finish .none
                    { s with bufs := t.bufs, responses := s.responses.drop reads, traffic := t.traffic }
                ∧ (∀ e, e < 4 → e ≠ b.toNat → t.bufAt e = s.bufAt e)
                ∧ t.bufAt b.toNat = s.layout.content off (s.slotChunk D s.opArg0) k)
              ∧ ∀ n junk, n < reads → (∀ r ∈ s.responses.take n, r = .ok) → s.responses[n]? = some (.err junk) →
                  ∃ t, exec (.decodeChunk p b) s = .next t
                    ∧ t = finish .driveIo { s with responses := s.responses.drop (n + 1), traffic := t.traffic })
        ∧ (flagAt s.online p.toNat = false → s.layout.sclass off k = .dataLoss →
            exec (.decodeChunk p b) s = .next (finish .unrecoverableData s))

/-- R224 and its example: when the stripe is consistent, DECODE_CHUNK of a failed, recoverable slot gives the bytes the
failed drive holds. -/
def Obligations.DecodeRecoversLostChunk : Prop :=
  ∀ (s : State) (p : BitVec 16) (b : BitVec 3) (k : Nat),
    s.Inv → s.initialized = true → bufferInRange b = true → p.toNat < s.total → s.opArg0 < s.chunks →
    s.slotOf p.toNat = some k → s.portOk → flagAt s.online p.toNat = false →
    s.layout.sclass (fun j => !flagAt s.online (s.serveAt (p.toNat / s.dpd) j)) k ≠ .dataLoss →
    s.stripeConsistent (p.toNat / s.dpd) s.opArg0 →
      ∃ t, exec (.decodeChunk p b) s = .next t ∧ t.err = .none
        ∧ t.bufAt b.toNat = s.driveChunk p.toNat s.opArg0

/-! ### Parity arithmetic and solver (41_parity_math.md) -/

/-- R229: the worked values. -/
def Obligations.FieldWorkedValues : Prop :=
  gfMul 2 0x80 = 0x1D ∧ gfMul 0x80 0x80 = 0x13 ∧ gfMul 3 7 = 0x09 ∧ gfMul 0x53 0xCA = 0x8F ∧ gfMul 0xFF 0xFF = 0xE2
    ∧ gfPow 2 8 = 0x1D ∧ gfPow 2 255 = 0x01 ∧ gfInv 2 = 0x8E ∧ gfInv 3 = 0xF4 ∧ gfInv 0x53 = 0x8C
    ∧ [0, 1, 2, 3, 4, 5, 6, 7].map (fun k => gfInv (gfPow 2 k)) = [0x01, 0x8e, 0x47, 0xad, 0xd8, 0x6c, 0x36, 0x1b]

/-- R201, last sentence: gf_mul is commutative, associative, distributes over ⊕, has 1 as identity and 0 as absorbing
element. -/
def Obligations.FieldMultiplicationLaws : Prop :=
  (∀ a b : Byte, gfMul a b = gfMul b a)
    ∧ (∀ a b c : Byte, gfMul (gfMul a b) c = gfMul a (gfMul b c))
    ∧ (∀ a b c : Byte, gfMul a (b ^^^ c) = gfMul a b ^^^ gfMul a c)
    ∧ (∀ a : Byte, gfMul a 1 = a) ∧ ∀ a : Byte, gfMul a 0 = 0

/-- R203: gf_inv gives the unique inverse of a nonzero byte and is gf_pow(a, 254); gf_div multiplies by it. R202: the powers
of 2 from 0 to 254 take every nonzero byte value, and 2 to the 255 is 1. -/
def Obligations.FieldInverseUnique : Prop :=
  (∀ a : Byte, a ≠ 0 → gfMul a (gfInv a) = 1 ∧ ∀ b : Byte, gfMul a b = 1 → b = gfInv a)
    ∧ (∀ a : Byte, gfInv a = gfPow a 254)
    ∧ (∀ a b c : Byte, b ≠ 0 → (gfMul c b = a ↔ c = gfDiv a b))
    ∧ (∀ a : Byte, a ≠ 0 → ∃ n, n < 255 ∧ gfPow 2 n = a ∧ ∀ m, m < 255 → gfPow 2 m = a → m = n)
    ∧ gfPow 2 255 = 1

/-- R205: under WEIGHTED the coefficient of slot k is 2 to the k, and the coefficients of up to 62 data slots (log 25) are
nonzero, distinct and have nonzero pairwise sums (R203); under PLAIN_XOR each is 1. -/
def Obligations.CoefficientsDistinct : Prop :=
  ∀ L : Layout,
    (L.plain = false → L.ndata ≤ 62 →
      ∀ j k, j < L.ndata → k < L.ndata →
        L.coef k = gfPow 2 k ∧ L.coef k ≠ 0 ∧ (j ≠ k → L.coef j ≠ L.coef k ∧ L.coef j ^^^ L.coef k ≠ 0))
      ∧ (L.plain = true → ∀ k, L.coef k = 1)

/-- R204: scaling and dividing a chunk act on each of its 4096 byte lanes alone. -/
def Obligations.ChunkOperationsActOnLanes : Prop :=
  ∀ (x y : Chunk) (c : Byte) (i : Nat), i < 4096 →
    laneAt (x ^^^ y) i = laneAt x i ^^^ laneAt y i
      ∧ laneAt (scale c x) i = gfMul c (laneAt x i)
      ∧ laneAt (unscale x c) i = gfDiv (laneAt x i) c

/-- R213, R214 against R212: the closed forms say exactly which unknowns the rank criterion determines. R220, R221, R223:
the class of a group is OK, RECOVERABLE or DATA_LOSS as its failures and the rank criterion say, whatever fails in the other
groups; GP's is OK when it is online, else RECOVERABLE or DATA_LOSS as the groups' are; a slot's is its group's or GP's. -/
def Obligations.DeterminedIffRank : Prop :=
  ∀ (L : Layout) (off : Nat → Bool), L.legal →
    (∀ k, k < L.ndata → off k = true → (L.determined off (L.groupOf k) = true ↔ L.rankDetermined off k))
      ∧ (∀ g, g < L.ng →
          let intact := (∀ k, k < L.ndata → L.groupOf k = g → off k = false) ∧ off (L.ndata + g) = false
          let solvable := ∀ k, k < L.ndata → L.groupOf k = g → off k = true → L.rankDetermined off k
          (L.gclass off g = .ok ↔ intact)
            ∧ (L.gclass off g = .recoverable ↔ ¬intact ∧ solvable)
            ∧ (L.gclass off g = .dataLoss ↔ ¬solvable))
      ∧ (L.qclass off = .ok ↔ off (L.ndata + L.ng) = false)
      ∧ (L.qclass off = .recoverable ↔
          off (L.ndata + L.ng) = true ∧ ∀ g, g < L.ng → L.gclass off g ≠ .dataLoss)
      ∧ (L.qclass off = .dataLoss ↔
          off (L.ndata + L.ng) = true ∧ ∃ g, g < L.ng ∧ L.gclass off g = .dataLoss)
      ∧ (∀ k, k < L.ndata → L.sclass off k = L.gclass off (L.groupOf k))
      ∧ (∀ g, g < L.ng → L.sclass off (L.ndata + g) = L.gclass off g)
      ∧ L.sclass off (L.ndata + L.ng) = L.qclass off

/-- R226, R227: no failed slot is ever in the source set of a recoverable one, a source is a served slot, and the content of
a recoverable failed slot depends only on the chunks of its source set. -/
def Obligations.SourcesSuffice : Prop :=
  ∀ (L : Layout) (off : Nat → Bool) (k : Nat), k < L.served → off k = true → L.sclass off k ≠ .dataLoss →
    (∀ t ∈ L.sources off k, off t = false ∧ t < L.served)
      ∧ ∀ d e : Nat → Chunk, (∀ t ∈ L.sources off k, d t = e t) → L.content off d k = L.content off e k

/-- R224, R225: from a consistent stripe the content of every slot that is not DATA_LOSS is the slot's chunk, whatever
the failed slots' chunks are replaced by. -/
def Obligations.ReconstructionIsExact : Prop :=
  ∀ (L : Layout) (off : Nat → Bool) (d e : Nat → Chunk) (k : Nat), L.legal → L.consistent d →
    (∀ t, t < L.served → off t = false → e t = d t) → k < L.served → L.sclass off k ≠ .dataLoss →
      L.content off e k = d k

/-- R215: the table of one group's failures with the other groups of the domain intact. -/
def Obligations.OneGroupFailureTable : Prop :=
  ∀ (L : Layout) (off : Nat → Bool) (g : Nat), g < L.ng →
    (∀ h, h < L.ng → h ≠ g → L.lost off h = [] ∧ L.lpOff off h = false) →
      ((L.lost off g).length = 0 → L.lpOff off g = false → L.gclass off g = .ok)
        ∧ ((L.lost off g).length = 1 → L.lpOff off g = false → L.gclass off g = .recoverable)
        ∧ ((L.lost off g).length = 0 → L.lpOff off g = true → L.gclass off g = .recoverable)
        ∧ ((L.lost off g).length = 2 → L.lpOff off g = false → L.gpOff off = false →
            L.gclass off g = if L.plain then .dataLoss else .recoverable)
        ∧ ((L.lost off g).length = 1 → L.lpOff off g = true → L.gpOff off = false → L.gclass off g = .recoverable)
        ∧ ((L.lost off g).length + (if L.lpOff off g then 1 else 0) = 2 → L.gpOff off = true →
            L.gclass off g = .dataLoss)
        ∧ (3 ≤ (L.lost off g).length + (if L.lpOff off g then 1 else 0) → L.gclass off g = .dataLoss)

/-! ### Classification (44_integrity_rebuild.md) -/

/-- R301, R222: CLASSIFY writes the class of each group, of each domain and the rollup in its fields, NOT_PRESENT in the
others, sets CLASS_VALID, and changes nothing else. -/
def Obligations.ClassifyWritesFields : Prop :=
  ∀ s : State, s.initialized = true →
    ∃ t, exec .classify s = .next t
      ∧ t = finish .none
          { s with classGrp := t.classGrp, classDom := t.classDom, classRollup := t.classRollup, classValid := true }
      ∧ (∀ G, G < 64 →
          t.classGrp.extractLsb' (2 * G) 2 =
            if G < s.ndom * s.ng then
              (s.layout.gclass (fun k => !flagAt s.latch.online (s.serveAt (G / s.ng) k)) (G % s.ng)).code
            else 3)
      ∧ (∀ D, D < 32 →
          t.classDom.extractLsb' (2 * D) 2 =
            if D < s.ndom then (s.layout.qclass fun k => !flagAt s.latch.online (s.serveAt D k)).code else 3)
      ∧ (t.classRollup = 2 ↔
          ∃ D, D < s.ndom ∧
            ((∃ g, g < s.ng ∧ s.layout.gclass (fun k => !flagAt s.latch.online (s.serveAt D k)) g = .dataLoss)
              ∨ s.layout.qclass (fun k => !flagAt s.latch.online (s.serveAt D k)) = .dataLoss))
      ∧ (t.classRollup = 0 ↔
          ∀ D, D < s.ndom →
            (∀ g, g < s.ng → s.layout.gclass (fun k => !flagAt s.latch.online (s.serveAt D k)) g = .ok)
              ∧ s.layout.qclass (fun k => !flagAt s.latch.online (s.serveAt D k)) = .ok)
      ∧ t.classRollup ≠ 3

/-! ### Rebuild (44_integrity_rebuild.md) -/

/-- R311: REBUILD of targets that all exist completes whatever the drive port answers, with CLASS_VALID 0 and
REPORT_COUNT the number of targets, and changes only flags, assignment, report and drives; a target past TOTAL is
INVALID_DRIVE and nothing changes. -/
def Obligations.RebuildCompletes : Prop :=
  ∀ (s : State) (st : Strategy), s.Inv → s.initialized = true →
    ((∀ p ∈ s.opTargets, p < s.total) →
      ∃ t, exec (.rebuild st) s = .next t
        ∧ t = finish t.err
            { s with
              classValid := false, reportCount := BitVec.ofNat 32 s.opTargets.length, report := t.report
              online := t.online, serve := t.serve, pstate := t.pstate, drives := t.drives
              responses := t.responses, traffic := t.traffic }
        ∧ (t.err = .none ∨ t.err = .unrecoverableData ∨ t.err = .partialRebuild))
      ∧ ((∃ p ∈ s.opTargets, s.total ≤ p) → exec (.rebuild st) s = .next (finish .invalidDrive s))

/-- R311, R312: a REBUILD processes each target once, in ascending order of R312's key (`State.orderKey`, read at
acceptance), and leaves target n's entry in report entry n. From state σ n to σ (n+1) exactly what R313 to R318 say of that
target happens (`State.rebuildsTarget`): it is only reported, or its chunks are reconstructed onto the target or the chosen
spare and it is committed, or (R315) the first answer that is an error ends it as PARTIAL, with its count and first
unrecoverable chunk, the target offline, the spare SPARE_FREE and only the failing chunk open; nothing else of the machine
changes. ERR is the aggregate of the statuses (R319). Rests on logs 10, 11, 12, 26, and for the entries past those written
on R52. -/
def Obligations.RebuildOrderSorted : Prop :=
  ∀ (s : State) (st : Strategy), s.Inv → s.initialized = true → (∀ p ∈ s.opTargets, p < s.total) →
    ∃ (order : List Nat) (σ : Nat → State) (status : Nat → ReportStatus),
      order.Perm s.opTargets
        ∧ order.Pairwise (fun p q => s.orderKey p < s.orderKey q)
        ∧ σ 0 = { s with classValid := false, reportCount := BitVec.ofNat 32 s.opTargets.length }
        ∧ (∀ n p, order[n]? = some p → s.rebuildsTarget (σ n) (σ (n + 1)) st n p (status n))
        ∧ (∀ n p, order[n]? = some p →
            (σ order.length).reportWordAt n 0 = (status n).code.setWidth 32 <<< 16 ||| BitVec.ofNat 32 p
              ∧ ∀ j, j < 8 → (σ order.length).reportWordAt n j = (σ (n + 1)).reportWordAt n j)
        ∧ exec (.rebuild st) s
            = .next (finish (aggregateError ((List.range order.length).map status)) (σ order.length))

/-- R313 cases 1 to 4: a single target that serves no slot, is online, is DATA_LOSS, or finds no spare is reported with
its status, and nothing else changes; the report words past entry 0 keep what they held (R52; log 23). -/
def Obligations.RebuildSkipsTarget : Prop :=
  ∀ (s : State) (st : Strategy) (p : Nat), s.Inv → s.initialized = true → s.opTargets = [p] → p < s.total →
    let off := fun j => !flagAt s.online (s.serveAt (p / s.dpd) j)
    let skipped := fun (e : ErrCode) (status first : Word) =>
      ∃ t, exec (.rebuild st) s = .next t
        ∧ t = finish e { s with classValid := false, reportCount := 1, report := t.report }
        ∧ t.reportWordAt 0 0 = status ||| BitVec.ofNat 32 p ∧ t.reportWordAt 0 1 = 0
        ∧ t.reportWordAt 0 2 = first ∧ t.reportWordAt 0 3 = 0xFFFF
        ∧ (∀ j, 4 ≤ j → j < 8 → t.reportWordAt 0 j = 0)
        ∧ ∀ a, ¬(0x8000 ≤ a ∧ a < 0x8020) → t.report.read a = s.report.read a
    (s.slotOf p = none → skipped .partialRebuild 0x00070000 0xFFFFFFFF)
      ∧ (∀ k, s.slotOf p = some k → flagAt s.online p = true → skipped .none 0x00050000 0xFFFFFFFF)
      ∧ (∀ k, s.slotOf p = some k → flagAt s.online p = false → s.layout.sclass off k = .dataLoss →
          skipped .unrecoverableData 0x00030000 0)
      ∧ (∀ k, s.slotOf p = some k → flagAt s.online p = false → s.layout.sclass off k ≠ .dataLoss →
          st = .promoteSpare →
          (∀ q, p / s.dpd * s.dpd ≤ q → q < p / s.dpd * s.dpd + s.dpd →
            ¬(s.pstateAt q = .spareFree ∧ flagAt s.online q = true)) →
          skipped .partialRebuild 0x00060000 0xFFFFFFFF)

/-- R315, R316, R318: RESTORE of a single offline, recoverable target writes the content of every chunk to it, sets its
flag and reports RESTORED with its sources; every other byte, flag and register stays, the report words past entry 0 as
R52 says (log 23). That a RESTORE writes its target, which is offline, is R315's against R96 (log 10). -/
def Obligations.RestoreRebuildsDrive : Prop :=
  ∀ (s : State) (p k : Nat), s.Inv → s.initialized = true → s.opTargets = [p] → p < s.total →
    s.slotOf p = some k → flagAt s.online p = false →
    s.layout.sclass (fun j => !flagAt s.online (s.serveAt (p / s.dpd) j)) k ≠ .dataLoss → s.portOk →
      let D := p / s.dpd
      let off := fun j => !flagAt s.online (s.serveAt D j)
      ∃ t, exec (.rebuild .restoreInPlace) s = .next t
        ∧ t = finish .none
            { s with
              classValid := false, reportCount := 1, report := t.report, online := t.online, drives := t.drives
              responses := t.responses, traffic := t.traffic }
        ∧ flagAt t.online p = true
        ∧ (∀ q, q ≠ p → flagAt t.online q = flagAt s.online q)
        ∧ (∀ c, c < s.chunks → t.driveChunk p c = s.layout.content off (s.slotChunk D c) k)
        ∧ (∀ a, ¬(driveKey p 0 ≤ a ∧ a < driveKey p (s.chunks * Config.CHUNK)) → t.drives.read a = s.drives.read a)
        ∧ t.reportWordAt 0 0 = 0x00010000 ||| BitVec.ofNat 32 p
        ∧ t.reportWordAt 0 1 = s.topo.chunks ∧ t.reportWordAt 0 2 = 0xFFFFFFFF
        ∧ t.reportWordAt 0 3 = BitVec.ofNat 32 p
        ∧ (∀ i, i < 64 →
            ((t.reportWordAt 0 (4 + i / 32)).getLsbD (i % 32) = true
              ↔ ∃ m ∈ s.layout.sources off k, s.serveAt D m = D * s.dpd + i))
        ∧ t.reportWordAt 0 6 = 0 ∧ t.reportWordAt 0 7 = 0
        ∧ ∀ a, ¬(0x8000 ≤ a ∧ a < 0x8020) → t.report.read a = s.report.read a

/-- R314, R315, R317: PROMOTE of a single offline, recoverable target writes the content of every chunk to the
lowest-numbered free, online spare of the domain, which takes over the slot while the target retires, and reports PROMOTED
with the spare and its sources (R318); every other byte, flag and register stays, the report words past entry 0 as R52
says (log 23). -/
def Obligations.PromoteMovesSlotToSpare : Prop :=
  ∀ (s : State) (p k q : Nat), s.Inv → s.initialized = true → s.opTargets = [p] → p < s.total →
    s.slotOf p = some k → flagAt s.online p = false →
    s.layout.sclass (fun j => !flagAt s.online (s.serveAt (p / s.dpd) j)) k ≠ .dataLoss → s.portOk →
    p / s.dpd * s.dpd ≤ q → q < p / s.dpd * s.dpd + s.dpd →
    s.pstateAt q = .spareFree → flagAt s.online q = true →
    (∀ r, p / s.dpd * s.dpd ≤ r → r < q → ¬(s.pstateAt r = .spareFree ∧ flagAt s.online r = true)) →
      let D := p / s.dpd
      let off := fun j => !flagAt s.online (s.serveAt D j)
      ∃ t, exec (.rebuild .promoteSpare) s = .next t
        ∧ t = finish .none
            { s with
              classValid := false, reportCount := 1, report := t.report, serve := t.serve, pstate := t.pstate
              drives := t.drives, responses := t.responses, traffic := t.traffic }
        ∧ (∀ E j, E < s.ndom → j < s.layout.served →
            t.serveAt E j = if E = D ∧ j = k then q else s.serveAt E j)
        ∧ (∀ r, r < s.total →
            t.pstateAt r = if r = q then .promoted else if r = p then .retired else s.pstateAt r)
        ∧ (∀ c, c < s.chunks → t.driveChunk q c = s.layout.content off (s.slotChunk D c) k)
        ∧ (∀ a, ¬(driveKey q 0 ≤ a ∧ a < driveKey q (s.chunks * Config.CHUNK)) → t.drives.read a = s.drives.read a)
        ∧ t.reportWordAt 0 0 = 0x00020000 ||| BitVec.ofNat 32 p
        ∧ t.reportWordAt 0 1 = s.topo.chunks ∧ t.reportWordAt 0 2 = 0xFFFFFFFF
        ∧ t.reportWordAt 0 3 = BitVec.ofNat 32 q
        ∧ (∀ i, i < 64 →
            ((t.reportWordAt 0 (4 + i / 32)).getLsbD (i % 32) = true
              ↔ ∃ m ∈ s.layout.sources off k, s.serveAt D m = D * s.dpd + i))
        ∧ t.reportWordAt 0 6 = 0 ∧ t.reportWordAt 0 7 = 0
        ∧ ∀ a, ¬(0x8000 ≤ a ∧ a < 0x8020) → t.report.read a = s.report.read a

/-- R319: NONE when every entry is a success; UNRECOVERABLE_DATA when none is and one is UNRECOVERABLE; PARTIAL_REBUILD
otherwise. -/
def Obligations.AggregateErrorRule : Prop :=
  ∀ es : List ReportStatus,
    (aggregateError es = .none ↔ ∀ e ∈ es, e = .restored ∨ e = .promoted ∨ e = .skippedOnline)
      ∧ (aggregateError es = .unrecoverableData ↔
          .unrecoverable ∈ es ∧ ∀ e ∈ es, ¬(e = .restored ∨ e = .promoted ∨ e = .skippedOnline))
      ∧ (aggregateError es ≠ .none → aggregateError es ≠ .unrecoverableData → aggregateError es = .partialRebuild)

/-! ### The drive port (20_memory.md) -/

/-- R280, R96: every drive the engine reads is online; every drive it writes is online too, but for a target that a
RESTORE rebuilds (R315; log 10). The accesses are those the model records in `traffic` (log 17). -/
def Obligations.EngineUsesOnlineDrives : Prop :=
  ∀ (i : Instr) (s t : State), s.Inv → exec i s = .next t → ∀ a ∈ t.traffic, a ∈ s.traffic ∨
    match a with
    | .read p _ _ _ => flagAt s.online p = true
    | .write p _ _ _ => flagAt s.online p = true ∨ (i = .rebuild .restoreInPlace ∧ p ∈ s.opTargets)

/-! ### Reset (70_reset_and_hazards.md) -/

/-- R32, R370: what every register of the window reads after reset; the buffers and the report RAM, whose reset values the
spec leaves open (log 5), lie past these offsets. -/
def Obligations.ResetRegisterValues : Prop :=
  ∀ (a : Nat) (draw : Word), a % 4 = 0 → a < 0x1000 →
    State.reset.windowRead a draw =
      if a = 0x0000 then 0x56504531
      else if a = 0x0004 then 0x00000001
      else if 0x0200 ≤ a ∧ a < 0x0218 then 0xFFFFFFFF
      else if a = 0x0218 then 0x00000003
      else 0x00000000

/-- R370, R371: hardware reset puts every register at its reset value, discards the assignment and the command in flight,
leaves the buffers and the report RAM at the environment's draw, and, with no command in flight, the drives as they
are. With one in flight, of the accesses it would make (`u`) the writes among the first n stay made, the chunk being
written at the reset, if access n is a write, holds the drawn value, and every other byte stays (R370, R371; log 7). -/
def Obligations.HardwareResetClearsRegisters : Prop :=
  ∀ (s : State) (n : Nat) (junk : Chunk) (bufs : Vector Chunk 4) (report : BitVec 131072) (rest : List Input),
    s.inputs = .hardwareReset n junk bufs report :: rest →
      ∃ t, step s = .next t
        ∧ t = { State.reset with
                bufs := bufs, report := t.report, drives := t.drives, inputs := rest, responses := t.responses
                readData := s.readData, epoch := t.epoch }
        ∧ (∀ i, i < 16384 → t.report.read (0x8000 + i) = report.extractLsb' (8 * i) 8)
        ∧ (s.flight = none → t.drives = s.drives)
        ∧ ∀ f u, s.flight = some f → step { s with inputs := .complete :: rest, traffic := [] } = .next u →
            let accesses := u.traffic.reverse
            let cut := match accesses[n]? with
              | some (.write q off _ ok) => [DriveAccess.write q off junk ok]
              | _ => []
            ∀ a, t.drives.read a =
              ((accesses.take n ++ cut).reverse.findSome? fun x => x.byteAt a).getD (s.drives.read a)

/-! ### Invariants of every step -/

/-- The invariant holds after reset; that the buffers, the report RAM and the drives hold zeros there is the model's choice
(logs 5, 6), on which only their canonical form depends. -/
def Obligations.InvariantAtReset : Prop := State.reset.Inv

/-- Every step keeps the canonical form of the byte memories; and (R66, R67, R34) it keeps the latched operands equal to the
registers they were latched from, and DONE and ERR 0, while a command is in flight. -/
def Obligations.StepKeepsMemoriesAndLatch : Prop :=
  (∀ s t : State, s.memoriesCanonical → step s = .next t → t.memoriesCanonical)
    ∧ ∀ s t : State, s.latchHolds → step s = .next t → t.latchHolds

/-- R44, R45, R46, R60, R62, R63: every step keeps the topology registers and flags cleared while uninitialised and legal
while initialised, and the assignment a legal one: each served slot served by one drive of its domain, and a drive serving
a slot exactly when it is NATIVE or PROMOTED. -/
def Obligations.StepKeepsTopology : Prop :=
  ∀ s t : State,
    s.uninitializedClear ∧ s.topologyLegal ∧ s.assignmentShape ∧ s.assignmentLegal → s.latchHolds →
    step s = .next t → t.uninitializedClear ∧ t.topologyLegal ∧ t.assignmentShape ∧ t.assignmentLegal

/-- R344, R96, R390: from a state that keeps the invariant no step faults, only a host access the bus cannot carry is
refused, and a command in flight whose completion the environment schedules, alone or with a write to IRQ_STATUS,
completes; so does one with no input left, which is the model's choice (log 2). -/
def Obligations.StepNeverFaultsAndCommandsComplete : Prop :=
  ∀ s : State, s.Inv →
    (∀ r, step s ≠ .fault r)
      ∧ (∀ r, step s = .refused r →
          ∃ off size v rest, (s.inputs = .hostRead off size v :: rest ∨ s.inputs = .hostWrite off size v :: rest)
            ∧ (size ≠ .word ∨ off.toNat % 4 ≠ 0))
      ∧ ∀ f, s.flight = some f →
          (s.inputs = [] ∨ (∃ rest, s.inputs = .complete :: rest)
            ∨ ∃ v rest, s.inputs = .completeWithIrqWrite v :: rest) →
          ∃ t, step s = .next t ∧ t.flight = none ∧ t.done = true ∧ t.donePend = true
end

