-- ==== Sys2Proof/Laws/State.lean ====
section
/-! SUPPORT. What each field of the state is after each named update, one lemma per field per update, each true by rfl. -/

namespace Sys2Proof.Machine

/-! ### finish -/

@[simp] theorem finish_done (e : ErrCode) (s : State) : (finish e s).done = true := rfl
@[simp] theorem finish_initialized (e : ErrCode) (s : State) : (finish e s).initialized = s.initialized := rfl
@[simp] theorem finish_overrun (e : ErrCode) (s : State) : (finish e s).overrun = s.overrun := rfl
@[simp] theorem finish_classValid (e : ErrCode) (s : State) : (finish e s).classValid = s.classValid := rfl
@[simp] theorem finish_err (e : ErrCode) (s : State) : (finish e s).err = e := rfl
@[simp] theorem finish_cmd (e : ErrCode) (s : State) : (finish e s).cmd = s.cmd := rfl
@[simp] theorem finish_arg0 (e : ErrCode) (s : State) : (finish e s).arg0 = s.arg0 := rfl
@[simp] theorem finish_arg1 (e : ErrCode) (s : State) : (finish e s).arg1 = s.arg1 := rfl
@[simp] theorem finish_irqEn (e : ErrCode) (s : State) : (finish e s).irqEn = s.irqEn := rfl
@[simp] theorem finish_donePend (e : ErrCode) (s : State) : (finish e s).donePend = true := rfl
@[simp] theorem finish_peekData (e : ErrCode) (s : State) : (finish e s).peekData = s.peekData := rfl
@[simp] theorem finish_qres0 (e : ErrCode) (s : State) : (finish e s).qres0 = s.qres0 := rfl
@[simp] theorem finish_qres1 (e : ErrCode) (s : State) : (finish e s).qres1 = s.qres1 := rfl
@[simp] theorem finish_reportCount (e : ErrCode) (s : State) : (finish e s).reportCount = s.reportCount := rfl
@[simp] theorem finish_cfg (e : ErrCode) (s : State) : (finish e s).cfg = s.cfg := rfl
@[simp] theorem finish_topo (e : ErrCode) (s : State) : (finish e s).topo = s.topo := rfl
@[simp] theorem finish_derived (e : ErrCode) (s : State) : (finish e s).derived = s.derived := rfl
@[simp] theorem finish_online (e : ErrCode) (s : State) : (finish e s).online = s.online := rfl
@[simp] theorem finish_targets (e : ErrCode) (s : State) : (finish e s).targets = s.targets := rfl
@[simp] theorem finish_classGrp (e : ErrCode) (s : State) : (finish e s).classGrp = s.classGrp := rfl
@[simp] theorem finish_classDom (e : ErrCode) (s : State) : (finish e s).classDom = s.classDom := rfl
@[simp] theorem finish_classRollup (e : ErrCode) (s : State) : (finish e s).classRollup = s.classRollup := rfl
@[simp] theorem finish_bufs (e : ErrCode) (s : State) : (finish e s).bufs = s.bufs := rfl
@[simp] theorem finish_report (e : ErrCode) (s : State) : (finish e s).report = s.report := rfl
@[simp] theorem finish_serve (e : ErrCode) (s : State) : (finish e s).serve = s.serve := rfl
@[simp] theorem finish_pstate (e : ErrCode) (s : State) : (finish e s).pstate = s.pstate := rfl
@[simp] theorem finish_flight (e : ErrCode) (s : State) : (finish e s).flight = none := rfl
@[simp] theorem finish_drives (e : ErrCode) (s : State) : (finish e s).drives = s.drives := rfl
@[simp] theorem finish_inputs (e : ErrCode) (s : State) : (finish e s).inputs = s.inputs := rfl
@[simp] theorem finish_responses (e : ErrCode) (s : State) : (finish e s).responses = s.responses := rfl
@[simp] theorem finish_traffic (e : ErrCode) (s : State) : (finish e s).traffic = s.traffic := rfl
@[simp] theorem finish_readData (e : ErrCode) (s : State) : (finish e s).readData = s.readData := rfl
@[simp] theorem finish_epoch (e : ErrCode) (s : State) : (finish e s).epoch = s.epoch := rfl

/-! ### afterAccess -/

@[simp] theorem afterAccess_done (s : State) (a : DriveAccess) : (s.afterAccess a).done = s.done := rfl
@[simp] theorem afterAccess_initialized (s : State) (a : DriveAccess) : (s.afterAccess a).initialized = s.initialized := rfl
@[simp] theorem afterAccess_overrun (s : State) (a : DriveAccess) : (s.afterAccess a).overrun = s.overrun := rfl
@[simp] theorem afterAccess_classValid (s : State) (a : DriveAccess) : (s.afterAccess a).classValid = s.classValid := rfl
@[simp] theorem afterAccess_err (s : State) (a : DriveAccess) : (s.afterAccess a).err = s.err := rfl
@[simp] theorem afterAccess_cmd (s : State) (a : DriveAccess) : (s.afterAccess a).cmd = s.cmd := rfl
@[simp] theorem afterAccess_arg0 (s : State) (a : DriveAccess) : (s.afterAccess a).arg0 = s.arg0 := rfl
@[simp] theorem afterAccess_arg1 (s : State) (a : DriveAccess) : (s.afterAccess a).arg1 = s.arg1 := rfl
@[simp] theorem afterAccess_irqEn (s : State) (a : DriveAccess) : (s.afterAccess a).irqEn = s.irqEn := rfl
@[simp] theorem afterAccess_donePend (s : State) (a : DriveAccess) : (s.afterAccess a).donePend = s.donePend := rfl
@[simp] theorem afterAccess_peekData (s : State) (a : DriveAccess) : (s.afterAccess a).peekData = s.peekData := rfl
@[simp] theorem afterAccess_qres0 (s : State) (a : DriveAccess) : (s.afterAccess a).qres0 = s.qres0 := rfl
@[simp] theorem afterAccess_qres1 (s : State) (a : DriveAccess) : (s.afterAccess a).qres1 = s.qres1 := rfl
@[simp] theorem afterAccess_reportCount (s : State) (a : DriveAccess) : (s.afterAccess a).reportCount = s.reportCount := rfl
@[simp] theorem afterAccess_cfg (s : State) (a : DriveAccess) : (s.afterAccess a).cfg = s.cfg := rfl
@[simp] theorem afterAccess_topo (s : State) (a : DriveAccess) : (s.afterAccess a).topo = s.topo := rfl
@[simp] theorem afterAccess_derived (s : State) (a : DriveAccess) : (s.afterAccess a).derived = s.derived := rfl
@[simp] theorem afterAccess_online (s : State) (a : DriveAccess) : (s.afterAccess a).online = s.online := rfl
@[simp] theorem afterAccess_targets (s : State) (a : DriveAccess) : (s.afterAccess a).targets = s.targets := rfl
@[simp] theorem afterAccess_classGrp (s : State) (a : DriveAccess) : (s.afterAccess a).classGrp = s.classGrp := rfl
@[simp] theorem afterAccess_classDom (s : State) (a : DriveAccess) : (s.afterAccess a).classDom = s.classDom := rfl
@[simp] theorem afterAccess_classRollup (s : State) (a : DriveAccess) : (s.afterAccess a).classRollup = s.classRollup := rfl
@[simp] theorem afterAccess_bufs (s : State) (a : DriveAccess) : (s.afterAccess a).bufs = s.bufs := rfl
@[simp] theorem afterAccess_report (s : State) (a : DriveAccess) : (s.afterAccess a).report = s.report := rfl
@[simp] theorem afterAccess_serve (s : State) (a : DriveAccess) : (s.afterAccess a).serve = s.serve := rfl
@[simp] theorem afterAccess_pstate (s : State) (a : DriveAccess) : (s.afterAccess a).pstate = s.pstate := rfl
@[simp] theorem afterAccess_flight (s : State) (a : DriveAccess) : (s.afterAccess a).flight = s.flight := rfl
@[simp] theorem afterAccess_drives (s : State) (a : DriveAccess) : (s.afterAccess a).drives = s.drives := rfl
@[simp] theorem afterAccess_inputs (s : State) (a : DriveAccess) : (s.afterAccess a).inputs = s.inputs := rfl
@[simp] theorem afterAccess_responses (s : State) (a : DriveAccess) : (s.afterAccess a).responses = s.responses.tail := rfl
@[simp] theorem afterAccess_traffic (s : State) (a : DriveAccess) : (s.afterAccess a).traffic = a :: s.traffic := rfl
@[simp] theorem afterAccess_readData (s : State) (a : DriveAccess) : (s.afterAccess a).readData = s.readData := rfl
@[simp] theorem afterAccess_epoch (s : State) (a : DriveAccess) : (s.afterAccess a).epoch = s.epoch := rfl

/-! ### accept -/

@[simp] theorem accept_done (s : State) (w : Word) : (s.accept w).done = false := rfl
@[simp] theorem accept_initialized (s : State) (w : Word) : (s.accept w).initialized = s.initialized := rfl
@[simp] theorem accept_overrun (s : State) (w : Word) : (s.accept w).overrun = s.overrun := rfl
@[simp] theorem accept_classValid (s : State) (w : Word) : (s.accept w).classValid = s.classValid := rfl
@[simp] theorem accept_err (s : State) (w : Word) : (s.accept w).err = .none := rfl
@[simp] theorem accept_cmd (s : State) (w : Word) : (s.accept w).cmd = w := rfl
@[simp] theorem accept_arg0 (s : State) (w : Word) : (s.accept w).arg0 = s.arg0 := rfl
@[simp] theorem accept_arg1 (s : State) (w : Word) : (s.accept w).arg1 = s.arg1 := rfl
@[simp] theorem accept_irqEn (s : State) (w : Word) : (s.accept w).irqEn = s.irqEn := rfl
@[simp] theorem accept_donePend (s : State) (w : Word) : (s.accept w).donePend = s.donePend := rfl
@[simp] theorem accept_peekData (s : State) (w : Word) : (s.accept w).peekData = s.peekData := rfl
@[simp] theorem accept_qres0 (s : State) (w : Word) : (s.accept w).qres0 = s.qres0 := rfl
@[simp] theorem accept_qres1 (s : State) (w : Word) : (s.accept w).qres1 = s.qres1 := rfl
@[simp] theorem accept_reportCount (s : State) (w : Word) : (s.accept w).reportCount = s.reportCount := rfl
@[simp] theorem accept_cfg (s : State) (w : Word) : (s.accept w).cfg = s.cfg := rfl
@[simp] theorem accept_topo (s : State) (w : Word) : (s.accept w).topo = s.topo := rfl
@[simp] theorem accept_derived (s : State) (w : Word) : (s.accept w).derived = s.derived := rfl
@[simp] theorem accept_online (s : State) (w : Word) : (s.accept w).online = s.online := rfl
@[simp] theorem accept_targets (s : State) (w : Word) : (s.accept w).targets = s.targets := rfl
@[simp] theorem accept_classGrp (s : State) (w : Word) : (s.accept w).classGrp = s.classGrp := rfl
@[simp] theorem accept_classDom (s : State) (w : Word) : (s.accept w).classDom = s.classDom := rfl
@[simp] theorem accept_classRollup (s : State) (w : Word) : (s.accept w).classRollup = s.classRollup := rfl
@[simp] theorem accept_bufs (s : State) (w : Word) : (s.accept w).bufs = s.bufs := rfl
@[simp] theorem accept_report (s : State) (w : Word) : (s.accept w).report = s.report := rfl
@[simp] theorem accept_serve (s : State) (w : Word) : (s.accept w).serve = s.serve := rfl
@[simp] theorem accept_pstate (s : State) (w : Word) : (s.accept w).pstate = s.pstate := rfl
@[simp] theorem accept_flight (s : State) (w : Word) : (s.accept w).flight = some (s.latchFor w) := rfl
@[simp] theorem accept_drives (s : State) (w : Word) : (s.accept w).drives = s.drives := rfl
@[simp] theorem accept_inputs (s : State) (w : Word) : (s.accept w).inputs = s.inputs := rfl
@[simp] theorem accept_responses (s : State) (w : Word) : (s.accept w).responses = s.responses := rfl
@[simp] theorem accept_traffic (s : State) (w : Word) : (s.accept w).traffic = [] := rfl
@[simp] theorem accept_readData (s : State) (w : Word) : (s.accept w).readData = s.readData := rfl
@[simp] theorem accept_epoch (s : State) (w : Word) : (s.accept w).epoch = s.epoch + 1 := rfl

/-! ### setServe -/

@[simp] theorem setServe_done (s : State) (D k q : Nat) : (s.setServe D k q).done = s.done := rfl
@[simp] theorem setServe_initialized (s : State) (D k q : Nat) : (s.setServe D k q).initialized = s.initialized := rfl
@[simp] theorem setServe_overrun (s : State) (D k q : Nat) : (s.setServe D k q).overrun = s.overrun := rfl
@[simp] theorem setServe_classValid (s : State) (D k q : Nat) : (s.setServe D k q).classValid = s.classValid := rfl
@[simp] theorem setServe_err (s : State) (D k q : Nat) : (s.setServe D k q).err = s.err := rfl
@[simp] theorem setServe_cmd (s : State) (D k q : Nat) : (s.setServe D k q).cmd = s.cmd := rfl
@[simp] theorem setServe_arg0 (s : State) (D k q : Nat) : (s.setServe D k q).arg0 = s.arg0 := rfl
@[simp] theorem setServe_arg1 (s : State) (D k q : Nat) : (s.setServe D k q).arg1 = s.arg1 := rfl
@[simp] theorem setServe_irqEn (s : State) (D k q : Nat) : (s.setServe D k q).irqEn = s.irqEn := rfl
@[simp] theorem setServe_donePend (s : State) (D k q : Nat) : (s.setServe D k q).donePend = s.donePend := rfl
@[simp] theorem setServe_peekData (s : State) (D k q : Nat) : (s.setServe D k q).peekData = s.peekData := rfl
@[simp] theorem setServe_qres0 (s : State) (D k q : Nat) : (s.setServe D k q).qres0 = s.qres0 := rfl
@[simp] theorem setServe_qres1 (s : State) (D k q : Nat) : (s.setServe D k q).qres1 = s.qres1 := rfl
@[simp] theorem setServe_reportCount (s : State) (D k q : Nat) : (s.setServe D k q).reportCount = s.reportCount := rfl
@[simp] theorem setServe_cfg (s : State) (D k q : Nat) : (s.setServe D k q).cfg = s.cfg := rfl
@[simp] theorem setServe_topo (s : State) (D k q : Nat) : (s.setServe D k q).topo = s.topo := rfl
@[simp] theorem setServe_derived (s : State) (D k q : Nat) : (s.setServe D k q).derived = s.derived := rfl
@[simp] theorem setServe_online (s : State) (D k q : Nat) : (s.setServe D k q).online = s.online := rfl
@[simp] theorem setServe_targets (s : State) (D k q : Nat) : (s.setServe D k q).targets = s.targets := rfl
@[simp] theorem setServe_classGrp (s : State) (D k q : Nat) : (s.setServe D k q).classGrp = s.classGrp := rfl
@[simp] theorem setServe_classDom (s : State) (D k q : Nat) : (s.setServe D k q).classDom = s.classDom := rfl
@[simp] theorem setServe_classRollup (s : State) (D k q : Nat) : (s.setServe D k q).classRollup = s.classRollup := rfl
@[simp] theorem setServe_bufs (s : State) (D k q : Nat) : (s.setServe D k q).bufs = s.bufs := rfl
@[simp] theorem setServe_report (s : State) (D k q : Nat) : (s.setServe D k q).report = s.report := rfl
@[simp] theorem setServe_serve (s : State) (D k q : Nat) : (s.setServe D k q).serve = s.serve.set D ((s.serve.getD D []).set k q) := rfl
@[simp] theorem setServe_pstate (s : State) (D k q : Nat) : (s.setServe D k q).pstate = s.pstate := rfl
@[simp] theorem setServe_flight (s : State) (D k q : Nat) : (s.setServe D k q).flight = s.flight := rfl
@[simp] theorem setServe_drives (s : State) (D k q : Nat) : (s.setServe D k q).drives = s.drives := rfl
@[simp] theorem setServe_inputs (s : State) (D k q : Nat) : (s.setServe D k q).inputs = s.inputs := rfl
@[simp] theorem setServe_responses (s : State) (D k q : Nat) : (s.setServe D k q).responses = s.responses := rfl
@[simp] theorem setServe_traffic (s : State) (D k q : Nat) : (s.setServe D k q).traffic = s.traffic := rfl
@[simp] theorem setServe_readData (s : State) (D k q : Nat) : (s.setServe D k q).readData = s.readData := rfl
@[simp] theorem setServe_epoch (s : State) (D k q : Nat) : (s.setServe D k q).epoch = s.epoch := rfl

/-! ### setPState -/

@[simp] theorem setPState_done (s : State) (p : Nat) (x : PState) : (s.setPState p x).done = s.done := rfl
@[simp] theorem setPState_initialized (s : State) (p : Nat) (x : PState) : (s.setPState p x).initialized = s.initialized := rfl
@[simp] theorem setPState_overrun (s : State) (p : Nat) (x : PState) : (s.setPState p x).overrun = s.overrun := rfl
@[simp] theorem setPState_classValid (s : State) (p : Nat) (x : PState) : (s.setPState p x).classValid = s.classValid := rfl
@[simp] theorem setPState_err (s : State) (p : Nat) (x : PState) : (s.setPState p x).err = s.err := rfl
@[simp] theorem setPState_cmd (s : State) (p : Nat) (x : PState) : (s.setPState p x).cmd = s.cmd := rfl
@[simp] theorem setPState_arg0 (s : State) (p : Nat) (x : PState) : (s.setPState p x).arg0 = s.arg0 := rfl
@[simp] theorem setPState_arg1 (s : State) (p : Nat) (x : PState) : (s.setPState p x).arg1 = s.arg1 := rfl
@[simp] theorem setPState_irqEn (s : State) (p : Nat) (x : PState) : (s.setPState p x).irqEn = s.irqEn := rfl
@[simp] theorem setPState_donePend (s : State) (p : Nat) (x : PState) : (s.setPState p x).donePend = s.donePend := rfl
@[simp] theorem setPState_peekData (s : State) (p : Nat) (x : PState) : (s.setPState p x).peekData = s.peekData := rfl
@[simp] theorem setPState_qres0 (s : State) (p : Nat) (x : PState) : (s.setPState p x).qres0 = s.qres0 := rfl
@[simp] theorem setPState_qres1 (s : State) (p : Nat) (x : PState) : (s.setPState p x).qres1 = s.qres1 := rfl
@[simp] theorem setPState_reportCount (s : State) (p : Nat) (x : PState) : (s.setPState p x).reportCount = s.reportCount := rfl
@[simp] theorem setPState_cfg (s : State) (p : Nat) (x : PState) : (s.setPState p x).cfg = s.cfg := rfl
@[simp] theorem setPState_topo (s : State) (p : Nat) (x : PState) : (s.setPState p x).topo = s.topo := rfl
@[simp] theorem setPState_derived (s : State) (p : Nat) (x : PState) : (s.setPState p x).derived = s.derived := rfl
@[simp] theorem setPState_online (s : State) (p : Nat) (x : PState) : (s.setPState p x).online = s.online := rfl
@[simp] theorem setPState_targets (s : State) (p : Nat) (x : PState) : (s.setPState p x).targets = s.targets := rfl
@[simp] theorem setPState_classGrp (s : State) (p : Nat) (x : PState) : (s.setPState p x).classGrp = s.classGrp := rfl
@[simp] theorem setPState_classDom (s : State) (p : Nat) (x : PState) : (s.setPState p x).classDom = s.classDom := rfl
@[simp] theorem setPState_classRollup (s : State) (p : Nat) (x : PState) : (s.setPState p x).classRollup = s.classRollup := rfl
@[simp] theorem setPState_bufs (s : State) (p : Nat) (x : PState) : (s.setPState p x).bufs = s.bufs := rfl
@[simp] theorem setPState_report (s : State) (p : Nat) (x : PState) : (s.setPState p x).report = s.report := rfl
@[simp] theorem setPState_serve (s : State) (p : Nat) (x : PState) : (s.setPState p x).serve = s.serve := rfl
@[simp] theorem setPState_pstate (s : State) (p : Nat) (x : PState) : (s.setPState p x).pstate = s.pstate.set p x := rfl
@[simp] theorem setPState_flight (s : State) (p : Nat) (x : PState) : (s.setPState p x).flight = s.flight := rfl
@[simp] theorem setPState_drives (s : State) (p : Nat) (x : PState) : (s.setPState p x).drives = s.drives := rfl
@[simp] theorem setPState_inputs (s : State) (p : Nat) (x : PState) : (s.setPState p x).inputs = s.inputs := rfl
@[simp] theorem setPState_responses (s : State) (p : Nat) (x : PState) : (s.setPState p x).responses = s.responses := rfl
@[simp] theorem setPState_traffic (s : State) (p : Nat) (x : PState) : (s.setPState p x).traffic = s.traffic := rfl
@[simp] theorem setPState_readData (s : State) (p : Nat) (x : PState) : (s.setPState p x).readData = s.readData := rfl
@[simp] theorem setPState_epoch (s : State) (p : Nat) (x : PState) : (s.setPState p x).epoch = s.epoch := rfl

/-! ### setBuf -/

@[simp] theorem setBuf_done (s : State) (b : Nat) (x : Chunk) : (s.setBuf b x).done = s.done := rfl
@[simp] theorem setBuf_initialized (s : State) (b : Nat) (x : Chunk) : (s.setBuf b x).initialized = s.initialized := rfl
@[simp] theorem setBuf_overrun (s : State) (b : Nat) (x : Chunk) : (s.setBuf b x).overrun = s.overrun := rfl
@[simp] theorem setBuf_classValid (s : State) (b : Nat) (x : Chunk) : (s.setBuf b x).classValid = s.classValid := rfl
@[simp] theorem setBuf_err (s : State) (b : Nat) (x : Chunk) : (s.setBuf b x).err = s.err := rfl
@[simp] theorem setBuf_cmd (s : State) (b : Nat) (x : Chunk) : (s.setBuf b x).cmd = s.cmd := rfl
@[simp] theorem setBuf_arg0 (s : State) (b : Nat) (x : Chunk) : (s.setBuf b x).arg0 = s.arg0 := rfl
@[simp] theorem setBuf_arg1 (s : State) (b : Nat) (x : Chunk) : (s.setBuf b x).arg1 = s.arg1 := rfl
@[simp] theorem setBuf_irqEn (s : State) (b : Nat) (x : Chunk) : (s.setBuf b x).irqEn = s.irqEn := rfl
@[simp] theorem setBuf_donePend (s : State) (b : Nat) (x : Chunk) : (s.setBuf b x).donePend = s.donePend := rfl
@[simp] theorem setBuf_peekData (s : State) (b : Nat) (x : Chunk) : (s.setBuf b x).peekData = s.peekData := rfl
@[simp] theorem setBuf_qres0 (s : State) (b : Nat) (x : Chunk) : (s.setBuf b x).qres0 = s.qres0 := rfl
@[simp] theorem setBuf_qres1 (s : State) (b : Nat) (x : Chunk) : (s.setBuf b x).qres1 = s.qres1 := rfl
@[simp] theorem setBuf_reportCount (s : State) (b : Nat) (x : Chunk) : (s.setBuf b x).reportCount = s.reportCount := rfl
@[simp] theorem setBuf_cfg (s : State) (b : Nat) (x : Chunk) : (s.setBuf b x).cfg = s.cfg := rfl
@[simp] theorem setBuf_topo (s : State) (b : Nat) (x : Chunk) : (s.setBuf b x).topo = s.topo := rfl
@[simp] theorem setBuf_derived (s : State) (b : Nat) (x : Chunk) : (s.setBuf b x).derived = s.derived := rfl
@[simp] theorem setBuf_online (s : State) (b : Nat) (x : Chunk) : (s.setBuf b x).online = s.online := rfl
@[simp] theorem setBuf_targets (s : State) (b : Nat) (x : Chunk) : (s.setBuf b x).targets = s.targets := rfl
@[simp] theorem setBuf_classGrp (s : State) (b : Nat) (x : Chunk) : (s.setBuf b x).classGrp = s.classGrp := rfl
@[simp] theorem setBuf_classDom (s : State) (b : Nat) (x : Chunk) : (s.setBuf b x).classDom = s.classDom := rfl
@[simp] theorem setBuf_classRollup (s : State) (b : Nat) (x : Chunk) : (s.setBuf b x).classRollup = s.classRollup := rfl
@[simp] theorem setBuf_bufs (s : State) (b : Nat) (x : Chunk) : (s.setBuf b x).bufs = s.bufs.setIfInBounds b x := rfl
@[simp] theorem setBuf_report (s : State) (b : Nat) (x : Chunk) : (s.setBuf b x).report = s.report := rfl
@[simp] theorem setBuf_serve (s : State) (b : Nat) (x : Chunk) : (s.setBuf b x).serve = s.serve := rfl
@[simp] theorem setBuf_pstate (s : State) (b : Nat) (x : Chunk) : (s.setBuf b x).pstate = s.pstate := rfl
@[simp] theorem setBuf_flight (s : State) (b : Nat) (x : Chunk) : (s.setBuf b x).flight = s.flight := rfl
@[simp] theorem setBuf_drives (s : State) (b : Nat) (x : Chunk) : (s.setBuf b x).drives = s.drives := rfl
@[simp] theorem setBuf_inputs (s : State) (b : Nat) (x : Chunk) : (s.setBuf b x).inputs = s.inputs := rfl
@[simp] theorem setBuf_responses (s : State) (b : Nat) (x : Chunk) : (s.setBuf b x).responses = s.responses := rfl
@[simp] theorem setBuf_traffic (s : State) (b : Nat) (x : Chunk) : (s.setBuf b x).traffic = s.traffic := rfl
@[simp] theorem setBuf_readData (s : State) (b : Nat) (x : Chunk) : (s.setBuf b x).readData = s.readData := rfl
@[simp] theorem setBuf_epoch (s : State) (b : Nat) (x : Chunk) : (s.setBuf b x).epoch = s.epoch := rfl

/-! ### writeReport -/

@[simp] theorem writeReport_done (s : State) (n : Nat) (e : ReportEntry) : (s.writeReport n e).done = s.done := rfl
@[simp] theorem writeReport_initialized (s : State) (n : Nat) (e : ReportEntry) : (s.writeReport n e).initialized = s.initialized := rfl
@[simp] theorem writeReport_overrun (s : State) (n : Nat) (e : ReportEntry) : (s.writeReport n e).overrun = s.overrun := rfl
@[simp] theorem writeReport_classValid (s : State) (n : Nat) (e : ReportEntry) : (s.writeReport n e).classValid = s.classValid := rfl
@[simp] theorem writeReport_err (s : State) (n : Nat) (e : ReportEntry) : (s.writeReport n e).err = s.err := rfl
@[simp] theorem writeReport_cmd (s : State) (n : Nat) (e : ReportEntry) : (s.writeReport n e).cmd = s.cmd := rfl
@[simp] theorem writeReport_arg0 (s : State) (n : Nat) (e : ReportEntry) : (s.writeReport n e).arg0 = s.arg0 := rfl
@[simp] theorem writeReport_arg1 (s : State) (n : Nat) (e : ReportEntry) : (s.writeReport n e).arg1 = s.arg1 := rfl
@[simp] theorem writeReport_irqEn (s : State) (n : Nat) (e : ReportEntry) : (s.writeReport n e).irqEn = s.irqEn := rfl
@[simp] theorem writeReport_donePend (s : State) (n : Nat) (e : ReportEntry) : (s.writeReport n e).donePend = s.donePend := rfl
@[simp] theorem writeReport_peekData (s : State) (n : Nat) (e : ReportEntry) : (s.writeReport n e).peekData = s.peekData := rfl
@[simp] theorem writeReport_qres0 (s : State) (n : Nat) (e : ReportEntry) : (s.writeReport n e).qres0 = s.qres0 := rfl
@[simp] theorem writeReport_qres1 (s : State) (n : Nat) (e : ReportEntry) : (s.writeReport n e).qres1 = s.qres1 := rfl
@[simp] theorem writeReport_reportCount (s : State) (n : Nat) (e : ReportEntry) : (s.writeReport n e).reportCount = s.reportCount := rfl
@[simp] theorem writeReport_cfg (s : State) (n : Nat) (e : ReportEntry) : (s.writeReport n e).cfg = s.cfg := rfl
@[simp] theorem writeReport_topo (s : State) (n : Nat) (e : ReportEntry) : (s.writeReport n e).topo = s.topo := rfl
@[simp] theorem writeReport_derived (s : State) (n : Nat) (e : ReportEntry) : (s.writeReport n e).derived = s.derived := rfl
@[simp] theorem writeReport_online (s : State) (n : Nat) (e : ReportEntry) : (s.writeReport n e).online = s.online := rfl
@[simp] theorem writeReport_targets (s : State) (n : Nat) (e : ReportEntry) : (s.writeReport n e).targets = s.targets := rfl
@[simp] theorem writeReport_classGrp (s : State) (n : Nat) (e : ReportEntry) : (s.writeReport n e).classGrp = s.classGrp := rfl
@[simp] theorem writeReport_classDom (s : State) (n : Nat) (e : ReportEntry) : (s.writeReport n e).classDom = s.classDom := rfl
@[simp] theorem writeReport_classRollup (s : State) (n : Nat) (e : ReportEntry) : (s.writeReport n e).classRollup = s.classRollup := rfl
@[simp] theorem writeReport_bufs (s : State) (n : Nat) (e : ReportEntry) : (s.writeReport n e).bufs = s.bufs := rfl
@[simp] theorem writeReport_report (s : State) (n : Nat) (e : ReportEntry) : (s.writeReport n e).report = s.report.writeBlock 5 (reportAddr n) e.words.toNat := rfl
@[simp] theorem writeReport_serve (s : State) (n : Nat) (e : ReportEntry) : (s.writeReport n e).serve = s.serve := rfl
@[simp] theorem writeReport_pstate (s : State) (n : Nat) (e : ReportEntry) : (s.writeReport n e).pstate = s.pstate := rfl
@[simp] theorem writeReport_flight (s : State) (n : Nat) (e : ReportEntry) : (s.writeReport n e).flight = s.flight := rfl
@[simp] theorem writeReport_drives (s : State) (n : Nat) (e : ReportEntry) : (s.writeReport n e).drives = s.drives := rfl
@[simp] theorem writeReport_inputs (s : State) (n : Nat) (e : ReportEntry) : (s.writeReport n e).inputs = s.inputs := rfl
@[simp] theorem writeReport_responses (s : State) (n : Nat) (e : ReportEntry) : (s.writeReport n e).responses = s.responses := rfl
@[simp] theorem writeReport_traffic (s : State) (n : Nat) (e : ReportEntry) : (s.writeReport n e).traffic = s.traffic := rfl
@[simp] theorem writeReport_readData (s : State) (n : Nat) (e : ReportEntry) : (s.writeReport n e).readData = s.readData := rfl
@[simp] theorem writeReport_epoch (s : State) (n : Nat) (e : ReportEntry) : (s.writeReport n e).epoch = s.epoch := rfl

/-! ### dropWrite -/

@[simp] theorem dropWrite_done (s : State) : (s.dropWrite).done = s.done := rfl
@[simp] theorem dropWrite_initialized (s : State) : (s.dropWrite).initialized = s.initialized := rfl
@[simp] theorem dropWrite_overrun (s : State) : (s.dropWrite).overrun = true := rfl
@[simp] theorem dropWrite_classValid (s : State) : (s.dropWrite).classValid = s.classValid := rfl
@[simp] theorem dropWrite_err (s : State) : (s.dropWrite).err = s.err := rfl
@[simp] theorem dropWrite_cmd (s : State) : (s.dropWrite).cmd = s.cmd := rfl
@[simp] theorem dropWrite_arg0 (s : State) : (s.dropWrite).arg0 = s.arg0 := rfl
@[simp] theorem dropWrite_arg1 (s : State) : (s.dropWrite).arg1 = s.arg1 := rfl
@[simp] theorem dropWrite_irqEn (s : State) : (s.dropWrite).irqEn = s.irqEn := rfl
@[simp] theorem dropWrite_donePend (s : State) : (s.dropWrite).donePend = s.donePend := rfl
@[simp] theorem dropWrite_peekData (s : State) : (s.dropWrite).peekData = s.peekData := rfl
@[simp] theorem dropWrite_qres0 (s : State) : (s.dropWrite).qres0 = s.qres0 := rfl
@[simp] theorem dropWrite_qres1 (s : State) : (s.dropWrite).qres1 = s.qres1 := rfl
@[simp] theorem dropWrite_reportCount (s : State) : (s.dropWrite).reportCount = s.reportCount := rfl
@[simp] theorem dropWrite_cfg (s : State) : (s.dropWrite).cfg = s.cfg := rfl
@[simp] theorem dropWrite_topo (s : State) : (s.dropWrite).topo = s.topo := rfl
@[simp] theorem dropWrite_derived (s : State) : (s.dropWrite).derived = s.derived := rfl
@[simp] theorem dropWrite_online (s : State) : (s.dropWrite).online = s.online := rfl
@[simp] theorem dropWrite_targets (s : State) : (s.dropWrite).targets = s.targets := rfl
@[simp] theorem dropWrite_classGrp (s : State) : (s.dropWrite).classGrp = s.classGrp := rfl
@[simp] theorem dropWrite_classDom (s : State) : (s.dropWrite).classDom = s.classDom := rfl
@[simp] theorem dropWrite_classRollup (s : State) : (s.dropWrite).classRollup = s.classRollup := rfl
@[simp] theorem dropWrite_bufs (s : State) : (s.dropWrite).bufs = s.bufs := rfl
@[simp] theorem dropWrite_report (s : State) : (s.dropWrite).report = s.report := rfl
@[simp] theorem dropWrite_serve (s : State) : (s.dropWrite).serve = s.serve := rfl
@[simp] theorem dropWrite_pstate (s : State) : (s.dropWrite).pstate = s.pstate := rfl
@[simp] theorem dropWrite_flight (s : State) : (s.dropWrite).flight = s.flight := rfl
@[simp] theorem dropWrite_drives (s : State) : (s.dropWrite).drives = s.drives := rfl
@[simp] theorem dropWrite_inputs (s : State) : (s.dropWrite).inputs = s.inputs := rfl
@[simp] theorem dropWrite_responses (s : State) : (s.dropWrite).responses = s.responses := rfl
@[simp] theorem dropWrite_traffic (s : State) : (s.dropWrite).traffic = s.traffic := rfl
@[simp] theorem dropWrite_readData (s : State) : (s.dropWrite).readData = s.readData := rfl
@[simp] theorem dropWrite_epoch (s : State) : (s.dropWrite).epoch = s.epoch := rfl

/-! ### writeIrqStatus -/

@[simp] theorem writeIrqStatus_done (s : State) (v : Word) : (s.writeIrqStatus v).done = s.done := rfl
@[simp] theorem writeIrqStatus_initialized (s : State) (v : Word) : (s.writeIrqStatus v).initialized = s.initialized := rfl
@[simp] theorem writeIrqStatus_overrun (s : State) (v : Word) : (s.writeIrqStatus v).overrun = s.overrun := rfl
@[simp] theorem writeIrqStatus_classValid (s : State) (v : Word) : (s.writeIrqStatus v).classValid = s.classValid := rfl
@[simp] theorem writeIrqStatus_err (s : State) (v : Word) : (s.writeIrqStatus v).err = s.err := rfl
@[simp] theorem writeIrqStatus_cmd (s : State) (v : Word) : (s.writeIrqStatus v).cmd = s.cmd := rfl
@[simp] theorem writeIrqStatus_arg0 (s : State) (v : Word) : (s.writeIrqStatus v).arg0 = s.arg0 := rfl
@[simp] theorem writeIrqStatus_arg1 (s : State) (v : Word) : (s.writeIrqStatus v).arg1 = s.arg1 := rfl
@[simp] theorem writeIrqStatus_irqEn (s : State) (v : Word) : (s.writeIrqStatus v).irqEn = s.irqEn := rfl
@[simp] theorem writeIrqStatus_donePend (s : State) (v : Word) : (s.writeIrqStatus v).donePend = (s.donePend && !v.getLsbD 0) := rfl
@[simp] theorem writeIrqStatus_peekData (s : State) (v : Word) : (s.writeIrqStatus v).peekData = s.peekData := rfl
@[simp] theorem writeIrqStatus_qres0 (s : State) (v : Word) : (s.writeIrqStatus v).qres0 = s.qres0 := rfl
@[simp] theorem writeIrqStatus_qres1 (s : State) (v : Word) : (s.writeIrqStatus v).qres1 = s.qres1 := rfl
@[simp] theorem writeIrqStatus_reportCount (s : State) (v : Word) : (s.writeIrqStatus v).reportCount = s.reportCount := rfl
@[simp] theorem writeIrqStatus_cfg (s : State) (v : Word) : (s.writeIrqStatus v).cfg = s.cfg := rfl
@[simp] theorem writeIrqStatus_topo (s : State) (v : Word) : (s.writeIrqStatus v).topo = s.topo := rfl
@[simp] theorem writeIrqStatus_derived (s : State) (v : Word) : (s.writeIrqStatus v).derived = s.derived := rfl
@[simp] theorem writeIrqStatus_online (s : State) (v : Word) : (s.writeIrqStatus v).online = s.online := rfl
@[simp] theorem writeIrqStatus_targets (s : State) (v : Word) : (s.writeIrqStatus v).targets = s.targets := rfl
@[simp] theorem writeIrqStatus_classGrp (s : State) (v : Word) : (s.writeIrqStatus v).classGrp = s.classGrp := rfl
@[simp] theorem writeIrqStatus_classDom (s : State) (v : Word) : (s.writeIrqStatus v).classDom = s.classDom := rfl
@[simp] theorem writeIrqStatus_classRollup (s : State) (v : Word) : (s.writeIrqStatus v).classRollup = s.classRollup := rfl
@[simp] theorem writeIrqStatus_bufs (s : State) (v : Word) : (s.writeIrqStatus v).bufs = s.bufs := rfl
@[simp] theorem writeIrqStatus_report (s : State) (v : Word) : (s.writeIrqStatus v).report = s.report := rfl
@[simp] theorem writeIrqStatus_serve (s : State) (v : Word) : (s.writeIrqStatus v).serve = s.serve := rfl
@[simp] theorem writeIrqStatus_pstate (s : State) (v : Word) : (s.writeIrqStatus v).pstate = s.pstate := rfl
@[simp] theorem writeIrqStatus_flight (s : State) (v : Word) : (s.writeIrqStatus v).flight = s.flight := rfl
@[simp] theorem writeIrqStatus_drives (s : State) (v : Word) : (s.writeIrqStatus v).drives = s.drives := rfl
@[simp] theorem writeIrqStatus_inputs (s : State) (v : Word) : (s.writeIrqStatus v).inputs = s.inputs := rfl
@[simp] theorem writeIrqStatus_responses (s : State) (v : Word) : (s.writeIrqStatus v).responses = s.responses := rfl
@[simp] theorem writeIrqStatus_traffic (s : State) (v : Word) : (s.writeIrqStatus v).traffic = s.traffic := rfl
@[simp] theorem writeIrqStatus_readData (s : State) (v : Word) : (s.writeIrqStatus v).readData = s.readData := rfl
@[simp] theorem writeIrqStatus_epoch (s : State) (v : Word) : (s.writeIrqStatus v).epoch = s.epoch := rfl

/-! ### writeCtrl -/

@[simp] theorem writeCtrl_done (s : State) (v : Word) : (s.writeCtrl v).done = s.done := rfl
@[simp] theorem writeCtrl_initialized (s : State) (v : Word) : (s.writeCtrl v).initialized = s.initialized := rfl
@[simp] theorem writeCtrl_overrun (s : State) (v : Word) : (s.writeCtrl v).overrun = (s.overrun && !v.getLsbD 0) := rfl
@[simp] theorem writeCtrl_classValid (s : State) (v : Word) : (s.writeCtrl v).classValid = s.classValid := rfl
@[simp] theorem writeCtrl_err (s : State) (v : Word) : (s.writeCtrl v).err = s.err := rfl
@[simp] theorem writeCtrl_cmd (s : State) (v : Word) : (s.writeCtrl v).cmd = s.cmd := rfl
@[simp] theorem writeCtrl_arg0 (s : State) (v : Word) : (s.writeCtrl v).arg0 = s.arg0 := rfl
@[simp] theorem writeCtrl_arg1 (s : State) (v : Word) : (s.writeCtrl v).arg1 = s.arg1 := rfl
@[simp] theorem writeCtrl_irqEn (s : State) (v : Word) : (s.writeCtrl v).irqEn = s.irqEn := rfl
@[simp] theorem writeCtrl_donePend (s : State) (v : Word) : (s.writeCtrl v).donePend = s.donePend := rfl
@[simp] theorem writeCtrl_peekData (s : State) (v : Word) : (s.writeCtrl v).peekData = s.peekData := rfl
@[simp] theorem writeCtrl_qres0 (s : State) (v : Word) : (s.writeCtrl v).qres0 = s.qres0 := rfl
@[simp] theorem writeCtrl_qres1 (s : State) (v : Word) : (s.writeCtrl v).qres1 = s.qres1 := rfl
@[simp] theorem writeCtrl_reportCount (s : State) (v : Word) : (s.writeCtrl v).reportCount = s.reportCount := rfl
@[simp] theorem writeCtrl_cfg (s : State) (v : Word) : (s.writeCtrl v).cfg = s.cfg := rfl
@[simp] theorem writeCtrl_topo (s : State) (v : Word) : (s.writeCtrl v).topo = s.topo := rfl
@[simp] theorem writeCtrl_derived (s : State) (v : Word) : (s.writeCtrl v).derived = s.derived := rfl
@[simp] theorem writeCtrl_online (s : State) (v : Word) : (s.writeCtrl v).online = s.online := rfl
@[simp] theorem writeCtrl_targets (s : State) (v : Word) : (s.writeCtrl v).targets = s.targets := rfl
@[simp] theorem writeCtrl_classGrp (s : State) (v : Word) : (s.writeCtrl v).classGrp = s.classGrp := rfl
@[simp] theorem writeCtrl_classDom (s : State) (v : Word) : (s.writeCtrl v).classDom = s.classDom := rfl
@[simp] theorem writeCtrl_classRollup (s : State) (v : Word) : (s.writeCtrl v).classRollup = s.classRollup := rfl
@[simp] theorem writeCtrl_bufs (s : State) (v : Word) : (s.writeCtrl v).bufs = s.bufs := rfl
@[simp] theorem writeCtrl_report (s : State) (v : Word) : (s.writeCtrl v).report = s.report := rfl
@[simp] theorem writeCtrl_serve (s : State) (v : Word) : (s.writeCtrl v).serve = s.serve := rfl
@[simp] theorem writeCtrl_pstate (s : State) (v : Word) : (s.writeCtrl v).pstate = s.pstate := rfl
@[simp] theorem writeCtrl_flight (s : State) (v : Word) : (s.writeCtrl v).flight = s.flight := rfl
@[simp] theorem writeCtrl_drives (s : State) (v : Word) : (s.writeCtrl v).drives = s.drives := rfl
@[simp] theorem writeCtrl_inputs (s : State) (v : Word) : (s.writeCtrl v).inputs = s.inputs := rfl
@[simp] theorem writeCtrl_responses (s : State) (v : Word) : (s.writeCtrl v).responses = s.responses := rfl
@[simp] theorem writeCtrl_traffic (s : State) (v : Word) : (s.writeCtrl v).traffic = s.traffic := rfl
@[simp] theorem writeCtrl_readData (s : State) (v : Word) : (s.writeCtrl v).readData = s.readData := rfl
@[simp] theorem writeCtrl_epoch (s : State) (v : Word) : (s.writeCtrl v).epoch = s.epoch := rfl

/-! ### clearClasses -/

@[simp] theorem clearClasses_done (s : State) : (s.clearClasses).done = s.done := rfl
@[simp] theorem clearClasses_initialized (s : State) : (s.clearClasses).initialized = s.initialized := rfl
@[simp] theorem clearClasses_overrun (s : State) : (s.clearClasses).overrun = s.overrun := rfl
@[simp] theorem clearClasses_classValid (s : State) : (s.clearClasses).classValid = s.classValid := rfl
@[simp] theorem clearClasses_err (s : State) : (s.clearClasses).err = s.err := rfl
@[simp] theorem clearClasses_cmd (s : State) : (s.clearClasses).cmd = s.cmd := rfl
@[simp] theorem clearClasses_arg0 (s : State) : (s.clearClasses).arg0 = s.arg0 := rfl
@[simp] theorem clearClasses_arg1 (s : State) : (s.clearClasses).arg1 = s.arg1 := rfl
@[simp] theorem clearClasses_irqEn (s : State) : (s.clearClasses).irqEn = s.irqEn := rfl
@[simp] theorem clearClasses_donePend (s : State) : (s.clearClasses).donePend = s.donePend := rfl
@[simp] theorem clearClasses_peekData (s : State) : (s.clearClasses).peekData = s.peekData := rfl
@[simp] theorem clearClasses_qres0 (s : State) : (s.clearClasses).qres0 = s.qres0 := rfl
@[simp] theorem clearClasses_qres1 (s : State) : (s.clearClasses).qres1 = s.qres1 := rfl
@[simp] theorem clearClasses_reportCount (s : State) : (s.clearClasses).reportCount = s.reportCount := rfl
@[simp] theorem clearClasses_cfg (s : State) : (s.clearClasses).cfg = s.cfg := rfl
@[simp] theorem clearClasses_topo (s : State) : (s.clearClasses).topo = s.topo := rfl
@[simp] theorem clearClasses_derived (s : State) : (s.clearClasses).derived = s.derived := rfl
@[simp] theorem clearClasses_online (s : State) : (s.clearClasses).online = s.online := rfl
@[simp] theorem clearClasses_targets (s : State) : (s.clearClasses).targets = s.targets := rfl
@[simp] theorem clearClasses_classGrp (s : State) : (s.clearClasses).classGrp = BitVec.allOnes 128 := rfl
@[simp] theorem clearClasses_classDom (s : State) : (s.clearClasses).classDom = BitVec.allOnes 64 := rfl
@[simp] theorem clearClasses_classRollup (s : State) : (s.clearClasses).classRollup = 3 := rfl
@[simp] theorem clearClasses_bufs (s : State) : (s.clearClasses).bufs = s.bufs := rfl
@[simp] theorem clearClasses_report (s : State) : (s.clearClasses).report = s.report := rfl
@[simp] theorem clearClasses_serve (s : State) : (s.clearClasses).serve = s.serve := rfl
@[simp] theorem clearClasses_pstate (s : State) : (s.clearClasses).pstate = s.pstate := rfl
@[simp] theorem clearClasses_flight (s : State) : (s.clearClasses).flight = s.flight := rfl
@[simp] theorem clearClasses_drives (s : State) : (s.clearClasses).drives = s.drives := rfl
@[simp] theorem clearClasses_inputs (s : State) : (s.clearClasses).inputs = s.inputs := rfl
@[simp] theorem clearClasses_responses (s : State) : (s.clearClasses).responses = s.responses := rfl
@[simp] theorem clearClasses_traffic (s : State) : (s.clearClasses).traffic = s.traffic := rfl
@[simp] theorem clearClasses_readData (s : State) : (s.clearClasses).readData = s.readData := rfl
@[simp] theorem clearClasses_epoch (s : State) : (s.clearClasses).epoch = s.epoch := rfl

/-! ### buildTopology -/

@[simp] theorem buildTopology_done (s : State) : (s.buildTopology).done = s.done := rfl
@[simp] theorem buildTopology_initialized (s : State) : (s.buildTopology).initialized = true := rfl
@[simp] theorem buildTopology_overrun (s : State) : (s.buildTopology).overrun = s.overrun := rfl
@[simp] theorem buildTopology_classValid (s : State) : (s.buildTopology).classValid = false := rfl
@[simp] theorem buildTopology_err (s : State) : (s.buildTopology).err = s.err := rfl
@[simp] theorem buildTopology_cmd (s : State) : (s.buildTopology).cmd = s.cmd := rfl
@[simp] theorem buildTopology_arg0 (s : State) : (s.buildTopology).arg0 = s.arg0 := rfl
@[simp] theorem buildTopology_arg1 (s : State) : (s.buildTopology).arg1 = s.arg1 := rfl
@[simp] theorem buildTopology_irqEn (s : State) : (s.buildTopology).irqEn = s.irqEn := rfl
@[simp] theorem buildTopology_donePend (s : State) : (s.buildTopology).donePend = s.donePend := rfl
@[simp] theorem buildTopology_peekData (s : State) : (s.buildTopology).peekData = s.peekData := rfl
@[simp] theorem buildTopology_qres0 (s : State) : (s.buildTopology).qres0 = s.qres0 := rfl
@[simp] theorem buildTopology_qres1 (s : State) : (s.buildTopology).qres1 = s.qres1 := rfl
@[simp] theorem buildTopology_reportCount (s : State) : (s.buildTopology).reportCount = 0 := rfl
@[simp] theorem buildTopology_cfg (s : State) : (s.buildTopology).cfg = s.cfg := rfl
@[simp] theorem buildTopology_topo (s : State) : (s.buildTopology).topo = s.cfg.latched := rfl
@[simp] theorem buildTopology_derived (s : State) : (s.buildTopology).derived = s.cfg.derive := rfl
@[simp] theorem buildTopology_online (s : State) : (s.buildTopology).online = setFlags 0 0 s.cfg.total.toNat true := rfl
@[simp] theorem buildTopology_targets (s : State) : (s.buildTopology).targets = s.targets := rfl
@[simp] theorem buildTopology_classGrp (s : State) : (s.buildTopology).classGrp = BitVec.allOnes 128 := rfl
@[simp] theorem buildTopology_classDom (s : State) : (s.buildTopology).classDom = BitVec.allOnes 64 := rfl
@[simp] theorem buildTopology_classRollup (s : State) : (s.buildTopology).classRollup = 3 := rfl
@[simp] theorem buildTopology_bufs (s : State) : (s.buildTopology).bufs = s.bufs := rfl
@[simp] theorem buildTopology_report (s : State) : (s.buildTopology).report = s.report := rfl
@[simp] theorem buildTopology_serve (s : State) : (s.buildTopology).serve = s.cfg.identityServe := rfl
@[simp] theorem buildTopology_pstate (s : State) : (s.buildTopology).pstate = s.cfg.initialPState := rfl
@[simp] theorem buildTopology_flight (s : State) : (s.buildTopology).flight = s.flight := rfl
@[simp] theorem buildTopology_drives (s : State) : (s.buildTopology).drives = s.drives := rfl
@[simp] theorem buildTopology_inputs (s : State) : (s.buildTopology).inputs = s.inputs := rfl
@[simp] theorem buildTopology_responses (s : State) : (s.buildTopology).responses = s.responses := rfl
@[simp] theorem buildTopology_traffic (s : State) : (s.buildTopology).traffic = s.traffic := rfl
@[simp] theorem buildTopology_readData (s : State) : (s.buildTopology).readData = s.readData := rfl
@[simp] theorem buildTopology_epoch (s : State) : (s.buildTopology).epoch = s.epoch := rfl

/-! ### dropTopology -/

@[simp] theorem dropTopology_done (s : State) : (s.dropTopology).done = s.done := rfl
@[simp] theorem dropTopology_initialized (s : State) : (s.dropTopology).initialized = false := rfl
@[simp] theorem dropTopology_overrun (s : State) : (s.dropTopology).overrun = s.overrun := rfl
@[simp] theorem dropTopology_classValid (s : State) : (s.dropTopology).classValid = s.classValid := rfl
@[simp] theorem dropTopology_err (s : State) : (s.dropTopology).err = s.err := rfl
@[simp] theorem dropTopology_cmd (s : State) : (s.dropTopology).cmd = s.cmd := rfl
@[simp] theorem dropTopology_arg0 (s : State) : (s.dropTopology).arg0 = s.arg0 := rfl
@[simp] theorem dropTopology_arg1 (s : State) : (s.dropTopology).arg1 = s.arg1 := rfl
@[simp] theorem dropTopology_irqEn (s : State) : (s.dropTopology).irqEn = s.irqEn := rfl
@[simp] theorem dropTopology_donePend (s : State) : (s.dropTopology).donePend = s.donePend := rfl
@[simp] theorem dropTopology_peekData (s : State) : (s.dropTopology).peekData = s.peekData := rfl
@[simp] theorem dropTopology_qres0 (s : State) : (s.dropTopology).qres0 = s.qres0 := rfl
@[simp] theorem dropTopology_qres1 (s : State) : (s.dropTopology).qres1 = s.qres1 := rfl
@[simp] theorem dropTopology_reportCount (s : State) : (s.dropTopology).reportCount = 0 := rfl
@[simp] theorem dropTopology_cfg (s : State) : (s.dropTopology).cfg = s.cfg := rfl
@[simp] theorem dropTopology_topo (s : State) : (s.dropTopology).topo = TopoParams.zero := rfl
@[simp] theorem dropTopology_derived (s : State) : (s.dropTopology).derived = TopoDerived.zero := rfl
@[simp] theorem dropTopology_online (s : State) : (s.dropTopology).online = 0 := rfl
@[simp] theorem dropTopology_targets (s : State) : (s.dropTopology).targets = s.targets := rfl
@[simp] theorem dropTopology_classGrp (s : State) : (s.dropTopology).classGrp = BitVec.allOnes 128 := rfl
@[simp] theorem dropTopology_classDom (s : State) : (s.dropTopology).classDom = BitVec.allOnes 64 := rfl
@[simp] theorem dropTopology_classRollup (s : State) : (s.dropTopology).classRollup = 3 := rfl
@[simp] theorem dropTopology_bufs (s : State) : (s.dropTopology).bufs = s.bufs := rfl
@[simp] theorem dropTopology_report (s : State) : (s.dropTopology).report = s.report := rfl
@[simp] theorem dropTopology_serve (s : State) : (s.dropTopology).serve = [] := rfl
@[simp] theorem dropTopology_pstate (s : State) : (s.dropTopology).pstate = [] := rfl
@[simp] theorem dropTopology_flight (s : State) : (s.dropTopology).flight = s.flight := rfl
@[simp] theorem dropTopology_drives (s : State) : (s.dropTopology).drives = s.drives := rfl
@[simp] theorem dropTopology_inputs (s : State) : (s.dropTopology).inputs = s.inputs := rfl
@[simp] theorem dropTopology_responses (s : State) : (s.dropTopology).responses = s.responses := rfl
@[simp] theorem dropTopology_traffic (s : State) : (s.dropTopology).traffic = s.traffic := rfl
@[simp] theorem dropTopology_readData (s : State) : (s.dropTopology).readData = s.readData := rfl
@[simp] theorem dropTopology_epoch (s : State) : (s.dropTopology).epoch = s.epoch := rfl

/-! ### submitted -/

@[simp] theorem submitted_done (s : State) (w : Word) : (submitted s w).done = false := rfl
@[simp] theorem submitted_initialized (s : State) (w : Word) : (submitted s w).initialized = s.initialized := rfl
@[simp] theorem submitted_overrun (s : State) (w : Word) : (submitted s w).overrun = s.overrun := rfl
@[simp] theorem submitted_classValid (s : State) (w : Word) : (submitted s w).classValid = s.classValid := rfl
@[simp] theorem submitted_err (s : State) (w : Word) : (submitted s w).err = .none := rfl
@[simp] theorem submitted_cmd (s : State) (w : Word) : (submitted s w).cmd = w := rfl
@[simp] theorem submitted_arg0 (s : State) (w : Word) : (submitted s w).arg0 = s.arg0 := rfl
@[simp] theorem submitted_arg1 (s : State) (w : Word) : (submitted s w).arg1 = s.arg1 := rfl
@[simp] theorem submitted_irqEn (s : State) (w : Word) : (submitted s w).irqEn = s.irqEn := rfl
@[simp] theorem submitted_donePend (s : State) (w : Word) : (submitted s w).donePend = s.donePend := rfl
@[simp] theorem submitted_peekData (s : State) (w : Word) : (submitted s w).peekData = s.peekData := rfl
@[simp] theorem submitted_qres0 (s : State) (w : Word) : (submitted s w).qres0 = s.qres0 := rfl
@[simp] theorem submitted_qres1 (s : State) (w : Word) : (submitted s w).qres1 = s.qres1 := rfl
@[simp] theorem submitted_reportCount (s : State) (w : Word) : (submitted s w).reportCount = s.reportCount := rfl
@[simp] theorem submitted_cfg (s : State) (w : Word) : (submitted s w).cfg = s.cfg := rfl
@[simp] theorem submitted_topo (s : State) (w : Word) : (submitted s w).topo = s.topo := rfl
@[simp] theorem submitted_derived (s : State) (w : Word) : (submitted s w).derived = s.derived := rfl
@[simp] theorem submitted_online (s : State) (w : Word) : (submitted s w).online = s.online := rfl
@[simp] theorem submitted_targets (s : State) (w : Word) : (submitted s w).targets = s.targets := rfl
@[simp] theorem submitted_classGrp (s : State) (w : Word) : (submitted s w).classGrp = s.classGrp := rfl
@[simp] theorem submitted_classDom (s : State) (w : Word) : (submitted s w).classDom = s.classDom := rfl
@[simp] theorem submitted_classRollup (s : State) (w : Word) : (submitted s w).classRollup = s.classRollup := rfl
@[simp] theorem submitted_bufs (s : State) (w : Word) : (submitted s w).bufs = s.bufs := rfl
@[simp] theorem submitted_report (s : State) (w : Word) : (submitted s w).report = s.report := rfl
@[simp] theorem submitted_serve (s : State) (w : Word) : (submitted s w).serve = s.serve := rfl
@[simp] theorem submitted_pstate (s : State) (w : Word) : (submitted s w).pstate = s.pstate := rfl
@[simp] theorem submitted_flight (s : State) (w : Word) : (submitted s w).flight = some (s.latchFor w) := rfl
@[simp] theorem submitted_drives (s : State) (w : Word) : (submitted s w).drives = s.drives := rfl
@[simp] theorem submitted_inputs (s : State) (w : Word) : (submitted s w).inputs = .complete :: s.inputs := rfl
@[simp] theorem submitted_responses (s : State) (w : Word) : (submitted s w).responses = s.responses := rfl
@[simp] theorem submitted_traffic (s : State) (w : Word) : (submitted s w).traffic = [] := rfl
@[simp] theorem submitted_readData (s : State) (w : Word) : (submitted s w).readData = s.readData := rfl
@[simp] theorem submitted_epoch (s : State) (w : Word) : (submitted s w).epoch = s.epoch + 1 := rfl

end Sys2Proof.Machine
end

