-- ==== Sys2Proof/Laws/Memory.lean ====
section
/-! SUPPORT. Laws of the byte memory: what a read gives after a write, that a block is its bytes, and that every memory
operation keeps the canonical form. -/

namespace Sys2Proof.Machine

/-! ### Reading through a filter and an append -/

theorem Memory.read_filter (m : Memory) (p : Host.Cell → Bool) (a : Nat) (h : ∀ v, p (a, v) = true) :
    Memory.read (m.filter p) a = m.read a := by
  induction m with
  | nil => rfl
  | cons c m ih =>
    obtain ⟨k, v⟩ := c
    by_cases hk : k = a
    · subst hk; simp [List.filter, h, Memory.read]
    · cases hp : p (k, v) <;> simp [hp, Memory.read, hk, ih]

theorem Memory.read_of_not_listed (m : Memory) (a : Nat) (h : ∀ c ∈ m, c.1 ≠ a) : m.read a = Memory.unlisted := by
  induction m with
  | nil => rfl
  | cons c m ih =>
    obtain ⟨k, v⟩ := c
    have hk : k ≠ a := h (k, v) (by simp)
    simp only [Memory.read, hk, if_false]
    exact ih fun c hc => h c (by simp [hc])

theorem Memory.read_append_left (m m' : Memory) (a : Nat) (h : ∀ c ∈ m, c.1 ≠ a) :
    Memory.read (m ++ m') a = m'.read a := by
  induction m with
  | nil => rfl
  | cons c m ih =>
    obtain ⟨k, v⟩ := c
    have hk : k ≠ a := h (k, v) (by simp)
    simp only [List.cons_append, Memory.read, hk, if_false]
    exact ih fun c hc => h c (by simp [hc])

theorem Memory.read_append_right (m m' : Memory) (a : Nat) (h : ∀ c ∈ m', c.1 ≠ a) :
    Memory.read (m ++ m') a = m.read a := by
  induction m with
  | nil => simpa [Memory.read] using Memory.read_of_not_listed m' a h
  | cons c m ih =>
    obtain ⟨k, v⟩ := c
    by_cases hk : k = a
    · simp [Memory.read, hk]
    · simp [Memory.read, hk, ih]

/-! ### The cells of a block -/

theorem Memory.cellsOf_addr (k a v : Nat) : ∀ c ∈ Memory.cellsOf k a v, a ≤ c.1 ∧ c.1 < a + 2 ^ k := by
  induction k generalizing a v with
  | zero =>
    intro c hc
    simp only [Memory.cellsOf] at hc
    split at hc <;> simp_all
  | succ k ih =>
    intro c hc
    simp only [Memory.cellsOf] at hc
    split at hc
    · simp at hc
    · rcases List.mem_append.mp hc with hc | hc
      · have := ih _ _ c hc
        rw [pow_succ]; omega
      · have := ih _ _ c hc
        rw [pow_succ]; omega

theorem Memory.cellsOf_wf (k a v : Nat) : Memory.wf (Memory.cellsOf k a v) := by
  induction k generalizing a v with
  | zero =>
    simp only [Memory.cellsOf]
    split
    · exact ⟨List.Pairwise.nil, by simp⟩
    · exact ⟨by simp, by simpa using ‹_›⟩
  | succ k ih =>
    simp only [Memory.cellsOf]
    split
    · exact ⟨List.Pairwise.nil, by simp⟩
    · refine ⟨List.pairwise_append.mpr ⟨(ih _ _).1, (ih _ _).1, ?_⟩, ?_⟩
      · intro c hc d hd
        have h1 := (Memory.cellsOf_addr _ _ _ c hc).2
        have h2 := (Memory.cellsOf_addr _ _ _ d hd).1
        omega
      · intro c hc
        rcases List.mem_append.mp hc with hc | hc
        · exact (ih _ _).2 c hc
        · exact (ih _ _).2 c hc

/-- Byte `i` of a number. -/
def byteOf (v i : Nat) : Byte := BitVec.ofNat 8 (v / 2 ^ (8 * i))

theorem byteOf_zero (i : Nat) : byteOf 0 i = Memory.unlisted := by simp [byteOf, Memory.unlisted]

theorem byteOf_low (v k i : Nat) (h : i < 2 ^ k) : byteOf (v % 2 ^ (8 * 2 ^ k)) i = byteOf v i := by
  apply BitVec.eq_of_toNat_eq
  simp only [byteOf, BitVec.toNat_ofNat]
  have : 8 * 2 ^ k = 8 * i + 8 * (2 ^ k - i) := by omega
  rw [this, pow_add, Nat.mod_mul_right_div_self]
  apply Nat.mod_mod_of_dvd
  exact pow_dvd_pow 2 (by omega)

theorem byteOf_high (v k i : Nat) : byteOf (v / 2 ^ (8 * 2 ^ k)) i = byteOf v (2 ^ k + i) := by
  simp only [byteOf, Nat.div_div_eq_div_mul, ← pow_add]
  congr 3
  ring

theorem Memory.read_cellsOf (k a v i : Nat) (h : i < 2 ^ k) : Memory.read (Memory.cellsOf k a v) (a + i) = byteOf v i := by
  induction k generalizing a v i with
  | zero =>
    have hi : i = 0 := by simpa using h
    subst hi
    simp only [Memory.cellsOf, byteOf]
    split
    · simp_all [Memory.read]
    · simp [Memory.read]
  | succ k ih =>
    simp only [Memory.cellsOf]
    split
    · subst v; simp [Memory.read, byteOf_zero]
    · by_cases hi : i < 2 ^ k
      · rw [Memory.read_append_right, ih _ _ _ hi, byteOf_low _ _ _ hi]
        intro c hc
        have := Memory.cellsOf_addr _ _ _ c hc
        omega
      · obtain ⟨j, rfl⟩ : ∃ j, i = 2 ^ k + j := ⟨i - 2 ^ k, by omega⟩
        have hj : j < 2 ^ k := by rw [pow_succ] at h; omega
        rw [Memory.read_append_left, ← Nat.add_assoc, ih _ _ _ hj, byteOf_high]
        intro c hc
        have := Memory.cellsOf_addr _ _ _ c hc
        omega

/-! ### Writing a block -/

/-- What every address reads as after a block write: the block's bytes inside it, the old bytes outside. -/
theorem Memory.read_writeBlock (k : Nat) (m : Memory) (a v x : Nat) :
    Memory.read (m.writeBlock k a v) x = if a ≤ x ∧ x < a + 2 ^ k then byteOf v (x - a) else m.read x := by
  unfold Memory.writeBlock
  by_cases h1 : x < a
  · rw [Memory.read_append_right, Memory.read_filter]
    · simp [show ¬(a ≤ x) by omega]
    · intro v; simpa using h1
    · intro c hc
      rcases List.mem_append.mp hc with hc | hc
      · have := Memory.cellsOf_addr _ _ _ c hc; omega
      · have h3 := (List.mem_filter.mp hc).2
        have h2 := Nat.one_le_two_pow (n := k)
        simp only [decide_eq_true_eq] at h3
        omega
  · rw [Memory.read_append_left]
    · by_cases h2 : x < a + 2 ^ k
      · rw [Memory.read_append_right]
        · obtain ⟨i, rfl⟩ : ∃ i, x = a + i := ⟨x - a, by omega⟩
          rw [Memory.read_cellsOf _ _ _ _ (by omega)]
          simp [show i < 2 ^ k by omega]
        · intro c hc
          have := (List.mem_filter.mp hc).2
          simp at this; omega
      · rw [Memory.read_append_left, Memory.read_filter]
        · simp [h2]
        · intro v; simpa using Nat.le_of_not_lt h2
        · intro c hc
          have := Memory.cellsOf_addr _ _ _ c hc; omega
    · intro c hc
      have := (List.mem_filter.mp hc).2
      simp at this; omega

theorem Memory.writeBlock_wf (k : Nat) (m : Memory) (a v : Nat) (h : Memory.wf m) : Memory.wf (m.writeBlock k a v) := by
  unfold Memory.writeBlock
  refine ⟨List.pairwise_append.mpr ⟨h.1.filter _, List.pairwise_append.mpr ⟨(Memory.cellsOf_wf _ _ _).1, h.1.filter _, ?_⟩, ?_⟩,
    ?_⟩
  · intro c hc d hd
    have h1 := (Memory.cellsOf_addr _ _ _ c hc).2
    have h2 := (List.mem_filter.mp hd).2
    simp at h2; omega
  · intro c hc d hd
    have h1 := (List.mem_filter.mp hc).2
    simp at h1
    rcases List.mem_append.mp hd with hd | hd
    · have := (Memory.cellsOf_addr _ _ _ d hd).1; omega
    · have h3 := (List.mem_filter.mp hd).2
      have h2 := Nat.one_le_two_pow (n := k)
      simp only [decide_eq_true_eq] at h3
      omega
  · intro c hc
    rcases List.mem_append.mp hc with hc | hc
    · exact h.2 c (List.mem_of_mem_filter hc)
    · rcases List.mem_append.mp hc with hc | hc
      · exact (Memory.cellsOf_wf _ _ _).2 c hc
      · exact h.2 c (List.mem_of_mem_filter hc)

theorem Memory.nil_wf : Memory.wf ([] : Memory) := ⟨List.Pairwise.nil, by simp⟩

/-! ### Reading a block -/

theorem Memory.readBlock_lt (k : Nat) (m : Memory) (a : Nat) : m.readBlock k a < 2 ^ (8 * 2 ^ k) := by
  induction k generalizing m a with
  | zero => exact (m.read a).isLt
  | succ k ih =>
    simp only [Memory.readBlock]
    split
    · positivity
    · have h1 := ih (m.filter fun c => decide (c.1 < a + 2 ^ k)) a
      have h2 := ih (m.filter fun c => decide (a + 2 ^ k ≤ c.1)) (a + 2 ^ k)
      have e : (2 : ℕ) ^ (8 * 2 ^ (k + 1)) = 2 ^ (8 * 2 ^ k) * 2 ^ (8 * 2 ^ k) := by rw [← pow_add]; congr 1; ring
      rw [e]
      nlinarith

theorem byteOf_join_low (x y k i : Nat) (hi : i < 2 ^ k) :
    byteOf (x + 2 ^ (8 * 2 ^ k) * y) i = byteOf x i := by
  rw [← byteOf_low _ k i hi, Nat.add_mul_mod_self_left, byteOf_low _ _ _ hi]

theorem byteOf_join_high (x y k i : Nat) (hx : x < 2 ^ (8 * 2 ^ k)) :
    byteOf (x + 2 ^ (8 * 2 ^ k) * y) (2 ^ k + i) = byteOf y i := by
  rw [← byteOf_high, Nat.add_mul_div_left _ _ (by positivity), Nat.div_eq_of_lt hx, Nat.zero_add]

theorem Memory.read_nil (a : Nat) : Memory.read [] a = Memory.unlisted := rfl

/-- A block is its bytes (20_memory.md R94). -/
theorem Memory.byteOf_readBlock (k : Nat) (m : Memory) (a i : Nat) (h : i < 2 ^ k) :
    byteOf (m.readBlock k a) i = m.read (a + i) := by
  induction k generalizing m a i with
  | zero =>
    have hi : i = 0 := by simpa using h
    subst hi
    simp [Memory.readBlock, byteOf]
  | succ k ih =>
    simp only [Memory.readBlock]
    split
    · next hm =>
      have : m = [] := by simpa using hm
      subst this
      rw [byteOf_zero, Memory.read_nil]
    · by_cases hi : i < 2 ^ k
      · rw [byteOf_join_low _ _ _ _ hi, ih _ _ _ hi, Memory.read_filter]
        intro v; simpa using hi
      · obtain ⟨j, rfl⟩ : ∃ j, i = 2 ^ k + j := ⟨i - 2 ^ k, by omega⟩
        have hj : j < 2 ^ k := by rw [pow_succ] at h; omega
        rw [byteOf_join_high _ _ _ _ (Memory.readBlock_lt _ _ _), ih _ _ _ hj, Memory.read_filter, Nat.add_assoc]
        intro v; simp

/-- Two blocks with the same bytes are the same number. -/
theorem eq_of_byteOf_eq (k x y : Nat) (hx : x < 2 ^ (8 * 2 ^ k)) (hy : y < 2 ^ (8 * 2 ^ k))
    (h : ∀ i, i < 2 ^ k → byteOf x i = byteOf y i) : x = y := by
  induction k generalizing x y with
  | zero =>
    have h0 := congrArg BitVec.toNat (h 0 (by simp))
    simp only [byteOf, Nat.mul_zero, pow_zero, Nat.div_one, BitVec.toNat_ofNat] at h0
    simp only [pow_zero, Nat.mul_one] at hx hy
    rwa [Nat.mod_eq_of_lt hx, Nat.mod_eq_of_lt hy] at h0
  | succ k ih =>
    have e : (2 : ℕ) ^ (8 * 2 ^ (k + 1)) = 2 ^ (8 * 2 ^ k) * 2 ^ (8 * 2 ^ k) := by rw [← pow_add]; congr 1; ring
    rw [e] at hx hy
    have hp : 0 < (2 : ℕ) ^ (8 * 2 ^ k) := by positivity
    have h1 := ih (x % 2 ^ (8 * 2 ^ k)) (y % 2 ^ (8 * 2 ^ k)) (Nat.mod_lt _ hp) (Nat.mod_lt _ hp) fun i hi => by
      rw [byteOf_low _ _ _ hi, byteOf_low _ _ _ hi]
      exact h i (by rw [pow_succ]; omega)
    have h2 := ih (x / 2 ^ (8 * 2 ^ k)) (y / 2 ^ (8 * 2 ^ k)) (Nat.div_lt_of_lt_mul hx) (Nat.div_lt_of_lt_mul hy)
      fun i hi => by
        rw [byteOf_high, byteOf_high]
        exact h _ (by rw [pow_succ]; omega)
    rw [← Nat.mod_add_div x (2 ^ (8 * 2 ^ k)), ← Nat.mod_add_div y (2 ^ (8 * 2 ^ k)), h1, h2]

/-- Two memories that agree on a block's bytes have the same block. -/
theorem Memory.readBlock_congr (k : Nat) (m m' : Memory) (a a' : Nat)
    (h : ∀ i, i < 2 ^ k → m.read (a + i) = m'.read (a' + i)) : m.readBlock k a = m'.readBlock k a' :=
  eq_of_byteOf_eq k _ _ (Memory.readBlock_lt _ _ _) (Memory.readBlock_lt _ _ _) fun i hi => by
    rw [Memory.byteOf_readBlock _ _ _ _ hi, Memory.byteOf_readBlock _ _ _ _ hi, h i hi]

/-- Reading the block just written. -/
theorem Memory.readBlock_writeBlock (k : Nat) (m : Memory) (a v : Nat) (hv : v < 2 ^ (8 * 2 ^ k)) :
    (m.writeBlock k a v).readBlock k a = v :=
  eq_of_byteOf_eq k _ _ (Memory.readBlock_lt _ _ _) hv fun i hi => by
    rw [Memory.byteOf_readBlock _ _ _ _ hi, Memory.read_writeBlock]
    simp [hi]

/-- Reading a block that does not meet the block written. -/
theorem Memory.readBlock_writeBlock_of_disjoint (k l : Nat) (m : Memory) (a b v : Nat)
    (h : b + 2 ^ l ≤ a ∨ a + 2 ^ k ≤ b) : (m.writeBlock k a v).readBlock l b = m.readBlock l b :=
  Memory.readBlock_congr l _ _ _ _ fun i hi => by
    rw [Memory.read_writeBlock, if_neg]
    omega

/-- `readBlock` is `readBytes` of the block's length. -/
theorem Memory.readBytes_lt (m : Memory) (a n : Nat) : m.readBytes a n < 2 ^ (8 * n) := by
  induction n generalizing a with
  | zero => simp [Memory.readBytes]
  | succ n ih =>
    have h1 := ih (a + 1)
    have h2 := (m.read a).isLt
    have e : (2 : ℕ) ^ (8 * (n + 1)) = 256 * 2 ^ (8 * n) := by rw [Nat.mul_add, pow_add]; norm_num [Nat.mul_comm]
    simp only [Memory.readBytes]
    omega

theorem Memory.byteOf_readBytes (m : Memory) (a n i : Nat) (h : i < n) :
    byteOf (m.readBytes a n) i = m.read (a + i) := by
  induction n generalizing a i with
  | zero => omega
  | succ n ih =>
    have h2 := (m.read a).isLt
    cases i with
    | zero =>
      apply BitVec.eq_of_toNat_eq
      simp only [Memory.readBytes, byteOf, BitVec.toNat_ofNat, Nat.mul_zero, pow_zero, Nat.div_one, Nat.add_zero]
      omega
    | succ i =>
      have := ih (a + 1) i (by omega)
      rw [show a + (i + 1) = a + 1 + i by omega, ← this]
      simp only [Memory.readBytes, byteOf]
      rw [show 8 * (i + 1) = 8 + 8 * i by ring, pow_add, ← Nat.div_div_eq_div_mul,
        show ((m.read a).toNat + 256 * m.readBytes (a + 1) n) / 2 ^ 8 = m.readBytes (a + 1) n by omega]

theorem Memory.readBlock_eq_readBytes (k : Nat) (m : Memory) (a : Nat) : m.readBlock k a = m.readBytes a (2 ^ k) :=
  eq_of_byteOf_eq k _ _ (Memory.readBlock_lt _ _ _) (Memory.readBytes_lt _ _ _) fun i hi => by
    rw [Memory.byteOf_readBlock _ _ _ _ hi, Memory.byteOf_readBytes _ _ _ _ hi]

/-! ### Chunks of a drive memory -/

theorem chunk_bits : 8 * Config.CHUNK = 8 * 2 ^ Config.chunkLog := rfl

theorem chunk_two_pow : 2 ^ Config.chunkLog = Config.CHUNK := rfl

/-- A byte lane of a chunk is the drive's byte there (20_memory.md R94, 10_state.md R65). -/
theorem laneAt_chunkIn (m : Memory) (p c i : Nat) (h : i < Config.CHUNK) :
    laneAt (chunkIn m p c) i = m.read (driveKey p (c * Config.CHUNK) + i) := by
  rw [← Memory.byteOf_readBlock Config.chunkLog _ _ _ (by rw [chunk_two_pow]; exact h)]
  have hlt := Memory.readBlock_lt Config.chunkLog m (driveKey p (c * Config.CHUNK))
  rw [← chunk_bits] at hlt
  apply BitVec.eq_of_toNat_eq
  simp only [laneAt, chunkIn, byteOf, BitVec.extractLsb'_toNat, BitVec.toNat_ofNat, Nat.shiftRight_eq_div_pow]
  rw [Nat.mod_eq_of_lt hlt]

theorem laneAt_eq_byteOf (v : Chunk) (i : Nat) : laneAt v i = byteOf v.toNat i := by
  apply BitVec.eq_of_toNat_eq
  simp only [laneAt, byteOf, BitVec.extractLsb'_toNat, BitVec.toNat_ofNat, Nat.shiftRight_eq_div_pow]

theorem chunkIn_withChunk (m : Memory) (p c : Nat) (v : Chunk) : chunkIn (withChunk m p c v) p c = v := by
  unfold chunkIn withChunk
  rw [Memory.readBlock_writeBlock _ _ _ _ (by rw [← chunk_bits]; exact v.isLt)]
  rw [BitVec.ofNat_toNat]
  exact BitVec.setWidth_eq v

theorem chunkIn_withChunk_of_disjoint (m : Memory) (p c q e : Nat) (v : Chunk)
    (h : driveKey q (e * Config.CHUNK) + Config.CHUNK ≤ driveKey p (c * Config.CHUNK)
      ∨ driveKey p (c * Config.CHUNK) + Config.CHUNK ≤ driveKey q (e * Config.CHUNK)) :
    chunkIn (withChunk m p c v) q e = chunkIn m q e := by
  unfold chunkIn withChunk
  rw [Memory.readBlock_writeBlock_of_disjoint _ _ _ _ _ _ (by rw [chunk_two_pow]; exact h)]

/-- Chunks of different drives, or different chunks of one drive, do not meet. -/
theorem chunks_disjoint (p c q e : Nat) (hc : c < Config.MAX_CHUNKS) (he : e < Config.MAX_CHUNKS)
    (h : p ≠ q ∨ c ≠ e) :
    driveKey q (e * Config.CHUNK) + Config.CHUNK ≤ driveKey p (c * Config.CHUNK)
      ∨ driveKey p (c * Config.CHUNK) + Config.CHUNK ≤ driveKey q (e * Config.CHUNK) := by
  simp only [driveKey, driveSpan, Config.MAX_CHUNKS, Config.CHUNK] at *
  omega

theorem chunkIn_withChunk_of_ne (m : Memory) (p c q e : Nat) (v : Chunk) (hc : c < Config.MAX_CHUNKS)
    (he : e < Config.MAX_CHUNKS) (h : p ≠ q ∨ c ≠ e) : chunkIn (withChunk m p c v) q e = chunkIn m q e :=
  chunkIn_withChunk_of_disjoint m p c q e v (chunks_disjoint p c q e hc he h)

/-- What every drive address reads as after a chunk write. -/
theorem read_withChunk (m : Memory) (p c x : Nat) (v : Chunk) :
    Memory.read (withChunk m p c v) x =
      if driveKey p (c * Config.CHUNK) ≤ x ∧ x < driveKey p (c * Config.CHUNK) + Config.CHUNK then
        laneAt v (x - driveKey p (c * Config.CHUNK))
      else m.read x := by
  unfold withChunk
  rw [Memory.read_writeBlock, chunk_two_pow, laneAt_eq_byteOf]

theorem withChunk_wf (m : Memory) (p c : Nat) (v : Chunk) (h : Memory.wf m) : Memory.wf (withChunk m p c v) :=
  Memory.writeBlock_wf _ _ _ _ h

theorem reset_memories_canonical : State.reset.memoriesCanonical := ⟨Memory.nil_wf, Memory.nil_wf⟩

end Sys2Proof.Machine
end

