-- ==== Sys2Proof/Laws/Port.lean ====
section
/-! SUPPORT. What the drive port operations can do: one lemma per operation and answer. -/

namespace Sys2Proof.Machine

/-! ### The drive space (20_memory.md R90, R96) -/

theorem inDriveSpace_chunk (s : State) (p c : Nat) :
    s.inDriveSpace p (c * Config.CHUNK) Config.CHUNK = true ↔ p < s.total ∧ c < s.chunks := by
  have hC : 0 < Config.CHUNK := by decide
  simp only [State.inDriveSpace, Bool.and_eq_true, decide_eq_true_eq]
  refine and_congr_right fun _ => ?_
  rw [show c * Config.CHUNK + Config.CHUNK = (c + 1) * Config.CHUNK from (Nat.succ_mul _ _).symm,
    Nat.mul_le_mul_right_iff hC]
  omega

/-! ### One access (20_memory.md R97) -/

theorem driveRead_ok_iff {α : Type} (p off n : Nat) (v : Memory → α) (s t : State) (a : α) :
    driveRead p off n v s = .ok a t ↔
      s.inDriveSpace p off n = true ∧ s.response = .ok ∧ a = v s.drives ∧ t = s.afterAccess (.read p off n true) := by
  unfold driveRead
  cases h : s.inDriveSpace p off n <;> cases hr : s.response <;> simp [eq_comm]

theorem driveRead_err_iff {α : Type} (p off n : Nat) (v : Memory → α) (s t : State) :
    driveRead p off n v s = .err t ↔
      s.inDriveSpace p off n = true ∧ (∃ junk, s.response = .err junk) ∧ t = s.afterAccess (.read p off n false) := by
  unfold driveRead
  cases h : s.inDriveSpace p off n <;> cases hr : s.response <;> simp [eq_comm]

theorem driveRead_absent_iff {α : Type} (p off n : Nat) (v : Memory → α) (s : State) :
    driveRead p off n v s = .absent ↔ s.inDriveSpace p off n = false := by
  unfold driveRead
  cases h : s.inDriveSpace p off n <;> cases hr : s.response <;> simp

theorem rdchunk_ok_iff (q c : Nat) (s t : State) (x : Chunk) :
    rdchunk q c s = .ok x t ↔
      (q < s.total ∧ c < s.chunks) ∧ s.response = .ok ∧ x = s.driveChunk q c
        ∧ t = s.afterAccess (.read q (c * Config.CHUNK) Config.CHUNK true) := by
  rw [rdchunk, driveRead_ok_iff, inDriveSpace_chunk]; rfl

theorem rdchunk_err_iff (q c : Nat) (s t : State) :
    rdchunk q c s = .err t ↔
      (q < s.total ∧ c < s.chunks) ∧ (∃ junk, s.response = .err junk)
        ∧ t = s.afterAccess (.read q (c * Config.CHUNK) Config.CHUNK false) := by
  rw [rdchunk, driveRead_err_iff, inDriveSpace_chunk]

theorem rdchunk_absent_iff (q c : Nat) (s : State) : rdchunk q c s = .absent ↔ ¬(q < s.total ∧ c < s.chunks) := by
  rw [rdchunk, driveRead_absent_iff, ← inDriveSpace_chunk, Bool.not_eq_true]

theorem wrchunk_ok_iff (q c : Nat) (v : Chunk) (s t : State) (u : Unit) :
    wrchunk q c v s = .ok u t ↔
      (q < s.total ∧ c < s.chunks) ∧ s.response = .ok
        ∧ t = { s.afterAccess (.write q (c * Config.CHUNK) v true) with drives := withChunk s.drives q c v } := by
  rw [← inDriveSpace_chunk]
  unfold wrchunk
  cases h : s.inDriveSpace q (c * Config.CHUNK) Config.CHUNK <;> cases hr : s.response <;> simp [eq_comm]

theorem wrchunk_err_iff (q c : Nat) (v : Chunk) (s t : State) :
    wrchunk q c v s = .err t ↔
      (q < s.total ∧ c < s.chunks) ∧ ∃ junk, s.response = .err junk
        ∧ t = { s.afterAccess (.write q (c * Config.CHUNK) junk false) with drives := withChunk s.drives q c junk } := by
  rw [← inDriveSpace_chunk]
  unfold wrchunk
  cases h : s.inDriveSpace q (c * Config.CHUNK) Config.CHUNK <;> cases hr : s.response <;> simp [eq_comm]

theorem wrchunk_absent_iff (q c : Nat) (v : Chunk) (s : State) :
    wrchunk q c v s = .absent ↔ ¬(q < s.total ∧ c < s.chunks) := by
  rw [← inDriveSpace_chunk, Bool.not_eq_true]
  unfold wrchunk
  cases h : s.inDriveSpace q (c * Config.CHUNK) Config.CHUNK <;> cases hr : s.response <;> simp

/-- With no error among the listed answers the next answer is ok, and the answers after it are all ok too. -/
theorem response_of_portOk (s : State) (h : s.portOk) : s.response = .ok := by
  unfold State.response
  cases hr : s.responses with
  | nil => rfl
  | cons r rs => exact h r (by rw [hr]; exact List.mem_cons_self)

theorem portOk_afterAccess (s : State) (a : DriveAccess) (h : s.portOk) : (s.afterAccess a).portOk :=
  fun r hr => h r (List.mem_of_mem_tail hr)

/-- Two positions of the first error in a list of answers are one. -/
theorem firstErr_unique (l : List DriveResponse) (i j : Nat) (x y : Chunk) (hi : ∀ r ∈ l.take i, r = .ok)
    (hi' : l[i]? = some (.err x)) (hj : ∀ r ∈ l.take j, r = .ok) (hj' : l[j]? = some (.err y)) : i = j := by
  have key : ∀ a b : Nat, ∀ z : Chunk, a < b → (∀ r ∈ l.take b, r = .ok) → l[a]? = some (.err z) → False := by
    intro a b z hab h h'
    have hm : DriveResponse.err z ∈ l.take b := by
      rw [List.mem_iff_getElem?]
      exact ⟨a, by rw [List.getElem?_take_of_lt hab, h']⟩
    cases h _ hm
  rcases Nat.lt_trichotomy i j with h | h | h
  · exact (key i j x h hj hi').elim
  · exact h
  · exact (key j i y h hi hj').elim

theorem response_of_getElem (s : State) (x : Chunk) (h : s.responses[0]? = some (.err x)) : s.response = .err x := by
  unfold State.response
  cases hl : s.responses with
  | nil => rw [hl] at h; cases h
  | cons a l => rw [hl] at h; simpa using h

theorem response_of_take (s : State) (n : Nat) (hn : 0 < n) (h : ∀ r ∈ s.responses.take n, r = .ok) :
    s.response = .ok := by
  unfold State.response
  cases hl : s.responses with
  | nil => rfl
  | cons a l =>
    obtain ⟨m, rfl⟩ : ∃ m, n = m + 1 := ⟨n - 1, by omega⟩
    exact h a (by rw [hl]; simp)

/-! ### The end of a command (60_exceptions.md R341, 42_encode.md R260) -/

/-- A command that answers a next state after its drive accesses either had an ok answer, or completed with DRIVE_IO. -/
theorem orDriveIo_next {α : Type} {r : PortResult α} {f : α → State → Host.Outcome State Fault Refusal} {t : State}
    (h : r.orDriveIo f = .next t) :
    (∃ a s1, r = .ok a s1 ∧ f a s1 = .next t) ∨ ∃ s1, r = .err s1 ∧ t = finish .driveIo s1 := by
  cases r with
  | ok a s1 => exact .inl ⟨a, s1, rfl, h⟩
  | err s1 =>
    simp only [PortResult.orDriveIo, finishWith, Host.Outcome.next.injEq] at h
    exact .inr ⟨s1, rfl, h.symm⟩
  | absent => simp [PortResult.orDriveIo] at h

theorem finishWith_next {e : ErrCode} {s t : State} (h : finishWith e s = .next t) : t = finish e s := by
  simp only [finishWith, Host.Outcome.next.injEq] at h
  exact h.symm

/-! ### What a run of accesses leaves alone -/

/-- `t` is `s` with some answers used up and some accesses made, every drive as before. -/
def ReadsOnly (s t : State) : Prop := t = { s with responses := t.responses, traffic := t.traffic }

/-- `t` is `s` with some answers used up, some accesses made and some drive bytes changed. -/
def DrivesOnly (s t : State) : Prop :=
  t = { s with drives := t.drives, responses := t.responses, traffic := t.traffic }

theorem ReadsOnly.refl (s : State) : ReadsOnly s s := rfl

theorem ReadsOnly.trans {s t u : State} (h : ReadsOnly s t) (h' : ReadsOnly t u) : ReadsOnly s u := by
  unfold ReadsOnly at *; rw [h', h]

theorem ReadsOnly.afterAccess (s : State) (a : DriveAccess) : ReadsOnly s (s.afterAccess a) := rfl

theorem ReadsOnly.drivesOnly {s t : State} (h : ReadsOnly s t) : DrivesOnly s t := by
  unfold ReadsOnly at h; unfold DrivesOnly; rw [h]

theorem DrivesOnly.refl (s : State) : DrivesOnly s s := rfl

theorem DrivesOnly.trans {s t u : State} (h : DrivesOnly s t) (h' : DrivesOnly t u) : DrivesOnly s u := by
  unfold DrivesOnly at *; rw [h', h]

theorem ReadsOnly.drives {s t : State} (h : ReadsOnly s t) : t.drives = s.drives := by rw [h]
theorem DrivesOnly.serve {s t : State} (h : DrivesOnly s t) : t.serve = s.serve := by rw [h]
theorem DrivesOnly.pstate {s t : State} (h : DrivesOnly s t) : t.pstate = s.pstate := by rw [h]
theorem DrivesOnly.topo {s t : State} (h : DrivesOnly s t) : t.topo = s.topo := by rw [h]
theorem DrivesOnly.online {s t : State} (h : DrivesOnly s t) : t.online = s.online := by rw [h]
theorem DrivesOnly.bufs {s t : State} (h : DrivesOnly s t) : t.bufs = s.bufs := by rw [h]
theorem DrivesOnly.serveAt {s t : State} (h : DrivesOnly s t) (D k : Nat) : t.serveAt D k = s.serveAt D k := by
  rw [State.serveAt, h.serve]; rfl
theorem DrivesOnly.pstateAt {s t : State} (h : DrivesOnly s t) (p : Nat) : t.pstateAt p = s.pstateAt p := by
  rw [State.pstateAt, h.pstate]; rfl
theorem DrivesOnly.total {s t : State} (h : DrivesOnly s t) : t.total = s.total := by
  rw [State.total, h.topo]; rfl
theorem DrivesOnly.dpd {s t : State} (h : DrivesOnly s t) : t.dpd = s.dpd := by
  rw [State.dpd, h.topo]; rfl
theorem DrivesOnly.chunks {s t : State} (h : DrivesOnly s t) : t.chunks = s.chunks := by
  rw [State.chunks, h.topo]; rfl
theorem DrivesOnly.layout {s t : State} (h : DrivesOnly s t) : t.layout = s.layout := by
  rw [State.layout, h.topo]; rfl
theorem DrivesOnly.slotOf {s t : State} (h : DrivesOnly s t) (p : Nat) : t.slotOf p = s.slotOf p := by
  rw [State.slotOf, State.domainOf, h.layout, h.dpd, State.slotOf, State.domainOf]
  simp only [h.serveAt]

theorem rdchunk_readsOnly {q c : Nat} {s t : State} {x : Chunk} (h : rdchunk q c s = .ok x t) : ReadsOnly s t := by
  rw [((rdchunk_ok_iff _ _ _ _ _).1 h).2.2.2]; exact .afterAccess _ _

theorem rdchunk_err_readsOnly {q c : Nat} {s t : State} (h : rdchunk q c s = .err t) : ReadsOnly s t := by
  rw [((rdchunk_err_iff _ _ _ _).1 h).2.2]; exact .afterAccess _ _

theorem wrchunk_drivesOnly {q c : Nat} {v : Chunk} {s t : State} {u : Unit} (h : wrchunk q c v s = .ok u t) :
    DrivesOnly s t := by
  rw [((wrchunk_ok_iff _ _ _ _ _ _).1 h).2.2]; rfl

theorem wrchunk_err_drivesOnly {q c : Nat} {v : Chunk} {s t : State} (h : wrchunk q c v s = .err t) :
    DrivesOnly s t := by
  obtain ⟨_, junk, _, rfl⟩ := (wrchunk_err_iff _ _ _ _ _).1 h; rfl

/-- A chunk write in the drive space that is answered ok. -/
theorem wrchunk_of_ok (q c : Nat) (v : Chunk) (s : State) (hq : q < s.total) (hc : c < s.chunks)
    (hr : s.response = .ok) :
    ∃ t, wrchunk q c v s = .ok () t ∧ DrivesOnly s t ∧ t.drives = withChunk s.drives q c v
      ∧ t.responses = s.responses.tail :=
  ⟨_, (wrchunk_ok_iff _ _ _ _ _ _).2 ⟨⟨hq, hc⟩, hr, rfl⟩, rfl, rfl, rfl⟩

/-- A chunk write in the drive space that is answered with an error. -/
theorem wrchunk_of_err (q c : Nat) (v junk : Chunk) (s : State) (hq : q < s.total) (hc : c < s.chunks)
    (hr : s.response = .err junk) :
    ∃ t, wrchunk q c v s = .err t ∧ DrivesOnly s t ∧ t.drives = withChunk s.drives q c junk
      ∧ t.responses = s.responses.tail :=
  ⟨_, (wrchunk_err_iff _ _ _ _ _).2 ⟨⟨hq, hc⟩, junk, hr, rfl⟩, rfl, rfl, rfl⟩

/-! ### Reading the chunks of slots (41_parity_math.md R227) -/

/-- What reading listed slots comes to when every answer is ok: each slot's chunk, in the list's order. -/
def readAll (s : State) (D c : Nat) (ks : List Nat) : SlotChunks :=
  ks.map fun k => (k, s.driveChunk (s.serveAt D k) c)

/-- The accesses of reading listed slots, newest first. -/
def slotReads (s : State) (D c : Nat) (ks : List Nat) : List DriveAccess :=
  (ks.map fun k => DriveAccess.read (s.serveAt D k) (c * Config.CHUNK) Config.CHUNK true).reverse

theorem chunkOfSlot_readAll (s : State) (D c : Nat) (ks : List Nat) (k : Nat) (h : k ∈ ks) :
    chunkOfSlot (readAll s D c ks) k = s.driveChunk (s.serveAt D k) c := by
  induction ks with
  | nil => cases h
  | cons j ks ih =>
    simp only [readAll, List.map_cons, chunkOfSlot]
    by_cases hj : j = k
    · rw [if_pos hj, hj]
    · rw [if_neg hj]
      exact ih ((List.mem_cons.1 h).resolve_left fun e => hj e.symm)

/-- If reading listed slots answers ok, each of them was in the drive space and answered ok, the chunks are those on the
drives, and the answers and the traffic have moved on by as many accesses. -/
theorem readSlots_ok {D c : Nat} {ks : List Nat} {s t : State} {known : SlotChunks}
    (h : readSlots D c ks s = .ok known t) :
    known = readAll s D c ks
      ∧ t = { s with responses := s.responses.drop ks.length, traffic := slotReads s D c ks ++ s.traffic }
      ∧ (∀ r ∈ s.responses.take ks.length, r = .ok)
      ∧ ∀ k ∈ ks, s.serveAt D k < s.total ∧ c < s.chunks := by
  induction ks generalizing s known with
  | nil =>
    simp only [readSlots, PortResult.ok.injEq] at h
    obtain ⟨rfl, rfl⟩ := h
    simp [readAll, slotReads]
  | cons k ks ih =>
    simp only [readSlots] at h
    cases h1 : rdchunk (s.serveAt D k) c s with
    | absent => rw [h1] at h; cases h
    | err s1 => rw [h1] at h; cases h
    | ok x s1 =>
      rw [h1] at h
      dsimp only at h
      cases h2 : readSlots D c ks s1 with
      | absent => rw [h2] at h; cases h
      | err s2 => rw [h2] at h; cases h
      | ok kn s2 =>
        rw [h2] at h
        simp only [PortResult.ok.injEq] at h
        obtain ⟨rfl, rfl⟩ := h
        obtain ⟨hsp, hr, rfl, rfl⟩ := (rdchunk_ok_iff _ _ _ _ _).1 h1
        obtain ⟨rfl, rfl, hrs, hks⟩ := ih h2
        refine ⟨rfl, ?_, ?_, ?_⟩
        · simp [State.afterAccess, slotReads, State.serveAt]
        · intro r hr'
          unfold State.response at hr
          cases hl : s.responses with
          | nil => rw [hl] at hr'; simp at hr'
          | cons a l =>
            rw [hl] at hr hr'
            simp only [List.length_cons, List.take_succ_cons, List.mem_cons] at hr'
            rcases hr' with rfl | hr'
            · simpa using hr
            · apply hrs; simpa [State.afterAccess, hl] using hr'
        · intro j hj
          rcases List.mem_cons.1 hj with rfl | hj
          · exact hsp
          · exact hks j hj

/-- Reading listed slots of the drive space with only ok answers ahead answers ok. -/
theorem readSlots_of_ok (D c : Nat) (ks : List Nat) (s : State)
    (hs : ∀ k ∈ ks, s.serveAt D k < s.total) (hc : c < s.chunks)
    (hr : ∀ r ∈ s.responses.take ks.length, r = .ok) :
    readSlots D c ks s =
      .ok (readAll s D c ks)
        { s with responses := s.responses.drop ks.length, traffic := slotReads s D c ks ++ s.traffic } := by
  induction ks generalizing s with
  | nil => simp [readSlots, readAll, slotReads]
  | cons k ks ih =>
    have hresp : s.response = .ok := by
      unfold State.response
      cases hl : s.responses with
      | nil => rfl
      | cons a l => exact hr a (by rw [hl]; simp)
    have h1 : rdchunk (s.serveAt D k) c s = _ :=
      (rdchunk_ok_iff _ _ _ _ _).2 ⟨⟨hs k List.mem_cons_self, hc⟩, hresp, rfl, rfl⟩
    simp only [readSlots, h1]
    rw [ih (s.afterAccess (.read (s.serveAt D k) (c * Config.CHUNK) Config.CHUNK true))
      (fun j hj => hs j (List.mem_cons_of_mem _ hj)) hc ?_]
    · simp [State.afterAccess, readAll, slotReads, State.serveAt, State.driveChunk]
    · intro r hr'
      apply hr
      cases hl : s.responses with
      | nil => simp [State.afterAccess, hl] at hr'
      | cons a l =>
        simp only [State.afterAccess, hl, List.tail_cons] at hr'
        simp [hr']

/-- If reading listed slots ends in an error, the slots before the failing one were read and nothing after it. -/
theorem readSlots_err {D c : Nat} {ks : List Nat} {s t : State} (h : readSlots D c ks s = .err t) :
    ∃ pre k post, ks = pre ++ k :: post
      ∧ (∀ r ∈ s.responses.take pre.length, r = .ok)
      ∧ (∃ junk, s.responses[pre.length]? = some (.err junk))
      ∧ (∀ j ∈ pre ++ [k], s.serveAt D j < s.total ∧ c < s.chunks)
      ∧ t = { s with
              responses := s.responses.drop (pre.length + 1)
              traffic := .read (s.serveAt D k) (c * Config.CHUNK) Config.CHUNK false
                :: (slotReads s D c pre ++ s.traffic) } := by
  induction ks generalizing s with
  | nil => cases h
  | cons k ks ih =>
    simp only [readSlots] at h
    cases h1 : rdchunk (s.serveAt D k) c s with
    | absent => rw [h1] at h; cases h
    | err s1 =>
      rw [h1] at h
      simp only [PortResult.err.injEq] at h
      subst h
      obtain ⟨hsp, ⟨junk, hr⟩, rfl⟩ := (rdchunk_err_iff _ _ _ _).1 h1
      refine ⟨[], k, ks, rfl, by simp, ⟨junk, ?_⟩, ?_, ?_⟩
      · unfold State.response at hr
        cases hl : s.responses with
        | nil => rw [hl] at hr; cases hr
        | cons a l => rw [hl] at hr; simpa using hr
      · intro j hj
        obtain rfl : j = k := by simpa using hj
        exact hsp
      · simp [State.afterAccess, slotReads]
    | ok x s1 =>
      rw [h1] at h
      dsimp only at h
      cases h2 : readSlots D c ks s1 with
      | absent => rw [h2] at h; cases h
      | ok kn s2 => rw [h2] at h; cases h
      | err s2 =>
        rw [h2] at h
        simp only [PortResult.err.injEq] at h
        subst h
        obtain ⟨hsp, hr, rfl, rfl⟩ := (rdchunk_ok_iff _ _ _ _ _).1 h1
        obtain ⟨pre, j, post, rfl, hok, ⟨junk, hj⟩, hin, rfl⟩ := ih h2
        unfold State.response at hr
        cases hl : s.responses with
        | nil => simp [State.afterAccess, hl] at hj
        | cons a l =>
          simp only [State.afterAccess, hl, List.tail_cons] at hok hj
          rw [hl] at hr
          refine ⟨k :: pre, j, post, rfl, ?_, ⟨junk, by simpa using hj⟩, ?_, ?_⟩
          · intro r hr'
            simp only [List.length_cons, List.take_succ_cons, List.mem_cons] at hr'
            rcases hr' with rfl | hr'
            · simpa using hr
            · exact hok r hr'
          · intro i hi
            rcases List.mem_cons.1 hi with rfl | hi
            · exact hsp
            · exact hin i hi
          · simp [State.afterAccess, hl, slotReads, State.serveAt]

/-- Reading listed slots leaves the drive space only where a slot's serving drive does. -/
theorem readSlots_absent {D c : Nat} {ks : List Nat} {s : State} (h : readSlots D c ks s = .absent) :
    ∃ k ∈ ks, ¬(s.serveAt D k < s.total ∧ c < s.chunks) := by
  induction ks generalizing s with
  | nil => cases h
  | cons k ks ih =>
    simp only [readSlots] at h
    cases h1 : rdchunk (s.serveAt D k) c s with
    | absent => exact ⟨k, List.mem_cons_self, (rdchunk_absent_iff _ _ _).1 h1⟩
    | err s1 => rw [h1] at h; cases h
    | ok x s1 =>
      rw [h1] at h
      dsimp only at h
      cases h2 : readSlots D c ks s1 with
      | err s2 => rw [h2] at h; cases h
      | ok kn s2 => rw [h2] at h; cases h
      | absent =>
        obtain ⟨hsp, hr, rfl, rfl⟩ := (rdchunk_ok_iff _ _ _ _ _).1 h1
        obtain ⟨j, hj, hn⟩ := ih h2
        exact ⟨j, List.mem_cons_of_mem _ hj, hn⟩

theorem readSlots_readsOnly {D c : Nat} {ks : List Nat} {s t : State} {known : SlotChunks}
    (h : readSlots D c ks s = .ok known t) : ReadsOnly s t := by
  rw [(readSlots_ok h).2.1]; rfl

theorem readSlots_err_readsOnly {D c : Nat} {ks : List Nat} {s t : State} (h : readSlots D c ks s = .err t) :
    ReadsOnly s t := by
  obtain ⟨pre, k, post, _, _, _, _, rfl⟩ := readSlots_err h; rfl

/-- Reading listed slots of the drive space whose j-th answer is the first error ends there. -/
theorem readSlots_of_err (D c : Nat) (ks : List Nat) (s : State) (j : Nat) (junk : Chunk)
    (hs : ∀ k ∈ ks, s.serveAt D k < s.total) (hc : c < s.chunks) (hj : j < ks.length)
    (hr : ∀ r ∈ s.responses.take j, r = .ok) (he : s.responses[j]? = some (.err junk)) :
    ∃ t, readSlots D c ks s = .err t ∧ ReadsOnly s t ∧ t.responses = s.responses.drop (j + 1) := by
  cases h : readSlots D c ks s with
  | absent =>
    obtain ⟨k, hk, hn⟩ := readSlots_absent h
    exact absurd ⟨hs k hk, hc⟩ hn
  | ok known t =>
    obtain ⟨-, -, hok, -⟩ := readSlots_ok h
    have hm : DriveResponse.err junk ∈ s.responses.take ks.length := by
      rw [List.mem_iff_getElem?]
      exact ⟨j, by rw [List.getElem?_take_of_lt hj, he]⟩
    cases hok _ hm
  | err t =>
    refine ⟨t, rfl, readSlots_err_readsOnly h, ?_⟩
    obtain ⟨pre, k, post, -, hok, ⟨x, hx⟩, -, rfl⟩ := readSlots_err h
    rw [firstErr_unique _ _ _ _ _ hok hx hr he]

/-! ### Writing the chunks of slots (42_encode.md R261, R262) -/

/-- The drives after chunk `c` of the listed slots' drives was written, in the list's order. -/
def writeAll (s : State) (D c : Nat) (xs : SlotChunks) (m : Memory) : Memory :=
  xs.foldl (fun m x => withChunk m (s.serveAt D x.1) c x.2) m

/-- The accesses of writing listed slots, newest first. -/
def slotWrites (s : State) (D c : Nat) (xs : SlotChunks) : List DriveAccess :=
  (xs.map fun x => DriveAccess.write (s.serveAt D x.1) (c * Config.CHUNK) x.2 true).reverse

/-- If writing listed slots answers ok, every chunk was written. -/
theorem writeSlots_ok {D c : Nat} {xs : SlotChunks} {s t : State} {u : Unit} (h : writeSlots D c xs s = .ok u t) :
    t = { s with
          drives := writeAll s D c xs s.drives
          responses := s.responses.drop xs.length, traffic := slotWrites s D c xs ++ s.traffic }
      ∧ ∀ x ∈ xs, s.serveAt D x.1 < s.total ∧ c < s.chunks := by
  induction xs generalizing s with
  | nil =>
    simp only [writeSlots, PortResult.ok.injEq] at h
    obtain ⟨_, rfl⟩ := h
    simp [writeAll, slotWrites]
  | cons x xs ih =>
    obtain ⟨k, v⟩ := x
    simp only [writeSlots] at h
    cases h1 : wrchunk (s.serveAt D k) c v s with
    | absent => rw [h1] at h; cases h
    | err s1 => rw [h1] at h; cases h
    | ok y s1 =>
      rw [h1] at h
      dsimp only at h
      obtain ⟨hsp, hr, rfl⟩ := (wrchunk_ok_iff _ _ _ _ _ _).1 h1
      obtain ⟨rfl, hxs⟩ := ih h
      refine ⟨?_, ?_⟩
      · simp [State.afterAccess, writeAll, slotWrites, State.serveAt]
      · intro j hj
        rcases List.mem_cons.1 hj with rfl | hj
        · exact hsp
        · exact hxs j hj

/-- Writing listed slots of the drive space with only ok answers ahead answers ok. -/
theorem writeSlots_of_ok (D c : Nat) (xs : SlotChunks) (s : State)
    (hs : ∀ x ∈ xs, s.serveAt D x.1 < s.total) (hc : c < s.chunks)
    (hr : ∀ r ∈ s.responses.take xs.length, r = .ok) :
    writeSlots D c xs s =
      .ok () { s with
                drives := writeAll s D c xs s.drives
                responses := s.responses.drop xs.length, traffic := slotWrites s D c xs ++ s.traffic } := by
  induction xs generalizing s with
  | nil => simp [writeSlots, writeAll, slotWrites]
  | cons x xs ih =>
    obtain ⟨k, v⟩ := x
    have hresp : s.response = .ok := by
      unfold State.response
      cases hl : s.responses with
      | nil => rfl
      | cons a l => exact hr a (by rw [hl]; simp)
    have h1 : wrchunk (s.serveAt D k) c v s = .ok () _ :=
      (wrchunk_ok_iff _ _ _ _ _ _).2 ⟨⟨hs _ List.mem_cons_self, hc⟩, hresp, rfl⟩
    simp only [writeSlots, h1]
    rw [ih { s.afterAccess (.write (s.serveAt D k) (c * Config.CHUNK) v true) with
        drives := withChunk s.drives (s.serveAt D k) c v } (fun j hj => hs j (List.mem_cons_of_mem _ hj)) hc ?_]
    · simp [State.afterAccess, writeAll, slotWrites, State.serveAt]
    · intro r hr'
      apply hr
      cases hl : s.responses with
      | nil => simp [State.afterAccess, hl] at hr'
      | cons a l =>
        simp only [State.afterAccess, hl, List.tail_cons] at hr'
        simp [hr']

/-- If writing listed slots ends in an error, the chunks before the failing one were written, the failing one's range
holds the environment's draw, and nothing after it was touched. -/
theorem writeSlots_err {D c : Nat} {xs : SlotChunks} {s t : State} (h : writeSlots D c xs s = .err t) :
    ∃ pre k v post junk, xs = pre ++ (k, v) :: post
      ∧ (∀ x ∈ pre ++ [(k, v)], s.serveAt D x.1 < s.total ∧ c < s.chunks)
      ∧ t = { s with
              drives := withChunk (writeAll s D c pre s.drives) (s.serveAt D k) c junk
              responses := s.responses.drop (pre.length + 1)
              traffic := .write (s.serveAt D k) (c * Config.CHUNK) junk false
                :: (slotWrites s D c pre ++ s.traffic) } := by
  induction xs generalizing s with
  | nil => cases h
  | cons x xs ih =>
    obtain ⟨k, v⟩ := x
    simp only [writeSlots] at h
    cases h1 : wrchunk (s.serveAt D k) c v s with
    | absent => rw [h1] at h; cases h
    | err s1 =>
      rw [h1] at h
      simp only [PortResult.err.injEq] at h
      subst h
      obtain ⟨hsp, junk, hr, rfl⟩ := (wrchunk_err_iff _ _ _ _ _).1 h1
      refine ⟨[], k, v, xs, junk, rfl, ?_, ?_⟩
      · intro j hj
        obtain rfl : j = (k, v) := by simpa using hj
        exact hsp
      · simp [State.afterAccess, slotWrites, writeAll]
    | ok y s1 =>
      rw [h1] at h
      dsimp only at h
      obtain ⟨hsp, hr, rfl⟩ := (wrchunk_ok_iff _ _ _ _ _ _).1 h1
      obtain ⟨pre, j, w, post, junk, rfl, hin, rfl⟩ := ih h
      refine ⟨(k, v) :: pre, j, w, post, junk, rfl, ?_, ?_⟩
      · intro i hi
        rcases List.mem_cons.1 hi with rfl | hi
        · exact hsp
        · exact hin i hi
      · simp [State.afterAccess, slotWrites, writeAll, State.serveAt]

/-- Writing listed slots of the drive space whose j-th answer is the first error ends there: the chunks before it are
written and its range holds the answer's draw. -/
theorem writeSlots_of_err (D c : Nat) (xs : SlotChunks) (s : State) (j k : Nat) (v junk : Chunk)
    (hs : ∀ x ∈ xs, s.serveAt D x.1 < s.total) (hc : c < s.chunks) (hj : xs[j]? = some (k, v))
    (hr : ∀ r ∈ s.responses.take j, r = .ok) (he : s.responses[j]? = some (.err junk)) :
    ∃ t, writeSlots D c xs s = .err t ∧ DrivesOnly s t
      ∧ t.drives = withChunk (writeAll s D c (xs.take j) s.drives) (s.serveAt D k) c junk
      ∧ t.responses = s.responses.drop (j + 1) := by
  induction xs generalizing s j with
  | nil => simp at hj
  | cons x xs ih =>
    obtain ⟨i, w⟩ := x
    cases j with
    | zero =>
      simp only [List.getElem?_cons_zero, Option.some.injEq, Prod.mk.injEq] at hj
      obtain ⟨rfl, rfl⟩ := hj
      have hresp := response_of_getElem s junk he
      obtain ⟨t, h1, hdo, hdr, hrs⟩ := wrchunk_of_err (s.serveAt D i) c w junk s (hs _ List.mem_cons_self) hc hresp
      exact ⟨t, by simp only [writeSlots, h1], hdo, hdr, by rw [hrs]; simp⟩
    | succ j =>
      have hresp := response_of_take s (j + 1) (by omega) hr
      obtain ⟨s1, h1, hdo1, hdr1, hrs1⟩ := wrchunk_of_ok (s.serveAt D i) c w s (hs _ List.mem_cons_self) hc hresp
      obtain ⟨t, ht, hdo, hdr, hrs⟩ := ih s1 j
        (fun y hy => by rw [hdo1.serveAt, hdo1.total]; exact hs y (List.mem_cons_of_mem _ hy))
        (by rw [hdo1.chunks]; exact hc) (by simpa using hj)
        (by
          rw [hrs1]
          intro r hr'
          apply hr
          cases hl : s.responses with
          | nil => rw [hl] at hr'; simp at hr'
          | cons a l =>
            rw [hl] at hr'
            simp only [List.tail_cons] at hr'
            simp [hr'])
        (by rw [hrs1]; simpa using he)
      refine ⟨t, by simp only [writeSlots, h1]; exact ht, hdo1.trans hdo, ?_, ?_⟩
      · rw [hdr, hdr1, hdo1.serveAt]
        simp only [writeAll, hdo1.serveAt, List.take_succ_cons, List.foldl_cons]
      · rw [hrs, hrs1]; simp

/-- Writing listed slots leaves the drive space only where a slot's serving drive does. -/
theorem writeSlots_absent {D c : Nat} {xs : SlotChunks} {s : State} (h : writeSlots D c xs s = .absent) :
    ∃ x ∈ xs, ¬(s.serveAt D x.1 < s.total ∧ c < s.chunks) := by
  induction xs generalizing s with
  | nil => cases h
  | cons x xs ih =>
    obtain ⟨k, v⟩ := x
    simp only [writeSlots] at h
    cases h1 : wrchunk (s.serveAt D k) c v s with
    | absent => exact ⟨_, List.mem_cons_self, (wrchunk_absent_iff _ _ _ _).1 h1⟩
    | err s1 => rw [h1] at h; cases h
    | ok y s1 =>
      rw [h1] at h
      dsimp only at h
      obtain ⟨hsp, hr, rfl⟩ := (wrchunk_ok_iff _ _ _ _ _ _).1 h1
      obtain ⟨j, hj, hn⟩ := ih h
      exact ⟨j, List.mem_cons_of_mem _ hj, hn⟩

theorem writeSlots_drivesOnly {D c : Nat} {xs : SlotChunks} {s t : State} {u : Unit}
    (h : writeSlots D c xs s = .ok u t) : DrivesOnly s t := by
  rw [(writeSlots_ok h).1]; rfl

theorem writeSlots_err_drivesOnly {D c : Nat} {xs : SlotChunks} {s t : State} (h : writeSlots D c xs s = .err t) :
    DrivesOnly s t := by
  obtain ⟨pre, k, v, post, junk, _, _, rfl⟩ := writeSlots_err h; rfl

/-- A written memory keeps its canonical form. -/
theorem writeAll_wf (s : State) (D c : Nat) (xs : SlotChunks) (m : Memory) (h : Memory.wf m) :
    Memory.wf (writeAll s D c xs m) := by
  induction xs generalizing m with
  | nil => exact h
  | cons x xs ih => exact ih _ (withChunk_wf _ _ _ _ h)

/-- A byte outside every written chunk is unchanged. -/
theorem read_writeAll_of_outside (s : State) (D c : Nat) (xs : SlotChunks) (m : Memory) (a : Nat)
    (h : ∀ x ∈ xs, ¬(driveKey (s.serveAt D x.1) (c * Config.CHUNK) ≤ a
      ∧ a < driveKey (s.serveAt D x.1) (c * Config.CHUNK) + Config.CHUNK)) :
    (writeAll s D c xs m).read a = m.read a := by
  induction xs generalizing m with
  | nil => rfl
  | cons x xs ih =>
    rw [writeAll, List.foldl_cons, ← writeAll, ih _ fun y hy => h y (List.mem_cons_of_mem _ hy), read_withChunk,
      if_neg (h x List.mem_cons_self)]

/-- A chunk of a drive that none of the written slots is served by is unchanged. -/
theorem chunkIn_writeAll_of_ne (s : State) (D c : Nat) (xs : SlotChunks) (m : Memory) (q e : Nat)
    (hc : c < Config.MAX_CHUNKS) (he : e < Config.MAX_CHUNKS)
    (h : ∀ x ∈ xs, s.serveAt D x.1 ≠ q ∨ c ≠ e) : chunkIn (writeAll s D c xs m) q e = chunkIn m q e := by
  induction xs generalizing m with
  | nil => rfl
  | cons x xs ih =>
    rw [writeAll, List.foldl_cons, ← writeAll, ih _ fun y hy => h y (List.mem_cons_of_mem _ hy),
      chunkIn_withChunk_of_ne _ _ _ _ _ _ hc he (h x List.mem_cons_self)]

/-- A written slot's chunk, where no two written slots are served by one drive. -/
theorem chunkIn_writeAll (s : State) (D c : Nat) (xs : SlotChunks) (m : Memory) (hc : c < Config.MAX_CHUNKS)
    (hd : xs.Pairwise fun x y => s.serveAt D x.1 ≠ s.serveAt D y.1) (x : Nat × Chunk) (hx : x ∈ xs) :
    chunkIn (writeAll s D c xs m) (s.serveAt D x.1) c = x.2 := by
  induction xs generalizing m with
  | nil => cases hx
  | cons y ys ih =>
    rw [writeAll, List.foldl_cons, ← writeAll]
    rw [List.pairwise_cons] at hd
    rcases List.mem_cons.1 hx with rfl | hx
    · rw [chunkIn_writeAll_of_ne _ _ _ _ _ _ _ hc hc fun z hz => Or.inl (hd.1 z hz).symm, chunkIn_withChunk]
    · exact ih _ hd.2 hx

end Sys2Proof.Machine
end

