-- ==== Sys2Proof/Laws/Words.lean ====
section
/-! SUPPORT. What the operations on register words, flag registers and packed fields do, bit by bit. -/

namespace Sys2Proof.Machine

/-! ### Flags (10_state.md R46, R47) -/

theorem getLsbD_ones_shift (lo n p : Nat) (hp : p < 512) :
    (BitVec.ofNat 512 (2 ^ n - 1) <<< lo).getLsbD p = decide (lo ≤ p ∧ p < lo + n) := by
  rw [BitVec.getLsbD_shiftLeft, BitVec.getLsbD_ofNat, Nat.testBit_two_pow_sub_one, Bool.eq_iff_iff]
  simp only [Bool.and_eq_true, Bool.not_eq_true', decide_eq_true_eq, decide_eq_false_iff_not]
  omega

/-- A range of flags is set, every other flag stays. -/
theorem flagAt_setFlags (v : BitVec 512) (lo n : Nat) (b : Bool) (p : Nat) (hp : p < 512) :
    flagAt (setFlags v lo n b) p = if lo ≤ p ∧ p < lo + n then b else flagAt v p := by
  unfold flagAt setFlags
  cases b
  · rw [if_neg (by decide), BitVec.getLsbD_and, BitVec.getLsbD_not, getLsbD_ones_shift _ _ _ hp]
    by_cases h : lo ≤ p ∧ p < lo + n
    · rw [if_pos h, decide_eq_true h]; simp
    · rw [if_neg h, decide_eq_false h]; simp [hp]
  · rw [if_pos rfl, BitVec.getLsbD_or, getLsbD_ones_shift _ _ _ hp]
    by_cases h : lo ≤ p ∧ p < lo + n
    · rw [if_pos h, decide_eq_true h]; simp
    · rw [if_neg h, decide_eq_false h]; simp

theorem flagAt_of_ge (v : BitVec 512) (p : Nat) (hp : 512 ≤ p) : flagAt v p = false :=
  BitVec.getLsbD_of_ge v p hp

/-- One flag is set. -/
theorem flagAt_setFlag_self (v : BitVec 512) (p : Nat) (b : Bool) (hp : p < 512) : flagAt (setFlag v p b) p = b := by
  rw [setFlag, flagAt_setFlags _ _ _ _ _ hp, if_pos (by omega)]

/-- Setting one flag keeps the others. -/
theorem flagAt_setFlag_of_ne (v : BitVec 512) (p q : Nat) (b : Bool) (h : q ≠ p) :
    flagAt (setFlag v p b) q = flagAt v q := by
  by_cases hq : q < 512
  · rw [setFlag, flagAt_setFlags _ _ _ _ _ hq, if_neg (by omega)]
  · rw [flagAt_of_ge _ _ (by omega), flagAt_of_ge _ _ (by omega)]

theorem flagAt_setFlag (v : BitVec 512) (p q : Nat) (b : Bool) (hp : p < 512) :
    flagAt (setFlag v p b) q = if q = p then b else flagAt v q := by
  by_cases h : q = p
  · subst h; rw [if_pos rfl, flagAt_setFlag_self _ _ _ hp]
  · rw [if_neg h, flagAt_setFlag_of_ne _ _ _ _ h]

theorem flagAt_zero (p : Nat) : flagAt 0 p = false := by simp [flagAt]

/-! ### Words of a register array (10_state.md R32) -/

/-- One bit of a register array after one of its words is replaced. -/
theorem getLsbD_setWordAt {n : Nat} (v : BitVec n) (w : Nat) (x : Word) (p : Nat) (hp : p < n) :
    (setWordAt v w x).getLsbD p = if p / 32 = w then x.getLsbD (p % 32) else v.getLsbD p := by
  unfold setWordAt
  simp only [BitVec.getLsbD_or, BitVec.getLsbD_and, BitVec.getLsbD_not, BitVec.getLsbD_shiftLeft,
    BitVec.getLsbD_setWidth, BitVec.getLsbD_allOnes]
  by_cases h1 : p < 32 * w
  · have : p / 32 ≠ w := by omega
    simp [h1, hp, this]
  · by_cases h2 : p - 32 * w < 32
    · have h3 : p / 32 = w := by omega
      have h4 : p - 32 * w = p % 32 := by omega
      have h5 : p % 32 < n := by omega
      simp [h1, hp, h3, h4, h5, Nat.mod_lt]
    · have h3 : p / 32 ≠ w := by omega
      rw [BitVec.getLsbD_of_ge x (p - 32 * w) (by omega)]
      simp only [h1, h2, h3, Bool.and_false, Bool.or_false, decide_false, Bool.not_false, if_false]
      simp [hp]

/-- The word of a register array that was just written. -/
theorem wordAt_setWordAt_self {n : Nat} (v : BitVec n) (w : Nat) (x : Word) (h : 32 * w + 32 ≤ n) :
    wordAt (setWordAt v w x) w = x := by
  apply BitVec.eq_of_getLsbD_eq
  intro i hi
  rw [wordAt, BitVec.getLsbD_extractLsb', getLsbD_setWordAt _ _ _ _ (by omega), if_pos (by omega)]
  have : (32 * w + i) % 32 = i := by omega
  simp [this, hi]

/-- A byte lane of a buffer after one of its words is written (10_state.md R51, 20_memory.md R94). -/
theorem laneAt_setWordAt (x : Chunk) (i : Nat) (v : Word) (k : Nat) (hk : k < Config.CHUNK) :
    laneAt (setWordAt x i v) k = if k / 4 = i then v.extractLsb' (8 * (k % 4)) 8 else laneAt x k := by
  have hc : Config.CHUNK = 4096 := rfl
  apply BitVec.eq_of_getLsbD_eq
  intro j hj
  rw [laneAt, BitVec.getLsbD_extractLsb', getLsbD_setWordAt _ _ _ _ (by omega)]
  by_cases h : k / 4 = i
  · rw [if_pos h, if_pos (by omega), BitVec.getLsbD_extractLsb']
    have : (8 * k + j) % 32 = 8 * (k % 4) + j := by omega
    rw [this]
  · rw [if_neg h, if_neg (by omega), laneAt, BitVec.getLsbD_extractLsb']

/-- A buffer word packs its four byte lanes little-endian (20_memory.md R94). -/
theorem wordAt_lanes (x : Chunk) (i : Nat) :
    wordAt x i = laneAt x (4 * i + 3) ++ laneAt x (4 * i + 2) ++ laneAt x (4 * i + 1) ++ laneAt x (4 * i) := by
  apply BitVec.eq_of_getLsbD_eq
  intro j hj
  simp only [wordAt, laneAt, BitVec.getLsbD_extractLsb', BitVec.getLsbD_append]
  by_cases h0 : j < 8
  · have : 8 * (4 * i) + j = 32 * i + j := by omega
    simp [h0, hj, this]
  · by_cases h1 : j < 16
    · have : 8 * (4 * i + 1) + (j - 8) = 32 * i + j := by omega
      have h2 : j - 8 < 8 := by omega
      simp [h0, h2, hj, this]
    · by_cases h2 : j < 24
      · have : 8 * (4 * i + 2) + (j - 8 - 8) = 32 * i + j := by omega
        have h3 : ¬j - 8 < 8 := by omega
        have h4 : j - 8 - 8 < 8 := by omega
        simp [h0, h3, h4, hj, this]
      · have : 8 * (4 * i + 3) + (j - 8 - 8 - 8) = 32 * i + j := by omega
        have h3 : ¬j - 8 < 8 := by omega
        have h4 : ¬j - 8 - 8 < 8 := by omega
        have h5 : j - 8 - 8 - 8 < 8 := by omega
        simp [h0, h3, h4, h5, hj, this]

/-- Two chunks with the same byte lanes are the same. -/
theorem Chunk.ext_lanes (x y : Chunk) (h : ∀ i, i < Config.CHUNK → laneAt x i = laneAt y i) : x = y := by
  apply BitVec.eq_of_getLsbD_eq
  intro j hj
  have hl := congrArg (fun b => BitVec.getLsbD b (j % 8)) (h (j / 8) (by omega))
  simp only [laneAt, BitVec.getLsbD_extractLsb'] at hl
  have h1 : 8 * (j / 8) + j % 8 = j := by omega
  have h2 : j % 8 < 8 := by omega
  simpa [h1, h2] using hl

/-! ### Packed fields (10_state.md R48, R49) -/

theorem packFields_lt (f : Nat → BitVec 2) (n : Nat) : packFields f n < 4 ^ n := by
  induction n with
  | zero => simp [packFields]
  | succ n ih =>
    have h1 : (f n).toNat ≤ 3 := by have := (f n).isLt; omega
    have h2 : 4 ^ n * (f n).toNat ≤ 4 ^ n * 3 := Nat.mul_le_mul_left _ h1
    simp only [packFields, pow_succ]
    omega

theorem packFields_field (f : Nat → BitVec 2) (n i : Nat) (h : i < n) :
    packFields f n / 4 ^ i % 4 = (f i).toNat := by
  induction n with
  | zero => omega
  | succ n ih =>
    simp only [packFields]
    by_cases hi : i = n
    · subst hi
      rw [Nat.add_mul_div_left _ _ (by positivity), Nat.div_eq_of_lt (packFields_lt f i), Nat.zero_add,
        Nat.mod_eq_of_lt (f i).isLt]
    · have hin : i < n := by omega
      have : 4 ^ n = 4 ^ i * (4 * 4 ^ (n - i - 1)) := by
        rw [← mul_assoc, ← pow_succ, ← pow_add]; congr 1; omega
      rw [this, mul_assoc, Nat.add_mul_div_left _ _ (by positivity), mul_assoc, Nat.add_mul_mod_self_left]
      exact ih hin

/-- A packed two-bit field reads as what was packed. -/
theorem fieldAt_packFields {m : Nat} (f : Nat → BitVec 2) (n i : Nat) (h : i < n) (hm : m = 2 * n) :
    fieldAt (BitVec.ofNat m (packFields f n)) i = f i := by
  subst hm
  apply BitVec.eq_of_toNat_eq
  have hlt : packFields f n < 2 ^ (2 * n) := by
    rw [pow_mul]; exact packFields_lt f n
  rw [fieldAt, BitVec.extractLsb'_toNat, BitVec.toNat_ofNat, Nat.mod_eq_of_lt hlt, Nat.shiftRight_eq_div_pow, pow_mul]
  exact packFields_field f n i h

theorem packBits_lt (f : Nat → Bool) (n : Nat) : packBits f n < 2 ^ n := by
  induction n with
  | zero => simp [packBits]
  | succ n ih =>
    have h1 : (f n).toNat ≤ 1 := by cases f n <;> simp
    have h2 : 2 ^ n * (f n).toNat ≤ 2 ^ n * 1 := Nat.mul_le_mul_left _ h1
    simp only [packBits, pow_succ]
    omega

/-- A packed flag reads as what was packed. -/
theorem testBit_packBits (f : Nat → Bool) (n i : Nat) (h : i < n) : (packBits f n).testBit i = f i := by
  induction n with
  | zero => omega
  | succ n ih =>
    simp only [packBits]
    rw [Nat.add_comm]
    by_cases hi : i = n
    · subst hi
      rw [Nat.testBit_two_pow_mul_add _ (packBits_lt f i)]
      cases f i <;> simp
    · rw [Nat.testBit_two_pow_mul_add _ (packBits_lt f n), if_pos (by omega)]
      exact ih (by omega)

end Sys2Proof.Machine
end

