-- ==== Sys2Proof/Laws/Window.lean ====
section
/-! SUPPORT. What the register map says of an offset, and what a step on a host access does. -/

namespace Sys2Proof.Machine

/-! ### The register map (10_state.md R32) -/

theorem singleRegAt_of_ge (a : Nat) (h : 0x21C ≤ a) : singleRegAt a = none := by
  unfold singleRegAt
  split <;> first | omega | rfl

/-- Below the arrays of words the map is what a table of 0x21C offsets says. -/
theorem regAt_of_ge (a : Nat) (h : 0x21C ≤ a) :
    regAt a =
      if 0x1000 ≤ a ∧ a < 0x5000 then some (.bufWord ((a - 0x1000) / 0x1000) (a % 0x1000 / 4))
      else if 0x8000 ≤ a ∧ a < 0xC000 then some (.reportWord ((a - 0x8000) / 32) (a % 32 / 4))
      else none := by
  unfold regAt
  rw [if_neg (by omega), if_neg (by omega), if_neg (by omega), if_neg (by omega), if_neg (by omega),
    if_neg (by omega), singleRegAt_of_ge a h]

/-- The map on an offset below 0x21C, checked offset by offset. -/
theorem map_low :
    ∀ n : Fin 135,
      (decide (heldOffset (4 * n.val)) = (regAt (4 * n.val)).elim false Reg.held
        ∧ decide (resultOffset (4 * n.val)) = (regAt (4 * n.val)).elim false Reg.drawnWhileBusy
        ∧ decide (mappedOffset (4 * n.val)) = (regAt (4 * n.val)).isSome) := by
  decide +kernel

/-- An aligned offset is held exactly when its register is. -/
theorem heldOffset_iff (a : Nat) (h : a % 4 = 0) : heldOffset a ↔ ∃ r, regAt a = some r ∧ r.held = true := by
  by_cases hlo : a < 0x21C
  · have hn := (map_low ⟨a / 4, by omega⟩).1
    have ha : 4 * (a / 4) = a := by omega
    simp only [ha] at hn
    refine decide_eq_true_iff.symm.trans ?_
    rw [hn]
    cases regAt a <;> simp
  · rw [regAt_of_ge a (by omega)]
    by_cases h1 : 0x1000 ≤ a ∧ a < 0x5000
    · simp only [h1, and_self, if_true]
      exact ⟨fun _ => ⟨_, rfl, rfl⟩, fun _ => by unfold heldOffset; omega⟩
    · by_cases h2 : 0x8000 ≤ a ∧ a < 0xC000
      · rw [if_neg h1, if_pos h2]
        constructor
        · intro hh; unfold heldOffset at hh; omega
        · rintro ⟨r, hr, hh⟩
          obtain rfl := Option.some.inj hr
          exact absurd hh Bool.false_ne_true
      · rw [if_neg h1, if_neg h2]
        constructor
        · intro hh; unfold heldOffset at hh; omega
        · rintro ⟨r, hr, _⟩; cases hr

/-- An aligned offset is read as a draw while BUSY exactly when its register is. -/
theorem resultOffset_iff (a : Nat) (h : a % 4 = 0) :
    resultOffset a ↔ ∃ r, regAt a = some r ∧ r.drawnWhileBusy = true := by
  by_cases hlo : a < 0x21C
  · have hn := (map_low ⟨a / 4, by omega⟩).2.1
    have ha : 4 * (a / 4) = a := by omega
    simp only [ha] at hn
    refine decide_eq_true_iff.symm.trans ?_
    rw [hn]
    cases regAt a <;> simp
  · rw [regAt_of_ge a (by omega)]
    by_cases h1 : 0x1000 ≤ a ∧ a < 0x5000
    · rw [if_pos h1]
      exact ⟨fun _ => ⟨_, rfl, rfl⟩, fun _ => by unfold resultOffset; omega⟩
    · by_cases h2 : 0x8000 ≤ a ∧ a < 0xC000
      · rw [if_neg h1, if_pos h2]
        exact ⟨fun _ => ⟨_, rfl, rfl⟩, fun _ => by unfold resultOffset; omega⟩
      · rw [if_neg h1, if_neg h2]
        constructor
        · intro hh; unfold resultOffset at hh; omega
        · rintro ⟨r, hr, _⟩; cases hr

/-- An aligned offset is mapped exactly when it has a register. -/
theorem mappedOffset_iff (a : Nat) (h : a % 4 = 0) : mappedOffset a ↔ (regAt a).isSome = true := by
  by_cases hlo : a < 0x21C
  · have hn := (map_low ⟨a / 4, by omega⟩).2.2
    have ha : 4 * (a / 4) = a := by omega
    simp only [ha] at hn
    exact decide_eq_true_iff.symm.trans (by rw [hn])
  · rw [regAt_of_ge a (by omega)]
    by_cases h1 : 0x1000 ≤ a ∧ a < 0x5000
    · rw [if_pos h1]
      exact ⟨fun _ => rfl, fun _ => by unfold mappedOffset; omega⟩
    · by_cases h2 : 0x8000 ≤ a ∧ a < 0xC000
      · rw [if_neg h1, if_pos h2]
        exact ⟨fun _ => rfl, fun _ => by unfold mappedOffset; omega⟩
      · rw [if_neg h1, if_neg h2]
        constructor
        · intro hh; unfold mappedOffset at hh; omega
        · intro hh; cases hh

/-- Buffer words (10_state.md R51). -/
theorem regAt_bufWord (b i : Nat) (hb : b < 4) (hi : i < 1024) :
    regAt (0x1000 + 0x1000 * b + 4 * i) = some (.bufWord b i) := by
  rw [regAt_of_ge _ (by omega), if_pos (by omega)]
  congr 2 <;> omega

/-- Report words (10_state.md R52). -/
theorem regAt_reportWord (e j : Nat) (he : e < 512) (hj : j < 8) :
    regAt (0x8000 + 32 * e + 4 * j) = some (.reportWord e j) := by
  rw [regAt_of_ge _ (by omega), if_neg (by omega), if_pos (by omega)]
  congr 2 <;> omega

/-- TARGETw (10_state.md R47). -/
theorem regAt_target (w : Nat) (h : w < 16) : regAt (0x0140 + 4 * w) = some (.target w) := by
  unfold regAt
  rw [if_neg (by omega), if_neg (by omega), if_neg (by omega), if_pos (by omega)]
  congr 2; omega

/-- ONLINEw (10_state.md R46). -/
theorem regAt_online (w : Nat) (h : w < 16) : regAt (0x0100 + 4 * w) = some (.online w) := by
  unfold regAt
  rw [if_neg (by omega), if_neg (by omega), if_pos (by omega)]
  congr 2; omega

/-- CFG_GSIZEi (10_state.md R43). -/
theorem regAt_cfgGsize (i : Nat) (h : i < 8) : regAt (0x0060 + 4 * i) = some (.cfgGsize i) := by
  unfold regAt
  rw [if_pos (by omega)]
  congr 2; omega

/-- TOPO_GSIZEi (10_state.md R45). -/
theorem regAt_topoGsize (i : Nat) (h : i < 8) : regAt (0x00C0 + 4 * i) = some (.topoGsize i) := by
  unfold regAt
  rw [if_neg (by omega), if_pos (by omega)]
  congr 2; omega

/-- CLASS_GRPw (10_state.md R48). -/
theorem regAt_classGrp (w : Nat) (h : w < 4) : regAt (0x0200 + 4 * w) = some (.classGrp w) := by
  unfold regAt
  rw [if_neg (by omega), if_neg (by omega), if_neg (by omega), if_neg (by omega), if_pos (by omega)]
  congr 2; omega

/-- CLASS_DOMw (10_state.md R49). -/
theorem regAt_classDom (w : Nat) (h : w < 2) : regAt (0x0210 + 4 * w) = some (.classDom w) := by
  unfold regAt
  rw [if_neg (by omega), if_neg (by omega), if_neg (by omega), if_neg (by omega), if_neg (by omega), if_pos (by omega)]
  congr 2; omega

/-- IRQ_EN, IRQ_STATUS and CTRL, the registers whose writes are taken while BUSY, have one offset each (10_state.md R67). -/
theorem map_taken :
    ∀ n : Fin 135, (regAt (4 * n.val) = some .irqEn → n.val = 6)
        ∧ (regAt (4 * n.val) = some .irqStatus → n.val = 7)
        ∧ (regAt (4 * n.val) = some .ctrl → n.val = 8) := by
  decide +kernel

/-- Four bytes of a memory as a little-endian word (20_memory.md R94). -/
theorem readBlock_word (m : Memory) (a : Nat) :
    BitVec.ofNat 32 (m.readBlock 2 a) = m.read (a + 3) ++ m.read (a + 2) ++ m.read (a + 1) ++ m.read a := by
  have hb : ∀ i, i < 4 → m.read (a + i) = (BitVec.ofNat 32 (m.readBlock 2 a)).extractLsb' (8 * i) 8 := by
    intro i hi
    rw [← Memory.byteOf_readBlock 2 m a i (by simpa using hi)]
    apply BitVec.eq_of_toNat_eq
    have hmod : m.readBlock 2 a % 2 ^ 32 = m.readBlock 2 a := Nat.mod_eq_of_lt (Memory.readBlock_lt 2 m a)
    rw [byteOf, BitVec.extractLsb'_toNat, BitVec.toNat_ofNat, BitVec.toNat_ofNat, Nat.shiftRight_eq_div_pow, hmod]
  rw [hb 3 (by omega), hb 2 (by omega), hb 1 (by omega), show m.read a = m.read (a + 0) from rfl, hb 0 (by omega)]
  generalize BitVec.ofNat 32 (m.readBlock 2 a) = x
  apply BitVec.eq_of_getLsbD_eq
  intro j hj
  simp only [BitVec.getLsbD_extractLsb', BitVec.getLsbD_append]
  by_cases h0 : j < 8
  · simp [h0]
  · by_cases h1 : j < 16
    · have : 8 + (j - 8) = j := by omega
      have h2 : j - 8 < 8 := by omega
      simp [h0, h2, this]
    · by_cases h2 : j < 24
      · have : 16 + (j - 8 - 8) = j := by omega
        have h3 : ¬j - 8 < 8 := by omega
        have h4 : j - 8 - 8 < 8 := by omega
        simp [h0, h3, h4, this]
      · have : 24 + (j - 8 - 8 - 8) = j := by omega
        have h3 : ¬j - 8 < 8 := by omega
        have h4 : ¬j - 8 - 8 < 8 := by omega
        have h5 : j - 8 - 8 - 8 < 8 := by omega
        simp [h0, h3, h4, h5, this]

/-- A report entry below `REPORT_COUNT` is read as it is stored (10_state.md R52). -/
theorem reportRead_of_lt (s : State) (e j : Nat) (h : e < s.reportCount.toNat) : s.reportRead e j = s.reportWordAt e j :=
  if_pos h

/-- A report entry past `REPORT_COUNT` is read as a free value (93_implementation_defined.md U11). -/
theorem reportRead_of_ge (s : State) (e j : Nat) (h : s.reportCount.toNat ≤ e) :
    s.reportRead e j = Config.staleReportWord s.epoch e j := if_neg (Nat.not_lt.2 h)

/-! ### Reads and writes at an offset (20_memory.md R93, 10_state.md R67, R68) -/

/-- What is left of the inputs does not change what a read returns. -/
theorem windowRead_inputs (s : State) (rest : List Input) (a : Nat) (draw : Word) :
    ({ s with inputs := rest } : State).windowRead a draw = s.windowRead a draw := by
  unfold State.windowRead
  cases regAt a with
  | none => rfl
  | some r => cases r <;> rfl

/-- A write at an offset leaves what is left of the inputs. -/
theorem windowWrite_inputs (s : State) (rest : List Input) (a : Nat) (v : Word) :
    ({ s with inputs := rest } : State).windowWrite a v = { s.windowWrite a v with inputs := rest } := by
  unfold State.windowWrite
  cases regAt a with
  | none => rfl
  | some r =>
    cases hb : s.flight with
    | none => cases r <;> simp [Reg.held, State.busy, hb] <;> simp [State.writeReg, hb, State.accept, State.latchFor, State.writeIrqStatus, State.writeCtrl, State.setBuf, State.bufAt]
    | some f => cases r <;> simp [Reg.held, State.busy, hb] <;> simp [State.writeReg, hb, State.dropWrite, State.writeIrqStatus, State.writeCtrl]

theorem busRefusal_word (off : BitVec 16) (h : off.toNat % 4 = 0) : busRefusal off .word = none := by
  simp [busRefusal, h]

/-- A step on a host read of a word at an aligned offset: it answers the read and changes nothing else. -/
theorem step_hostRead (s : State) (off : BitVec 16) (draw : Word) (rest : List Input)
    (hin : s.inputs = .hostRead off .word draw :: rest) (h : off.toNat % 4 = 0) :
    step s = .next { s with inputs := rest, readData := s.windowRead off.toNat draw } := by
  simp only [step, advance, hin, takeInput, hostRead, busRefusal_word off h, windowRead_inputs]

/-- A step on a host write of a word at an aligned offset. -/
theorem step_hostWrite (s : State) (off : BitVec 16) (v : Word) (rest : List Input)
    (hin : s.inputs = .hostWrite off .word v :: rest) (h : off.toNat % 4 = 0) :
    step s = .next { s.windowWrite off.toNat v with inputs := rest } := by
  simp only [step, advance, hin, takeInput, hostWrite, busRefusal_word off h, windowWrite_inputs]

end Sys2Proof.Machine
end

