-- ==== Sys2Proof/Laws/Rebuild.lean ====
section
/-! SUPPORT. What the parts of REBUILD can do: one inversion lemma per part (44_integrity_rebuild.md R311 to R318). -/

namespace Sys2Proof.Machine

/-! ### The chunks of one target (44_integrity_rebuild.md R315) -/

/-- What a run of chunk reconstructions leaves alone, finished or stopped, and which accesses it made. -/
theorem rebuildChunks_frame (off : Nat → Bool) (D k dest n c : Nat) (s t : State)
    (h : rebuildChunks off D k dest n c s = .finished t ∨ ∃ e, rebuildChunks off D k dest n c s = .stoppedAt e t) :
    DrivesOnly s t
      ∧ (∃ new, t.traffic = new ++ s.traffic ∧ ∀ a ∈ new,
          (∃ m ∈ s.layout.sources off k, ∃ o l ok, a = .read (s.serveAt D m) o l ok) ∨ ∃ o v ok, a = .write dest o v ok)
      ∧ (Memory.wf s.drives → Memory.wf t.drives) := by
  induction n generalizing c s with
  | zero =>
    rcases h with h | ⟨e, h⟩
    · simp only [rebuildChunks, RebuildRun.finished.injEq] at h
      subst h
      exact ⟨.refl _, ⟨[], rfl, by simp⟩, id⟩
    · simp [rebuildChunks] at h
  | succ n ih =>
    simp only [rebuildChunks] at h
    cases h1 : readSlots D c (s.layout.sources off k) s with
    | absent => simp [h1] at h
    | err s1 =>
      have ht : t = s1 := by
        rcases h with h | ⟨e, h⟩
        · simp [h1] at h
        · simp only [h1, RebuildRun.stoppedAt.injEq] at h; exact h.2.symm
      subst ht
      obtain ⟨pre, j, post, hks, _, _, _, ht⟩ := readSlots_err h1
      refine ⟨(readSlots_err_readsOnly h1).drivesOnly, 
        ⟨.read (s.serveAt D j) (c * Config.CHUNK) Config.CHUNK false :: slotReads s D c pre, ?_, ?_⟩, ?_⟩
      · rw [ht]; rfl
      · intro a ha
        left
        rcases List.mem_cons.1 ha with rfl | ha
        · exact ⟨j, by rw [hks]; simp, _, _, _, rfl⟩
        · simp only [slotReads, List.mem_reverse, List.mem_map] at ha
          obtain ⟨m, hm, rfl⟩ := ha
          exact ⟨m, by rw [hks]; simp [hm], _, _, _, rfl⟩
      · rw [(readSlots_err_readsOnly h1).drives]; exact id
    | ok known s1 =>
      obtain ⟨hkn, hs1, _, _⟩ := readSlots_ok h1
      have hr : ∃ new, s1.traffic = new ++ s.traffic ∧ ∀ a ∈ new,
          ∃ m ∈ s.layout.sources off k, ∃ o l ok, a = .read (s.serveAt D m) o l ok := by
        refine ⟨slotReads s D c (s.layout.sources off k), by rw [hs1], ?_⟩
        intro a ha
        simp only [slotReads, List.mem_reverse, List.mem_map] at ha
        obtain ⟨m, hm, rfl⟩ := ha
        exact ⟨m, hm, _, _, _, rfl⟩
      obtain ⟨new1, hn1, ha1⟩ := hr
      have hro := readSlots_readsOnly h1
      cases h2 : wrchunk dest c (s.layout.content off (chunkOfSlot known) k) s1 with
      | absent => simp [h1, h2] at h
      | err s2 =>
        have ht : t = s2 := by
          rcases h with h | ⟨e, h⟩
          · simp [h1, h2] at h
          · simp only [h1, h2, RebuildRun.stoppedAt.injEq] at h; exact h.2.symm
        subst ht
        obtain ⟨_, junk, _, ht⟩ := (wrchunk_err_iff _ _ _ _ _).1 h2
        refine ⟨hro.drivesOnly.trans (wrchunk_err_drivesOnly h2),
          ⟨.write dest (c * Config.CHUNK) junk false :: new1, ?_, ?_⟩, ?_⟩
        · rw [ht]; simp [State.afterAccess, hn1]
        · intro a ha
          rcases List.mem_cons.1 ha with rfl | ha
          · exact .inr ⟨_, _, _, rfl⟩
          · exact .inl (ha1 a ha)
        · intro hw
          rw [ht]
          exact withChunk_wf _ _ _ _ (by rw [hro.drives]; exact hw)
      | ok u s2 =>
        simp only [h1, h2] at h
        obtain ⟨_, _, ht⟩ := (wrchunk_ok_iff _ _ _ _ _ _).1 h2
        have hd := hro.drivesOnly.trans (wrchunk_drivesOnly h2)
        obtain ⟨hf, ⟨new, hn, ha⟩, hwf⟩ := ih _ _ h
        refine ⟨hd.trans hf,
          ⟨new ++ (.write dest (c * Config.CHUNK) (s.layout.content off (chunkOfSlot known) k) true :: new1), ?_, ?_⟩, ?_⟩
        · rw [hn, ht]; simp [State.afterAccess, hn1]
        · intro a haa
          rcases List.mem_append.1 haa with haa | haa
          · have := ha a haa
            rw [hd.layout] at this
            simpa only [hd.serveAt] using this
          · rcases List.mem_cons.1 haa with rfl | haa
            · exact .inr ⟨_, _, _, rfl⟩
            · exact .inl (ha1 a haa)
        · intro hw
          apply hwf
          rw [ht]
          exact withChunk_wf _ _ _ _ (by rw [hro.drives]; exact hw)

/-- A run of chunk reconstructions leaves the drive space only where a source's or the destination's drive, or a chunk,
does. -/
theorem rebuildChunks_not_absent (off : Nat → Bool) (D k dest n c : Nat) (s : State)
    (hs : ∀ m ∈ s.layout.sources off k, s.serveAt D m < s.total) (hd : dest < s.total) (hc : c + n ≤ s.chunks) :
    rebuildChunks off D k dest n c s ≠ .absent := by
  induction n generalizing c s with
  | zero => simp [rebuildChunks]
  | succ n ih =>
    simp only [rebuildChunks]
    cases h1 : readSlots D c (s.layout.sources off k) s with
    | absent =>
      obtain ⟨m, hm, hn⟩ := readSlots_absent h1
      exact absurd ⟨hs m hm, by omega⟩ hn
    | err s1 => simp
    | ok known s1 =>
      have hro := (readSlots_readsOnly h1).drivesOnly
      dsimp only
      cases h2 : wrchunk dest c (s.layout.content off (chunkOfSlot known) k) s1 with
      | absent =>
        refine absurd ?_ ((wrchunk_absent_iff _ _ _ _).1 h2)
        rw [hro.total, hro.chunks]
        exact ⟨hd, by omega⟩
      | err s2 => simp
      | ok u s2 =>
        have hdo := hro.trans (wrchunk_drivesOnly h2)
        dsimp only
        refine ih (c + 1) s2 ?_ ?_ ?_
        · intro m hm
          rw [hdo.layout] at hm
          rw [hdo.serveAt, hdo.total]
          exact hs m hm
        · rw [hdo.total]; exact hd
        · rw [hdo.chunks]; omega

/-- One chunk whose accesses are all answered ok: it is written, and the run goes on with the next. -/
theorem rebuildChunks_step (off : Nat → Bool) (D k dest n c : Nat) (s : State)
    (hs : ∀ m ∈ s.layout.sources off k, s.serveAt D m < s.total) (hd : dest < s.total) (hc : c < s.chunks)
    (hr : ∀ r ∈ s.responses.take ((s.layout.sources off k).length + 1), r = .ok) :
    ∃ s2, rebuildChunks off D k dest (n + 1) c s = rebuildChunks off D k dest n (c + 1) s2
      ∧ DrivesOnly s s2
      ∧ s2.drives = withChunk s.drives dest c
          (s.layout.content off (chunkOfSlot (readAll s D c (s.layout.sources off k))) k)
      ∧ s2.responses = s.responses.drop ((s.layout.sources off k).length + 1) := by
  have h1 := readSlots_of_ok D c (s.layout.sources off k) s hs hc fun r hr' =>
    hr r (List.take_subset_take_left _ (Nat.le_succ _) hr')
  set s1 : State :=
    { s with
      responses := s.responses.drop (s.layout.sources off k).length
      traffic := slotReads s D c (s.layout.sources off k) ++ s.traffic } with hs1
  have hok : s1.response = .ok := by
    refine response_of_take _ 1 (by omega) fun r hr' => hr r ?_
    rw [List.take_add, List.mem_append]
    exact .inr hr'
  obtain ⟨t, h2, hdo, hdr, hrs⟩ := wrchunk_of_ok dest c
    (s.layout.content off (chunkOfSlot (readAll s D c (s.layout.sources off k))) k) s1 hd hc hok
  refine ⟨t, by simp only [rebuildChunks, h1, h2], ?_, hdr, ?_⟩
  · exact (ReadsOnly.drivesOnly (rfl : ReadsOnly s s1)).trans hdo
  · rw [hrs]; simp [hs1]

/-- A chunk of the destination before the ones a run writes, after the run. -/
theorem driveChunk_of_outside (s t : State) (dest c m e : Nat) (he : e < c ∨ m ≤ e)
    (ha : ∀ a, ¬(driveKey dest (c * Config.CHUNK) ≤ a ∧ a < driveKey dest (m * Config.CHUNK)) →
      t.drives.read a = s.drives.read a) : t.driveChunk dest e = s.driveChunk dest e := by
  apply congrArg (BitVec.ofNat _)
  refine Memory.readBlock_congr _ _ _ _ _ fun i hi => ha _ ?_
  have hi' : i < Config.CHUNK := hi
  have h1 : (e + 1) * Config.CHUNK = e * Config.CHUNK + Config.CHUNK := Nat.succ_mul _ _
  rintro ⟨h3, h4⟩
  simp only [driveKey] at h3 h4
  rcases he with he | he
  · have := Nat.mul_le_mul_right Config.CHUNK he
    simp only [Nat.succ_eq_add_one] at this
    omega
  · have := Nat.mul_le_mul_right Config.CHUNK he
    omega

/-- Where the first n chunks' accesses are all answered ok, and the destination serves no source, chunks c to c+n-1 of the
destination become the content computed from the sources' chunks, and every other byte of the drives stays. -/
theorem rebuildChunks_of_ok (off : Nat → Bool) (D k dest n c : Nat) (s : State)
    (hr : ∀ r ∈ s.responses.take (n * ((s.layout.sources off k).length + 1)), r = .ok)
    (hs : ∀ m ∈ s.layout.sources off k, s.serveAt D m < s.total ∧ s.serveAt D m ≠ dest)
    (hd : dest < s.total) (hc : c + n ≤ s.chunks) (hm : s.chunks ≤ Config.MAX_CHUNKS) :
    ∃ t, rebuildChunks off D k dest n c s = .finished t
      ∧ DrivesOnly s t
      ∧ t.responses = s.responses.drop (n * ((s.layout.sources off k).length + 1))
      ∧ (∀ e, c ≤ e → e < c + n →
          t.driveChunk dest e = s.layout.content off (chunkOfSlot (readAll s D e (s.layout.sources off k))) k)
      ∧ (∀ a, ¬(driveKey dest (c * Config.CHUNK) ≤ a ∧ a < driveKey dest ((c + n) * Config.CHUNK)) →
          t.drives.read a = s.drives.read a) := by
  induction n generalizing c s with
  | zero => exact ⟨s, rfl, .refl _, by simp, fun e h1 h2 => by omega, fun _ _ => rfl⟩
  | succ n ih =>
    set per := (s.layout.sources off k).length + 1 with hper
    have hmul : (n + 1) * per = per + n * per := by ring
    obtain ⟨s2, he, hdo, hdr, hrs⟩ := rebuildChunks_step off D k dest n c s (fun m hm' => (hs m hm').1) hd (by omega)
      fun r hr' => hr r (List.take_subset_take_left _ (by rw [hmul]; omega) hr')
    have hl := hdo.layout
    obtain ⟨t, ht, htd, htr, htc, hta⟩ := ih (c + 1) s2
      (by
        rw [hl, hrs]
        intro r hr'
        apply hr
        rw [hmul, List.take_add, List.mem_append]
        exact .inr hr')
      (by rw [hl, hdo.total]; intro m hm'; rw [hdo.serveAt]; exact hs m hm')
      (by rw [hdo.total]; exact hd) (by rw [hdo.chunks]; omega) (by rw [hdo.chunks]; exact hm)
    have hcn : c + 1 + n = c + (n + 1) := by omega
    have hkeep : ∀ q e, e < Config.MAX_CHUNKS → (q ≠ dest ∨ e ≠ c) → s2.driveChunk q e = s.driveChunk q e := by
      intro q e he hne
      rw [State.driveChunk, hdr]
      exact chunkIn_withChunk_of_ne s.drives dest c q e _ (by omega) he (by tauto)
    refine ⟨t, by rw [he, ht], hdo.trans htd, ?_, ?_, ?_⟩
    · rw [htr, hrs, hl, List.drop_drop, hmul]
    · intro e he1 he2
      by_cases hec : e = c
      · subst hec
        rw [driveChunk_of_outside s2 t dest (e + 1) (e + 1 + n) e (.inl (by omega)) hta, State.driveChunk, hdr]
        exact chunkIn_withChunk s.drives dest e _
      · rw [htc e (by omega) (by omega), hl]
        congr 2
        apply List.map_congr_left
        intro m hm'
        rw [hdo.serveAt, hkeep _ _ (by omega) (.inr hec)]
    · intro a ha
      have h1 : (c + 1) * Config.CHUNK = c * Config.CHUNK + Config.CHUNK := Nat.succ_mul _ _
      have h2 : (c + 1) * Config.CHUNK ≤ (c + (n + 1)) * Config.CHUNK := Nat.mul_le_mul_right _ (by omega)
      rw [hta a (by rw [hcn]; simp only [driveKey] at ha ⊢; omega), hdr, read_withChunk, if_neg]
      simp only [driveKey] at ha ⊢
      omega

/-- Where access j of a run is the first that is answered with an error, the run stops at the chunk it belongs to: the
chunks before it are written, it holds the answer's draw if the access is its write and is untouched if not, and every
other byte of the drives stays. -/
theorem rebuildChunks_of_err (off : Nat → Bool) (D k dest n c : Nat) (s : State) (j : Nat) (junk : Chunk)
    (hj : j < n * ((s.layout.sources off k).length + 1))
    (hr : ∀ r ∈ s.responses.take j, r = .ok) (he : s.responses[j]? = some (.err junk))
    (hs : ∀ m ∈ s.layout.sources off k, s.serveAt D m < s.total ∧ s.serveAt D m ≠ dest)
    (hd : dest < s.total) (hc : c + n ≤ s.chunks) (hm : s.chunks ≤ Config.MAX_CHUNKS) :
    ∃ t, rebuildChunks off D k dest n c s
          = .stoppedAt (c + j / ((s.layout.sources off k).length + 1)) t
      ∧ DrivesOnly s t
      ∧ t.responses = s.responses.drop (j + 1)
      ∧ (∀ e, c ≤ e → e < c + j / ((s.layout.sources off k).length + 1) →
          t.driveChunk dest e = s.layout.content off (chunkOfSlot (readAll s D e (s.layout.sources off k))) k)
      ∧ t.driveChunk dest (c + j / ((s.layout.sources off k).length + 1))
          = (if j % ((s.layout.sources off k).length + 1) = (s.layout.sources off k).length then junk
            else s.driveChunk dest (c + j / ((s.layout.sources off k).length + 1)))
      ∧ (∀ a, ¬(driveKey dest (c * Config.CHUNK) ≤ a
            ∧ a < driveKey dest ((c + j / ((s.layout.sources off k).length + 1) + 1) * Config.CHUNK)) →
          t.drives.read a = s.drives.read a) := by
  induction n generalizing c s j with
  | zero => simp at hj
  | succ n ih =>
    set src := s.layout.sources off k with hsrc
    set per := src.length + 1 with hper
    have hmul : (n + 1) * per = per + n * per := by ring
    by_cases hlt : j < per
    · have hdiv : j / per = 0 := Nat.div_eq_of_lt hlt
      have hmod : j % per = j := Nat.mod_eq_of_lt hlt
      simp only [hdiv, hmod, Nat.add_zero]
      by_cases hrd : j < src.length
      · obtain ⟨t, ht, hro, htr⟩ := readSlots_of_err D c src s j junk (fun m hm' => (hs m hm').1) (by omega) hrd hr he
        refine ⟨t, by simp only [rebuildChunks, ← hsrc, ht], hro.drivesOnly, htr, fun e h1 h2 => by omega, ?_, ?_⟩
        · rw [if_neg (by omega), State.driveChunk, hro.drives]; rfl
        · intro a _; rw [hro.drives]
      · obtain rfl : j = src.length := by omega
        have h1 := readSlots_of_ok D c src s (fun m hm' => (hs m hm').1) (by omega) hr
        set s1 : State :=
          { s with responses := s.responses.drop src.length, traffic := slotReads s D c src ++ s.traffic } with hs1
        have herr : s1.response = .err junk := response_of_getElem _ _ (by simpa [hs1] using he)
        obtain ⟨t, h2, hdo, hdr, hrs⟩ := wrchunk_of_err dest c
          (s.layout.content off (chunkOfSlot (readAll s D c src)) k) junk s1 hd (by omega : c < s.chunks) herr
        refine ⟨t, by simp only [rebuildChunks, ← hsrc, h1, h2],
          (ReadsOnly.drivesOnly (rfl : ReadsOnly s s1)).trans hdo, ?_, fun e h1 h2 => by omega, ?_, ?_⟩
        · rw [hrs]; simp [hs1]
        · rw [if_pos rfl, State.driveChunk, hdr]
          exact chunkIn_withChunk s.drives dest c junk
        · intro a ha
          have h3 : (c + 1) * Config.CHUNK = c * Config.CHUNK + Config.CHUNK := Nat.succ_mul _ _
          rw [hdr, show s1.drives = s.drives from rfl, read_withChunk, if_neg]
          simp only [driveKey] at ha ⊢
          omega
    · obtain ⟨i, rfl⟩ : ∃ i, j = per + i := ⟨j - per, by omega⟩
      obtain ⟨s2, hstep, hdo, hdr, hrs⟩ := rebuildChunks_step off D k dest n c s (fun m hm' => (hs m hm').1) hd (by omega)
        fun r hr' => hr r (List.take_subset_take_left _ (by simp only [hper, hsrc]; omega) hr')
      rw [← hsrc] at hdr hrs
      have hl := hdo.layout
      have hsrc2 : s2.layout.sources off k = src := by rw [hl]
      obtain ⟨t, ht, htd, htr, htc, htj, hta⟩ := ih (c + 1) s2 i (by rw [hsrc2, ← hper]; omega)
        (by
          rw [hrs]
          intro r hr'
          apply hr
          rw [List.take_add, List.mem_append]
          exact .inr hr')
        (by rw [hrs, List.getElem?_drop]; exact he)
        (by rw [hsrc2, hdo.total]; intro m hm'; rw [hdo.serveAt]; exact hs m hm')
        (by rw [hdo.total]; exact hd) (by rw [hdo.chunks]; omega) (by rw [hdo.chunks]; exact hm)
      rw [hsrc2, ← hper] at ht htc htj hta
      have hdiv : c + (per + i) / per = c + 1 + i / per := by
        rw [Nat.add_div_left _ (by omega)]; omega
      have hmod : (per + i) % per = i % per := Nat.add_mod_left _ _
      have hbound : c + 1 + i / per < s.chunks := by
        have : i / per < n := by
          rw [Nat.div_lt_iff_lt_mul (by omega)]; omega
        omega
      rw [hdiv, hmod]
      generalize i / per = w at ht htc htj hta hbound ⊢
      have hkeep : ∀ q e, e < Config.MAX_CHUNKS → (q ≠ dest ∨ e ≠ c) → s2.driveChunk q e = s.driveChunk q e := by
        intro q e he hne
        rw [State.driveChunk, hdr]
        exact chunkIn_withChunk_of_ne s.drives dest c q e _ (by omega) he (by tauto)
      refine ⟨t, by rw [hstep, ht], hdo.trans htd, ?_, ?_, ?_, ?_⟩
      · rw [htr, hrs, List.drop_drop]; congr 1
      · intro e he1 he2
        by_cases hec : e = c
        · subst hec
          rw [driveChunk_of_outside s2 t dest (e + 1) (e + 1 + w + 1) e (.inl (by omega)) hta, State.driveChunk, hdr]
          exact chunkIn_withChunk s.drives dest e _
        · rw [htc e (by omega) he2, hl]
          congr 2
          apply List.map_congr_left
          intro m hm'
          rw [hdo.serveAt, hkeep _ _ (by omega) (.inr hec)]
      · rw [htj, hkeep _ _ (by omega) (.inr (by omega))]
      · intro a ha
        have h1 : (c + 1) * Config.CHUNK = c * Config.CHUNK + Config.CHUNK := Nat.succ_mul _ _
        have h2 : (c + 1) * Config.CHUNK ≤ (c + 1 + w + 1) * Config.CHUNK := Nat.mul_le_mul_right _ (by omega)
        rw [hta a (by simp only [driveKey] at ha ⊢; omega), hdr, read_withChunk, if_neg]
        simp only [driveKey] at ha ⊢
        omega

/-! ### The report (10_state.md R52) -/

/-- A word of the report is its four bytes. -/
theorem reportWordAt_congr (s t : State) (n j : Nat)
    (h : ∀ i, i < 4 → t.report.read (0x8000 + 32 * n + 4 * j + i) = s.report.read (0x8000 + 32 * n + 4 * j + i)) :
    t.reportWordAt n j = s.reportWordAt n j := by
  unfold State.reportWordAt
  rw [Memory.readBlock_congr _ _ s.report _ _ fun i hi => h i hi]

/-- A report entry that is written leaves every byte outside it. -/
theorem read_writeReport_of_outside (s : State) (n : Nat) (e : ReportEntry) (a : Nat)
    (h : ¬(reportAddr n ≤ a ∧ a < reportAddr n + 32)) : (s.writeReport n e).report.read a = s.report.read a := by
  show Memory.read (Memory.writeBlock 5 _ _ _) _ = _
  rw [Memory.read_writeBlock, show (2 : Nat) ^ 5 = 32 from rfl, if_neg h]

/-- The words of a report entry that is written. -/
theorem reportWordAt_writeReport (s : State) (n j : Nat) (e : ReportEntry) (hj : j < 8) :
    (s.writeReport n e).reportWordAt n j = e.words.extractLsb' (32 * j) 32 := by
  have hb : ∀ i, i < 4 → (s.writeReport n e).report.read (0x8000 + 32 * n + 4 * j + i)
      = e.words.extractLsb' (32 * j + 8 * i) 8 := by
    intro i hi
    show Memory.read (Memory.writeBlock 5 _ _ _) _ = _
    rw [Memory.read_writeBlock, if_pos (by unfold reportAddr; constructor <;> omega)]
    apply BitVec.eq_of_toNat_eq
    rw [byteOf, BitVec.extractLsb'_toNat, BitVec.toNat_ofNat, Nat.shiftRight_eq_div_pow,
      show 8 * (0x8000 + 32 * n + 4 * j + i - reportAddr n) = 32 * j + 8 * i by unfold reportAddr; omega]
  rw [State.reportWordAt, readBlock_word, show 0x8000 + 32 * n + 4 * j = 0x8000 + 32 * n + 4 * j + 0 from rfl,
    hb 0 (by omega), hb 1 (by omega), hb 2 (by omega), hb 3 (by omega)]
  apply BitVec.eq_of_getLsbD_eq
  intro b hlt
  simp only [BitVec.getLsbD_extractLsb', BitVec.getLsbD_append]
  by_cases h0 : b < 8
  · have : b < 32 := by omega
    simp [h0, this]
  · by_cases h1 : b < 16
    · have h2 : b - 8 < 8 := by omega
      have h3 : 32 * j + 8 + (b - 8) = 32 * j + b := by omega
      have : b < 32 := by omega
      simp [h0, h2, h3, this]
    · by_cases h2 : b < 24
      · have h3 : ¬b - 8 < 8 := by omega
        have h4 : b - 8 - 8 < 8 := by omega
        have h5 : 32 * j + 16 + (b - 8 - 8) = 32 * j + b := by omega
        have : b < 32 := by omega
        simp [h0, h3, h4, h5, this]
      · have h3 : ¬b - 8 < 8 := by omega
        have h4 : ¬b - 8 - 8 < 8 := by omega
        have h5 : b - 8 - 8 - 8 < 8 := by omega
        have h6 : 32 * j + 24 + (b - 8 - 8 - 8) = 32 * j + b := by omega
        have : b < 32 := by omega
        simp [h0, h3, h4, h5, h6, this]

/-- The eight words of an entry, from its fields in their widths (10_state.md R52). -/
theorem entryWords (src : BitVec 64) (d tg : BitVec 16) (f ct : Word) (st : BitVec 8) :
    let w : BitVec 256 := 0#64 ++ src ++ 0#16 ++ d ++ f ++ ct ++ 0#8 ++ st ++ tg
    w.extractLsb' (32 * 0) 32 = st.setWidth 32 <<< 16 ||| tg.setWidth 32
      ∧ w.extractLsb' (32 * 1) 32 = ct ∧ w.extractLsb' (32 * 2) 32 = f ∧ w.extractLsb' (32 * 3) 32 = d.setWidth 32
      ∧ w.extractLsb' (32 * 4) 32 = src.extractLsb' 0 32 ∧ w.extractLsb' (32 * 5) 32 = src.extractLsb' 32 32
      ∧ w.extractLsb' (32 * 6) 32 = 0 ∧ w.extractLsb' (32 * 7) 32 = 0 := by
  have h0 : ∀ {n : Nat} (x : BitVec n) (y : BitVec 8),
      (x ++ 0#8 ++ y ++ tg).extractLsb' 0 32 = y.setWidth 32 <<< 16 ||| tg.setWidth 32 := by
    intro n x y
    apply BitVec.eq_of_getLsbD_eq
    intro b hb
    simp only [BitVec.getLsbD_extractLsb', BitVec.getLsbD_append, BitVec.getLsbD_or, BitVec.getLsbD_shiftLeft,
      BitVec.getLsbD_setWidth, BitVec.getLsbD_zero]
    rcases (by omega : b < 16 ∨ (16 ≤ b ∧ b < 24) ∨ 24 ≤ b) with h | h | h
    · simp [h, hb]
    · simp [hb, show ¬b < 16 by omega, show b - 16 < 8 by omega, show b - 16 < 32 by omega,
        BitVec.getLsbD_of_ge tg b (by omega : 16 ≤ b)]
    · simp [hb, show ¬b < 16 by omega, show ¬b - 16 < 8 by omega, show b - 16 - 8 < 8 by omega,
        show b - 16 < 32 by omega, BitVec.getLsbD_of_ge _ (b - 16) (by omega : 8 ≤ b - 16),
        BitVec.getLsbD_of_ge _ b (by omega : 16 ≤ b)]
  have h3 : ∀ {n : Nat} (x : BitVec n), (x ++ 0#16 ++ d).extractLsb' 0 32 = d.setWidth 32 := by
    intro n x
    apply BitVec.eq_of_getLsbD_eq
    intro b hb
    simp only [BitVec.getLsbD_extractLsb', BitVec.getLsbD_append, BitVec.getLsbD_setWidth, BitVec.getLsbD_zero]
    rcases (by omega : b < 16 ∨ 16 ≤ b) with h | h
    · simp [h, hb]
    · simp [hb, show ¬b < 16 by omega, show b - 16 < 16 by omega, BitVec.getLsbD_of_ge _ b h]
  refine ⟨h0 _ _, ?_, ?_, ?_, ?_, ?_, ?_, ?_⟩ <;>
    simp (disch := omega) only [BitVec.extractLsb'_append_eq_of_le, BitVec.extractLsb'_append_eq_of_add_le,
      Nat.reduceMul, Nat.reduceSub, BitVec.extractLsb'_eq_self, h3]
  all_goals simp

/-- The eight words of an entry (44_integrity_rebuild.md R318). -/
theorem ReportEntry.words_eq (e : ReportEntry) :
    e.words.extractLsb' (32 * 0) 32 = e.status.code.setWidth 32 <<< 16 ||| (BitVec.ofNat 16 e.target).setWidth 32
      ∧ e.words.extractLsb' (32 * 1) 32 = BitVec.ofNat 32 e.count
      ∧ e.words.extractLsb' (32 * 2) 32 = (match e.first with | some c => BitVec.ofNat 32 c | none => 0xFFFFFFFF)
      ∧ e.words.extractLsb' (32 * 3) 32
          = (match e.dest with | some q => BitVec.ofNat 16 q | none => 0xFFFF#16).setWidth 32
      ∧ e.words.extractLsb' (32 * 4) 32 = e.sources.extractLsb' 0 32
      ∧ e.words.extractLsb' (32 * 5) 32 = e.sources.extractLsb' 32 32
      ∧ e.words.extractLsb' (32 * 6) 32 = 0 ∧ e.words.extractLsb' (32 * 7) 32 = 0 :=
  entryWords e.sources _ (BitVec.ofNat 16 e.target) _ (BitVec.ofNat 32 e.count) e.status.code

/-! ### One target (44_integrity_rebuild.md R313) -/

/-- Everything `rebuild_one` can do: an entry for which nothing was attempted and the state untouched; a run that stopped
early and changed drives only; or a run that finished and was committed. -/
theorem rebuildOne_cases {st : Strategy} {on : BitVec 512} {F : Nat → Nat → Bool} {p : Nat} {s t : State}
    {e : ReportEntry} (h : rebuildOne st on F p s = some (e, t)) :
    (e = .unattempted p .invalidTarget none ∧ t = s ∧ s.slotOf p = none)
      ∨ ∃ k, s.slotOf p = some k ∧
        ((e = .unattempted p .skippedOnline none ∧ t = s ∧ flagAt on p = true)
          ∨ (flagAt on p = false ∧
            ((e = .unattempted p .unrecoverable (some 0) ∧ t = s ∧ s.layout.sclass (F (s.domainOf p)) k = .dataLoss)
              ∨ (s.layout.sclass (F (s.domainOf p)) k ≠ .dataLoss ∧
                ((e = .unattempted p .noSpare none ∧ t = s ∧ s.rebuildDest st p (s.domainOf p) = none)
                  ∨ ∃ q, s.rebuildDest st p (s.domainOf p) = some q ∧
                    ((∃ c, rebuildChunks (F (s.domainOf p)) (s.domainOf p) k q s.chunks 0 s = .stoppedAt c t
                        ∧ e = { target := p, status := .partialRebuild, count := c, first := some c, dest := some q,
                                sources := s.sourceBitmap (s.domainOf p) (s.layout.sources (F (s.domainOf p)) k) })
                      ∨ ∃ s1, rebuildChunks (F (s.domainOf p)) (s.domainOf p) k q s.chunks 0 s = .finished s1
                        ∧ t = s1.commitRebuild st p (s.domainOf p) k q
                        ∧ e = { target := p, status := successStatus st, count := s.chunks, first := none,
                                dest := some q,
                                sources :=
                                  s.sourceBitmap (s.domainOf p) (s.layout.sources (F (s.domainOf p)) k) })))))) := by
  unfold rebuildOne at h
  cases hsl : s.slotOf p with
  | none =>
    rw [hsl] at h
    simp only [Option.some.injEq, Prod.mk.injEq] at h
    exact .inl ⟨h.1.symm, h.2.symm, rfl⟩
  | some k =>
    refine .inr ⟨k, rfl, ?_⟩
    rw [hsl] at h
    dsimp only at h
    by_cases hon : flagAt on p = true
    · rw [if_pos hon] at h
      simp only [Option.some.injEq, Prod.mk.injEq] at h
      exact .inl ⟨h.1.symm, h.2.symm, hon⟩
    · rw [if_neg hon] at h
      refine .inr ⟨by simpa using hon, ?_⟩
      by_cases hc : s.layout.sclass (F (s.domainOf p)) k = .dataLoss
      · rw [if_pos hc] at h
        simp only [Option.some.injEq, Prod.mk.injEq] at h
        exact .inl ⟨h.1.symm, h.2.symm, hc⟩
      · rw [if_neg hc] at h
        refine .inr ⟨hc, ?_⟩
        cases hq : s.rebuildDest st p (s.domainOf p) with
        | none =>
          rw [hq] at h
          simp only [Option.some.injEq, Prod.mk.injEq] at h
          exact .inl ⟨h.1.symm, h.2.symm, rfl⟩
        | some q =>
          rw [hq] at h
          dsimp only at h
          refine .inr ⟨q, rfl, ?_⟩
          cases hr : rebuildChunks (F (s.domainOf p)) (s.domainOf p) k q s.chunks 0 s with
          | absent => rw [hr] at h; cases h
          | stoppedAt c s1 =>
            rw [hr] at h
            simp only [Option.some.injEq, Prod.mk.injEq] at h
            obtain ⟨rfl, rfl⟩ := h
            exact .inl ⟨c, rfl, rfl⟩
          | finished s1 =>
            rw [hr] at h
            simp only [Option.some.injEq, Prod.mk.injEq] at h
            obtain ⟨rfl, rfl⟩ := h
            exact .inr ⟨s1, rfl, rfl, rfl⟩

/-- `rebuild_one` finds no answer only where a run of reconstructions leaves the drive space. -/
theorem rebuildOne_none {st : Strategy} {on : BitVec 512} {F : Nat → Nat → Bool} {p : Nat} {s : State}
    (h : rebuildOne st on F p s = none) :
    ∃ k q, s.slotOf p = some k ∧ flagAt on p = false ∧ s.layout.sclass (F (s.domainOf p)) k ≠ .dataLoss
      ∧ s.rebuildDest st p (s.domainOf p) = some q
      ∧ rebuildChunks (F (s.domainOf p)) (s.domainOf p) k q s.chunks 0 s = .absent := by
  unfold rebuildOne at h
  cases hsl : s.slotOf p with
  | none => rw [hsl] at h; cases h
  | some k =>
    rw [hsl] at h
    dsimp only at h
    by_cases hon : flagAt on p = true
    · rw [if_pos hon] at h; cases h
    · rw [if_neg hon] at h
      by_cases hc : s.layout.sclass (F (s.domainOf p)) k = .dataLoss
      · rw [if_pos hc] at h; cases h
      · rw [if_neg hc] at h
        cases hq : s.rebuildDest st p (s.domainOf p) with
        | none => rw [hq] at h; cases h
        | some q =>
          rw [hq] at h
          dsimp only at h
          cases hr : rebuildChunks (F (s.domainOf p)) (s.domainOf p) k q s.chunks 0 s with
          | absent => exact ⟨k, q, rfl, by simpa using hon, hc, rfl, hr⟩
          | stoppedAt c s1 => rw [hr] at h; cases h
          | finished s1 => rw [hr] at h; cases h

/-! ### All targets (44_integrity_rebuild.md R311) -/

/-- All targets processed are a chain of states, one target and one report entry at a time. -/
theorem rebuildTargets_chain {st : Strategy} {on : BitVec 512} {F : Nat → Nat → Bool} {ps : List Nat} {n : Nat}
    {s t : State} {es : List ReportStatus} (h : rebuildTargets st on F ps n s = some (es, t)) :
    ∃ (σ : Nat → State) (e : Nat → ReportEntry), σ 0 = s ∧ σ ps.length = t
      ∧ es = (List.range ps.length).map (fun i => (e i).status)
      ∧ ∀ i p, ps[i]? = some p →
          ∃ u, rebuildOne st on F p (σ i) = some (e i, u) ∧ σ (i + 1) = u.writeReport (n + i) (e i) := by
  induction ps generalizing n s es with
  | nil =>
    simp only [rebuildTargets, Option.some.injEq, Prod.mk.injEq] at h
    exact ⟨fun _ => s, fun _ => .unattempted 0 .invalidTarget none, rfl, h.2, h.1.symm, by simp⟩
  | cons p ps ih =>
    simp only [rebuildTargets] at h
    cases h1 : rebuildOne st on F p s with
    | none => rw [h1] at h; cases h
    | some r =>
      obtain ⟨e0, u⟩ := r
      rw [h1] at h
      dsimp only at h
      cases h2 : rebuildTargets st on F ps (n + 1) (u.writeReport n e0) with
      | none => rw [h2] at h; cases h
      | some r =>
        obtain ⟨es', t'⟩ := r
        rw [h2] at h
        simp only [Option.some.injEq, Prod.mk.injEq] at h
        obtain ⟨rfl, rfl⟩ := h
        obtain ⟨σ, e, h0, ht, hes, hstep⟩ := ih h2
        refine ⟨fun i => i.casesOn s σ, fun i => i.casesOn e0 e, rfl, ht, ?_, ?_⟩
        · rw [List.length_cons, List.range_succ_eq_map, List.map_cons, List.map_map, hes]
          rfl
        · intro i q hq
          cases i with
          | zero =>
            obtain rfl : p = q := by simpa using hq
            exact ⟨u, h1, h0⟩
          | succ i =>
            obtain ⟨v, hv, hv'⟩ := hstep i q (by simpa using hq)
            exact ⟨v, hv, by rw [show n + (i + 1) = n + 1 + i by omega]; exact hv'⟩

/-- An invariant that one target's reconstruction and its report entry keep, for every listed target, is kept by all of
them. -/
theorem rebuildTargets_induct {st : Strategy} {on : BitVec 512} {F : Nat → Nat → Bool} (P : State → Prop)
    {ps : List Nat} {n : Nat} {s t : State} {es : List ReportStatus}
    (h : rebuildTargets st on F ps n s = some (es, t)) (hs : P s)
    (hone : ∀ p ∈ ps, ∀ (u v : State) (e : ReportEntry), P u → rebuildOne st on F p u = some (e, v) → P v)
    (hrep : ∀ (u : State) (m : Nat) (e : ReportEntry), P u → P (u.writeReport m e)) : P t := by
  induction ps generalizing n s es with
  | nil =>
    simp only [rebuildTargets, Option.some.injEq, Prod.mk.injEq] at h
    rw [← h.2]; exact hs
  | cons p ps ih =>
    simp only [rebuildTargets] at h
    cases h1 : rebuildOne st on F p s with
    | none => rw [h1] at h; cases h
    | some r =>
      obtain ⟨e, s1⟩ := r
      rw [h1] at h
      dsimp only at h
      cases h2 : rebuildTargets st on F ps (n + 1) (s1.writeReport n e) with
      | none => rw [h2] at h; cases h
      | some r =>
        obtain ⟨es', s2⟩ := r
        rw [h2] at h
        simp only [Option.some.injEq, Prod.mk.injEq] at h
        obtain ⟨-, rfl⟩ := h
        exact ih h2 (hrep _ _ _ (hone p List.mem_cons_self _ _ _ hs h1))
          fun q hq => hone q (List.mem_cons_of_mem _ hq)

/-- Where an invariant rules out a run that leaves the drive space, for every listed target, all targets are processed. -/
theorem rebuildTargets_isSome {st : Strategy} {on : BitVec 512} {F : Nat → Nat → Bool} (P : State → Prop)
    (ps : List Nat) (n : Nat) (s : State) (hs : P s)
    (hone : ∀ p ∈ ps, ∀ (u v : State) (e : ReportEntry), P u → rebuildOne st on F p u = some (e, v) → P v)
    (hrep : ∀ (u : State) (m : Nat) (e : ReportEntry), P u → P (u.writeReport m e))
    (hsome : ∀ p ∈ ps, ∀ u, P u → rebuildOne st on F p u ≠ none) :
    ∃ es t, rebuildTargets st on F ps n s = some (es, t) ∧ es.length = ps.length := by
  induction ps generalizing n s with
  | nil => exact ⟨[], s, rfl, rfl⟩
  | cons p ps ih =>
    cases h1 : rebuildOne st on F p s with
    | none => exact absurd h1 (hsome p List.mem_cons_self s hs)
    | some r =>
      obtain ⟨e, s1⟩ := r
      obtain ⟨es, t, h2, hl⟩ := ih (n + 1) (s1.writeReport n e) (hrep _ _ _ (hone p List.mem_cons_self _ _ _ hs h1))
        (fun q hq => hone q (List.mem_cons_of_mem _ hq)) fun q hq => hsome q (List.mem_cons_of_mem _ hq)
      exact ⟨e.status :: es, t, by simp only [rebuildTargets, h1, h2], by simp [hl]⟩

end Sys2Proof.Machine
end

