-- ==== Sys2Proof/Laws/Commands.lean ====
section
/-! SUPPORT. What each command that reaches the drive port, and REBUILD, can do, said once: the provers cite these instead
of unfolding the commands. -/

namespace Sys2Proof.Machine

/-- WRITE_CHUNK: an error with nothing done, or reads and writes of the stripe's drives. -/
theorem execWriteChunk_next {p : BitVec 16} {b : BitVec 3} {s t : State} (h : execWriteChunk p b s = .next t) :
    (∃ e, e ≠ .none ∧ t = finish e s)
      ∨ ∃ k, s.initialized = true ∧ p.toNat < s.total ∧ s.opArg0 < s.chunks ∧ s.slotOf p.toNat = some k ∧ k < s.ndata
        ∧ (s.layout.writeNeeds (s.layout.groupOf k)).all (s.slotOnline (s.domainOf p.toNat)) = true
        ∧ ((∃ s1, readSlots (s.domainOf p.toNat) s.opArg0 ((List.range s.ndata).filter fun j => j != k) s = .err s1
              ∧ t = finish .driveIo s1)
          ∨ ∃ known s1, readSlots (s.domainOf p.toNat) s.opArg0 ((List.range s.ndata).filter fun j => j != k) s
                = .ok known s1
              ∧ ((∃ s2, writeSlots (s.domainOf p.toNat) s.opArg0
                    (s.layout.stripeUpdate k (s.opBuf b.toNat) (chunkOfSlot known)) s1 = .err s2
                    ∧ t = finish .driveIo s2)
                ∨ ∃ s2, writeSlots (s.domainOf p.toNat) s.opArg0
                    (s.layout.stripeUpdate k (s.opBuf b.toNat) (chunkOfSlot known)) s1 = .ok () s2
                    ∧ t = finish .none s2)) := by
  unfold execWriteChunk at h
  split at h
  · exact .inl ⟨_, by decide, finishWith_next h⟩
  rename_i h1
  split at h
  · exact .inl ⟨_, by decide, finishWith_next h⟩
  rename_i h2
  split at h
  · exact .inl ⟨_, by decide, finishWith_next h⟩
  rename_i h3
  split at h
  · exact .inl ⟨_, by decide, finishWith_next h⟩
  rename_i k hk
  split at h
  · exact .inl ⟨_, by decide, finishWith_next h⟩
  rename_i h4
  split at h
  · exact .inl ⟨_, by decide, finishWith_next h⟩
  rename_i h5
  refine .inr ⟨k, by simpa using h1, by omega, by omega, hk, by omega, by simpa using h5, ?_⟩
  rcases orDriveIo_next h with ⟨known, s1, hr, h⟩ | ⟨s1, hr, rfl⟩
  · refine .inr ⟨known, s1, hr, ?_⟩
    rcases orDriveIo_next h with ⟨u, s2, hw, h⟩ | ⟨s2, hw, rfl⟩
    · exact .inr ⟨s2, hw, finishWith_next h⟩
    · exact .inl ⟨s2, hw, rfl⟩
  · exact .inl ⟨s1, hr, rfl⟩

/-- ENCODE_STRIPE: an error with nothing done, or reads of the data drives and writes of the parity drives. -/
theorem execEncodeStripe_next {D : BitVec 16} {s t : State} (h : execEncodeStripe D s = .next t) :
    (∃ e, e ≠ .none ∧ t = finish e s)
      ∨ (s.initialized = true ∧ D.toNat < s.ndom ∧ s.opArg0 < s.chunks
        ∧ (List.range s.layout.served).all (s.slotOnline D.toNat) = true
        ∧ ((∃ s1, readSlots D.toNat s.opArg0 (List.range s.ndata) s = .err s1 ∧ t = finish .driveIo s1)
          ∨ ∃ known s1, readSlots D.toNat s.opArg0 (List.range s.ndata) s = .ok known s1
              ∧ ((∃ s2, writeSlots D.toNat s.opArg0 (s.layout.stripeParities (chunkOfSlot known)) s1 = .err s2
                    ∧ t = finish .driveIo s2)
                ∨ ∃ s2, writeSlots D.toNat s.opArg0 (s.layout.stripeParities (chunkOfSlot known)) s1 = .ok () s2
                    ∧ t = finish .none s2))) := by
  unfold execEncodeStripe at h
  split at h
  · exact .inl ⟨_, by decide, finishWith_next h⟩
  rename_i h1
  split at h
  · exact .inl ⟨_, by decide, finishWith_next h⟩
  rename_i h2
  split at h
  · exact .inl ⟨_, by decide, finishWith_next h⟩
  rename_i h3
  refine .inr ⟨by simpa using h1, by omega, by omega, by simpa using h3, ?_⟩
  rcases orDriveIo_next h with ⟨known, s1, hr, h⟩ | ⟨s1, hr, rfl⟩
  · refine .inr ⟨known, s1, hr, ?_⟩
    rcases orDriveIo_next h with ⟨u, s2, hw, h⟩ | ⟨s2, hw, rfl⟩
    · exact .inr ⟨s2, hw, finishWith_next h⟩
    · exact .inl ⟨s2, hw, rfl⟩
  · exact .inl ⟨s1, hr, rfl⟩

/-- READ_CHUNK: an error with nothing done, a drive error, or the drive's chunk in the buffer. -/
theorem execReadChunk_next {p : BitVec 16} {b : BitVec 3} {s t : State} (h : execReadChunk p b s = .next t) :
    (∃ e, e ≠ .none ∧ t = finish e s)
      ∨ (s.initialized = true ∧ p.toNat < s.total ∧ s.opArg0 < s.chunks ∧ flagAt s.online p.toNat = true
        ∧ ((∃ s1, rdchunk p.toNat s.opArg0 s = .err s1 ∧ t = finish .driveIo s1)
          ∨ ∃ x s1, rdchunk p.toNat s.opArg0 s = .ok x s1 ∧ t = finish .none (s1.setBuf b.toNat x))) := by
  unfold execReadChunk at h
  split at h
  · exact .inl ⟨_, by decide, finishWith_next h⟩
  rename_i h1
  split at h
  · exact .inl ⟨_, by decide, finishWith_next h⟩
  rename_i h2
  split at h
  · exact .inl ⟨_, by decide, finishWith_next h⟩
  rename_i h3
  split at h
  · exact .inl ⟨_, by decide, finishWith_next h⟩
  rename_i h4
  refine .inr ⟨by simpa using h1, by omega, by omega, by simpa using h4, ?_⟩
  rcases orDriveIo_next h with ⟨x, s1, hr, h⟩ | ⟨s1, hr, rfl⟩
  · exact .inr ⟨x, s1, hr, finishWith_next h⟩
  · exact .inl ⟨s1, hr, rfl⟩

/-- PEEK: an error with nothing done, a drive error, or the bytes in PEEK_DATA. -/
theorem execPeek_next {p : BitVec 16} {s t : State} (h : execPeek p s = .next t) :
    (∃ e, e ≠ .none ∧ t = finish e s)
      ∨ (s.initialized = true ∧ p.toNat < s.total ∧ s.peekInRange s.opArg0 s.opArg1 = true
        ∧ flagAt s.online p.toNat = true
        ∧ ((∃ s1, driveRead p.toNat s.opArg0 s.opArg1
                (fun m => m.readBytes (driveKey p.toNat s.opArg0) s.opArg1) s = .err s1 ∧ t = finish .driveIo s1)
          ∨ ∃ v s1, driveRead p.toNat s.opArg0 s.opArg1
                (fun m => m.readBytes (driveKey p.toNat s.opArg0) s.opArg1) s = .ok v s1
              ∧ t = finish .none { s1 with peekData := BitVec.ofNat 32 v })) := by
  unfold execPeek at h
  split at h
  · exact .inl ⟨_, by decide, finishWith_next h⟩
  rename_i h1
  split at h
  · exact .inl ⟨_, by decide, finishWith_next h⟩
  rename_i h2
  split at h
  · exact .inl ⟨_, by decide, finishWith_next h⟩
  rename_i h3
  split at h
  · exact .inl ⟨_, by decide, finishWith_next h⟩
  rename_i h4
  refine .inr ⟨by simpa using h1, by omega, by simpa using h3, by simpa using h4, ?_⟩
  rcases orDriveIo_next h with ⟨x, s1, hr, h⟩ | ⟨s1, hr, rfl⟩
  · exact .inr ⟨x, s1, hr, finishWith_next h⟩
  · exact .inl ⟨s1, hr, rfl⟩

/-- DECODE_CHUNK: an error with nothing done, a drive error, the drive's chunk, or the reconstructed content. -/
theorem execDecodeChunk_next {p : BitVec 16} {b : BitVec 3} {s t : State} (h : execDecodeChunk p b s = .next t) :
    (∃ e, e ≠ .none ∧ t = finish e s)
      ∨ ∃ k, s.initialized = true ∧ p.toNat < s.total ∧ s.opArg0 < s.chunks ∧ s.slotOf p.toNat = some k
        ∧ ((flagAt s.online p.toNat = true
            ∧ ((∃ s1, rdchunk p.toNat s.opArg0 s = .err s1 ∧ t = finish .driveIo s1)
              ∨ ∃ x s1, rdchunk p.toNat s.opArg0 s = .ok x s1 ∧ t = finish .none (s1.setBuf b.toNat x)))
          ∨ (flagAt s.online p.toNat = false
            ∧ s.layout.sclass (failureSet s.latch.online s.serve (s.domainOf p.toNat)) k ≠ .dataLoss
            ∧ ((∃ s1, readSlots (s.domainOf p.toNat) s.opArg0
                    (s.layout.sources (failureSet s.latch.online s.serve (s.domainOf p.toNat)) k) s = .err s1
                  ∧ t = finish .driveIo s1)
              ∨ ∃ known s1, readSlots (s.domainOf p.toNat) s.opArg0
                    (s.layout.sources (failureSet s.latch.online s.serve (s.domainOf p.toNat)) k) s = .ok known s1
                  ∧ t = finish .none (s1.setBuf b.toNat (s.layout.content
                      (failureSet s.latch.online s.serve (s.domainOf p.toNat)) (chunkOfSlot known) k))))) := by
  unfold execDecodeChunk at h
  split at h
  · exact .inl ⟨_, by decide, finishWith_next h⟩
  rename_i h1
  split at h
  · exact .inl ⟨_, by decide, finishWith_next h⟩
  rename_i h2
  split at h
  · exact .inl ⟨_, by decide, finishWith_next h⟩
  rename_i h3
  split at h
  · exact .inl ⟨_, by decide, finishWith_next h⟩
  rename_i k hk
  split at h
  · rename_i h4
    refine .inr ⟨k, by simpa using h1, by omega, by omega, hk, .inl ⟨h4, ?_⟩⟩
    rcases orDriveIo_next h with ⟨x, s1, hr, h⟩ | ⟨s1, hr, rfl⟩
    · exact .inr ⟨x, s1, hr, finishWith_next h⟩
    · exact .inl ⟨s1, hr, rfl⟩
  rename_i h4
  dsimp only at h
  split at h
  · exact .inl ⟨_, by decide, finishWith_next h⟩
  rename_i h5
  refine .inr ⟨k, by simpa using h1, by omega, by omega, hk, .inr ⟨by simpa using h4, h5, ?_⟩⟩
  rcases orDriveIo_next h with ⟨x, s1, hr, h⟩ | ⟨s1, hr, rfl⟩
  · exact .inr ⟨x, s1, hr, finishWith_next h⟩
  · exact .inl ⟨s1, hr, rfl⟩

/-- CLASSIFY: NOT_INITIALIZED with nothing done, or the three class registers written and CLASS_VALID set. -/
theorem execClassify_next {s t : State} (h : execClassify s = .next t) :
    (s.initialized = false ∧ t = finish .notInitialized s)
      ∨ (s.initialized = true
        ∧ t = finish .none
            { s with classGrp := t.classGrp, classDom := t.classDom, classRollup := t.classRollup, classValid := true }
        ∧ t.classGrp =
            BitVec.ofNat 128 (packFields (fun G => (s.groupClass s.latch.online G).code) Config.MAX_GROUPS)
        ∧ t.classDom =
            BitVec.ofNat 64 (packFields (fun D => (s.domainClass s.latch.online D).code) Config.MAX_DOMAINS)
        ∧ t.classRollup = (s.rollupClass s.latch.online).code) := by
  cases hi : s.initialized with
  | false =>
    rw [execClassify, hi, if_pos (by rfl)] at h
    exact .inl ⟨rfl, finishWith_next h⟩
  | true =>
    rw [execClassify, hi, if_neg (by decide)] at h
    have ht := finishWith_next h
    refine .inr ⟨rfl, ?_, ?_, ?_, ?_⟩
    · rw [ht]; rfl
    · rw [ht]; rfl
    · rw [ht]; rfl
    · rw [ht]; rfl

/-- REBUILD: an error with nothing done, or all targets processed and the aggregate error. -/
theorem execRebuild_next {st : Strategy} {s t : State} (h : execRebuild st s = .next t) :
    (∃ e, e ≠ .none ∧ t = finish e s ∧ (s.initialized = false ∨ ∃ p ∈ s.opTargets, s.total ≤ p))
      ∨ (s.initialized = true ∧ (∀ p ∈ s.opTargets, p < s.total)
        ∧ ∃ es s1, rebuildTargets st s.latch.online (failureSet s.latch.online s.serve)
              (s.orderTargets s.opTargets) 0
              { s with classValid := false, reportCount := BitVec.ofNat 32 s.opTargets.length } = some (es, s1)
            ∧ t = finish (aggregateError es) s1) := by
  unfold execRebuild at h
  split at h
  · rename_i h1
    exact .inl ⟨_, by decide, finishWith_next h, .inl (by simpa using h1)⟩
  rename_i h1
  split at h
  · rename_i h2
    refine .inl ⟨_, by decide, finishWith_next h, .inr ?_⟩
    simpa using h2
  rename_i h2
  refine .inr ⟨by simpa using h1, by simpa using h2, ?_⟩
  split at h
  · cases h
  rename_i es s1 hr
  exact ⟨es, s1, hr, finishWith_next h⟩

theorem mem_insertTarget (s : State) (p q : Nat) (l : List Nat) : q ∈ s.insertTarget p l ↔ q = p ∨ q ∈ l := by
  induction l with
  | nil => simp [State.insertTarget]
  | cons a l ih =>
    simp only [State.insertTarget]
    split
    · simp
    · simp only [List.mem_cons, ih]; tauto

/-- The ordered targets are the targets. -/
theorem mem_orderTargets (s : State) (q : Nat) (l : List Nat) : q ∈ s.orderTargets l ↔ q ∈ l := by
  induction l with
  | nil => simp [State.orderTargets]
  | cons a l ih =>
    rw [State.orderTargets, List.foldr_cons, ← State.orderTargets, mem_insertTarget, ih, List.mem_cons]

theorem mem_opTargets (s : State) (p : Nat) : p ∈ s.opTargets ↔ p < 512 ∧ flagAt s.latch.targets p = true := by
  simp [State.opTargets]

end Sys2Proof.Machine
end

