-- ==== Sys2Proof/Laws/Encoding.lean ====
section
/-! SUPPORT. The fields of an encoded word, and a word from its fields (30_encoding.md R121, R141). -/

namespace Sys2Proof

/-- The bits of an encoded word. -/
theorem getLsbD_encodeFields (opc : BitVec 8) (id : BitVec 16) (f : Bool) (buf : BitVec 3) (i : Nat) :
    (encodeFields opc id f buf).getLsbD i =
      if i < 8 then opc.getLsbD i
      else if i - 8 < 1 then (decide (i - 8 = 0) && f)
      else if i - 8 - 1 < 3 then buf.getLsbD (i - 8 - 1)
      else if i - 8 - 1 - 3 < 4 then false
      else id.getLsbD (i - 8 - 1 - 3 - 4) := by
  show BitVec.getLsbD (w := 16 + 4 + 3 + 1 + 8) (id ++ 0#4 ++ buf ++ BitVec.ofBool f ++ opc) i = _
  simp only [BitVec.getLsbD_append, BitVec.getLsbD_ofBool, BitVec.getLsbD_zero]

@[simp] theorem fieldOpc_encodeFields (opc : BitVec 8) (id : BitVec 16) (f : Bool) (buf : BitVec 3) :
    fieldOpc (encodeFields opc id f buf) = opc := by
  apply BitVec.eq_of_getLsbD_eq
  intro i hi
  rw [fieldOpc, BitVec.getLsbD_extractLsb', getLsbD_encodeFields]
  simp [hi]

@[simp] theorem fieldF_encodeFields (opc : BitVec 8) (id : BitVec 16) (f : Bool) (buf : BitVec 3) :
    fieldF (encodeFields opc id f buf) = f := by
  rw [fieldF, getLsbD_encodeFields]; rfl

@[simp] theorem fieldBuf_encodeFields (opc : BitVec 8) (id : BitVec 16) (f : Bool) (buf : BitVec 3) :
    fieldBuf (encodeFields opc id f buf) = buf := by
  apply BitVec.eq_of_getLsbD_eq
  intro i hi
  rw [fieldBuf, BitVec.getLsbD_extractLsb', getLsbD_encodeFields]
  rw [if_neg (by omega), if_neg (by omega), if_pos (by omega)]
  have h : 9 + i - 8 - 1 = i := by omega
  simp [hi, h]

@[simp] theorem fieldRsv_encodeFields (opc : BitVec 8) (id : BitVec 16) (f : Bool) (buf : BitVec 3) :
    fieldRsv (encodeFields opc id f buf) = 0 := by
  apply BitVec.eq_of_getLsbD_eq
  intro i hi
  rw [fieldRsv, BitVec.getLsbD_extractLsb', getLsbD_encodeFields]
  rw [if_neg (by omega), if_neg (by omega), if_neg (by omega), if_pos (by omega)]
  simp

@[simp] theorem fieldId_encodeFields (opc : BitVec 8) (id : BitVec 16) (f : Bool) (buf : BitVec 3) :
    fieldId (encodeFields opc id f buf) = id := by
  apply BitVec.eq_of_getLsbD_eq
  intro i hi
  rw [fieldId, BitVec.getLsbD_extractLsb', getLsbD_encodeFields]
  rw [if_neg (by omega), if_neg (by omega), if_neg (by omega), if_neg (by omega)]
  have h : 16 + i - 8 - 1 - 3 - 4 = i := by omega
  simp [hi, h]

/-- A word whose reserved bits are 0 is its fields. -/
theorem encodeFields_fields (w : Word) (h : fieldRsv w = 0) :
    encodeFields (fieldOpc w) (fieldId w) (fieldF w) (fieldBuf w) = w := by
  apply BitVec.eq_of_getLsbD_eq
  intro i hi
  have hr : ∀ j, j < 4 → w.getLsbD (12 + j) = false := by
    intro j hj
    have := congrArg (fun x => BitVec.getLsbD x j) h
    simpa [fieldRsv, BitVec.getLsbD_extractLsb', hj] using this
  rw [getLsbD_encodeFields]
  simp only [fieldOpc, fieldId, fieldF, fieldBuf, BitVec.getLsbD_extractLsb']
  by_cases h1 : i < 8
  · simp [h1]
  · by_cases h2 : i - 8 < 1
    · have h3 : i = 8 := by omega
      subst h3; simp
    · by_cases h3 : i - 8 - 1 < 3
      · have h4 : 9 + (i - 8 - 1) = i := by omega
        simp [h1, h2, h3, h4]
      · by_cases h4 : i - 8 - 1 - 3 < 4
        · have h5 : 12 + (i - 8 - 1 - 3) = i := by omega
          have := hr (i - 8 - 1 - 3) h4
          rw [h5] at this
          simp [h1, h2, h3, h4, this]
        · have h5 : 16 + (i - 8 - 1 - 3 - 4) = i := by omega
          have h6 : i - 8 - 1 - 3 - 4 < 16 := by omega
          simp [h1, h2, h3, h4, h5, h6]

/-- A word in which RSV and every field named is 0 decodes to its row's command. -/
theorem decode_of_row (w : Word) (row : DecodeRow) (hrow : decodeRow w = some row) (hr : fieldRsv w = 0)
    (hf : row.usesF = false → fieldF w = false) (hb : row.usesBuf = false → fieldBuf w = 0)
    (hi : row.usesId = false → fieldId w = 0) (hn : row.usesBuf = true → bufferInRange (fieldBuf w) = true) :
    decode w = .ok row.instr := by
  unfold decode
  rw [hrow]
  cases h1 : row.usesF <;> cases h2 : row.usesBuf <;> cases h3 : row.usesId <;> simp_all

/-- What a word that decodes satisfies. -/
theorem row_of_decode (w : Word) (i : Instr) (h : decode w = .ok i) :
    ∃ row, decodeRow w = some row ∧ row.instr = i ∧ fieldRsv w = 0 ∧ (row.usesF = false → fieldF w = false)
      ∧ (row.usesBuf = false → fieldBuf w = 0) ∧ (row.usesId = false → fieldId w = 0)
      ∧ (row.usesBuf = true → bufferInRange (fieldBuf w) = true) := by
  unfold decode at h
  cases hrow : decodeRow w with
  | none => rw [hrow] at h; cases h
  | some row =>
    refine ⟨row, rfl, ?_⟩
    rw [hrow] at h
    dsimp only at h
    split at h
    · cases h
    · split at h
      · cases h
      · split at h
        · cases h
        · rename_i h1 h2 h3
          cases h
          cases h4 : row.usesF <;> cases h5 : row.usesBuf <;> cases h6 : row.usesId <;> simp_all

end Sys2Proof
end

