-- ==== Sys2Proof/Laws/Field.lean ====
section
/-! SUPPORT. What the lane-wise chunk operations do to one byte lane, and sums of chunks (41_parity_math.md R204). -/

namespace Sys2Proof.Machine

theorem mapLanes_lt (f : Byte → Byte) (k x : Nat) : mapLanes f k x < 2 ^ (8 * 2 ^ k) := by
  induction k generalizing x with
  | zero => simpa [mapLanes] using (f (BitVec.ofNat 8 x)).isLt
  | succ k ih =>
    simp only [mapLanes]
    split
    · positivity
    · have h1 := ih (x % 2 ^ (8 * 2 ^ k))
      have h2 := ih (x / 2 ^ (8 * 2 ^ k))
      have h3 : 2 ^ (8 * 2 ^ (k + 1)) = 2 ^ (8 * 2 ^ k) * 2 ^ (8 * 2 ^ k) := by
        rw [← pow_add]; congr 1; ring
      rw [h3]
      calc _ < 2 ^ (8 * 2 ^ k) + 2 ^ (8 * 2 ^ k) * mapLanes f k (x / 2 ^ (8 * 2 ^ k)) := by omega
        _ = 2 ^ (8 * 2 ^ k) * (mapLanes f k (x / 2 ^ (8 * 2 ^ k)) + 1) := by ring
        _ ≤ _ := Nat.mul_le_mul_left _ h2

/-- Lane i of the mapped number is the map of lane i, for a map that keeps 0. -/
theorem byteOf_mapLanes (f : Byte → Byte) (hf : f 0 = 0) (k x i : Nat) (h : i < 2 ^ k) :
    byteOf (mapLanes f k x) i = f (byteOf x i) := by
  induction k generalizing x i with
  | zero =>
    obtain rfl : i = 0 := by simpa using h
    simp [mapLanes, byteOf]
  | succ k ih =>
    simp only [mapLanes]
    split
    · rename_i hx
      subst hx
      rw [byteOf_zero]
      exact hf.symm
    · by_cases hi : i < 2 ^ k
      · rw [byteOf_join_low _ _ _ _ hi, ih _ _ hi, byteOf_low _ _ _ hi]
      · obtain ⟨j, rfl⟩ : ∃ j, i = 2 ^ k + j := ⟨i - 2 ^ k, by omega⟩
        have hj : j < 2 ^ k := by
          rw [pow_succ] at h; omega
        rw [byteOf_join_high _ _ _ _ (mapLanes_lt f k _), ih _ _ hj, byteOf_high]

/-- Lane i of a chunk mapped lane by lane. -/
theorem laneAt_mapLanes (f : Byte → Byte) (hf : f 0 = 0) (x : Chunk) (i : Nat) (h : i < Config.CHUNK) :
    laneAt (BitVec.ofNat (8 * Config.CHUNK) (mapLanes f Config.chunkLog x.toNat)) i = f (laneAt x i) := by
  have hlt : mapLanes f Config.chunkLog x.toNat < 2 ^ (8 * Config.CHUNK) :=
    lt_of_lt_of_eq (mapLanes_lt f Config.chunkLog _) (by rw [chunk_bits])
  rw [laneAt_eq_byteOf, laneAt_eq_byteOf, BitVec.toNat_ofNat, Nat.mod_eq_of_lt hlt, byteOf_mapLanes f hf _ _ _ (by rw [chunk_two_pow]; exact h)]

theorem laneAt_xor (x y : Chunk) (i : Nat) : laneAt (x ^^^ y) i = laneAt x i ^^^ laneAt y i := by
  apply BitVec.eq_of_getLsbD_eq
  intro j hj
  simp [laneAt, hj]

theorem laneAt_zero (i : Nat) : laneAt 0 i = 0 := by
  apply BitVec.eq_of_getLsbD_eq
  intro j hj
  simp [laneAt]

/-! ### Sums of chunks (00_scope.md R14) -/

@[simp] theorem xorOver_nil (f : Nat → Chunk) : xorOver [] f = 0 := rfl

@[simp] theorem xorOver_cons (k : Nat) (ks : List Nat) (f : Nat → Chunk) :
    xorOver (k :: ks) f = f k ^^^ xorOver ks f := rfl

theorem xorOver_append (ks js : List Nat) (f : Nat → Chunk) :
    xorOver (ks ++ js) f = xorOver ks f ^^^ xorOver js f := by
  induction ks with
  | nil => simp
  | cons k ks ih => rw [List.cons_append, xorOver_cons, ih, xorOver_cons, BitVec.xor_assoc]

/-- A sum depends only on the chunks of its indices. -/
theorem xorOver_congr (ks : List Nat) (f g : Nat → Chunk) (h : ∀ k ∈ ks, f k = g k) : xorOver ks f = xorOver ks g := by
  induction ks with
  | nil => rfl
  | cons k ks ih =>
    rw [xorOver_cons, xorOver_cons, h k List.mem_cons_self, ih fun j hj => h j (List.mem_cons_of_mem _ hj)]

/-- A sum splits along any test of its indices. -/
theorem xorOver_split (ks : List Nat) (p : Nat → Bool) (f : Nat → Chunk) :
    xorOver ks f = xorOver (ks.filter p) f ^^^ xorOver (ks.filter fun k => !p k) f := by
  induction ks with
  | nil => simp
  | cons k ks ih =>
    cases h : p k
    · simp only [List.filter_cons, h, xorOver_cons, ih, Bool.false_eq_true, if_false, Bool.not_false, if_true]
      rw [← BitVec.xor_assoc, ← BitVec.xor_assoc, BitVec.xor_comm (f k)]
    · simp only [List.filter_cons, h, xorOver_cons, ih, if_true, Bool.not_true, Bool.false_eq_true, if_false,
        BitVec.xor_assoc]

theorem laneAt_xorOver (ks : List Nat) (f : Nat → Chunk) (i : Nat) :
    laneAt (xorOver ks f) i = ks.foldr (fun k acc => laneAt (f k) i ^^^ acc) 0 := by
  induction ks with
  | nil => exact laneAt_zero i
  | cons k ks ih => rw [xorOver_cons, laneAt_xor, ih]; rfl

end Sys2Proof.Machine
end

