-- ==== Sys2Proof/Laws/Layout.lean ====
section
/-! SUPPORT. Groups and slots of a layout, failed and kept slots, and members of source sets. -/

namespace Sys2Proof.Machine

/-! ### Groups (10_state.md R61) -/

theorem groupIn_spec (l : List Nat) (k : Nat) (h : k < l.sum) :
    groupIn l k < l.length ∧ (l.take (groupIn l k)).sum ≤ k ∧ k < (l.take (groupIn l k)).sum + l.getD (groupIn l k) 0 := by
  induction l generalizing k with
  | nil => simp at h
  | cons n l ih =>
    simp only [groupIn]
    by_cases hk : k < n
    · rw [if_pos hk]; simp [hk]
    · rw [if_neg hk]
      simp only [List.sum_cons] at h
      have hi := ih (k - n) (by omega)
      simp only [List.length_cons, List.take_succ_cons, List.sum_cons, List.getD_cons_succ]
      omega

/-- The group of a data slot exists, and the slot is one of the group's. -/
theorem Layout.groupOf_spec (L : Layout) (k : Nat) (h : k < L.ndata) :
    L.groupOf k < L.ng ∧ L.start (L.groupOf k) ≤ k ∧ k < L.start (L.groupOf k) + L.size (L.groupOf k) :=
  groupIn_spec L.sizes k h

theorem groupIn_eq (l : List Nat) (k g : Nat) (hg : g < l.length) (h1 : (l.take g).sum ≤ k)
    (h2 : k < (l.take g).sum + l.getD g 0) : groupIn l k = g := by
  induction l generalizing k g with
  | nil => simp at hg
  | cons n l ih =>
    simp only [groupIn]
    cases g with
    | zero =>
      simp only [List.take_zero, List.sum_nil, List.getD_cons_zero, Nat.zero_add] at h2
      rw [if_pos h2]
    | succ g =>
      simp only [List.take_succ_cons, List.sum_cons, List.getD_cons_succ, List.length_cons] at h1 h2 hg
      rw [if_neg (by omega), ih (k - n) g (by omega) (by omega) (by omega)]

theorem take_sum_add_getD_le (l : List Nat) (g : Nat) : (l.take g).sum + l.getD g 0 ≤ l.sum := by
  induction l generalizing g with
  | nil => simp
  | cons n l ih =>
    cases g with
    | zero => simp
    | succ g =>
      have := ih g
      simp only [List.take_succ_cons, List.sum_cons, List.getD_cons_succ]; omega

/-- A slot is one of group g's exactly when it is a data slot whose group is g. -/
theorem Layout.mem_slotsOf (L : Layout) (g k : Nat) (hg : g < L.ng) :
    k ∈ L.slotsOf g ↔ k < L.ndata ∧ L.groupOf k = g := by
  simp only [Layout.slotsOf, List.mem_range'_1]
  constructor
  · rintro ⟨h1, h2⟩
    have h3 : L.start g + L.size g ≤ L.ndata := take_sum_add_getD_le L.sizes g
    exact ⟨by omega, groupIn_eq L.sizes k g hg h1 h2⟩
  · rintro ⟨h1, rfl⟩
    exact (L.groupOf_spec k h1).2

theorem Layout.slotsOf_nodup (L : Layout) (g : Nat) : (L.slotsOf g).Nodup := List.nodup_range'

/-- The lost data slots of a group. -/
theorem Layout.mem_lost (L : Layout) (off : Nat → Bool) (g k : Nat) (hg : g < L.ng) :
    k ∈ L.lost off g ↔ (k < L.ndata ∧ L.groupOf k = g) ∧ off k = true := by
  rw [Layout.lost, List.mem_filter, L.mem_slotsOf g k hg]

/-- The kept data slots of a group. -/
theorem Layout.mem_kept (L : Layout) (off : Nat → Bool) (g k : Nat) (hg : g < L.ng) :
    k ∈ L.kept off g ↔ (k < L.ndata ∧ L.groupOf k = g) ∧ off k = false := by
  rw [Layout.kept, List.mem_filter, L.mem_slotsOf g k hg, Bool.not_eq_true']

theorem Layout.lost_nodup (L : Layout) (off : Nat → Bool) (g : Nat) : (L.lost off g).Nodup :=
  (L.slotsOf_nodup g).filter _

theorem Layout.mem_keptData (L : Layout) (off : Nat → Bool) (k : Nat) :
    k ∈ L.keptData off ↔ k < L.ndata ∧ off k = false := by simp [Layout.keptData]

theorem Layout.mem_otherGroups (L : Layout) (g h : Nat) : h ∈ L.otherGroups g ↔ h < L.ng ∧ h ≠ g := by
  simp [Layout.otherGroups]

theorem Layout.mem_otherLossy (L : Layout) (off : Nat → Bool) (g h : Nat) :
    h ∈ L.otherLossy off g ↔ (h < L.ng ∧ h ≠ g) ∧ L.lost off h ≠ [] := by
  rw [Layout.otherLossy, List.mem_filter, L.mem_otherGroups]
  simp

/-! ### Kinds of slots -/

theorem Layout.kindOf_data (L : Layout) (k : Nat) (h : k < L.ndata) : L.kindOf k = .data (L.groupOf k) := by
  rw [Layout.kindOf, if_pos h]

theorem Layout.kindOf_lp (L : Layout) (g : Nat) (h : g < L.ng) : L.kindOf (L.lpSlot g) = .localParity g := by
  unfold Layout.kindOf Layout.lpSlot Layout.gpSlot
  rw [if_neg (by omega), if_pos (by omega)]
  congr 1; omega

theorem Layout.kindOf_gp (L : Layout) : L.kindOf L.gpSlot = .globalParity := by
  unfold Layout.kindOf
  rw [if_neg (by unfold Layout.gpSlot; omega), if_neg (by omega), if_pos rfl]

/-- A served slot is a data slot, a local-parity slot or the global-parity slot. -/
theorem Layout.served_cases (L : Layout) (s : Nat) (h : s < L.served) :
    s < L.ndata ∨ (∃ g, g < L.ng ∧ s = L.lpSlot g) ∨ s = L.gpSlot := by
  unfold Layout.served at h
  by_cases h1 : s < L.ndata
  · exact .inl h1
  · by_cases h2 : s < L.gpSlot
    · exact .inr (.inl ⟨s - L.ndata, by unfold Layout.gpSlot at h2; omega, by unfold Layout.lpSlot; omega⟩)
    · exact .inr (.inr (by unfold Layout.gpSlot at *; omega))

/-! ### Source sets (41_parity_math.md R226) -/

theorem Layout.mem_sources (L : Layout) (off : Nat → Bool) (k t : Nat) :
    t ∈ L.sources off k ↔ t < L.served ∧ t ∈ L.sourceMembers off k := by
  simp [Layout.sources]

/-- A source is a served slot. -/
theorem Layout.lt_served_of_mem_sources (L : Layout) (off : Nat → Bool) (k t : Nat) (h : t ∈ L.sources off k) :
    t < L.served := ((L.mem_sources off k t).1 h).1

/-- A group in which a data slot is lost is not OK. -/
theorem Layout.gclass_ne_ok_of_lost (L : Layout) (off : Nat → Bool) (g : Nat) (h : L.lost off g ≠ []) :
    L.gclass off g ≠ .ok := by
  unfold Layout.gclass
  have : (L.lost off g).isEmpty = false := by simpa using h
  rw [this]
  simp only [Bool.false_and, Bool.false_eq_true, if_false]
  split <;> simp

/-- Whether the unknowns of a group with a lost data slot are determined, from its class. -/
theorem Layout.determined_of_gclass (L : Layout) (off : Nat → Bool) (g : Nat) (hl : L.lost off g ≠ [])
    (h : L.gclass off g ≠ .dataLoss) : L.determined off g = true := by
  by_contra hd
  apply h
  unfold Layout.gclass
  have : (L.lost off g).isEmpty = false := by simpa using hl
  rw [this, if_neg (by simp), if_neg hd]

/-- A group is OK exactly when none of its data slots and not its local parity is lost. -/
theorem Layout.gclass_eq_ok_iff (L : Layout) (off : Nat → Bool) (g : Nat) (hg : g < L.ng) :
    L.gclass off g = .ok ↔ (∀ k, k < L.ndata → L.groupOf k = g → off k = false) ∧ off (L.lpSlot g) = false := by
  have hl : L.lost off g = [] ↔ ∀ k, k < L.ndata → L.groupOf k = g → off k = false := by
    simp only [List.eq_nil_iff_forall_not_mem, L.mem_lost off g _ hg, not_and, Bool.not_eq_true, and_imp]
  rw [← hl, Layout.gclass]
  split
  · rename_i h; simpa [Layout.lpOff] using h
  · rename_i h
    refine iff_of_false (by split <;> simp) fun h' => h (by simpa [Layout.lpOff] using h')

/-- A group is DATA_LOSS exactly when it has a lost data slot and its unknowns are not determined. -/
theorem Layout.gclass_eq_dataLoss_iff (L : Layout) (off : Nat → Bool) (g : Nat) :
    L.gclass off g = .dataLoss ↔ L.lost off g ≠ [] ∧ L.determined off g = false := by
  constructor
  · intro h
    have hl : L.lost off g ≠ [] := by
      intro hl
      revert h
      unfold Layout.gclass Layout.determined Layout.need
      rw [hl]
      cases L.lpOff off g <;> cases L.plain <;> simp
    refine ⟨hl, ?_⟩
    unfold Layout.gclass at h
    split at h
    · cases h
    · split at h
      · cases h
      · rename_i hd; simpa using hd
  · rintro ⟨hl, hd⟩
    by_contra h
    rw [L.determined_of_gclass off g hl h] at hd
    cases hd

theorem Layout.sclass_data (L : Layout) (off : Nat → Bool) (k : Nat) (h : k < L.ndata) :
    L.sclass off k = L.gclass off (L.groupOf k) := by
  rw [Layout.sclass, L.kindOf_data k h]; rfl

theorem Layout.sclass_lp (L : Layout) (off : Nat → Bool) (g : Nat) (h : g < L.ng) :
    L.sclass off (L.lpSlot g) = L.gclass off g := by
  rw [Layout.sclass, L.kindOf_lp g h]; rfl

theorem Layout.sclass_gp (L : Layout) (off : Nat → Bool) : L.sclass off L.gpSlot = L.qclass off := by
  rw [Layout.sclass, L.kindOf_gp]; rfl

/-- Every lost data slot of a group that is not DATA_LOSS has one of the cases of 41_parity_math.md R224, so that the
value of `undetermined` is never used (log 13). -/
theorem Layout.solveCase_ne_undetermined (L : Layout) (off : Nat → Bool) (k : Nat) (hk : k < L.ndata)
    (ho : off k = true) (h : L.gclass off (L.groupOf k) ≠ .dataLoss) : L.solveCase off k ≠ .undetermined := by
  have hg := (L.groupOf_spec k hk).1
  have hm : k ∈ L.lost off (L.groupOf k) := (L.mem_lost off _ k hg).2 ⟨⟨hk, rfl⟩, ho⟩
  have hd := L.determined_of_gclass off _ (List.ne_nil_of_mem hm) h
  unfold Layout.solveCase
  unfold Layout.determined Layout.need at hd
  rw [ho]
  simp only [Bool.not_true, Bool.false_eq_true, if_false]
  cases hl : L.lost off (L.groupOf k) with
  | nil => rw [hl] at hm; cases hm
  | cons a l =>
    rw [hl] at hd
    cases l with
    | nil =>
      dsimp only
      split
      · simp
      · split <;> simp
    | cons b l =>
      cases l with
      | nil =>
        dsimp only
        cases hp : L.plain <;> cases hlp : L.lpOff off (L.groupOf k) <;> simp [hp, hlp] at hd ⊢
      | cons c l =>
        exfalso
        cases hp : L.plain <;> cases hlp : L.lpOff off (L.groupOf k) <;> simp [hp, hlp] at hd <;> omega

end Sys2Proof.Machine
end

