-- ==== Sys2Proof/Laws/PerInstr.lean ====
section
/-! SUPPORT. Per instruction: a word with the instruction's OPC and any reserved bit set does not decode
(30_encoding.md R125 a). -/

namespace Sys2Proof.Laws.RefusesReservedBits

/-- Every word with the OPC of instruction `i` and RSV ≠ 0 is refused, whatever its other fields. -/
def Statement (i : Instr) : Prop :=
  ∀ w : Word, fieldOpc w = fieldOpc (encode i) → fieldRsv w ≠ 0 → decode w = .error .reservedBits

/-- A word whose OPC is a row's and whose RSV is not 0. -/
theorem of_row (w : Word) (row : DecodeRow) (hrow : decodeRow w = some row) (hr : fieldRsv w ≠ 0) :
    decode w = .error .reservedBits := by
  unfold decode
  rw [hrow]
  exact if_pos hr

theorem nop : Statement .nop := by
  intro w h hr
  rw [encode, fieldOpc_encodeFields] at h
  exact of_row w _ (by unfold decodeRow; rw [h]; rfl) hr

theorem init : Statement .init := by
  intro w h hr
  rw [encode, fieldOpc_encodeFields] at h
  exact of_row w _ (by unfold decodeRow; rw [h]; rfl) hr

theorem reset : Statement .reset := by
  intro w h hr
  rw [encode, fieldOpc_encodeFields] at h
  exact of_row w _ (by unfold decodeRow; rw [h]; rfl) hr

theorem setOnlineDrive (drive : BitVec 16) (value : Bool) : Statement (.setOnlineDrive drive value) := by
  intro w h hr
  rw [encode, fieldOpc_encodeFields] at h
  exact of_row w _ (by unfold decodeRow; rw [h]; rfl) hr

theorem setOnlineDomain (domain : BitVec 16) (value : Bool) : Statement (.setOnlineDomain domain value) := by
  intro w h hr
  rw [encode, fieldOpc_encodeFields] at h
  exact of_row w _ (by unfold decodeRow; rw [h]; rfl) hr

theorem writeChunk (drive : BitVec 16) (buf : BitVec 3) : Statement (.writeChunk drive buf) := by
  intro w h hr
  rw [encode, fieldOpc_encodeFields] at h
  exact of_row w _ (by unfold decodeRow; rw [h]; rfl) hr

theorem encodeStripe (domain : BitVec 16) : Statement (.encodeStripe domain) := by
  intro w h hr
  rw [encode, fieldOpc_encodeFields] at h
  exact of_row w _ (by unfold decodeRow; rw [h]; rfl) hr

theorem recombine (buf : BitVec 3) : Statement (.recombine buf) := by
  intro w h hr
  rw [encode, fieldOpc_encodeFields] at h
  exact of_row w _ (by unfold decodeRow; rw [h]; rfl) hr

theorem readChunk (drive : BitVec 16) (buf : BitVec 3) : Statement (.readChunk drive buf) := by
  intro w h hr
  rw [encode, fieldOpc_encodeFields] at h
  exact of_row w _ (by unfold decodeRow; rw [h]; rfl) hr

theorem peek (drive : BitVec 16) : Statement (.peek drive) := by
  intro w h hr
  rw [encode, fieldOpc_encodeFields] at h
  exact of_row w _ (by unfold decodeRow; rw [h]; rfl) hr

theorem decodeChunk (drive : BitVec 16) (buf : BitVec 3) : Statement (.decodeChunk drive buf) := by
  intro w h hr
  rw [encode, fieldOpc_encodeFields] at h
  exact of_row w _ (by unfold decodeRow; rw [h]; rfl) hr

theorem classify : Statement .classify := by
  intro w h hr
  rw [encode, fieldOpc_encodeFields] at h
  exact of_row w _ (by unfold decodeRow; rw [h]; rfl) hr

theorem rebuild (strategy : Strategy) : Statement (.rebuild strategy) := by
  intro w h hr
  rw [encode, fieldOpc_encodeFields] at h
  exact of_row w _ (by unfold decodeRow; rw [h]; rfl) hr

theorem queryDrive (drive : BitVec 16) : Statement (.queryDrive drive) := by
  intro w h hr
  rw [encode, fieldOpc_encodeFields] at h
  exact of_row w _ (by unfold decodeRow; rw [h]; rfl) hr

theorem queryGroup (group : BitVec 16) : Statement (.queryGroup group) := by
  intro w h hr
  rw [encode, fieldOpc_encodeFields] at h
  exact of_row w _ (by unfold decodeRow; rw [h]; rfl) hr

theorem querySlot (domain : BitVec 16) : Statement (.querySlot domain) := by
  intro w h hr
  rw [encode, fieldOpc_encodeFields] at h
  exact of_row w _ (by unfold decodeRow; rw [h]; rfl) hr

end Sys2Proof.Laws.RefusesReservedBits
end

