-- ==== Sys2Proof/Laws/Topology.lean ====
section
/-! SUPPORT. What a legal topology and a legal slot assignment give: bounds, and where each drive stands. -/

namespace Sys2Proof.Machine

/-! ### A legal configuration (40_topology_control.md R151) -/

/-- The arithmetic of a configuration that passes the check. -/
structure TopoParams.Bounds (t : TopoParams) : Prop where
  ngPos : 1 ≤ t.ngroups.toNat
  ngMax : t.ngroups.toNat ≤ 8
  sizesPos : ∀ n ∈ t.sizes, 1 ≤ n
  tiles : t.layout.served + t.spares.toNat = t.dpd.toNat
  dpdMax : t.dpd.toNat ≤ 64
  totalPos : 1 ≤ t.total.toNat
  totalMax : t.total.toNat ≤ 512
  divides : t.total.toNat / t.dpd.toNat * t.dpd.toNat = t.total.toNat
  ndomMax : t.total.toNat / t.dpd.toNat ≤ 32
  groupsMax : t.total.toNat / t.dpd.toNat * t.ngroups.toNat ≤ 64
  chunksPos : 1 ≤ t.chunks.toNat
  chunksMax : t.chunks.toNat ≤ 2 ^ 20
  schemeMax : t.scheme.toNat ≤ 1

theorem TopoParams.length_sizes (t : TopoParams) : t.sizes.length = t.ngroups.toNat := by simp [TopoParams.sizes]

theorem TopoParams.layout_ng (t : TopoParams) : t.layout.ng = t.ngroups.toNat := t.length_sizes

theorem TopoParams.layout_ndata (t : TopoParams) : t.layout.ndata = t.sizes.sum := rfl

theorem TopoParams.bounds_of_valid (t : TopoParams) (h : t.valid = true) : t.Bounds := by
  simp only [TopoParams.valid, Bool.and_eq_true, decide_eq_true_eq, List.all_eq_true] at h
  obtain ⟨⟨⟨⟨⟨⟨⟨⟨h1, h2⟩, h3⟩, h4⟩, h5⟩, ⟨h6, h7⟩, h8⟩, h9, h10⟩, h11, h12⟩, h13⟩ := h
  exact {
    ngPos := h1
    ngMax := h2
    sizesPos := h3
    tiles := by
      simp only [Layout.served, TopoParams.layout_ng, TopoParams.layout_ndata]; omega
    dpdMax := h5
    totalPos := h6
    totalMax := h7
    divides := Nat.div_mul_cancel (Nat.dvd_of_mod_eq_zero h8)
    ndomMax := h9
    groupsMax := h10
    chunksPos := h11
    chunksMax := h12
    schemeMax := h13 }

/-- Every group has a data slot, so there are at least as many data slots as groups. -/
theorem length_le_sum (l : List Nat) (h : ∀ n ∈ l, 1 ≤ n) : l.length ≤ l.sum := by
  induction l with
  | nil => simp
  | cons a l ih =>
    have h1 := h a List.mem_cons_self
    have h2 := ih fun n hn => h n (List.mem_cons_of_mem _ hn)
    simp only [List.length_cons, List.sum_cons]; omega

theorem TopoParams.Bounds.three_le_dpd {t : TopoParams} (b : t.Bounds) : 3 ≤ t.dpd.toNat := by
  have h1 := b.ngPos
  have h2 := b.tiles
  have h3 := length_le_sum _ b.sizesPos
  rw [t.length_sizes] at h3
  simp only [Layout.served, TopoParams.layout_ng, TopoParams.layout_ndata] at h2
  omega

/-- A latched topology that passes the check satisfies its bounds. -/
theorem bounds_of_topologyLegal {s : State} (h : s.topologyLegal) (hi : s.initialized = true) : s.topo.Bounds :=
  s.topo.bounds_of_valid (h hi).1

/-- The bounds, in the state's own terms. -/
structure State.Bounds (s : State) : Prop where
  ngPos : 1 ≤ s.ng
  ngMax : s.ng ≤ 8
  ngLayout : s.layout.ng = s.ng
  sizesPos : ∀ n ∈ s.topo.sizes, 1 ≤ n
  servedLe : s.layout.served ≤ s.dpd
  dpdMin : 3 ≤ s.dpd
  dpdMax : s.dpd ≤ 64
  totalPos : 1 ≤ s.total
  totalMax : s.total ≤ 512
  divides : s.ndom * s.dpd = s.total
  ndomMax : s.ndom ≤ 32
  groupsMax : s.ndom * s.ng ≤ 64
  chunksPos : 1 ≤ s.chunks
  chunksMax : s.chunks ≤ Config.MAX_CHUNKS

theorem State.bounds {s : State} (h : s.topologyLegal) (hi : s.initialized = true) : s.Bounds := by
  have b := bounds_of_topologyLegal h hi
  have ht := b.tiles
  exact {
    ngPos := b.ngPos
    ngMax := b.ngMax
    ngLayout := s.topo.layout_ng
    sizesPos := b.sizesPos
    servedLe := by show s.topo.layout.served ≤ s.topo.dpd.toNat; omega
    dpdMin := b.three_le_dpd
    dpdMax := b.dpdMax
    totalPos := b.totalPos
    totalMax := b.totalMax
    divides := b.divides
    ndomMax := b.ndomMax
    groupsMax := b.groupsMax
    chunksPos := b.chunksPos
    chunksMax := b.chunksMax }

theorem State.Inv.bounds {s : State} (h : s.Inv) (hi : s.initialized = true) : s.Bounds := State.bounds h.topology hi

theorem State.Bounds.served_eq {s : State} (b : s.Bounds) : s.layout.served = s.ndata + s.ng + 1 := by
  rw [Layout.served, b.ngLayout]; rfl

theorem State.Bounds.gpSlot_eq {s : State} (b : s.Bounds) : s.layout.gpSlot = s.ndata + s.ng := by
  rw [Layout.gpSlot, b.ngLayout]; rfl

/-- A physical drive's domain is one of the domains. -/
theorem State.Bounds.domainOf_lt {s : State} (b : s.Bounds) {p : Nat} (hp : p < s.total) : s.domainOf p < s.ndom := by
  have h1 := b.dpdMin
  have h2 := b.divides
  rw [State.domainOf, Nat.div_lt_iff_lt_mul (by omega), h2]
  exact hp

/-- The drives of a domain exist, and are in that domain. -/
theorem State.Bounds.drive_of_domain {s : State} (b : s.Bounds) {D q : Nat} (hD : D < s.ndom)
    (h1 : D * s.dpd ≤ q) (h2 : q < D * s.dpd + s.dpd) : q < s.total ∧ s.domainOf q = D := by
  have h3 := b.dpdMin
  have h4 : D * s.dpd + s.dpd ≤ s.ndom * s.dpd := by
    rw [← Nat.succ_mul]; exact Nat.mul_le_mul_right _ hD
  rw [b.divides] at h4
  refine ⟨by omega, ?_⟩
  rw [State.domainOf, Nat.div_eq_of_lt_le h1]
  rw [Nat.add_mul, Nat.one_mul]; exact h2

/-- A chunk of the drive space is one of the chunks a drive can have. -/
theorem State.Bounds.chunk_lt {s : State} (b : s.Bounds) {c : Nat} (hc : c < s.chunks) : c < Config.MAX_CHUNKS :=
  lt_of_lt_of_le hc b.chunksMax

/-! ### slot_of (42_encode.md R260) -/

/-- The slot that `slot_of` names is a served one, and the drive serves it. -/
theorem slotOf_some {s : State} {p k : Nat} (h : s.slotOf p = some k) :
    k < s.layout.served ∧ s.serveAt (s.domainOf p) k = p := by
  have h1 := List.mem_of_find?_eq_some h
  have h2 := List.find?_some h
  exact ⟨by simpa using h1, by simpa using h2⟩

/-- Where `slot_of` names none, the drive serves no slot of its domain. -/
theorem slotOf_none {s : State} {p : Nat} (h : s.slotOf p = none) (k : Nat) (hk : k < s.layout.served) :
    s.serveAt (s.domainOf p) k ≠ p := by
  have h1 := List.find?_eq_none.1 h k (by simpa using hk)
  simpa using h1

/-- A drive that serves a slot of its domain has a slot. -/
theorem slotOf_isSome_of_serves {s : State} {p k : Nat} (hk : k < s.layout.served)
    (h : s.serveAt (s.domainOf p) k = p) : ∃ j, s.slotOf p = some j := by
  cases hs : s.slotOf p with
  | none => exact absurd h (slotOf_none hs k hk)
  | some j => exact ⟨j, rfl⟩

/-! ### A legal assignment (10_state.md R63) -/

theorem State.assignmentLegal.serveAt_lt {s : State} (h : s.assignmentLegal) (hi : s.initialized = true) {D k : Nat}
    (hD : D < s.ndom) (hk : k < s.layout.served) : s.serveAt D k < s.total := ((h hi).1 D hD k hk).1

theorem State.assignmentLegal.domainOf_serveAt {s : State} (h : s.assignmentLegal) (hi : s.initialized = true)
    {D k : Nat} (hD : D < s.ndom) (hk : k < s.layout.served) : s.domainOf (s.serveAt D k) = D := ((h hi).1 D hD k hk).2

theorem State.assignmentLegal.serveAt_inj {s : State} (h : s.assignmentLegal) (hi : s.initialized = true)
    {D k j : Nat} (hD : D < s.ndom) (hk : k < s.layout.served) (hj : j < s.layout.served)
    (he : s.serveAt D k = s.serveAt D j) : k = j := (h hi).2.1 D hD k hk j hj he

/-- The serving drive of a slot has that slot. -/
theorem State.assignmentLegal.slotOf_serveAt {s : State} (h : s.assignmentLegal) (hi : s.initialized = true)
    {D k : Nat} (hD : D < s.ndom) (hk : k < s.layout.served) : s.slotOf (s.serveAt D k) = some k := by
  have hdom := h.domainOf_serveAt hi hD hk
  obtain ⟨j, hj⟩ := slotOf_isSome_of_serves hk (by rw [hdom])
  obtain ⟨h1, h2⟩ := slotOf_some hj
  rw [hdom] at h2
  rw [hj, h.serveAt_inj hi hD h1 hk h2]

/-- Two slots, of whatever domains, are served by different drives. -/
theorem State.assignmentLegal.serveAt_ne {s : State} (h : s.assignmentLegal) (hi : s.initialized = true)
    {D E k j : Nat} (hD : D < s.ndom) (hE : E < s.ndom) (hk : k < s.layout.served) (hj : j < s.layout.served)
    (hne : D ≠ E ∨ k ≠ j) : s.serveAt D k ≠ s.serveAt E j := by
  intro he
  have h1 := h.domainOf_serveAt hi hD hk
  rw [he, h.domainOf_serveAt hi hE hj] at h1
  subst h1
  exact hne.elim (fun h => h rfl) fun h' => h' (h.serveAt_inj hi hD hk hj he)

/-- A free spare serves no slot. -/
theorem State.assignmentLegal.serveAt_ne_spare {s : State} (h : s.assignmentLegal) (hi : s.initialized = true)
    {D k q : Nat} (hD : D < s.ndom) (hk : k < s.layout.served) (hq : s.pstateAt q = .spareFree) :
    s.serveAt D k ≠ q := by
  intro he
  have h1 := ((h hi).2.2 _ (h.serveAt_lt hi hD hk)).1 (by rw [h.slotOf_serveAt hi hD hk]; rfl)
  rw [he, hq] at h1
  rcases h1 with h1 | h1 <;> cases h1

/-! ### Reassigning a slot (44_integrity_rebuild.md R317) -/

theorem serveOf_set (serve : List (List Nat)) (D k q E j : Nat) (hD : D < serve.length)
    (hk : k < (serve.getD D []).length) :
    serveOf (serve.set D ((serve.getD D []).set k q)) E j = if E = D ∧ j = k then q else serveOf serve E j := by
  unfold serveOf
  by_cases hE : E = D
  · subst hE
    have h1 : (serve.set E ((serve.getD E []).set k q)).getD E [] = (serve.getD E []).set k q := by
      simp [List.getD, hD]
    rw [h1]
    by_cases hj : j = k
    · subst hj
      rw [if_pos ⟨rfl, rfl⟩]
      simp only [List.getD_eq_getElem?_getD] at hk ⊢
      rw [List.getElem?_set_self hk]; rfl
    · rw [if_neg (by tauto)]
      simp only [List.getD_eq_getElem?_getD]
      rw [List.getElem?_set_ne (by omega)]
  · rw [if_neg (by tauto)]
    have h1 : (serve.set D ((serve.getD D []).set k q)).getD E [] = serve.getD E [] := by
      simp only [List.getD_eq_getElem?_getD]
      rw [List.getElem?_set_ne (by omega)]
    rw [h1]

theorem pstateAt_set (l : List PState) (p r : Nat) (x : PState) (hp : p < l.length) :
    (l.set p x).getD r .retired = if r = p then x else l.getD r .retired := by
  by_cases h : r = p
  · subst h
    rw [if_pos rfl]
    simp [List.getD, hp]
  · rw [if_neg h]
    simp only [List.getD_eq_getElem?_getD]
    rw [List.getElem?_set_ne (by omega)]

/-- Promotion: the slot goes to the spare, the spare is PROMOTED, the target RETIRED, nothing else moves. -/
theorem commit_promote (s : State) (p D k q : Nat) (hD : D < s.serve.length)
    (hk : k < (s.serve.getD D []).length) (hq : q < s.pstate.length) (hp : p < s.pstate.length) :
    (∀ E j, (s.commitRebuild .promoteSpare p D k q).serveAt E j = if E = D ∧ j = k then q else s.serveAt E j)
      ∧ ∀ r, (s.commitRebuild .promoteSpare p D k q).pstateAt r =
          if r = p then .retired else if r = q then .promoted else s.pstateAt r := by
  refine ⟨fun E j => serveOf_set s.serve D k q E j hD hk, fun r => ?_⟩
  show ((s.pstate.set q .promoted).set p .retired).getD r .retired = _
  rw [pstateAt_set _ _ _ _ (by simpa using hp), pstateAt_set _ _ _ _ hq]
  rfl

/-- The spare a promotion takes is a free, online drive of the domain, and no free, online drive comes before it. -/
theorem freeSpare_some {s : State} {D q : Nat} (h : s.freeSpare D = some q) :
    D * s.dpd ≤ q ∧ q < D * s.dpd + s.dpd ∧ s.pstateAt q = .spareFree ∧ flagAt s.online q = true := by
  have h1 := List.mem_of_find?_eq_some h
  have h2 := List.find?_some h
  simp only [List.mem_range'_1] at h1
  simp only [Bool.and_eq_true, beq_iff_eq] at h2
  exact ⟨h1.1, h1.2, h2.1, h2.2⟩

end Sys2Proof.Machine
end

