-- ==== Sys2Proof/Tests/Slice0.lean ====
section
/-! SUPPORT. Tests: the spec's own vectors (95_test_vectors.md, named in each docstring), one step or one command on a
small state; and for each statement with hypotheses a state and operands that meet them. -/

set_option Elab.async false

namespace Sys2Proof.Tests

open Sys2Proof.Machine

/-! ### Small states -/

/-- Topology T_S (95_test_vectors.md 0), with its scheme. -/
def cfgSmall (scheme : Word) : TopoParams :=
  { total := 16, dpd := 8, spares := 1, ngroups := 2, chunks := 2, scheme := scheme, gsize := #v[2, 2, 0, 0, 0, 0, 0, 0] }

/-- Topology T_C (95_test_vectors.md 0). -/
def cfgCanonical : TopoParams :=
  { total := 484, dpd := 44, spares := 2, ngroups := 3, chunks := 1, scheme := 0
    gsize := #v[13, 13, 12, 0, 0, 0, 0, 0] }

/-- The machine after INIT of a configuration, with the listed drives offline and the operands in ARG0 and ARG1. -/
def built (cfg : TopoParams) (offline : List Nat) (arg0 arg1 : Word) : State :=
  let s := { State.reset with cfg := cfg, arg0 := arg0, arg1 := arg1 }.buildTopology
  { s with online := offline.foldl (fun v p => setFlag v p false) s.online }

/-- S1 of 95_test_vectors.md in byte 0 of each chunk (S1x for PLAIN_XOR): byte 0 of drives 0 to 6, the rest zero. -/
def s1 (scheme : Word) (offline : List Nat) (arg0 arg1 : Word) : State :=
  { built (cfgSmall scheme) offline arg0 arg1 with
    drives :=
      [(driveKey 0 0, 0x11), (driveKey 1 0, 0x22), (driveKey 2 0, 0x33), (driveKey 3 0, 0x44), (driveKey 4 0, 0x33),
        (driveKey 5 0, 0x77), (driveKey 6 0, if scheme = 0 then 0x83 else 0x44)] }

/-- S1 with the listed drives as the target set. -/
def s1Targets (offline targets : List Nat) : State :=
  { s1 0 offline 0 0 with targets := targets.foldl (fun v p => setFlag v p true) 0 }

/-- The state after an outcome, the reset state where there is none. -/
def after : Host.Outcome State Fault Refusal → State
  | .next t => t
  | .fault _ => State.reset
  | .refused _ => State.reset

/-- Whether an outcome is a next state. -/
def isNext : Host.Outcome State Fault Refusal → Bool
  | .next _ => true
  | .fault _ => false
  | .refused _ => false

theorem eq_next_after (o : Host.Outcome State Fault Refusal) (h : isNext o = true) : o = .next (after o) := by
  cases o <;> simp_all [isNext, after]

/-- ERR after a command. -/
def errOf (i : Instr) (s : State) : Nat := (after (exec i s)).err.code.toNat

/-- Byte 0 of chunk `c` of the drives 0 to 7. -/
def firstBytes (s : State) (c : Nat) : List Byte := (List.range 8).map fun p => s.driveByte p (c * Config.CHUNK)

/-- The command in flight of the busy states below. -/
def someFlight (w : Word) : Flight := State.reset.latchFor w

/-- The reset state with the next input, and with a command in flight or none. -/
def facing (flight : Option Flight) (inputs : List Input) : State :=
  { State.reset with flight := flight, inputs := inputs }

/-- Answers of which the first error is that of access `n`. -/
def erringAt (n : Nat) : List DriveResponse := List.replicate n .ok ++ [.err 9]

/-! ### WellFormed: an ill-formed term for the one check there is (30_encoding.md R125 c) -/

theorem test_illformed_writeChunk : (Instr.writeChunk 0 4).wellFormed = false := by decide
theorem test_illformed_recombine : (Instr.recombine 5).wellFormed = false := by decide
theorem test_illformed_readChunk : (Instr.readChunk 0 6).wellFormed = false := by decide
theorem test_illformed_decodeChunk : (Instr.decodeChunk 0 7).wellFormed = false := by decide
theorem test_wellformed_last_buffer : (Instr.writeChunk 0 3).wellFormed = true := by decide

/-! ### Decoding: the words of 95_test_vectors.md 2.1 -/

theorem test_decode_nop : decode 0x00000000 = .ok .nop := by decide
theorem test_decode_init : decode 0x00000001 = .ok .init := by decide
theorem test_decode_reset : decode 0x00000002 = .ok .reset := by decide
theorem test_decode_setOnlineDrive :
    decode 0x000F0010 = .ok (.setOnlineDrive 15 false) ∧ decode 0x000F0110 = .ok (.setOnlineDrive 15 true) := by decide
theorem test_decode_setOnlineDomain :
    decode 0x00000011 = .ok (.setOnlineDomain 0 false) ∧ decode 0x00010111 = .ok (.setOnlineDomain 1 true) := by decide
theorem test_decode_writeChunk :
    decode 0x00000020 = .ok (.writeChunk 0 0) ∧ decode 0x00030420 = .ok (.writeChunk 3 2) := by decide
theorem test_decode_encodeStripe : decode 0x00000021 = .ok (.encodeStripe 0) := by decide
theorem test_decode_recombine : decode 0x00000622 = .ok (.recombine 3) := by decide
theorem test_decode_readChunk : decode 0x00060230 = .ok (.readChunk 6 1) := by decide
theorem test_decode_peek : decode 0x00060031 = .ok (.peek 6) := by decide
theorem test_decode_decodeChunk : decode 0x00020232 = .ok (.decodeChunk 2 1) := by decide
theorem test_decode_classify : decode 0x00000040 = .ok .classify := by decide
theorem test_decode_rebuild :
    decode 0x00000041 = .ok (.rebuild .restoreInPlace) ∧ decode 0x00000141 = .ok (.rebuild .promoteSpare) := by decide
theorem test_decode_queryDrive : decode 0x000F0050 = .ok (.queryDrive 15) := by decide
theorem test_decode_queryGroup : decode 0x00080051 = .ok (.queryGroup 8) := by decide
theorem test_decode_querySlot : decode 0x00020052 = .ok (.querySlot 2) := by decide

/-- The ten illegal words of the table. -/
theorem test_decode_refuses :
    decode 0x00000003 = .error .reservedOpcode ∧ decode 0x000000FF = .error .reservedOpcode
      ∧ decode 0x00001000 = .error .reservedBits ∧ decode 0x00010001 = .error .unusedField
      ∧ decode 0x00000140 = .error .unusedField ∧ decode 0x00000820 = .error .bufferRange
      ∧ decode 0x00000221 = .error .unusedField ∧ decode 0x00000122 = .error .unusedField
      ∧ decode 0x00010022 = .error .unusedField ∧ decode 0x00010041 = .error .unusedField := by decide

/-- Every row of the opcode table decodes from its pattern. -/
theorem test_decodeTableWord_rows :
    opcodeRows.all (fun r => (decodeTableWord 32 r.pattern.toNat).isSome) = true := by decide

/-- Each row's pattern run as the first command after reset: INIT of a zero configuration is INVALID_CONFIG, NOP, RESET
and RECOMBINE succeed, the others are NOT_INITIALIZED (40_topology_control.md R151, 60_exceptions.md R342). -/
theorem test_rows_run_from_reset :
    opcodeRows.map (fun r => (after (step (State.reset.withFetchWord 32 r.pattern.toNat))).err.code.toNat)
      = [0, 9, 0, 7, 7, 7, 7, 0, 7, 7, 7, 7, 7, 7, 7, 7] := by decide +kernel

/-! ### Engine control, flags and queries (95_test_vectors.md 2.2) -/

/-- V-C2. -/
theorem test_nop_completes :
    (after (step (State.reset.withFetchWord 32 0))).statusWord = 0x00000002
      ∧ (after (step (State.reset.withFetchWord 32 0))).donePend = true := by decide +kernel

/-- V-C6. -/
theorem test_init_small :
    let t := after (exec .init { State.reset with cfg := cfgSmall 0 })
    t.statusWord = 0x00000006 ∧ t.derived =
        { ndom := 2, ndata := 4, totalData := 8, totalLp := 4, totalGp := 2, totalSpare := 2, datacap := 0x00010000 }
      ∧ t.online = 0xFFFF := by decide +kernel

/-- V-C9, V-C10, V-C11, V-C12, V-C13, V-C14. -/
theorem test_init_checks :
    [{ cfgSmall 0 with dpd := 9 }, { cfgSmall 0 with ngroups := 0 },
      { cfgSmall 0 with gsize := #v[2, 0, 0, 0, 0, 0, 0, 0], dpd := 6, total := 12 }, { cfgSmall 0 with chunks := 0 },
      cfgSmall 2, { cfgSmall 0 with spares := 0, dpd := 7, total := 14 }].map
        (fun c => errOf .init { State.reset with cfg := c }) = [9, 9, 9, 9, 9, 0] := by decide +kernel

/-- V-C8: RESET then INIT is the state of V-C6 again. -/
theorem test_reset_then_init :
    let t := after (exec .init { State.reset with cfg := cfgSmall 0 })
    after (exec .init (after (exec .reset t))) = t := by decide +kernel

/-- V-C16, V-C18. -/
theorem test_setOnlineDrive :
    (after (exec (.setOnlineDrive 15 false) (built cfgCanonical [] 0 0))).online.extractLsb' 0 32 = 0xFFFF7FFF
      ∧ errOf (.setOnlineDrive 16 false) (s1 0 [] 0 0) = 1 := by decide +kernel

/-- V-C17, V-C19. -/
theorem test_setOnlineDomain :
    (after (exec (.setOnlineDomain 0 false) (built cfgCanonical [] 0 0))).online.extractLsb' 0 64 = 0xFFFFF00000000000
      ∧ errOf (.setOnlineDomain 2 false) (s1 0 [] 0 0) = 11 := by decide +kernel

/-- QRES0 and QRES1 after a query. -/
def queried (i : Instr) (s : State) : Word × Word := ((after (exec i s)).qres0, (after (exec i s)).qres1)

/-- V-C21. -/
theorem test_queryDrive_canonical :
    queried (.queryDrive 15) (built cfgCanonical [] 0 0) = (0x010F0008, 0x00000001) := by decide +kernel

/-- V-C22, V-C23, V-C24, V-C25. -/
theorem test_queryDrive_small :
    queried (.queryDrive 4) (s1 0 [] 0 0) = (0x00040009, 0x00000000)
      ∧ queried (.queryDrive 6) (s1 0 [] 0 0) = (0xFF06000A, 0x0000FFFF)
      ∧ queried (.queryDrive 7) (s1 0 [] 0 0) = (0xFF07000B, 0x0000FFFF)
      ∧ queried (.queryDrive 13) (s1 0 [] 0 0) = (0x01050109, 0x00000003) := by decide +kernel

/-- V-C27, V-C28. -/
theorem test_queryGroup :
    queried (.queryGroup 8) (built cfgCanonical [] 0 0) = (0x0C1A0202, 0x00002928)
      ∧ queried (.queryGroup 3) (s1 0 [] 0 0) = (0x02020101, 0x00000605) := by decide +kernel

/-- V-C30, V-C32, V-C31. -/
theorem test_querySlot :
    queried (.querySlot 2) (built cfgCanonical [] 41 0) = (0x000A0081, 0x000000FF)
      ∧ queried (.querySlot 1) (s1 0 [] 2 0) = (0x0008000A, 0x00000001)
      ∧ errOf (.querySlot 0) (s1 0 [] 7 0) = 11 := by decide +kernel

/-! ### Parity arithmetic and solver (95_test_vectors.md 2.3), byte 0 of each chunk -/

/-- V-G6, V-G7, V-G8 and V-G9, the values that no obligation states. -/
theorem test_field_values :
    gfMul 2 0x22 = 0x44 ∧ gfMul 4 0x33 = 0xCC ∧ gfMul 8 0x44 = 0x1A ∧ gfMul 8 0xA5 = 0x41 ∧ gfPow 2 37 = 0x4A
      ∧ gfInv 0x0C = 0x3D := by decide +kernel

/-- Byte 0 of the content of slot `k` of domain 0 with the listed slots failed. -/
def contentByte (scheme : Word) (failed : List Nat) (k : Nat) : Byte :=
  laneAt ((s1 scheme [] 0 0).layout.content failed.contains ((s1 scheme [] 0 0).slotChunk 0 0) k) 0

/-- V-P1 (case L), V-P2 (case W2), V-P3 (case W1 and a lost local parity). -/
theorem test_content_weighted :
    contentByte 0 [1] 1 = 0x22 ∧ contentByte 0 [2, 3] 2 = 0x33 ∧ contentByte 0 [2, 3] 3 = 0x44
      ∧ contentByte 0 [0, 2, 5] 2 = 0x33 ∧ contentByte 0 [0, 2, 5] 5 = 0x77 := by decide +kernel

/-- V-P4 (case X1), and GP recomputed under PLAIN_XOR. -/
theorem test_content_plain : contentByte 1 [2, 5] 2 = 0x33 ∧ contentByte 1 [6] 6 = 0x44 := by decide +kernel

/-- The source sets of V-P2 and V-P3. -/
theorem test_sources :
    (s1 0 [] 0 0).layout.sources [2, 3].contains 2 = [0, 1, 5, 6]
      ∧ (s1 0 [] 0 0).layout.sources [0, 2, 5].contains 0 = [1, 4]
      ∧ (s1 0 [] 0 0).layout.sources [0, 2, 5].contains 2 = [1, 3, 4, 6]
      ∧ (s1 0 [] 0 0).layout.sources [0, 2, 5].contains 5 = [1, 3, 4, 6] := by decide +kernel

/-! ### Encoding (95_test_vectors.md 2.4), byte 0 of each chunk -/

/-- V-E2. -/
theorem test_writeChunk :
    firstBytes (after (exec (.writeChunk 1 0) { s1 0 [] 0 0 with bufs := #v[0x55, 0, 0, 0] })) 0
      = [0x11, 0x55, 0x33, 0x44, 0x44, 0x77, 0x6D, 0] := by decide +kernel

/-- V-E4, V-E6, V-E7, V-E8. -/
theorem test_writeChunk_checks :
    errOf (.writeChunk 4 0) (s1 0 [] 0 0) = 10 ∧ errOf (.writeChunk 0 0) (s1 0 [] 2 0) = 3
      ∧ errOf (.writeChunk 16 0) (s1 0 [] 0 0) = 1 ∧ errOf (.writeChunk 0 0) (s1 0 [3] 0 0) = 4 := by decide +kernel

/-- V-E19: the write to LP(0) errs. -/
theorem test_writeChunk_write_error :
    let s := { s1 0 [] 0 0 with bufs := #v[0x55, 0, 0, 0], responses := [.ok, .ok, .ok, .ok, .err 9] }
    errOf (.writeChunk 1 0) s = 12
      ∧ firstBytes (after (exec (.writeChunk 1 0) s)) 0 = [0x11, 0x55, 0x33, 0x44, 0x09, 0x77, 0x83, 0] := by
  decide +kernel

/-- V-E11: drive 4 changed behind the VPE to 0. -/
theorem test_encodeStripe :
    let s := s1 0 [] 0 0
    firstBytes (after (exec (.encodeStripe 0) { s with drives := s.drives.filter fun c => c.1 != driveKey 4 0 })) 0
      = [0x11, 0x22, 0x33, 0x44, 0x33, 0x77, 0x83, 0] := by decide +kernel

/-- V-E12, V-E13, V-E14, V-E15. -/
theorem test_encodeStripe_checks :
    errOf (.encodeStripe 2) (s1 0 [] 0 0) = 11 ∧ errOf (.encodeStripe 0) (s1 0 [] 2 0) = 11
      ∧ errOf (.encodeStripe 0) (s1 0 [7] 0 0) = 0 ∧ errOf (.encodeStripe 0) (s1 0 [5] 0 0) = 4 := by decide +kernel

/-- V-E16, V-E18. -/
theorem test_recombine :
    (after (exec (.recombine 3) { State.reset with bufs := #v[0x0F, 0xF0, 0x3C, 0], arg1 := 7 })).bufs
        = #v[0x0F, 0xF0, 0x3C, 0xC3]
      ∧ errOf (.recombine 1) { State.reset with arg1 := 0x10 } = 11 := by decide +kernel

/-- V-E17: a destination that is a source. -/
theorem test_recombine_in_place :
    (after (exec (.recombine 0) { State.reset with bufs := #v[0x0F, 0xF0, 0x3C, 0], arg1 := 3 })).bufs
        = #v[0xFF, 0xF0, 0x3C, 0] := by decide +kernel

/-! ### Access and decoding (95_test_vectors.md 2.5), byte 0 of each chunk -/

/-- V-A1. -/
theorem test_readChunk : (after (exec (.readChunk 6 1) (s1 0 [] 0 0))).bufs = #v[0, 0x83, 0, 0] := by decide +kernel

/-- V-A3, V-A4. -/
theorem test_readChunk_checks :
    errOf (.readChunk 6 1) (s1 0 [6] 0 0) = 4 ∧ errOf (.readChunk 6 1) (s1 0 [] 2 0) = 11 := by decide +kernel

/-- V-A6. -/
theorem test_peek : (after (exec (.peek 6) (s1 0 [] 0 1))).peekData = 0x00000083 := by decide +kernel

/-- V-A8, V-A9, V-A10. -/
theorem test_peek_checks :
    errOf (.peek 0) (s1 0 [] 8190 3) = 11 ∧ errOf (.peek 0) (s1 0 [] 0 0) = 11 ∧ errOf (.peek 0) (s1 0 [] 0 5) = 11
      ∧ errOf (.peek 0) (s1 0 [0] 0 4) = 4 := by decide +kernel

/-- The row "2, 3" of the decoding table (WEIGHTED), and V-A12. -/
theorem test_decodeChunk :
    (after (exec (.decodeChunk 2 1) (s1 0 [2, 3] 0 0))).bufs = #v[0, 0x33, 0, 0]
      ∧ errOf (.decodeChunk 7 0) (s1 0 [] 0 0) = 10 := by decide +kernel

/-- The rows "2, 3" (PLAIN_XOR) and "0, 1, 4" (WEIGHTED). -/
theorem test_decodeChunk_loss :
    errOf (.decodeChunk 2 1) (s1 1 [2, 3] 0 0) = 5 ∧ errOf (.decodeChunk 4 1) (s1 0 [0, 1, 4] 0 0) = 5 := by
  decide +kernel

/-! ### Classification and rebuild (95_test_vectors.md 2.3, 2.6) -/

/-- CLASS_GRP0, CLASS_DOM0 and CLASS_ROLLUP after CLASSIFY. -/
def classified (s : State) : Word × Word × BitVec 2 :=
  let t := after (exec .classify s)
  (t.classGrp.extractLsb' 0 32, t.classDom.extractLsb' 0 32, t.classRollup)

/-- The rows "2, 3", "6" and "0, 1, 6" of the table in 2.5. -/
theorem test_classify_small :
    classified (s1 0 [2, 3] 0 0) = (0xFFFFFF04, 0xFFFFFFF0, 1) ∧ classified (s1 1 [2, 3] 0 0) = (0xFFFFFF08, 0xFFFFFFF0, 2)
      ∧ classified (s1 0 [6] 0 0) = (0xFFFFFF00, 0xFFFFFFF1, 1)
      ∧ classified (s1 0 [0, 1, 6] 0 0) = (0xFFFFFF02, 0xFFFFFFF2, 2) := by decide +kernel

/-- The row "15, 27, 31" on T_C (E2). -/
theorem test_classify_canonical :
    classified (built cfgCanonical [15, 27, 31] 0 0) = (0x00000014, 0xFFC00000, 1) := by decide +kernel

/-- The first five words of report entry `e`. -/
def entry (s : State) (e : Nat) : List Nat := (List.range 5).map fun j => (s.reportWordAt e j).toNat

/-- V-R1: drive 1 restored in place. -/
theorem test_rebuild_restore :
    let t := after (exec (.rebuild .restoreInPlace) (s1Targets [1] [1]))
    t.err = .none ∧ t.reportCount = 1 ∧ entry t 0 = [0x00010001, 2, 0xFFFFFFFF, 0x0001, 0x11]
      ∧ t.online = 0xFFFF ∧ t.driveByte 1 0 = 0x22 := by decide +kernel

/-- Program 3: two targets, one spare. -/
theorem test_rebuild_promote :
    let t := after (exec (.rebuild .promoteSpare) (s1Targets [2, 3] [2, 3]))
    t.err = .partialRebuild ∧ entry t 0 = [0x00020002, 2, 0xFFFFFFFF, 0x0007, 0x63]
      ∧ entry t 1 = [0x00060003, 0, 0xFFFFFFFF, 0xFFFF, 0] ∧ queried (.queryDrive 7) t = (0x01020018, 0x00000001)
      ∧ queried (.queryDrive 2) t = (0xFF020004, 0x0000FFFF) ∧ t.driveByte 7 0 = 0x33 := by decide +kernel

/-- V-R11: LP(1) before GP, one spare. -/
theorem test_rebuild_order :
    let t := after (exec (.rebuild .promoteSpare) (s1Targets [5, 6] [6, 5]))
    t.err = .partialRebuild ∧ t.reportCount = 2 ∧ entry t 0 = [0x00020005, 2, 0xFFFFFFFF, 0x0007, 0x0C]
      ∧ entry t 1 = [0x00060006, 0, 0xFFFFFFFF, 0xFFFF, 0] ∧ t.driveByte 7 0 = 0x77 ∧ t.serveAt 0 5 = 7 := by
  decide +kernel

/-- V-R15 (a read of chunk 1) and V-R16 (the write of chunk 1). -/
theorem test_rebuild_partial :
    let r := after (exec (.rebuild .restoreInPlace) { s1Targets [1] [1] with responses := erringAt 3 })
    let w := after (exec (.rebuild .restoreInPlace) { s1Targets [1] [1] with responses := erringAt 5 })
    r.err = .partialRebuild ∧ entry r 0 = [0x00040001, 1, 1, 0x0001, 0x11] ∧ r.online = 0xFFFD ∧ r.driveByte 1 0 = 0x22
      ∧ r.driveChunk 1 1 = 0
      ∧ w.err = .partialRebuild ∧ entry w 0 = [0x00040001, 1, 1, 0x0001, 0x11] ∧ w.online = 0xFFFD
      ∧ w.driveByte 1 0 = 0x22 ∧ w.driveChunk 1 1 = 9 := by decide +kernel

/-! ### Hypotheses that can be met: encoding and steps -/

theorem test_witness_DecodeOfEncode : (Instr.writeChunk 0xFFFF 3).wellFormed = true := by decide

theorem test_witness_EncodeOfDecode :
    decode 0xFFFF0620 = .ok (.writeChunk 0xFFFF 3) ∧ ∃ r ∈ opcodeRows, 0xFFFF0620 &&& r.mask = r.pattern := by decide

theorem test_witness_StepRunsDecodedCommand :
    decode (someFlight 0x00000622).word = .ok (.recombine 3)
      ∧ ∀ is ∈ [[], [Input.complete], [Input.completeWithIrqWrite 1]],
          (facing (some (someFlight 0x00000622)) is).flight = some (someFlight 0x00000622)
            ∧ (facing (some (someFlight 0x00000622)) is).inputs = is := by decide +kernel

theorem test_witness_IllegalWordAndNopOnlyComplete :
    decode (someFlight 0x00000003).word = .error .reservedOpcode
      ∧ ∀ is ∈ [[], [Input.complete]],
          (facing (some (someFlight 0x00000003)) is).flight = some (someFlight 0x00000003)
            ∧ (facing (some (someFlight 0x00000003)) is).inputs = is := by decide +kernel

/-! ### Hypotheses that can be met: host accesses -/

/-- A host write of `v` and a host read, as the only input. -/
def write (off : BitVec 16) (v : Word) : List Input := [.hostWrite off .word v]
def read (off : BitVec 16) : List Input := [.hostRead off .word 5]

/-- The states that face a host access, idle and busy. -/
theorem test_witness_facing (is : List Input) :
    (facing none is).flight = none ∧ (facing none is).inputs = is
      ∧ (facing (some (someFlight 0)) is).flight = some (someFlight 0)
      ∧ (facing (some (someFlight 0)) is).inputs = is := ⟨rfl, rfl, rfl, rfl⟩

theorem test_witness_CmdWriteAcceptedOrDropped :
    (facing none (write 0x000C 1)).inputs = .hostWrite 0x000C .word 1 :: [] ∧ (facing none (write 0x000C 1)).flight = none
      ∧ (facing (some (someFlight 0)) (write 0x000C 1)).flight = some (someFlight 0)
      ∧ (facing none (read 0x000C)).inputs = .hostRead 0x000C .word 5 :: [] := ⟨rfl, rfl, rfl, rfl⟩

/-- Held offsets at the ends of their ranges, none of them a register whose write is taken while BUSY. -/
theorem test_witness_HeldWritesDroppedWhileBusy_held :
    ∀ off ∈ ([0x000C, 0x0014, 0x0040, 0x0054, 0x0060, 0x007C, 0x0140, 0x017C, 0x1000, 0x4FFC] : List (BitVec 16)),
      off.toNat % 4 = 0 ∧ heldOffset off.toNat ∧ off ≠ 0x0018 ∧ off ≠ 0x001C ∧ off ≠ 0x0020 := by simp [heldOffset]

/-- The three offsets whose writes are taken, and offsets beside the held ranges. -/
theorem test_witness_HeldWritesDroppedWhileBusy_others :
    (∀ off ∈ ([0x0018, 0x001C, 0x0020] : List (BitVec 16)), off.toNat % 4 = 0 ∧ ¬heldOffset off.toNat)
      ∧ ∀ off ∈ ([0x0000, 0x0008, 0x0024, 0x0058, 0x0080, 0x013C, 0x0180, 0x5000, 0xFFFC] : List (BitVec 16)),
          off.toNat % 4 = 0 ∧ ¬heldOffset off.toNat ∧ off ≠ 0x0018 ∧ off ≠ 0x001C ∧ off ≠ 0x0020 := by simp

/-- Result offsets at the ends of their ranges. -/
theorem test_witness_BusyReadsDrawnOrExact_result :
    ∀ off ∈ ([0x0024, 0x0030, 0x0080, 0x00B4, 0x00C0, 0x00DC, 0x0100, 0x013C, 0x0200, 0x0218, 0x1000, 0x4FFC, 0x8000,
        0xBFFC] : List (BitVec 16)), off.toNat % 4 = 0 ∧ resultOffset off.toNat := by simp [resultOffset]

/-- The offsets that read exactly, the arrays at both ends: none of them is a result offset. -/
theorem test_witness_BusyReadsDrawnOrExact_exact :
    (∀ off ∈ ([0x0000, 0x0004, 0x0008, 0x000C, 0x0010, 0x0014, 0x0018, 0x001C, 0x0040, 0x0044, 0x0048, 0x004C, 0x0050,
        0x0054, 0x0060, 0x007C, 0x0140, 0x017C] : List (BitVec 16)), off.toNat % 4 = 0 ∧ ¬resultOffset off.toNat)
      ∧ (0x0060 : BitVec 16).toNat = 0x0060 + 4 * (0 : Fin 8).val ∧ (0x007C : BitVec 16).toNat = 0x0060 + 4 * (7 : Fin 8).val
      ∧ (0x0140 : BitVec 16).toNat = 0x0140 + 4 * 0 ∧ (0x017C : BitVec 16).toNat = 0x0140 + 4 * 15 := by simp

/-- The arrays of IdleReadsReturnResults at both ends. -/
theorem test_witness_IdleReadsReturnResults :
    (facing none (read 0x00DC)).inputs = .hostRead 0x00DC .word 5 :: []
      ∧ (0x00C0 : BitVec 16).toNat = 0x00C0 + 4 * (0 : Fin 8).val ∧ (0x00DC : BitVec 16).toNat = 0x00C0 + 4 * (7 : Fin 8).val
      ∧ (0x0100 : BitVec 16).toNat = 0x0100 + 4 * 0 ∧ (0x013C : BitVec 16).toNat = 0x0100 + 4 * 15
      ∧ (0x0200 : BitVec 16).toNat = 0x0200 + 4 * 0 ∧ (0x020C : BitVec 16).toNat = 0x0200 + 4 * 3
      ∧ (0x0210 : BitVec 16).toNat = 0x0210 + 4 * 0 ∧ (0x0214 : BitVec 16).toNat = 0x0210 + 4 * 1
      ∧ (0x8000 : BitVec 16).toNat = 0x8000 + 4 * 0 ∧ (0xBFFC : BitVec 16).toNat = 0x8000 + 4 * 4095 := by
  refine ⟨rfl, ?_⟩; decide

/-- With one valid entry, its first and last words, the first word past it and the last word of the RAM. -/
theorem test_witness_IdleReadsReturnResults_report :
    let s := fun off => { facing none (read off) with reportCount := 1 }
    (s 0x801C).flight = none ∧ (s 0x801C).inputs = .hostRead 0x801C .word 5 :: []
      ∧ (0x801C : BitVec 16).toNat = 0x8000 + 4 * 7 ∧ 0 / 8 < (s 0x8000).reportCount.toNat
      ∧ 7 / 8 < (s 0x801C).reportCount.toNat ∧ (0x8020 : BitVec 16).toNat = 0x8000 + 4 * 8
      ∧ (s 0x8020).reportCount.toNat ≤ 8 / 8 ∧ (s 0xBFFC).reportCount.toNat ≤ 4095 / 8 := by
  refine ⟨rfl, rfl, ?_⟩; decide +kernel

/-- Offsets at the ends of the unmapped ranges. -/
theorem test_witness_UnmappedAndReadsInert :
    ∀ off ∈ ([0x0034, 0x003C, 0x0058, 0x005C, 0x00B8, 0x00BC, 0x00E0, 0x00FC, 0x0180, 0x01FC, 0x021C, 0x0FFC, 0x5000,
        0x7FFC, 0xC000, 0xFFFC] : List (BitVec 16)), off.toNat % 4 = 0 ∧ ¬mappedOffset off.toNat := by simp

theorem test_witness_BusCarriesAlignedWordsOnly :
    (facing none [.hostRead 0x0010 .byte 5]).inputs = .hostRead 0x0010 .byte 5 :: [] ∧ AccessSize.byte ≠ .word
      ∧ (facing none [.hostWrite 0xFFFF .word 5]).inputs = .hostWrite 0xFFFF .word 5 :: []
      ∧ (0xFFFF : BitVec 16).toNat % 4 ≠ 0 := ⟨rfl, by decide, rfl, by decide⟩

theorem test_witness_IdleWritesStoreOperands :
    (facing none (write 0x007C 9)).flight = none ∧ (facing none (write 0x007C 9)).inputs = .hostWrite 0x007C .word 9 :: []
      ∧ (0x007C : BitVec 16).toNat = 0x0060 + 4 * (7 : Fin 8).val ∧ (0x017C : BitVec 16).toNat = 0x0140 + 4 * 15 :=
  ⟨rfl, rfl, by decide, by decide⟩

theorem test_witness_BufferWordsLittleEndian :
    (facing none (write 0x4FFC 9)).flight = none ∧ (facing none (write 0x4FFC 9)).inputs = .hostWrite 0x4FFC .word 9 :: []
      ∧ (facing none (read 0x4FFC)).inputs = .hostRead 0x4FFC .word 5 :: []
      ∧ (0x4FFC : BitVec 16).toNat = 0x1000 + 0x1000 * 3 + 4 * 1023 ∧ (0x1000 : BitVec 16).toNat = 0x1000 + 0x1000 * 0 + 4 * 0 :=
  ⟨rfl, rfl, rfl, by decide, by decide⟩

/-! ### Hypotheses that can be met: completion, errors, interrupt -/

theorem test_witness_CompletionSetsDoneAndPending :
    ∀ is ∈ [[Input.complete], [Input.completeWithIrqWrite 1]],
      step (facing (some (someFlight 3)) is) = .next (after (step (facing (some (someFlight 3)) is))) := by
  intro is h
  apply eq_next_after
  revert is
  decide +kernel

/-- An error of a command that writes no drive, errors of WRITE_CHUNK and ENCODE_STRIPE with and without accesses, and
REBUILDs that fail a check, restore, and promote. -/
theorem test_witness_ErrorsHaveNoOtherEffect :
    ∀ x ∈ [(Instr.peek 0, State.reset, ErrCode.notInitialized), (.writeChunk 4 0, s1 0 [] 0 0, .invalidRole),
        (.writeChunk 1 0, { s1 0 [] 0 0 with responses := erringAt 3 }, .driveIo),
        (.encodeStripe 2, s1 0 [] 0 0, .invalidRange),
        (.encodeStripe 0, { s1 0 [] 0 0 with responses := erringAt 4 }, .driveIo),
        (.rebuild .restoreInPlace, State.reset, .notInitialized),
        (.rebuild .restoreInPlace, s1Targets [] [16], .invalidDrive),
        (.rebuild .restoreInPlace, s1Targets [1] [1], .none), (.rebuild .promoteSpare, s1Targets [1] [1], .none)],
      isNext (exec x.1 x.2.1) = true ∧ (after (exec x.1 x.2.1)).err = x.2.2 := by decide +kernel

/-- A REBUILD that changes a flag, the report and a drive. -/
theorem test_witness_RegistersWrittenOnlyByTheirCommands :
    let s := s1Targets [1] [1]
    let t := after (exec (.rebuild .restoreInPlace) s)
    exec (.rebuild .restoreInPlace) s = .next t ∧ flagAt t.online 1 ≠ flagAt s.online 1 ∧ t.report ≠ s.report :=
  ⟨eq_next_after _ (by decide +kernel), by decide +kernel, by decide +kernel⟩

theorem test_witness_InterruptLineFollowsEnableAndPending :
    let s := { facing none (write 0x001C 1) with donePend := true }
    let r := { facing none [.hardwareReset 0 0 #v[0, 0, 0, 0] 0] with donePend := true }
    let e := { facing none (write 0x0018 1) with donePend := true }
    step s = .next (after (step s)) ∧ s.donePend = true ∧ (after (step s)).donePend = false
      ∧ step r = .next (after (step r)) ∧ (after (step r)).donePend = false
      ∧ step e = .next (after (step e)) ∧ (after (step e)).irq = true :=
  ⟨eq_next_after _ (by decide +kernel), rfl, by decide +kernel, eq_next_after _ (by decide +kernel), by decide +kernel,
    eq_next_after _ (by decide +kernel), by decide +kernel⟩

theorem test_witness_CommandsNeedInit :
    State.reset.initialized = false ∧ Instr.classify ≠ .nop ∧ Instr.classify ≠ .init ∧ Instr.classify ≠ .reset
      ∧ ∀ b, Instr.classify ≠ .recombine b := by decide

/-- Each clause at a boundary: the first drive past TOTAL, the first chunk past CHUNKS, a length of 0 and of 5, a range
one byte too long, the spare, the first parity slot, an offline drive. -/
theorem test_witness_DriveCommandChecksInOrder :
    let s := s1 0 [6] 1 4
    s.initialized = true ∧ s.total ≤ (16 : BitVec 16).toNat ∧ (15 : BitVec 16).toNat < s.total
      ∧ s.chunks ≤ (s1 0 [] 2 0).opArg0 ∧ (s1 0 [] 2 0).opArg1 = 0 ∧ 4 < (s1 0 [] 0 5).opArg1
      ∧ (s1 0 [] 8189 4).chunks * Config.CHUNK < (s1 0 [] 8189 4).opArg0 + (s1 0 [] 8189 4).opArg1
      ∧ s.opArg0 < s.chunks ∧ s.slotOf 7 = none ∧ s.slotOf 4 = some 4 ∧ s.ndata ≤ 4 ∧ flagAt s.online 6 = false
      ∧ 1 ≤ s.opArg1 ∧ s.opArg1 ≤ 4 ∧ s.opArg0 + s.opArg1 ≤ s.chunks * Config.CHUNK := by decide +kernel

/-- A data drive, LP(g) and GP offline in turn; for ENCODE_STRIPE the first domain past NDOM, the first chunk past CHUNKS,
and the first and the last served slot offline. -/
theorem test_witness_DriveCommandChecksInOrder_stripe :
    (∀ j ∈ [0, 3, 4, 6], (s1 0 [j] 1 0).initialized = true ∧ (1 : BitVec 16).toNat < (s1 0 [j] 1 0).total
        ∧ (s1 0 [j] 1 0).opArg0 < (s1 0 [j] 1 0).chunks ∧ (s1 0 [j] 1 0).slotOf (1 : BitVec 16).toNat = some 1
        ∧ 1 < (s1 0 [j] 1 0).ndata
        ∧ (j < (s1 0 [j] 1 0).ndata ∨ j = (s1 0 [j] 1 0).ndata + (s1 0 [j] 1 0).layout.groupOf 1
            ∨ j = (s1 0 [j] 1 0).ndata + (s1 0 [j] 1 0).ng)
        ∧ flagAt (s1 0 [j] 1 0).online ((s1 0 [j] 1 0).serveAt ((1 : BitVec 16).toNat / (s1 0 [j] 1 0).dpd) j) = false)
      ∧ (s1 0 [] 0 0).ndom ≤ (2 : BitVec 16).toNat ∧ (s1 0 [] 2 0).chunks ≤ (s1 0 [] 2 0).opArg0
      ∧ ∀ k ∈ [0, 6], (0 : BitVec 16).toNat < (s1 0 [k] 1 0).ndom ∧ k ≤ (s1 0 [k] 1 0).ndata + (s1 0 [k] 1 0).ng
          ∧ flagAt (s1 0 [k] 1 0).online ((s1 0 [k] 1 0).serveAt (0 : BitVec 16).toNat k) = false := by decide +kernel

/-! ### Hypotheses that can be met: control, flags, queries -/

theorem test_witness_InitBuildsTopology :
    (s1 0 [] 0 0).initialized = true
      ∧ State.reset.initialized = false ∧ State.reset.cfg.valid = false
      ∧ { State.reset with cfg := cfgSmall 1 }.initialized = false ∧ { State.reset with cfg := cfgSmall 1 }.cfg.valid = true :=
  by decide +kernel

theorem test_witness_ConfigCheckConditions :
    (cfgSmall 0).valid = true ∧ cfgCanonical.valid = true ∧ (cfgSmall 2).valid = false := by decide +kernel

theorem test_witness_ResetDropsTopology : (s1 0 [] 0 0).initialized = true ∧ State.reset.initialized = false := by
  decide +kernel

theorem test_witness_SetOnlineSetsFlags :
    (s1 0 [] 0 0).initialized = true ∧ (15 : BitVec 16).toNat < (s1 0 [] 0 0).total ∧ (15 : BitVec 16).toNat < 512
      ∧ (s1 0 [] 0 0).total ≤ (16 : BitVec 16).toNat ∧ (1 : BitVec 16).toNat < (s1 0 [] 0 0).ndom
      ∧ (s1 0 [] 0 0).ndom ≤ (2 : BitVec 16).toNat := by decide +kernel

/-- Flags of a register below 2^16 are clear from drive 16 on. -/
theorem flagAt_of_small (v : BitVec 512) (h : v.toNat < 2 ^ 16) (p : Nat) (hp : 16 ≤ p) : flagAt v p = false := by
  rw [flagAt, BitVec.getLsbD, Nat.testBit_lt_two_pow (lt_of_lt_of_le h (Nat.pow_le_pow_right (by omega) hp))]

theorem inv_small : (s1 0 [] 0 0).Inv :=
  { memories := by decide +kernel
    latch := fun _ h => by simp [s1, built, State.buildTopology, State.clearClasses, State.reset] at h
    cleared := fun h => Bool.noConfusion h
    topology := fun _ => ⟨by decide +kernel, by decide +kernel, by decide +kernel, fun p _ hp =>
      flagAt_of_small _ (by decide +kernel) p hp⟩
    shape := by decide +kernel
    assignment := by decide +kernel }

/-- Other flags, operands, buffers and port answers leave the invariant of an idle state. -/
theorem inv_with (s : State) (h : s.Inv) (hf : s.flight = none) (online targets : BitVec 512) (arg0 arg1 : Word)
    (bufs : Vector Chunk 4) (responses : List DriveResponse) (hi : s.initialized = true)
    (ho : ∀ p, s.total ≤ p → flagAt online p = false) :
    { s with
      online := online, targets := targets, arg0 := arg0, arg1 := arg1, bufs := bufs, responses := responses }.Inv :=
  { memories := h.memories
    latch := fun f hm => by rw [Option.mem_def] at hm; exact absurd (hf.symm.trans hm) (by simp)
    cleared := fun hc => by exact absurd (hi.symm.trans hc) (by simp)
    topology := fun hc => ⟨(h.topology hc).1, (h.topology hc).2.1, (h.topology hc).2.2.1, fun p _ hp => ho p hp⟩
    shape := h.shape
    assignment := h.assignment }

/-- The invariant of S1 with drives offline, operands, targets, buffers and port answers. -/
theorem inv_s1 (offline : List Nat) (arg0 arg1 : Word) (targets : BitVec 512) (bufs : Vector Chunk 4)
    (responses : List DriveResponse) (h : (s1 0 offline 0 0).online.toNat < 2 ^ 16) :
    { s1 0 offline arg0 arg1 with targets := targets, bufs := bufs, responses := responses }.Inv :=
  inv_with _ inv_small rfl (s1 0 offline 0 0).online targets arg0 arg1 bufs responses rfl fun p hp =>
    flagAt_of_small _ h p hp

theorem inv_s1_plain (offline : List Nat) (arg0 arg1 : Word) (h : (s1 0 offline 0 0).online.toNat < 2 ^ 16) :
    (s1 0 offline arg0 arg1).Inv := inv_s1 offline arg0 arg1 0 #v[0, 0, 0, 0] [] h

theorem inv_targets (offline targets : List Nat) (h : (s1 0 offline 0 0).online.toNat < 2 ^ 16) :
    (s1Targets offline targets).Inv := inv_s1 offline 0 0 _ #v[0, 0, 0, 0] [] h

/-- The last drive and the first past it, and drives of every role: data (the last data slot), LP, GP, none. -/
theorem test_witness_QueryDriveRecord :
    (s1 0 [] 0 0).Inv ∧ (s1 0 [] 0 0).initialized = true ∧ (15 : BitVec 16).toNat < (s1 0 [] 0 0).total
      ∧ [0, 3, 4, 5, 6, 7, 15].map (s1 0 [] 0 0).slotOf = [some 0, some 3, some 4, some 5, some 6, none, none]
      ∧ (s1 0 [] 0 0).ndata = 4 ∧ (s1 0 [] 0 0).ng = 2
      ∧ (s1 0 [] 0 0).total ≤ (16 : BitVec 16).toNat := ⟨inv_small, by decide +kernel⟩

theorem test_witness_QueryGroupRecord :
    (s1 0 [] 0 0).Inv ∧ (s1 0 [] 0 0).initialized = true
      ∧ (3 : BitVec 16).toNat < (s1 0 [] 0 0).ndom * (s1 0 [] 0 0).ng
      ∧ (s1 0 [] 0 0).ndom * (s1 0 [] 0 0).ng ≤ (4 : BitVec 16).toNat := ⟨inv_small, by decide +kernel⟩

/-- Slots at the ends of each range, the last domain and the first past it. -/
theorem test_witness_QuerySlotRecord (k : Word) :
    (s1 0 [] k 0).Inv ∧ (s1 0 [] k 0).initialized = true ∧ (1 : BitVec 16).toNat < (s1 0 [] k 0).ndom
      ∧ (s1 0 [] k 0).ndom ≤ (2 : BitVec 16).toNat ∧ (s1 0 [] k 0).opArg0 = k.toNat
      ∧ (s1 0 [] k 0).ndata = 4 ∧ (s1 0 [] k 0).ng = 2 :=
  ⟨inv_s1_plain [] k 0 (by decide +kernel), rfl, show 1 < (s1 0 [] 0 0).ndom by decide +kernel,
    show (s1 0 [] 0 0).ndom ≤ 2 by decide +kernel, rfl, show (s1 0 [] 0 0).ndata = 4 by decide +kernel,
    show (s1 0 [] 0 0).ng = 2 by decide +kernel⟩

theorem test_witness_ClassValidSetAndCleared :
    exec .classify (s1 0 [] 0 0) = .next (after (exec .classify (s1 0 [] 0 0)))
      ∧ exec (.peek 0) (s1 0 [] 0 0) = .next (after (exec (.peek 0) (s1 0 [] 0 0)))
      ∧ step (facing none [.hardwareReset 0 0 #v[0, 0, 0, 0] 0])
          = .next (after (step (facing none [.hardwareReset 0 0 #v[0, 0, 0, 0] 0]))) :=
  ⟨eq_next_after _ (by decide +kernel), eq_next_after _ (by decide +kernel), eq_next_after _ (by decide +kernel)⟩

/-! ### Hypotheses that can be met: encoding commands -/

/-- The last data slot of domain 0, the last chunk and the last buffer, the other group's LP and the spare offline. -/
theorem test_witness_WriteChunkWritesStripe :
    let s := s1 0 [4, 7] 1 0
    s.Inv ∧ s.initialized = true ∧ bufferInRange 3 = true ∧ (3 : BitVec 16).toNat < s.total ∧ s.opArg0 < s.chunks
      ∧ s.slotOf (3 : BitVec 16).toNat = some 3 ∧ 3 < s.ndata
      ∧ (∀ j, j < s.ndata → flagAt s.online (s.serveAt ((3 : BitVec 16).toNat / s.dpd) j) = true)
      ∧ flagAt s.online (s.serveAt ((3 : BitVec 16).toNat / s.dpd) (s.ndata + s.layout.groupOf 3)) = true
      ∧ flagAt s.online (s.serveAt ((3 : BitVec 16).toNat / s.dpd) (s.ndata + s.ng)) = true ∧ s.portOk :=
  ⟨inv_s1_plain _ _ _ (by decide +kernel), by decide +kernel⟩

/-- The last read errs. -/
theorem test_witness_WriteChunkReadErrorWritesNothing :
    let s := { s1 0 [] 1 0 with responses := [.ok, .ok, .err 7] }
    s.Inv ∧ s.initialized = true ∧ (3 : BitVec 16).toNat < s.total ∧ s.opArg0 < s.chunks
      ∧ s.slotOf (3 : BitVec 16).toNat = some 3 ∧ 3 < s.ndata
      ∧ (s.layout.writeNeeds (s.layout.groupOf 3)).all (s.slotOnline ((3 : BitVec 16).toNat / s.dpd)) = true
      ∧ 2 + 1 < s.ndata ∧ (∀ r ∈ s.responses.take 2, r = .ok) ∧ s.responses[2]? = some (.err 7) :=
  ⟨inv_s1 _ _ _ 0 #v[0, 0, 0, 0] _ (by decide +kernel), by decide +kernel⟩

/-- The first and the last read of ENCODE_STRIPE in the last domain errs. -/
theorem test_witness_WriteChunkReadErrorWritesNothing_encode :
    (∀ n, { s1 0 [] 1 0 with responses := erringAt n }.Inv)
      ∧ ∀ n ∈ [0, 3],
          let s := { s1 0 [] 1 0 with responses := erringAt n }
          s.initialized = true ∧ (1 : BitVec 16).toNat < s.ndom ∧ s.opArg0 < s.chunks
            ∧ (∀ k, k < s.ndata + s.ng + 1 → flagAt s.online (s.serveAt (1 : BitVec 16).toNat k) = true)
            ∧ n < s.ndata ∧ (∀ r ∈ s.responses.take n, r = .ok) ∧ s.responses[n]? = some (.err 9) :=
  ⟨fun _ => inv_s1 _ _ _ 0 #v[0, 0, 0, 0] _ (by decide +kernel), by decide +kernel⟩

/-- The first and the last write of each command errs. -/
theorem test_witness_ErrorsHaveNoOtherEffect_writes :
    (∀ n, { s1 0 [] 1 0 with responses := erringAt n }.Inv)
      ∧ (∀ j ∈ [0, 2],
          let s := { s1 0 [] 1 0 with responses := erringAt (3 + j) }
          s.initialized = true ∧ (3 : BitVec 16).toNat < s.total ∧ s.opArg0 < s.chunks
            ∧ s.slotOf (3 : BitVec 16).toNat = some 3 ∧ 3 < s.ndata
            ∧ (s.layout.writeNeeds (s.layout.groupOf 3)).all (s.slotOnline ((3 : BitVec 16).toNat / s.dpd)) = true
            ∧ j < 3 ∧ (∀ r ∈ s.responses.take (s.ndata - 1 + j), r = .ok)
            ∧ s.responses[s.ndata - 1 + j]? = some (.err 9))
      ∧ ∀ j ∈ [0, 2],
          let s := { s1 0 [] 1 0 with responses := erringAt (4 + j) }
          s.initialized = true ∧ (1 : BitVec 16).toNat < s.ndom ∧ s.opArg0 < s.chunks
            ∧ (∀ k, k < s.ndata + s.ng + 1 → flagAt s.online (s.serveAt (1 : BitVec 16).toNat k) = true)
            ∧ j ≤ s.ng ∧ (∀ r ∈ s.responses.take (s.ndata + j), r = .ok)
            ∧ s.responses[s.ndata + j]? = some (.err 9) :=
  ⟨fun _ => inv_s1 _ _ _ 0 #v[0, 0, 0, 0] _ (by decide +kernel), by decide +kernel⟩

/-- Chunk 0 of domain 0 of S1 satisfies its parity equations. -/
theorem consistent_s1 (offline : List Nat) (arg0 arg1 : Word) : (s1 0 offline arg0 arg1).stripeConsistent 0 0 := by
  have h : (∀ g, g < (s1 0 [] 0 0).layout.ng → (s1 0 [] 0 0).slotChunk 0 0 ((s1 0 [] 0 0).layout.lpSlot g)
        = (s1 0 [] 0 0).layout.localParity ((s1 0 [] 0 0).slotChunk 0 0) g)
      ∧ (s1 0 [] 0 0).slotChunk 0 0 (s1 0 [] 0 0).layout.gpSlot
        = (s1 0 [] 0 0).layout.globalParity ((s1 0 [] 0 0).slotChunk 0 0) := by decide +kernel
  exact h

theorem test_witness_WriteChunkKeepsConsistency :
    let s := s1 0 [] 0 0
    let t := after (exec (.writeChunk 1 0) s)
    s.Inv ∧ s.initialized = true ∧ s.portOk ∧ exec (.writeChunk 1 0) s = .next t ∧ t.err = .none
      ∧ s.stripeConsistent ((1 : BitVec 16).toNat / s.dpd) s.opArg0 :=
  ⟨inv_small, by decide +kernel, by decide +kernel, eq_next_after _ (by decide +kernel), by decide +kernel,
    consistent_s1 _ _ _⟩

theorem test_witness_EncodeStripeMakesConsistent :
    let s := s1 0 [15] 1 0
    s.Inv ∧ s.initialized = true ∧ (1 : BitVec 16).toNat < s.ndom ∧ s.opArg0 < s.chunks
      ∧ (∀ k, k < s.ndata + s.ng + 1 → flagAt s.online (s.serveAt (1 : BitVec 16).toNat k) = true) ∧ s.portOk :=
  ⟨inv_s1_plain _ _ _ (by decide +kernel), by decide +kernel⟩

theorem test_witness_RecombineXorsBuffers :
    bufferInRange 3 = true ∧ (s1 0 [] 0 15).latch.arg1.toNat < 16 ∧ 16 ≤ (s1 0 [] 0 16).latch.arg1.toNat := by
  decide +kernel

/-! ### Hypotheses that can be met: access and decoding -/

theorem test_witness_ReadChunkReadsDrive :
    let s := s1 0 [] 1 0
    s.initialized = true ∧ bufferInRange 3 = true ∧ (15 : BitVec 16).toNat < s.total ∧ s.opArg0 < s.chunks
      ∧ flagAt s.online (15 : BitVec 16).toNat = true ∧ s.response = .ok
      ∧ { s with responses := [.err 7] }.response = .err 7 := by decide +kernel

theorem test_witness_PeekReadsBytes :
    let s := s1 0 [] 8188 4
    s.initialized = true ∧ (15 : BitVec 16).toNat < s.total ∧ 1 ≤ s.opArg1 ∧ s.opArg1 ≤ 4
      ∧ s.opArg0 + s.opArg1 ≤ s.chunks * 4096 ∧ flagAt s.online (15 : BitVec 16).toNat = true ∧ s.response = .ok
      ∧ { s with responses := [.err 7] }.response = .err 7 := by decide +kernel

/-- An online drive, a lost and recoverable one, and one of a lost group. -/
theorem test_witness_DecodeChunkGivesContent :
    let s := s1 0 [1] 1 0
    let l := s1 0 [0, 1, 4] 1 0
    s.Inv ∧ l.Inv ∧ s.initialized = true ∧ bufferInRange 3 = true ∧ (1 : BitVec 16).toNat < s.total
      ∧ s.opArg0 < s.chunks ∧ s.slotOf (0 : BitVec 16).toNat = some 0 ∧ s.slotOf (1 : BitVec 16).toNat = some 1
      ∧ s.portOk ∧ flagAt s.online 0 = true ∧ flagAt s.online 1 = false
      ∧ s.layout.sclass (fun j => !flagAt s.online (s.serveAt ((1 : BitVec 16).toNat / s.dpd) j)) 1 ≠ .dataLoss
      ∧ flagAt l.online 4 = false ∧ l.slotOf 4 = some 4
      ∧ l.layout.sclass (fun j => !flagAt l.online (l.serveAt ((4 : BitVec 16).toNat / l.dpd) j)) 4 = .dataLoss :=
  ⟨inv_s1_plain _ _ _ (by decide +kernel), inv_s1_plain _ _ _ (by decide +kernel), by decide +kernel⟩

/-- The one raw read, and the first and the last source read of a reconstruction, err. -/
theorem test_witness_DecodeChunkGivesContent_errors :
    (∀ n, { s1 0 [1] 1 0 with responses := erringAt n }.Inv)
      ∧ { s1 0 [1] 1 0 with responses := erringAt 0 }.response = .err 9
      ∧ ∀ n ∈ [0, 1],
          let s := { s1 0 [1] 1 0 with responses := erringAt n }
          let off := fun j => !flagAt s.online (s.serveAt ((1 : BitVec 16).toNat / s.dpd) j)
          s.initialized = true ∧ (1 : BitVec 16).toNat < s.total ∧ s.opArg0 < s.chunks ∧ s.slotOf 1 = some 1
            ∧ flagAt s.online 1 = false ∧ s.layout.sclass off 1 ≠ .dataLoss
            ∧ n < (s.layout.sources off 1).length ∧ (∀ r ∈ s.responses.take n, r = .ok)
            ∧ s.responses[n]? = some (.err 9) :=
  ⟨fun _ => inv_s1 _ _ _ 0 #v[0, 0, 0, 0] _ (by decide +kernel), by decide +kernel⟩

/-- A read error of a decoding (R284): DRIVE_IO, and the buffer keeps what it held. -/
theorem test_decodeChunk_read_error :
    let s := { s1 0 [1] 0 0 with responses := erringAt 1, bufs := #v[0, 0, 0, 5] }
    errOf (.decodeChunk 1 3) s = 12 ∧ (after (exec (.decodeChunk 1 3) s)).bufs = s.bufs := by decide +kernel

theorem test_witness_DecodeRecoversLostChunk :
    let s := s1 0 [2, 3] 0 0
    s.Inv ∧ s.initialized = true ∧ bufferInRange 3 = true ∧ (3 : BitVec 16).toNat < s.total ∧ s.opArg0 < s.chunks
      ∧ s.slotOf (3 : BitVec 16).toNat = some 3 ∧ s.portOk ∧ flagAt s.online (3 : BitVec 16).toNat = false
      ∧ s.layout.sclass (fun j => !flagAt s.online (s.serveAt ((3 : BitVec 16).toNat / s.dpd) j)) 3 ≠ .dataLoss
      ∧ s.stripeConsistent ((3 : BitVec 16).toNat / s.dpd) s.opArg0 := by
  refine ⟨inv_s1_plain _ _ _ (by decide +kernel), by decide +kernel, by decide +kernel, by decide +kernel,
    by decide +kernel, by decide +kernel, by decide +kernel, by decide +kernel, by decide +kernel, ?_⟩
  exact consistent_s1 _ _ _

/-! ### Hypotheses that can be met: arithmetic and solver -/

theorem test_witness_FieldInverseUnique : (0xFF : Byte) ≠ 0 ∧ gfMul 2 0x8E = 1 := by decide +kernel

/-- The largest data width, its last slot, and a PLAIN_XOR layout. -/
theorem test_witness_CoefficientsDistinct :
    ({ sizes := [62], plain := false } : Layout).plain = false ∧ ({ sizes := [62], plain := false } : Layout).ndata = 62
      ∧ ({ sizes := [2], plain := true } : Layout).plain = true := by decide

theorem test_witness_ChunkOperationsActOnLanes : 4095 < 4096 := by decide

/-- The layout of T_C, whose group 0 has lost two slots. -/
theorem test_witness_DeterminedIffRank :
    cfgCanonical.layout.legal ∧ 1 < cfgCanonical.layout.ndata ∧ [0, 1].contains 1 = true ∧ 2 < cfgCanonical.layout.ng :=
  ⟨⟨by decide +kernel, by decide +kernel⟩, by decide +kernel, by decide, by decide +kernel⟩

/-- Failures in two groups, and of GP with them (R220, R221): T_C with slots 0 and 13 lost, with 0, 1 and 13 lost, with
0, 1, 13 and 14 lost, and with GP lost alone, beside one lost slot and beside two of one group. -/
theorem test_classes_of_several_groups :
    let L := cfgCanonical.layout
    [[0, 13], [0, 1, 13], [0, 1, 13, 14], [41], [0, 41], [0, 1, 41]].map
        (fun off => ((List.range 3).map (L.gclass off.contains), L.qclass off.contains))
      = [([.recoverable, .recoverable, .ok], .ok), ([.recoverable, .recoverable, .ok], .ok),
          ([.dataLoss, .dataLoss, .ok], .ok), ([.ok, .ok, .ok], .recoverable),
          ([.recoverable, .ok, .ok], .recoverable), ([.dataLoss, .ok, .ok], .dataLoss)] := by decide +kernel

/-- Two lost data slots, and the last served slot lost; two stripes that agree on the sources only. -/
theorem test_witness_SourcesSuffice :
    let L := (cfgSmall 0).layout
    1 < L.served ∧ 6 < L.served ∧ L.sclass [0, 1].contains 1 ≠ .dataLoss ∧ L.sclass [6].contains 6 ≠ .dataLoss
      ∧ (∀ t ∈ L.sources [0, 1].contains 1,
          (fun _ => (0 : Chunk)) t = (fun t => if t = 0 then (1 : Chunk) else 0) t) := by decide +kernel

/-- The stripe of S1, with the failed slots' chunks replaced. -/
theorem test_witness_ReconstructionIsExact :
    let L := (s1 0 [] 0 0).layout
    let d := (s1 0 [] 0 0).slotChunk 0 0
    L.legal ∧ L.consistent d
      ∧ (∀ t, t < L.served → [2, 3].contains t = false → (fun t => if t = 2 ∨ t = 3 then (9 : Chunk) else d t) t = d t)
      ∧ 3 < L.served ∧ L.sclass [2, 3].contains 3 ≠ .dataLoss :=
  ⟨⟨by decide +kernel, by decide +kernel⟩, consistent_s1 _ _ _, by decide +kernel, by decide +kernel, by decide +kernel⟩

/-- Group 0 of T_C with the failures of each row of the table, the other groups intact. -/
theorem test_witness_OneGroupFailureTable :
    let L := cfgCanonical.layout
    let F := fun (off : List Nat) =>
      (decide (∀ h, h < L.ng → h ≠ 0 → L.lost off.contains h = [] ∧ L.lpOff off.contains h = false),
        (L.lost off.contains 0).length, L.lpOff off.contains 0, L.gpOff off.contains)
    0 < L.ng
      ∧ [[], [0], [38], [0, 12], [0, 38], [0, 1, 41], [0, 38, 41], [0, 1, 2], [0, 1, 38]].map F
        = [(true, 0, false, false), (true, 1, false, false), (true, 0, true, false), (true, 2, false, false),
            (true, 1, true, false), (true, 2, false, true), (true, 1, true, true), (true, 3, false, false),
            (true, 2, true, false)] := by decide +kernel

/-! ### Hypotheses that can be met: classification and rebuild -/

theorem test_witness_ClassifyWritesFields : (s1 0 [2, 3] 0 0).initialized = true := by decide +kernel

/-- Targets in both domains, the last drive among them, and a target past TOTAL. -/
theorem test_witness_RebuildCompletes :
    (s1Targets [1] [1, 15]).Inv ∧ (s1Targets [1] [1, 15]).initialized = true
      ∧ (∀ p ∈ (s1Targets [1] [1, 15]).opTargets, p < (s1Targets [1] [1, 15]).total)
      ∧ (s1Targets [1] [1, 16]).Inv ∧ ∃ p ∈ (s1Targets [1] [1, 16]).opTargets, (s1Targets [1] [1, 16]).total ≤ p :=
  ⟨inv_targets _ _ (by decide +kernel), by decide +kernel, by decide +kernel, inv_targets _ _ (by decide +kernel),
    by decide +kernel⟩

/-- Targets of several kinds and domains, with the fifth access erring; the key order of a GP, an LP and a data drive. -/
theorem test_witness_RebuildOrderSorted :
    (∀ n, { s1Targets [1] [1, 4, 15] with responses := erringAt n }.Inv)
      ∧ (s1Targets [1] [1, 4, 15]).initialized = true ∧ (s1Targets [1] [1, 4, 15]).opTargets = [1, 4, 15]
      ∧ (∀ p ∈ (s1Targets [1] [1, 4, 15]).opTargets, p < (s1Targets [1] [1, 4, 15]).total)
      ∧ [3, 4, 5, 6, 7, 8].map (s1Targets [] []).orderKey
          = [[0, 1, 0, 3], [0, 0, 1, 4], [0, 1, 1, 5], [0, 2, 0, 6], [0, 3, 0, 7], [1, 0, 0, 0]] :=
  ⟨fun n => inv_s1 [1] 0 0 (([1, 4, 15] : List Nat).foldl (fun v p => setFlag v p true) 0) #v[0, 0, 0, 0] (erringAt n)
    (by decide +kernel), by decide +kernel⟩

/-- A spare, an online drive, a drive of a lost group, and a lost drive whose domain's spare is offline. -/
theorem test_witness_RebuildSkipsTarget :
    (∀ p ∈ [1, 4, 7], (s1Targets [0, 1, 4] [p]).Inv ∧ (s1Targets [0, 1, 4] [p]).opTargets = [p]
        ∧ p < (s1Targets [0, 1, 4] [p]).total)
      ∧ (s1Targets [] [7]).slotOf 7 = none ∧ (s1Targets [] [1]).slotOf 1 = some 1
      ∧ flagAt (s1Targets [] [1]).online 1 = true
      ∧ (s1Targets [0, 1, 4] [1]).layout.sclass
          (fun j => !flagAt (s1Targets [0, 1, 4] [1]).online ((s1Targets [0, 1, 4] [1]).serveAt (1 / 8) j)) 1 = .dataLoss
      ∧ (s1Targets [1, 7] [1]).Inv ∧ flagAt (s1Targets [1, 7] [1]).online 1 = false
      ∧ (s1Targets [1, 7] [1]).layout.sclass
          (fun j => !flagAt (s1Targets [1, 7] [1]).online ((s1Targets [1, 7] [1]).serveAt (1 / 8) j)) 1 ≠ .dataLoss
      ∧ (∀ q, q < 8 → ¬((s1Targets [1, 7] [1]).pstateAt q = .spareFree ∧ flagAt (s1Targets [1, 7] [1]).online q = true)) := by
  refine ⟨fun p hp => ⟨inv_targets _ _ (by decide +kernel), ?_⟩, by decide +kernel, by decide +kernel, by decide +kernel,
    by decide +kernel, inv_targets _ _ (by decide +kernel), by decide +kernel⟩
  revert p
  decide +kernel

/-- A lost local parity of the last domain, restored or moved to the spare 15. -/
theorem test_witness_RestoreRebuildsDrive_PromoteMovesSlotToSpare :
    let s := s1Targets [13] [13]
    s.Inv ∧ s.initialized = true ∧ s.opTargets = [13] ∧ 13 < s.total ∧ s.slotOf 13 = some 5 ∧ flagAt s.online 13 = false
      ∧ s.layout.sclass (fun j => !flagAt s.online (s.serveAt (13 / s.dpd) j)) 5 ≠ .dataLoss ∧ s.portOk
      ∧ 13 / s.dpd * s.dpd ≤ 15 ∧ 15 < 13 / s.dpd * s.dpd + s.dpd ∧ s.pstateAt 15 = .spareFree
      ∧ flagAt s.online 15 = true
      ∧ ∀ r, r < 15 → 13 / s.dpd * s.dpd ≤ r → ¬(s.pstateAt r = .spareFree ∧ flagAt s.online r = true) :=
  ⟨inv_targets _ _ (by decide +kernel), by decide +kernel⟩

theorem test_witness_AggregateErrorRule :
    aggregateError [.restored, .noSpare] ≠ .none ∧ aggregateError [.restored, .noSpare] ≠ .unrecoverableData := by decide

/-- A RESTORE whose traffic is not empty. -/
theorem test_witness_EngineUsesOnlineDrives :
    let s := s1Targets [1] [1]
    s.Inv ∧ exec (.rebuild .restoreInPlace) s = .next (after (exec (.rebuild .restoreInPlace) s))
      ∧ (after (exec (.rebuild .restoreInPlace) s)).traffic.length = 6 ∧ s.traffic = [] :=
  ⟨inv_targets _ _ (by decide +kernel), eq_next_after _ (by decide +kernel), by decide +kernel⟩

/-! ### Hypotheses that can be met: reset and invariants -/

theorem test_witness_ResetRegisterValues :
    ∀ a ∈ [0x0000, 0x0004, 0x0200, 0x0214, 0x0218, 0x0FFC], a % 4 = 0 ∧ a < 0x1000 := by decide

theorem test_witness_HardwareResetClearsRegisters :
    (facing none [.hardwareReset 0 0 #v[1, 2, 3, 4] 5]).inputs = .hardwareReset 0 0 #v[1, 2, 3, 4] 5 :: []
      ∧ (facing none [.hardwareReset 0 0 #v[1, 2, 3, 4] 5]).flight = none := ⟨rfl, rfl⟩

/-- A WRITE_CHUNK in flight with three reads and three writes, abandoned after four accesses: the data chunk is written,
LP(0) holds the draw, GP is untouched. -/
theorem test_witness_HardwareResetClearsRegisters_busy :
    let s := { (s1 0 [] 0 0).accept 0x00010020 with inputs := [.hardwareReset 4 9 #v[0, 0, 0, 0] 0] }
    let c := { s with inputs := [.complete], traffic := [] }
    s.flight = some ((s1 0 [] 0 0).latchFor 0x00010020) ∧ step c = .next (after (step c))
      ∧ (after (step c)).traffic.length = 6
      ∧ firstBytes (after (step s)) 0 = [0x11, 0, 0x33, 0x44, 9, 0x77, 0x83, 0] :=
  ⟨rfl, eq_next_after _ (by decide +kernel), by decide +kernel, by decide +kernel⟩

/-- A busy state of T_S keeps the invariant: what a CMD write of `w` leaves. -/
theorem inv_accept (offline : List Nat) (w : Word) (h : (s1 0 offline 0 0).online.toNat < 2 ^ 16) :
    ((s1 0 offline 0 0).accept w).Inv :=
  { memories := inv_small.memories
    latch := fun f hm => by
      have hf : f = (s1 0 offline 0 0).latchFor w := (Option.some.inj (Option.mem_def.1 hm)).symm
      exact ⟨hf, rfl, rfl⟩
    cleared := fun hc => Bool.noConfusion hc
    topology := (inv_s1_plain offline 0 0 h).topology
    shape := (inv_s1_plain offline 0 0 h).shape
    assignment := (inv_s1_plain offline 0 0 h).assignment }

/-- A command that completes in the next step. -/
theorem test_witness_StepKeepsMemoriesAndLatch_StepKeepsTopology :
    let s := (s1 0 [] 0 0).accept 0x00000020
    s.memoriesCanonical ∧ s.latchHolds
      ∧ (s.uninitializedClear ∧ s.topologyLegal ∧ s.assignmentShape ∧ s.assignmentLegal)
      ∧ step s = .next (after (step s)) :=
  have h := inv_accept [] 0x00000020 (by decide +kernel)
  ⟨h.memories, h.latch, ⟨h.cleared, h.topology, h.shape, h.assignment⟩, eq_next_after _ (by decide +kernel)⟩

theorem test_witness_StepNeverFaultsAndCommandsComplete :
    ((s1 0 [1] 0 0).accept 0x00000041).Inv
      ∧ ((s1 0 [1] 0 0).accept 0x00000041).flight = some ((s1 0 [1] 0 0).latchFor 0x00000041)
      ∧ ((s1 0 [1] 0 0).accept 0x00000041).inputs = [] := ⟨inv_accept _ _ (by decide +kernel), rfl, rfl⟩

/-- The same with either completion scheduled. -/
theorem test_witness_StepNeverFaultsAndCommandsComplete_scheduled :
    ∀ is ∈ [[Input.complete], [Input.completeWithIrqWrite 1]],
      { (s1 0 [1] 0 0).accept 0x00000041 with inputs := is }.Inv := fun _ _ =>
  have h := inv_accept [1] 0x00000041 (by decide +kernel)
  ⟨h.memories, h.latch, h.cleared, h.topology, h.shape, h.assignment⟩

end Sys2Proof.Tests
end

section
/-! PROOFS. Host accesses to the register window while busy and idle, and what a completion leaves
(10_state.md R35, R38, R67, R68; 60_exceptions.md R341). -/

namespace Sys2Proof.Proofs

open Sys2Proof.Machine

/-! ### One host read (10_state.md R68) -/

section Read

variable {s : State} {off : BitVec 16} {draw : Word} {rest : List Input} {r : Reg}

/-- A read of a register that is no result register is exact, busy or idle. -/
theorem step_read_exact (hin : s.inputs = .hostRead off .word draw :: rest) (ha : off.toNat % 4 = 0)
    (hr : regAt off.toNat = some r) (hx : r.drawnWhileBusy = false) :
    step s = .next { s with inputs := rest, readData := s.regValue r } := by
  rw [step_hostRead s off draw rest hin ha, State.windowRead, hr]
  simp only [hx, Bool.false_and, Bool.false_eq_true, if_false]

/-- A read of a result register while BUSY answers the draw. -/
theorem step_read_drawn (hin : s.inputs = .hostRead off .word draw :: rest) (ha : off.toNat % 4 = 0)
    (hr : regAt off.toNat = some r) (hx : r.drawnWhileBusy = true) (hb : s.busy = true) :
    step s = .next { s with inputs := rest, readData := draw } := by
  rw [step_hostRead s off draw rest hin ha, State.windowRead, hr]
  simp only [hx, hb, Bool.and_self, if_true]

end Read

/-- A flag in bit 0 of a register, as a number (10_state.md R37, R38). -/
theorem setWidth_ofBool (b : Bool) : (BitVec.ofBool b).setWidth 32 = if b then (1 : Word) else 0 := by
  cases b <;> rfl

/-! ### One host write (10_state.md R67) -/

section Write

variable {s : State} {off : BitVec 16} {v : Word} {rest : List Input} {r : Reg}

/-- A write to a register that is not held, or to any register while idle, is taken. -/
theorem step_write_taken (hin : s.inputs = .hostWrite off .word v :: rest) (ha : off.toNat % 4 = 0)
    (hr : regAt off.toNat = some r) (hh : r.held = false ∨ s.busy = false) :
    step s = .next { s.writeReg v r with inputs := rest } := by
  have hc : (r.held && s.busy) = false := Bool.and_eq_false_iff.2 hh
  rw [step_hostWrite s off v rest hin ha, State.windowWrite, hr]
  simp only [hc, Bool.false_eq_true, if_false]

/-- A write to a held register while BUSY is dropped and sets OVERRUN. -/
theorem step_write_dropped (hin : s.inputs = .hostWrite off .word v :: rest) (ha : off.toNat % 4 = 0)
    (hr : regAt off.toNat = some r) (hh : r.held = true) (hb : s.busy = true) :
    step s = .next { s with inputs := rest, overrun := true } := by
  rw [step_hostWrite s off v rest hin ha, State.windowWrite, hr]
  simp only [hh, hb, Bool.and_self, if_true, State.dropWrite]

/-- A write to an unmapped offset changes nothing. -/
theorem step_write_unmapped (hin : s.inputs = .hostWrite off .word v :: rest) (ha : off.toNat % 4 = 0)
    (hr : regAt off.toNat = none) : step s = .next { s with inputs := rest } := by
  rw [step_hostWrite s off v rest hin ha, State.windowWrite, hr]

end Write

/-- IRQ_EN, IRQ_STATUS and CTRL apart, a register that is not held ignores writes. -/
theorem writeReg_of_not_held (s : State) (v : Word) (r : Reg) (hh : r.held = false) (hen : r ≠ .irqEn)
    (hst : r ≠ .irqStatus) (hct : r ≠ .ctrl) : s.writeReg v r = s := by
  cases r
  case irqEn => exact absurd rfl hen
  case irqStatus => exact absurd rfl hst
  case ctrl => exact absurd rfl hct
  case cmd | arg0 | arg1 | cfgTotal | cfgDpd | cfgSpares | cfgNgroups | cfgChunks | cfgScheme | cfgGsize | target
    | bufWord => cases hh
  all_goals rfl

/-- IRQ_EN, IRQ_STATUS and CTRL have no offset but their own (10_state.md R32). -/
theorem regAt_ne_taken (a : Nat) (ha : a % 4 = 0) (hen : a ≠ 0x0018) (hst : a ≠ 0x001C) (hct : a ≠ 0x0020) :
    regAt a ≠ some .irqEn ∧ regAt a ≠ some .irqStatus ∧ regAt a ≠ some .ctrl := by
  by_cases hlo : a < 0x21C
  · have hmap := map_taken ⟨a / 4, by omega⟩
    have hdiv : 4 * (a / 4) = a := by omega
    simp only [hdiv] at hmap
    obtain ⟨mapEn, mapSt, mapCt⟩ := hmap
    refine ⟨fun h => hen ?_, fun h => hst ?_, fun h => hct ?_⟩
    · rw [← hdiv, mapEn h]
    · rw [← hdiv, mapSt h]
    · rw [← hdiv, mapCt h]
  · rw [regAt_of_ge a (by omega)]
    split
    · simp
    · split <;> simp

theorem busy_of_flight {s : State} {f : Flight} (hf : s.flight = some f) : s.busy = true := by
  rw [State.busy, hf]; rfl

theorem not_busy_of_flight {s : State} (hf : s.flight = none) : s.busy = false := by
  rw [State.busy, hf]; rfl

/-- Settles O7, by the register the map gives for the offset. -/
theorem heldWritesDroppedWhileBusy : Obligations.HeldWritesDroppedWhileBusy := by
  intro s off v rest hin ha
  refine ⟨?held, ?irqEn, ?irqStatus, ?ctrl, ?ignored⟩
  case held =>
    intro f hf ho
    obtain ⟨r, hr, hh⟩ := (heldOffset_iff off.toNat ha).1 ho
    exact step_write_dropped hin ha hr hh (busy_of_flight hf)
  case irqEn =>
    rintro rfl
    exact step_write_taken (r := .irqEn) hin ha rfl (.inl rfl)
  case irqStatus =>
    rintro rfl
    exact step_write_taken (r := .irqStatus) hin ha rfl (.inl rfl)
  case ctrl =>
    rintro rfl
    exact step_write_taken (r := .ctrl) hin ha rfl (.inl rfl)
  case ignored =>
    intro ho hen hst hct
    obtain ⟨nen, nst, nct⟩ := regAt_ne_taken off.toNat ha
      (fun h => hen (BitVec.eq_of_toNat_eq h)) (fun h => hst (BitVec.eq_of_toNat_eq h))
      (fun h => hct (BitVec.eq_of_toNat_eq h))
    cases hr : regAt off.toNat with
    | none => exact step_write_unmapped hin ha hr
    | some r =>
      have hh : r.held = false := Bool.eq_false_iff.2 fun h => ho ((heldOffset_iff off.toNat ha).2 ⟨r, hr, h⟩)
      rw [hr] at nen nst nct
      rw [step_write_taken hin ha hr (.inl hh), writeReg_of_not_held s v r hh
        (fun h => nen (congrArg some h)) (fun h => nst (congrArg some h)) (fun h => nct (congrArg some h))]

/-- Settles O8: a result offset's register is drawn, and each of the others is one the map gives and no draw. -/
theorem busyReadsDrawnOrExact : Obligations.BusyReadsDrawnOrExact := by
  intro s off draw rest hin ha
  have reads : ∀ (r : Reg) {o : BitVec 16}, r.drawnWhileBusy = false → regAt o.toNat = some r → off = o →
      step s = .next { s with inputs := rest, readData := s.regValue r } :=
    fun r _ hx hr ho => step_read_exact hin ha (ho ▸ hr) hx
  refine ⟨?drawn, reads .id rfl rfl, reads .version rfl rfl, reads .status rfl rfl, reads .cmd rfl rfl,
    reads .arg0 rfl rfl, reads .arg1 rfl rfl, ?irqEn, ?irqStatus, reads .cfgTotal rfl rfl, reads .cfgDpd rfl rfl,
    reads .cfgSpares rfl rfl, reads .cfgNgroups rfl rfl, reads .cfgChunks rfl rfl, reads .cfgScheme rfl rfl, ?gsize,
    ?target⟩
  case drawn =>
    intro f hf ho
    obtain ⟨r, hr, hx⟩ := (resultOffset_iff off.toNat ha).1 ho
    exact step_read_drawn hin ha hr hx (busy_of_flight hf)
  case irqEn =>
    rw [← setWidth_ofBool]
    exact reads .irqEn rfl rfl
  case irqStatus =>
    rw [← setWidth_ofBool]
    exact reads .irqStatus rfl rfl
  case gsize =>
    intro i hi
    have hr : regAt off.toNat = some (.cfgGsize i.val) := by rw [hi, regAt_cfgGsize i.val i.isLt]
    rw [step_read_exact hin ha hr rfl]
    simp [State.regValue]
  case target =>
    intro w hw ho
    exact step_read_exact (r := .target w) hin ha (by rw [ho, regAt_target w hw]) rfl

/-- Settles O6: CMD is held, so its write is dropped while BUSY and otherwise accepted; its read is exact. -/
theorem cmdWriteAcceptedOrDropped : Obligations.CmdWriteAcceptedOrDropped := by
  refine ⟨rfl, fun s w rest hin => ⟨fun hf => ?_, fun f hf => ?_⟩, fun s draw rest hin => ?_⟩
  · exact ⟨_, step_write_taken (r := .cmd) hin (by decide) rfl (.inr (not_busy_of_flight hf)), rfl⟩
  · exact step_write_dropped (r := .cmd) hin (by decide) rfl rfl (busy_of_flight hf)
  · exact step_read_exact (r := .cmd) hin (by decide) rfl rfl

/-! ### Completion (60_exceptions.md R341)

What the commands without drive accesses can do; Laws/Commands.lean says it of the others. -/

/-- One check of a command: it fails and the command ends with its error and no other effect, or the command goes on. -/
theorem check_next {c : Prop} [Decidable c] {e : ErrCode} {s t : State} {o : Host.Outcome State Fault Refusal}
    (h : (if c then finishWith e s else o) = .next t) : (c ∧ t = finish e s) ∨ (¬c ∧ o = .next t) := by
  split at h
  · next hc => exact .inl ⟨hc, finishWith_next h⟩
  · next hc => exact .inr ⟨hc, h⟩

/-- Two checks, then an end without error: the shape of INIT, SET_ONLINE_* and QUERY_*. -/
theorem two_checks_next {c d : Prop} [Decidable c] [Decidable d] {e e' : ErrCode} {s u t : State}
    (he : e ≠ .none) (he' : e' ≠ .none)
    (h : (if c then finishWith e s else if d then finishWith e' s else finishWith .none u) = .next t) :
    (∃ x, x ≠ .none ∧ t = finish x s) ∨ (¬c ∧ ¬d ∧ t = finish .none u) := by
  rcases check_next h with ⟨-, rfl⟩ | ⟨hc, h⟩
  · exact .inl ⟨e, he, rfl⟩
  · rcases check_next h with ⟨-, rfl⟩ | ⟨hd, h⟩
    · exact .inl ⟨e', he', rfl⟩
    · exact .inr ⟨hc, hd, finishWith_next h⟩

section Commands

variable {s t : State}

/-- INIT: an error with nothing done, or the topology built from a legal configuration. -/
theorem execInit_next (h : execInit s = .next t) :
    (∃ e, e ≠ .none ∧ t = finish e s)
      ∨ (s.initialized = false ∧ s.cfg.valid = true ∧ t = finish .none s.buildTopology) := by
  simpa using two_checks_next (by decide) (by decide) h

/-- RESET: no error; CLASS_VALID is cleared, and the topology dropped where there was one. -/
theorem execReset_next (h : execReset s = .next t) :
    t = finish .none { (if s.initialized then s.dropTopology else s) with classValid := false } :=
  finishWith_next h

/-- SET_ONLINE_DRIVE: an error with nothing done, or one flag set and CLASS_VALID cleared. -/
theorem execSetOnlineDrive_next {p : BitVec 16} {b : Bool} (h : execSetOnlineDrive p b s = .next t) :
    (∃ e, e ≠ .none ∧ t = finish e s)
      ∨ (s.initialized = true ∧ p.toNat < s.total
        ∧ t = finish .none { s with online := setFlag s.online p.toNat b, classValid := false }) := by
  simpa using two_checks_next (by decide) (by decide) h

/-- SET_ONLINE_DOMAIN: an error with nothing done, or a domain's flags set and CLASS_VALID cleared. -/
theorem execSetOnlineDomain_next {D : BitVec 16} {b : Bool} (h : execSetOnlineDomain D b s = .next t) :
    (∃ e, e ≠ .none ∧ t = finish e s)
      ∨ (s.initialized = true ∧ D.toNat < s.ndom
        ∧ t = finish .none
            { s with online := setFlags s.online (D.toNat * s.dpd) s.dpd b, classValid := false }) := by
  simpa using two_checks_next (by decide) (by decide) h

/-- RECOMBINE: INVALID_RANGE with nothing done, or the masked buffers' sum in the buffer. -/
theorem execRecombine_next {b : BitVec 3} (h : execRecombine b s = .next t) :
    (s.latch.arg1.extractLsb' 4 28 ≠ 0 ∧ t = finish .invalidRange s)
      ∨ (s.latch.arg1.extractLsb' 4 28 = 0
        ∧ t = finish .none (s.setBuf b.toNat (xorOver (maskedBuffers s.latch.arg1) s.opBuf))) := by
  rcases check_next h with herr | ⟨hm, h⟩
  · exact .inl herr
  · exact .inr ⟨not_not.1 hm, finishWith_next h⟩

/-- QUERY_DRIVE: an error with nothing done, or the drive's record in QRES0 and QRES1. -/
theorem execQueryDrive_next {p : BitVec 16} (h : execQueryDrive p s = .next t) :
    (∃ e, e ≠ .none ∧ t = finish e s)
      ∨ (s.initialized = true ∧ p.toNat < s.total
        ∧ t = finish .none { s with qres0 := s.driveRecord0 p.toNat, qres1 := s.driveRecord1 p.toNat }) := by
  simpa using two_checks_next (by decide) (by decide) h

/-- QUERY_GROUP: an error with nothing done, or the group's record in QRES0 and QRES1. -/
theorem execQueryGroup_next {G : BitVec 16} (h : execQueryGroup G s = .next t) :
    (∃ e, e ≠ .none ∧ t = finish e s)
      ∨ (s.initialized = true ∧ G.toNat < s.ndom * s.ng
        ∧ t = finish .none { s with qres0 := s.groupRecord0 G.toNat, qres1 := s.groupRecord1 G.toNat }) := by
  simpa using two_checks_next (by decide) (by decide) h

/-- QUERY_SLOT: an error with nothing done, or the slot's record in QRES0 and QRES1. -/
theorem execQuerySlot_next {D : BitVec 16} (h : execQuerySlot D s = .next t) :
    (∃ e, e ≠ .none ∧ t = finish e s)
      ∨ (s.initialized = true ∧ (D.toNat < s.ndom ∧ s.opArg0 ≤ s.layout.gpSlot)
        ∧ t = finish .none
            { s with qres0 := s.slotRecord0 D.toNat s.opArg0, qres1 := s.slotRecord1 s.opArg0 }) := by
  simpa using two_checks_next (by decide) (by decide) h

/-- A command that answers a next state ends in a completion, with or without an error. -/
theorem exec_next_finish {i : Instr} (h : exec i s = .next t) : ∃ e u, t = finish e u := by
  cases i with
  | nop => exact ⟨_, _, finishWith_next h⟩
  | init => rcases execInit_next h with ⟨_, -, rfl⟩ | ⟨-, -, rfl⟩ <;> exact ⟨_, _, rfl⟩
  | reset => exact ⟨_, _, execReset_next h⟩
  | setOnlineDrive p b => rcases execSetOnlineDrive_next h with ⟨_, -, rfl⟩ | ⟨-, -, rfl⟩ <;> exact ⟨_, _, rfl⟩
  | setOnlineDomain D b => rcases execSetOnlineDomain_next h with ⟨_, -, rfl⟩ | ⟨-, -, rfl⟩ <;> exact ⟨_, _, rfl⟩
  | writeChunk p b =>
    rcases execWriteChunk_next h with ⟨_, -, rfl⟩
      | ⟨_, -, -, -, -, -, -, ⟨_, -, rfl⟩ | ⟨_, _, -, ⟨_, -, rfl⟩ | ⟨_, -, rfl⟩⟩⟩ <;> exact ⟨_, _, rfl⟩
  | encodeStripe D =>
    rcases execEncodeStripe_next h with ⟨_, -, rfl⟩
      | ⟨-, -, -, -, ⟨_, -, rfl⟩ | ⟨_, _, -, ⟨_, -, rfl⟩ | ⟨_, -, rfl⟩⟩⟩ <;> exact ⟨_, _, rfl⟩
  | recombine b => rcases execRecombine_next h with ⟨-, rfl⟩ | ⟨-, rfl⟩ <;> exact ⟨_, _, rfl⟩
  | readChunk p b =>
    rcases execReadChunk_next h with ⟨_, -, rfl⟩ | ⟨-, -, -, -, ⟨_, -, rfl⟩ | ⟨_, _, -, rfl⟩⟩ <;> exact ⟨_, _, rfl⟩
  | peek p =>
    rcases execPeek_next h with ⟨_, -, rfl⟩ | ⟨-, -, -, -, ⟨_, -, rfl⟩ | ⟨_, _, -, rfl⟩⟩ <;> exact ⟨_, _, rfl⟩
  | decodeChunk p b =>
    rcases execDecodeChunk_next h with ⟨_, -, rfl⟩
      | ⟨_, -, -, -, -, ⟨-, ⟨_, -, rfl⟩ | ⟨_, _, -, rfl⟩⟩ | ⟨-, -, ⟨_, -, rfl⟩ | ⟨_, _, -, rfl⟩⟩⟩ <;>
      exact ⟨_, _, rfl⟩
  | classify => rcases execClassify_next h with ⟨-, ht⟩ | ⟨-, ht, -⟩ <;> exact ⟨_, _, ht⟩
  | rebuild st =>
    have h : execRebuild st s = .next t := h
    rcases execRebuild_next h with ⟨_, -, rfl, -⟩ | ⟨-, -, _, _, -, rfl⟩ <;> exact ⟨_, _, rfl⟩
  | queryDrive p => rcases execQueryDrive_next h with ⟨_, -, rfl⟩ | ⟨-, -, rfl⟩ <;> exact ⟨_, _, rfl⟩
  | queryGroup G => rcases execQueryGroup_next h with ⟨_, -, rfl⟩ | ⟨-, -, rfl⟩ <;> exact ⟨_, _, rfl⟩
  | querySlot D => rcases execQuerySlot_next h with ⟨_, -, rfl⟩ | ⟨-, -, rfl⟩ <;> exact ⟨_, _, rfl⟩

/-- So does a command word, whether or not it decodes (30_encoding.md R120). -/
theorem runWord_next_finish {w : Word} (h : runWord w s = .next t) : ∃ e u, t = finish e u := by
  unfold runWord at h
  split at h
  · exact exec_next_finish h
  · exact ⟨_, _, finishWith_next h⟩

/-- And so does the command in flight, when it completes (70_reset_and_hazards.md R380). -/
theorem completeFlight_next_finish {f : Flight} (hf : s.flight = some f) (h : completeFlight s = .next t) :
    ∃ e u, t = finish e u := by
  rw [completeFlight, hf] at h
  exact runWord_next_finish h

end Commands

/-- At a completion input the command in flight completes, whether or not a write to IRQ_STATUS meets it
(10_state.md R38). -/
theorem step_completion_finish {s t : State} {f : Flight} (hf : s.flight = some f)
    (hin : (∃ rest, s.inputs = .complete :: rest) ∨ ∃ v rest, s.inputs = .completeWithIrqWrite v :: rest)
    (h : step s = .next t) : ∃ e u, t = finish e u := by
  rcases hin with ⟨rest, hin⟩ | ⟨v, rest, hin⟩
  · rw [step, advance, hin] at h
    exact completeFlight_next_finish (s := { s with inputs := rest }) hf h
  · rw [step, advance, hin] at h
    exact completeFlight_next_finish (s := State.writeIrqStatus { s with inputs := rest } v) hf h

/-- Settles O15: a completion ends in `finish`, which sets DONE_PEND last; writes and reads are those of IRQ_STATUS. -/
theorem completionSetsDoneAndPending : Obligations.CompletionSetsDoneAndPending := by
  refine ⟨rfl, ?completion, ?write, ?read⟩
  case completion =>
    intro s t f hf hin h
    obtain ⟨e, u, rfl⟩ := step_completion_finish hf hin h
    exact ⟨finish_donePend e u, finish_done e u, not_busy_of_flight (finish_flight e u)⟩
  case write =>
    intro s v rest hin
    have hclear : (s.donePend && !v.getLsbD 0) = if v.getLsbD 0 then false else s.donePend := by
      cases v.getLsbD 0 <;> simp
    rw [← hclear]
    exact step_write_taken (r := .irqStatus) hin (by decide) rfl (.inl rfl)
  case read =>
    intro s draw rest hin
    rw [← setWidth_ofBool]
    exact step_read_exact (r := .irqStatus) hin (by decide) rfl rfl

end Sys2Proof.Proofs
end

section
/-! PROOFS. Host accesses to offsets the register map leaves out, and accesses the host bus cannot carry
(20_memory.md R92, R93). -/

namespace Sys2Proof.Proofs

open Sys2Proof.Machine

/-! ### Unmapped offsets (20_memory.md R93) -/

/-- The map gives no register for an aligned offset outside its ranges (10_state.md R32). -/
theorem regAt_of_not_mappedOffset (a : Nat) (ha : a % 4 = 0) (hm : ¬mappedOffset a) : regAt a = none :=
  Option.not_isSome_iff_eq_none.1 fun hr => hm ((mappedOffset_iff a ha).2 hr)

/-- A read of an unmapped offset answers 0, busy or idle. -/
theorem step_read_unmapped {s : State} {off : BitVec 16} {draw : Word} {rest : List Input}
    (hin : s.inputs = .hostRead off .word draw :: rest) (ha : off.toNat % 4 = 0) (hr : regAt off.toNat = none) :
    step s = .next { s with inputs := rest, readData := 0 } := by
  rw [step_hostRead s off draw rest hin ha, State.windowRead, hr]

/-- Settles O11: the map gives an unmapped offset no register, and every read only sets the word on the bus. -/
theorem unmappedAndReadsInert : Obligations.UnmappedAndReadsInert := by
  refine ⟨?read, ?write, ?inert⟩
  case read =>
    intro s off draw rest hin ha hm
    exact step_read_unmapped hin ha (regAt_of_not_mappedOffset off.toNat ha hm)
  case write =>
    intro s off v rest hin ha hm
    exact step_write_unmapped hin ha (regAt_of_not_mappedOffset off.toNat ha hm)
  case inert =>
    intro s off draw rest hin ha
    exact ⟨_, step_hostRead s off draw rest hin ha⟩

/-! ### Accesses the host bus cannot carry (20_memory.md R92) -/

theorem busRefusal_size (off : BitVec 16) {size : AccessSize} (h : size ≠ .word) :
    busRefusal off size = some .hostAccessSize := if_pos h

theorem busRefusal_misaligned (off : BitVec 16) (h : off.toNat % 4 ≠ 0) :
    busRefusal off .word = some .hostAccessMisaligned := by
  rw [busRefusal, if_neg (not_not.2 rfl), if_pos h]

/-- A step on a host access, read or write, that the bus cannot carry is refused for the bus's reason. -/
theorem step_refused_of_busRefusal {s : State} {off : BitVec 16} {size : AccessSize} {v : Word} {rest : List Input}
    {r : Refusal} (hin : s.inputs = .hostRead off size v :: rest ∨ s.inputs = .hostWrite off size v :: rest)
    (hr : busRefusal off size = some r) : step s = .refused r := by
  rcases hin with hin | hin
  · simp only [step, advance, hin, takeInput, hostRead, hr]
  · simp only [step, advance, hin, takeInput, hostWrite, hr]

/-- Settles O12: the size is checked before the alignment, and either refusal is the step's. -/
theorem busCarriesAlignedWordsOnly : Obligations.BusCarriesAlignedWordsOnly := by
  intro s off size v rest hin
  refine ⟨fun hsize => ?size, ?misaligned⟩
  case size => exact step_refused_of_busRefusal hin (busRefusal_size off hsize)
  case misaligned =>
    rintro rfl ha
    exact step_refused_of_busRefusal hin (busRefusal_misaligned off ha)

end Sys2Proof.Proofs
end

section
/-! PROOFS. The configuration check of INIT (40_topology_control.md R151). -/

namespace Sys2Proof.Proofs

open Sys2Proof.Machine

/-! ### The group sizes as the first registers of eight -/

/-- The indices of the first `k` of `m` registers are the numbers below `k`. -/
theorem map_val_filter_finRange {k m : Nat} (hk : k ≤ m) :
    ((List.finRange m).filter fun i => decide (i.val < k)).map Fin.val = List.range k := by
  calc
    ((List.finRange m).filter fun i => decide (i.val < k)).map Fin.val
      = ((List.finRange m).map Fin.val).filter fun n => decide (n < k) := by rw [List.filter_map]; rfl
    _ = (List.Ico 0 m).filter fun n => decide (n < k) := by rw [List.map_coe_finRange_eq_range, List.Ico.zero_bot]
    _ = List.range k := by rw [List.Ico.filter_lt, min_eq_right hk, List.Ico.zero_bot]

theorem gsizeAt_val (t : TopoParams) (i : Fin 8) : t.gsizeAt i.val = t.gsize[i].toNat := by
  rw [TopoParams.gsizeAt, Vector.getElem?_eq_getElem i.isLt]
  rfl

/-- With at most eight groups, the sizes are read from the registers below `CFG_NGROUPS`. -/
theorem sizes_eq_map_filter (t : TopoParams) (h : t.ngroups.toNat ≤ 8) :
    t.sizes = ((List.finRange 8).filter fun i => decide (i.val < t.ngroups.toNat)).map fun i => t.gsize[i].toNat := by
  rw [TopoParams.sizes, ← map_val_filter_finRange h, List.map_map]
  exact List.map_congr_left fun i _ => gsizeAt_val t i

/-- V2 register by register. -/
theorem sizes_pos_iff (t : TopoParams) (h : t.ngroups.toNat ≤ 8) :
    (∀ n ∈ t.sizes, 1 ≤ n) ↔ ∀ i : Fin 8, i.val < t.ngroups.toNat → 1 ≤ t.gsize[i].toNat := by
  simp only [sizes_eq_map_filter t h, List.forall_mem_map, List.mem_filter, List.mem_finRange, true_and,
    decide_eq_true_eq]

/-- NDATA register by register. -/
theorem sizes_sum_eq_foldr (t : TopoParams) (h : t.ngroups.toNat ≤ 8) :
    t.sizes.sum = ((List.finRange 8).filter fun i => decide (i.val < t.ngroups.toNat)).foldr
      (fun i n => t.gsize[i].toNat + n) 0 := by
  rw [sizes_eq_map_filter t h, List.sum_eq_foldr, List.foldr_map]

/-! ### The check -/

/-- V8: the scheme codes are 0 and 1. -/
theorem toNat_le_one_iff (w : Word) : w.toNat ≤ 1 ↔ w = 0 ∨ w = 1 := by bv_omega

/-- The check as a proposition: V1 to V8 over the list of group sizes. -/
theorem valid_iff (t : TopoParams) : t.valid = true ↔
    (1 ≤ t.ngroups.toNat ∧ t.ngroups.toNat ≤ 8)
      ∧ (∀ n ∈ t.sizes, 1 ≤ n)
      ∧ t.sizes.sum + t.ngroups.toNat + 1 + t.spares.toNat = t.dpd.toNat
      ∧ t.dpd.toNat ≤ 64
      ∧ (1 ≤ t.total.toNat ∧ t.total.toNat ≤ 512 ∧ t.total.toNat % t.dpd.toNat = 0)
      ∧ (t.total.toNat / t.dpd.toNat ≤ 32 ∧ t.total.toNat / t.dpd.toNat * t.ngroups.toNat ≤ 64)
      ∧ (1 ≤ t.chunks.toNat ∧ t.chunks.toNat ≤ 2 ^ 20)
      ∧ t.scheme.toNat ≤ 1 := by
  simp only [TopoParams.valid, Bool.and_eq_true, decide_eq_true_eq, List.all_eq_true, and_assoc]
  exact Iff.rfl

/-- Settles O22: V3 and a data drive per group give the bound on DPD; V1 lets V2 and V3 be read off the eight size
registers. -/
theorem configCheckConditions : Obligations.ConfigCheckConditions := by
  refine ⟨fun t h => (t.bounds_of_valid h).three_le_dpd, fun t => ?conditions⟩
  case conditions =>
    rw [valid_iff]
    refine and_congr_right fun ⟨_, hng⟩ => ?_
    rw [sizes_pos_iff t hng, sizes_sum_eq_foldr t hng, toNat_le_one_iff]

end Sys2Proof.Proofs
end

section
/-! PROOFS. CLASS_VALID and the CLASS_* registers: which commands set, clear or leave them
(44_integrity_rebuild.md R302). -/

namespace Sys2Proof.Proofs

open Sys2Proof.Machine

/-! ### The classification of a state -/

/-- The CLASS_* registers (10_state.md R48 to R50). -/
def classRegs (s : State) : BitVec 128 × BitVec 64 × BitVec 2 := (s.classGrp, s.classDom, s.classRollup)

/-- CLASS_VALID and the registers it speaks of (44_integrity_rebuild.md R302). -/
def classes (s : State) : Bool × BitVec 128 × BitVec 64 × BitVec 2 := (s.classValid, classRegs s)

theorem classRegs_eq_iff {s t : State} :
    classRegs t = classRegs s ↔
      t.classGrp = s.classGrp ∧ t.classDom = s.classDom ∧ t.classRollup = s.classRollup := by
  simp only [classRegs, Prod.mk.injEq]

theorem classes_eq_iff {s : State} {v : Bool} {r : BitVec 128 × BitVec 64 × BitVec 2} :
    classes s = (v, r) ↔ s.classValid = v ∧ classRegs s = r := by
  simp only [classes, Prod.mk.injEq]

@[simp] theorem classes_finish (e : ErrCode) (s : State) : classes (finish e s) = classes s := rfl
@[simp] theorem classes_setBuf (s : State) (b : Nat) (x : Chunk) : classes (s.setBuf b x) = classes s := rfl
@[simp] theorem classes_writeReport (s : State) (n : Nat) (e : ReportEntry) :
    classes (s.writeReport n e) = classes s := rfl

@[simp] theorem classes_commitRebuild (s : State) (st : Strategy) (p D k q : Nat) :
    classes (s.commitRebuild st p D k q) = classes s := by
  cases st <;> rfl

/-- Accesses to the drives leave the classification. -/
theorem classes_of_drivesOnly {s t : State} (h : DrivesOnly s t) : classes t = classes s := by rw [h]; rfl

theorem classes_of_readsOnly {s t : State} (h : ReadsOnly s t) : classes t = classes s :=
  classes_of_drivesOnly h.drivesOnly

/-! ### Commands that leave the classification -/

section Commands

variable {s t : State}

/-- A command that ends after a run of slot reads by their error. -/
theorem readSlots_err_end_classes {D c : Nat} {ks : List Nat} {s1 : State} (hr : readSlots D c ks s = .err s1) :
    classes (finish .driveIo s1) = classes s := by
  rw [classes_finish, classes_of_readsOnly (readSlots_err_readsOnly hr)]

/-- The last accesses of WRITE_CHUNK and ENCODE_STRIPE: a run of slot writes, all answered ok or stopped by an error. -/
theorem writeSlots_end_classes {D c : Nat} {xs : SlotChunks}
    (h : (∃ s1, writeSlots D c xs s = .err s1 ∧ t = finish .driveIo s1)
      ∨ ∃ s1, writeSlots D c xs s = .ok () s1 ∧ t = finish .none s1) : classes t = classes s := by
  rcases h with ⟨_, hw, rfl⟩ | ⟨_, hw, rfl⟩
  · rw [classes_finish, classes_of_drivesOnly (writeSlots_err_drivesOnly hw)]
  · rw [classes_finish, classes_of_drivesOnly (writeSlots_drivesOnly hw)]

/-- A drive's chunk into a buffer, or its read error: READ_CHUNK, and DECODE_CHUNK of an online drive. -/
theorem rdchunk_toBuf_classes {q c : Nat} {b : BitVec 3}
    (h : (∃ s1, rdchunk q c s = .err s1 ∧ t = finish .driveIo s1)
      ∨ ∃ x s1, rdchunk q c s = .ok x s1 ∧ t = finish .none (s1.setBuf b.toNat x)) : classes t = classes s := by
  rcases h with ⟨_, hr, rfl⟩ | ⟨_, _, hr, rfl⟩
  · rw [classes_finish, classes_of_readsOnly (rdchunk_err_readsOnly hr)]
  · rw [classes_finish, classes_setBuf, classes_of_readsOnly (rdchunk_readsOnly hr)]

theorem execWriteChunk_classes {p : BitVec 16} {b : BitVec 3} (h : execWriteChunk p b s = .next t) :
    classes t = classes s := by
  rcases execWriteChunk_next h with
    ⟨_, -, rfl⟩ | ⟨_, -, -, -, -, -, -, ⟨_, hr, rfl⟩ | ⟨_, _, hr, hw⟩⟩
  · rw [classes_finish]
  · exact readSlots_err_end_classes hr
  · exact (writeSlots_end_classes hw).trans (classes_of_readsOnly (readSlots_readsOnly hr))

theorem execEncodeStripe_classes {D : BitVec 16} (h : execEncodeStripe D s = .next t) : classes t = classes s := by
  rcases execEncodeStripe_next h with ⟨_, -, rfl⟩ | ⟨-, -, -, -, ⟨_, hr, rfl⟩ | ⟨_, _, hr, hw⟩⟩
  · rw [classes_finish]
  · exact readSlots_err_end_classes hr
  · exact (writeSlots_end_classes hw).trans (classes_of_readsOnly (readSlots_readsOnly hr))

theorem execReadChunk_classes {p : BitVec 16} {b : BitVec 3} (h : execReadChunk p b s = .next t) :
    classes t = classes s := by
  rcases execReadChunk_next h with ⟨_, -, rfl⟩ | ⟨-, -, -, -, hr⟩
  · rfl
  · exact rdchunk_toBuf_classes hr

theorem execPeek_classes {p : BitVec 16} (h : execPeek p s = .next t) : classes t = classes s := by
  rcases execPeek_next h with ⟨_, -, rfl⟩ | ⟨-, -, -, -, ⟨_, hr, rfl⟩ | ⟨_, _, hr, rfl⟩⟩
  · rfl
  · obtain ⟨-, -, rfl⟩ := (driveRead_err_iff _ _ _ _ _ _).1 hr
    rfl
  · obtain ⟨-, -, -, rfl⟩ := (driveRead_ok_iff _ _ _ _ _ _ _).1 hr
    rfl

theorem execDecodeChunk_classes {p : BitVec 16} {b : BitVec 3} (h : execDecodeChunk p b s = .next t) :
    classes t = classes s := by
  rcases execDecodeChunk_next h with
    ⟨_, -, rfl⟩ | ⟨_, -, -, -, -, ⟨-, hr⟩ | ⟨-, -, ⟨_, hr, rfl⟩ | ⟨_, _, hr, rfl⟩⟩⟩
  · rfl
  · exact rdchunk_toBuf_classes hr
  · exact readSlots_err_end_classes hr
  · rw [classes_finish, classes_setBuf, classes_of_readsOnly (readSlots_readsOnly hr)]

/-- The commands R302 does not name: none of them sets or clears CLASS_VALID. -/
def leavesClasses : Instr → Bool
  | .init | .reset | .setOnlineDrive _ _ | .setOnlineDomain _ _ | .classify | .rebuild _ => false
  | .nop | .writeChunk _ _ | .encodeStripe _ | .recombine _ | .readChunk _ _ | .peek _ | .decodeChunk _ _
  | .queryDrive _ | .queryGroup _ | .querySlot _ => true

/-- R302, "no other command changes it": neither the flag nor the registers. -/
theorem exec_classes_of_leavesClasses {i : Instr} (h : exec i s = .next t) (hi : leavesClasses i = true) :
    classes t = classes s := by
  cases i with
  | init | reset | setOnlineDrive | setOnlineDomain | classify | rebuild => exact absurd hi Bool.false_ne_true
  | nop => rw [finishWith_next h, classes_finish]
  | writeChunk p b => exact execWriteChunk_classes h
  | encodeStripe D => exact execEncodeStripe_classes h
  | recombine b => rcases execRecombine_next h with ⟨-, rfl⟩ | ⟨-, rfl⟩ <;> rfl
  | readChunk p b => exact execReadChunk_classes h
  | peek p => exact execPeek_classes h
  | decodeChunk p b => exact execDecodeChunk_classes h
  | queryDrive p => rcases execQueryDrive_next h with ⟨_, -, rfl⟩ | ⟨-, -, rfl⟩ <;> rfl
  | queryGroup G => rcases execQueryGroup_next h with ⟨_, -, rfl⟩ | ⟨-, -, rfl⟩ <;> rfl
  | querySlot D => rcases execQuerySlot_next h with ⟨_, -, rfl⟩ | ⟨-, -, rfl⟩ <;> rfl

/-! ### Commands that clear CLASS_VALID on success -/

/-- An error with nothing done, or success with CLASS_VALID cleared: the shape of INIT and SET_ONLINE_*. -/
theorem classValid_of_clearedOnSuccess {u : State} (hu : u.classValid = false)
    (h : (∃ e, e ≠ .none ∧ t = finish e s) ∨ t = finish .none u) :
    t.classValid = (s.classValid && decide (t.err ≠ .none)) := by
  rcases h with ⟨e, he, rfl⟩ | rfl
  · rw [finish_classValid, finish_err, decide_eq_true he, Bool.and_true]
  · rw [finish_classValid, finish_err, hu, decide_eq_false (not_not.2 rfl), Bool.and_false]

theorem execInit_classValid (h : execInit s = .next t) :
    t.classValid = (s.classValid && decide (t.err ≠ .none)) :=
  classValid_of_clearedOnSuccess (buildTopology_classValid s) ((execInit_next h).imp_right fun ⟨_, _, ht⟩ => ht)

/-- SET_ONLINE_DRIVE: CLASS_VALID is cleared on success only, and the registers stay. -/
theorem execSetOnlineDrive_classes {p : BitVec 16} {b : Bool} (h : execSetOnlineDrive p b s = .next t) :
    classes t = (s.classValid && decide (t.err ≠ .none), classRegs s) := by
  have hn := execSetOnlineDrive_next h
  refine classes_eq_iff.2 ⟨classValid_of_clearedOnSuccess rfl (hn.imp_right fun ⟨_, _, ht⟩ => ht), ?regs⟩
  case regs => rcases hn with ⟨_, -, rfl⟩ | ⟨-, -, rfl⟩ <;> rfl

/-- SET_ONLINE_DOMAIN: CLASS_VALID is cleared on success only, and the registers stay. -/
theorem execSetOnlineDomain_classes {D : BitVec 16} {b : Bool} (h : execSetOnlineDomain D b s = .next t) :
    classes t = (s.classValid && decide (t.err ≠ .none), classRegs s) := by
  have hn := execSetOnlineDomain_next h
  refine classes_eq_iff.2 ⟨classValid_of_clearedOnSuccess rfl (hn.imp_right fun ⟨_, _, ht⟩ => ht), ?regs⟩
  case regs => rcases hn with ⟨_, -, rfl⟩ | ⟨-, -, rfl⟩ <;> rfl

/-! ### CLASSIFY -/

/-- CLASSIFY sets CLASS_VALID where there is a topology to classify, and leaves it otherwise. -/
theorem execClassify_classValid (h : execClassify s = .next t) : t.classValid = (s.classValid || s.initialized) := by
  rcases execClassify_next h with ⟨hi, ht⟩ | ⟨hi, ht, -⟩
  · rw [ht, hi, finish_classValid, Bool.or_false]
  · rw [ht, hi, finish_classValid, Bool.or_true]

/-! ### REBUILD -/

/-- Rebuilding one target leaves the classification, whatever becomes of it. -/
theorem rebuildOne_classes {st : Strategy} {on : BitVec 512} {F : Nat → Nat → Bool} {p : Nat} {e : ReportEntry}
    (h : rebuildOne st on F p s = some (e, t)) : classes t = classes s := by
  rcases rebuildOne_cases h with
    ⟨-, rfl, -⟩ | ⟨_, -, ⟨-, rfl, -⟩ | ⟨-, ⟨-, rfl, -⟩ | ⟨-, ⟨-, rfl, -⟩ | ⟨_, -, hrun⟩⟩⟩⟩
  · rfl
  · rfl
  · rfl
  · rfl
  · rcases hrun with ⟨c, hrun, -⟩ | ⟨s1, hrun, rfl, -⟩
    · exact classes_of_drivesOnly (rebuildChunks_frame _ _ _ _ _ _ _ _ (.inr ⟨c, hrun⟩)).1
    · rw [classes_commitRebuild]
      exact classes_of_drivesOnly (rebuildChunks_frame _ _ _ _ _ _ _ _ (.inl hrun)).1

/-- So does rebuilding a list of targets and reporting on them. -/
theorem rebuildTargets_classes {st : Strategy} {on : BitVec 512} {F : Nat → Nat → Bool} {ps : List Nat} {n : Nat}
    {es : List ReportStatus} (h : rebuildTargets st on F ps n s = some (es, t)) : classes t = classes s :=
  rebuildTargets_induct (fun u => classes u = classes s) h rfl
    (fun _ _ _ _ _ hu hone => (rebuildOne_classes hone).trans hu) fun u n e hu => (classes_writeReport u n e).trans hu

/-- The operand checks of REBUILD pass: there is a topology, and every target is one of its drives
(44_integrity_rebuild.md R311). -/
def rebuildChecks (s : State) : Bool := s.initialized && s.opTargets.all fun p => decide (p < s.total)

theorem rebuildChecks_iff : rebuildChecks s = true ↔ s.initialized = true ∧ ∀ p ∈ s.opTargets, p < s.total := by
  simp only [rebuildChecks, Bool.and_eq_true, List.all_eq_true, decide_eq_true_eq]

theorem rebuildChecks_eq_false (h : s.initialized = false ∨ ∃ p ∈ s.opTargets, s.total ≤ p) :
    rebuildChecks s = false := by
  rw [← Bool.not_eq_true, rebuildChecks_iff]
  rintro ⟨hi, hall⟩
  rcases h with h | ⟨p, hp, hle⟩
  · exact Bool.false_ne_true (h.symm.trans hi)
  · exact absurd (hall p hp) (Nat.not_lt.2 hle)

/-- REBUILD: CLASS_VALID is cleared where the operand checks pass, whatever the outcome, and the registers stay. -/
theorem execRebuild_classes {st : Strategy} (h : execRebuild st s = .next t) :
    classes t = (s.classValid && !rebuildChecks s, classRegs s) := by
  rcases execRebuild_next h with ⟨_, -, rfl, herr⟩ | ⟨hi, hall, _, s1, hrun, rfl⟩
  · rw [rebuildChecks_eq_false herr, Bool.not_false, Bool.and_true]
    rfl
  · rw [rebuildChecks_iff.2 ⟨hi, hall⟩, Bool.not_true, Bool.and_false, classes_finish, rebuildTargets_classes hrun]
    rfl

end Commands

/-- Settles O28: by command, from what each leaves of the classification; hardware reset starts from the reset state. -/
theorem classValidSetAndCleared : Obligations.ClassValidSetAndCleared := by
  refine ⟨?flag, ?regs, ?hardwareReset⟩
  case flag =>
    intro i s t h
    cases i with
    | classify => exact execClassify_classValid h
    | setOnlineDrive p b => exact (classes_eq_iff.1 (execSetOnlineDrive_classes h)).1
    | setOnlineDomain D b => exact (classes_eq_iff.1 (execSetOnlineDomain_classes h)).1
    | init => exact execInit_classValid h
    | reset => rw [execReset_next h, finish_classValid]
    | rebuild st => exact (classes_eq_iff.1 (execRebuild_classes (st := st) h)).1
    | _ => exact congrArg Prod.fst (exec_classes_of_leavesClasses h rfl)
  case regs =>
    intro i s t h hclassify hinit hreset
    rw [← classRegs_eq_iff]
    cases i with
    | classify => exact absurd rfl hclassify
    | init => exact absurd rfl hinit
    | reset => exact absurd rfl hreset
    | setOnlineDrive p b => exact (classes_eq_iff.1 (execSetOnlineDrive_classes h)).2
    | setOnlineDomain D b => exact (classes_eq_iff.1 (execSetOnlineDomain_classes h)).2
    | rebuild st => exact (classes_eq_iff.1 (execRebuild_classes (st := st) h)).2
    | _ => exact congrArg Prod.snd (exec_classes_of_leavesClasses h rfl)
  case hardwareReset =>
    intro s t n junk bufs report rest hin h
    rw [step, advance, hin] at h
    rw [← Host.Outcome.next.inj h]
    rfl

end Sys2Proof.Proofs
end

section
/-! PROOFS. Encoding and decoding of command words (30_encoding.md R121 to R125, R141, R143). -/

namespace Sys2Proof.Proofs

open Sys2Proof

/-! ### The row of a command (30_encoding.md R123) -/

/-- The table row of a command, with its operands in it. -/
def rowOf (i : Instr) : DecodeRow :=
  match i with
  | .nop | .init | .reset | .classify => ⟨false, false, false, i⟩
  | .setOnlineDrive _ _ | .setOnlineDomain _ _ => ⟨true, false, true, i⟩
  | .writeChunk _ _ | .readChunk _ _ | .decodeChunk _ _ => ⟨false, true, true, i⟩
  | .encodeStripe _ | .peek _ | .queryDrive _ | .queryGroup _ | .querySlot _ => ⟨false, false, true, i⟩
  | .recombine _ => ⟨false, true, false, i⟩
  | .rebuild _ => ⟨true, false, false, i⟩

@[simp] theorem strategyOfFlag_flagOfStrategy (st : Strategy) : strategyOfFlag (flagOfStrategy st) = st := by
  cases st <;> rfl

@[simp] theorem flagOfStrategy_strategyOfFlag (f : Bool) : flagOfStrategy (strategyOfFlag f) = f := by
  cases f <;> rfl

theorem rowOf_instr (i : Instr) : (rowOf i).instr = i := by cases i <;> rfl

/-- The OPC of a command's word selects the command's row. -/
theorem decodeRow_encode (i : Instr) : decodeRow (encode i) = some (rowOf i) := by
  cases i <;> simp [decodeRow, encode, rowOf]

/-- The fields of a command's word: RSV is 0, and so are the fields its row does not use; BUF names a buffer where the row
uses it and the command is well formed. -/
theorem fields_encode (i : Instr) :
    fieldRsv (encode i) = 0 ∧ ((rowOf i).usesF = false → fieldF (encode i) = false)
      ∧ ((rowOf i).usesBuf = false → fieldBuf (encode i) = 0) ∧ ((rowOf i).usesId = false → fieldId (encode i) = 0)
      ∧ (i.wellFormed = true → (rowOf i).usesBuf = true → bufferInRange (fieldBuf (encode i)) = true) := by
  cases i <;> simp [encode, rowOf, Instr.wellFormed]

/-- Settles O1: the command's word selects its row, and its fields pass every check of the row. -/
theorem decodeOfEncode : Obligations.DecodeOfEncode := by
  intro i hwf
  obtain ⟨hr, hf, hb, hi, hn⟩ := fields_encode i
  rw [decode_of_row (encode i) (rowOf i) (decodeRow_encode i) hr hf hb hi (hn hwf), rowOf_instr]

/-! ### A word that decodes -/

theorem fieldOpc_eq {w : Word} {n : Nat} (h : (fieldOpc w).toNat = n) : fieldOpc w = BitVec.ofNat 8 n := by
  rw [← h, BitVec.ofNat_toNat, BitVec.setWidth_eq]

/-- The command of a row, encoded, is the row's OPC with the fields the row uses. -/
theorem encode_of_decodeRow {w : Word} {row : DecodeRow} (h : decodeRow w = some row) :
    encode row.instr = encodeFields (fieldOpc w) (if row.usesId then fieldId w else 0) (row.usesF && fieldF w)
        (if row.usesBuf then fieldBuf w else 0)
      ∧ row.instr.wellFormed = (!row.usesBuf || bufferInRange (fieldBuf w)) := by
  unfold decodeRow at h
  split at h
  case h_17 => cases h
  all_goals
    rename_i ho
    obtain rfl := Option.some.inj h
    rw [fieldOpc_eq ho]
    simp [encode, Instr.wellFormed]

/-- A word that decodes is the word of its command, which is well formed. -/
theorem encode_of_decode {w : Word} {i : Instr} (h : decode w = .ok i) : encode i = w ∧ i.wellFormed = true := by
  obtain ⟨row, hrow, rfl, hr, hf, hb, hi, hn⟩ := row_of_decode w i h
  obtain ⟨henc, hwf⟩ := encode_of_decodeRow hrow
  have hId : (if row.usesId then fieldId w else 0) = fieldId w := by
    cases hu : row.usesId
    · rw [hi hu]; rfl
    · rfl
  have hBuf : (if row.usesBuf then fieldBuf w else 0) = fieldBuf w := by
    cases hu : row.usesBuf
    · rw [hb hu]; rfl
    · rfl
  have hF : (row.usesF && fieldF w) = fieldF w := by
    cases hu : row.usesF
    · rw [hf hu]; rfl
    · rfl
  refine ⟨by rw [henc, hId, hBuf, hF, encodeFields_fields w hr], ?_⟩
  rw [hwf]
  cases hu : row.usesBuf
  · rfl
  · rw [hn hu]; rfl

/-! ### Rows and masks (30_encoding.md R125, last sentence) -/

/-- Which fields the row of an OPC uses: F, BUF, ID (30_encoding.md R123). -/
def usesOf : Nat → Option (Bool × Bool × Bool)
  | 0x00 | 0x01 | 0x02 | 0x40 => some (false, false, false)
  | 0x10 | 0x11 => some (true, false, true)
  | 0x20 | 0x30 | 0x32 => some (false, true, true)
  | 0x21 | 0x31 | 0x50 | 0x51 | 0x52 => some (false, false, true)
  | 0x22 => some (false, true, false)
  | 0x41 => some (true, false, false)
  | _ => none

/-- The row of a word's OPC, as far as its fields go. -/
theorem usesOf_fieldOpc (w : Word) :
    usesOf (fieldOpc w).toNat = (decodeRow w).map fun row => (row.usesF, row.usesBuf, row.usesId) := by
  unfold decodeRow
  split
  case h_17 =>
    unfold usesOf
    split <;> simp_all
  all_goals
    rename_i ho
    rw [ho]
    rfl

/-- The checks of R125 on a word whose row uses the fields `f`, `b` and `d` say. -/
def fieldsAllowed (w : Word) (f b d : Bool) : Prop :=
  fieldRsv w = 0 ∧ (f = false → fieldF w = false) ∧ (b = false → fieldBuf w = 0) ∧ (d = false → fieldId w = 0)
    ∧ (b = true → bufferInRange (fieldBuf w) = true)

/-- A word decodes exactly when its OPC has a row and its fields pass the row's checks. -/
theorem decodes_iff (w : Word) :
    (∃ i, decode w = .ok i) ↔ ∃ f b d, usesOf (fieldOpc w).toNat = some (f, b, d) ∧ fieldsAllowed w f b d := by
  rw [usesOf_fieldOpc]
  constructor
  · rintro ⟨i, h⟩
    obtain ⟨row, hrow, -, hfields⟩ := row_of_decode w i h
    exact ⟨_, _, _, by rw [hrow]; rfl, hfields⟩
  · rintro ⟨f, b, d, hu, hr, hf, hb, hi, hn⟩
    obtain ⟨row, hrow, huses⟩ := Option.map_eq_some_iff.1 hu
    simp only [Prod.mk.injEq] at huses
    obtain ⟨rfl, rfl, rfl⟩ := huses
    exact ⟨_, decode_of_row w row hrow hr hf hb hi hn⟩

/-- The mask of a row: OPC, RSV, every field the row does not use, and of a BUF it uses the top bit, which no buffer
number sets (30_encoding.md R125). -/
def maskOf (f b d : Bool) : Word :=
  (if d then 0#16 else 0xFFFF#16) ++ 0xF#4 ++ (if b then 4#3 else 7#3) ++ BitVec.ofBool (!f) ++ 0xFF#8

theorem bufferInRange_iff (b : BitVec 3) : bufferInRange b = true ↔ b &&& 4#3 = 0 := by
  revert b; decide

/-- Two words are equal when their fields are. -/
theorem word_eq_iff (v w : Word) :
    v = w ↔ fieldOpc v = fieldOpc w ∧ fieldF v = fieldF w ∧ fieldBuf v = fieldBuf w ∧ fieldRsv v = fieldRsv w
      ∧ fieldId v = fieldId w := by
  refine ⟨by rintro rfl; exact ⟨rfl, rfl, rfl, rfl, rfl⟩, fun ⟨ho, hf, hb, hr, hd⟩ => ?_⟩
  have fields : ∀ u : Word, fieldId u ++ fieldRsv u ++ fieldBuf u ++ BitVec.ofBool (fieldF u) ++ fieldOpc u = u := by
    intro u
    unfold fieldId fieldRsv fieldBuf fieldF fieldOpc
    apply BitVec.eq_of_getLsbD_eq
    intro i hi
    simp only [BitVec.getLsbD_append, BitVec.getLsbD_extractLsb', BitVec.getLsbD_ofBool]
    grind
  rw [← fields v, ← fields w, ho, hf, hb, hr, hd]

theorem fieldOpc_and (v w : Word) : fieldOpc (v &&& w) = fieldOpc v &&& fieldOpc w := BitVec.extractLsb'_and
theorem fieldF_and (v w : Word) : fieldF (v &&& w) = (fieldF v && fieldF w) := BitVec.getLsbD_and
theorem fieldBuf_and (v w : Word) : fieldBuf (v &&& w) = fieldBuf v &&& fieldBuf w := BitVec.extractLsb'_and
theorem fieldRsv_and (v w : Word) : fieldRsv (v &&& w) = fieldRsv v &&& fieldRsv w := BitVec.extractLsb'_and
theorem fieldId_and (v w : Word) : fieldId (v &&& w) = fieldId v &&& fieldId w := BitVec.extractLsb'_and

theorem fields_maskOf (f b d : Bool) :
    fieldOpc (maskOf f b d) = BitVec.allOnes 8 ∧ fieldF (maskOf f b d) = !f
      ∧ fieldBuf (maskOf f b d) = (if b then 4#3 else BitVec.allOnes 3) ∧ fieldRsv (maskOf f b d) = BitVec.allOnes 4
      ∧ fieldId (maskOf f b d) = if d then 0 else BitVec.allOnes 16 := by
  revert f b d; decide

theorem fields_setWidth (o : BitVec 8) :
    fieldOpc (o.setWidth 32) = o ∧ fieldF (o.setWidth 32) = false ∧ fieldBuf (o.setWidth 32) = 0
      ∧ fieldRsv (o.setWidth 32) = 0 ∧ fieldId (o.setWidth 32) = 0 := by
  have h : o.setWidth 32 = encodeFields o 0 false 0 := by
    apply BitVec.eq_of_getLsbD_eq
    intro i hi
    rw [getLsbD_encodeFields, BitVec.getLsbD_setWidth]
    by_cases h8 : i < 8
    · simp [h8, hi]
    · simp [h8, BitVec.getLsbD_of_ge o i (by omega)]
  simp [h]

/-- A field under a mask that is all ones, or drops it where the row uses it. -/
theorem masked_eq_zero_iff {n : Nat} (x m : BitVec n) (u : Bool) :
    x &&& (if u then m else BitVec.allOnes n) = 0 ↔ (u = false → x = 0) ∧ (u = true → x &&& m = 0) := by
  cases u
  · rw [if_neg Bool.false_ne_true, BitVec.and_allOnes]
    exact ⟨fun h => ⟨fun _ => h, fun h' => absurd h' Bool.false_ne_true⟩, fun h => h.1 rfl⟩
  · exact ⟨fun h => ⟨fun h' => absurd h'.symm Bool.false_ne_true, fun _ => h⟩, fun h => h.2 rfl⟩

/-- A word matches the mask and pattern of a row exactly when it has the row's OPC and its fields pass. -/
theorem match_iff (w : Word) (o : BitVec 8) (f b d : Bool) :
    w &&& maskOf f b d = o.setWidth 32 ↔ fieldOpc w = o ∧ fieldsAllowed w f b d := by
  obtain ⟨mo, mf, mb, mr, md⟩ := fields_maskOf f b d
  obtain ⟨po, pf, pb, pr, pd⟩ := fields_setWidth o
  rw [word_eq_iff, fieldOpc_and, fieldF_and, fieldBuf_and, fieldRsv_and, fieldId_and, mo, mf, mb, mr, md, po, pf, pb, pr,
    pd, BitVec.and_allOnes, BitVec.and_allOnes, masked_eq_zero_iff, masked_eq_zero_iff, fieldsAllowed, bufferInRange_iff]
  have hF : (fieldF w && !f) = false ↔ (f = false → fieldF w = false) := by cases f <;> simp
  have hId : d = true → fieldId w &&& 0 = 0 := fun _ => BitVec.and_zero
  rw [hF]
  tauto

/-- The rows of the table are the OPCs with a row, each with the mask of the fields it uses. -/
theorem mem_opcodeRows {r : OpcodeRow} (h : r ∈ opcodeRows) :
    ∃ (o : BitVec 8) (f b d : Bool), usesOf o.toNat = some (f, b, d) ∧ r.mask = maskOf f b d
      ∧ r.pattern = o.setWidth 32 := by
  have rows : ∀ r ∈ opcodeRows, (usesOf (fieldOpc r.pattern).toNat).elim false (fun u =>
      decide (r.mask = maskOf u.1 u.2.1 u.2.2 ∧ r.pattern = (fieldOpc r.pattern).setWidth 32)) = true := by decide
  have hr := rows r h
  cases hu : usesOf (fieldOpc r.pattern).toNat with
  | none => rw [hu] at hr; cases hr
  | some u =>
    rw [hu] at hr
    exact ⟨_, _, _, _, hu, of_decide_eq_true hr⟩

theorem exists_opcodeRow {n : Nat} {f b d : Bool} (h : usesOf n = some (f, b, d)) :
    ∃ r ∈ opcodeRows, r.mask = maskOf f b d ∧ r.pattern = (BitVec.ofNat 8 n).setWidth 32 := by
  unfold usesOf at h
  split at h
  case h_17 => cases h
  all_goals
    simp only [Option.some.injEq, Prod.mk.injEq] at h
    obtain ⟨rfl, rfl, rfl⟩ := h
    decide

/-- Settles O2: the command's word has the word's fields, and each row's mask tests the row's checks. -/
theorem encodeOfDecode : Obligations.EncodeOfDecode := by
  refine ⟨fun w i h => encode_of_decode h, fun w => ?rows⟩
  case rows =>
    rw [decodes_iff]
    constructor
    · rintro ⟨f, b, d, hu, hok⟩
      obtain ⟨r, hr, hm, hp⟩ := exists_opcodeRow hu
      refine ⟨r, hr, ?_⟩
      rw [hm, hp, match_iff]
      exact ⟨fieldOpc_eq rfl, hok⟩
    · rintro ⟨r, hr, hmatch⟩
      obtain ⟨o, f, b, d, hu, hm, hp⟩ := mem_opcodeRows hr
      rw [hm, hp, match_iff] at hmatch
      obtain ⟨rfl, hok⟩ := hmatch
      exact ⟨f, b, d, hu, hok⟩

/-- Settles O3, word by word. -/
theorem specWordsDecode : Obligations.SpecWordsDecode := by
  unfold Obligations.SpecWordsDecode
  decide

end Sys2Proof.Proofs
end

section
/-! PROOFS. Frames: the fields a host write and each command may change, and the one induction over the inputs of a step
(10_state.md R32, R67; 60_exceptions.md R341; 70_reset_and_hazards.md R386). -/

namespace Sys2Proof.Proofs

open Sys2Proof.Machine

/-! ### Commands (70_reset_and_hazards.md R386) -/

/-- `s` with every field that the rules of command `i` let it write, but for the completion's, taken from `t`. -/
def written (i : Instr) (s t : State) : State :=
  match i with
  | .nop => s
  | .init | .reset =>
    { s with
      topo := t.topo, derived := t.derived, online := t.online, serve := t.serve, pstate := t.pstate
      classGrp := t.classGrp, classDom := t.classDom, classRollup := t.classRollup, classValid := t.classValid
      reportCount := t.reportCount, initialized := t.initialized }
  | .setOnlineDrive _ _ | .setOnlineDomain _ _ => { s with online := t.online, classValid := t.classValid }
  | .writeChunk _ _ | .encodeStripe _ =>
    { s with drives := t.drives, responses := t.responses, traffic := t.traffic }
  | .recombine _ => { s with bufs := t.bufs }
  | .readChunk _ _ | .decodeChunk _ _ =>
    { s with bufs := t.bufs, responses := t.responses, traffic := t.traffic }
  | .peek _ => { s with peekData := t.peekData, responses := t.responses, traffic := t.traffic }
  | .classify =>
    { s with
      classGrp := t.classGrp, classDom := t.classDom, classRollup := t.classRollup, classValid := t.classValid }
  | .rebuild _ =>
    { s with
      classValid := t.classValid, reportCount := t.reportCount, report := t.report, online := t.online
      serve := t.serve, pstate := t.pstate, drives := t.drives, responses := t.responses, traffic := t.traffic }
  | .queryDrive _ | .queryGroup _ | .querySlot _ => { s with qres0 := t.qres0, qres1 := t.qres1 }

/-- Reads at the drive port use up answers and make traffic, and that is all. -/
theorem exists_of_readsOnly {s t : State} (h : ReadsOnly s t) :
    ∃ rs tr, t = { s with responses := rs, traffic := tr } := ⟨_, _, h⟩

section Commands

variable {s t : State}

theorem execWriteChunk_drivesOnly {p : BitVec 16} {b : BitVec 3} (h : execWriteChunk p b s = .next t) :
    ∃ e u, t = finish e u ∧ DrivesOnly s u := by
  rcases execWriteChunk_next h with ⟨_, -, rfl⟩
    | ⟨_, -, -, -, -, -, -, ⟨_, hr, rfl⟩ | ⟨_, _, hr, ⟨_, hw, rfl⟩ | ⟨_, hw, rfl⟩⟩⟩
  · exact ⟨_, _, rfl, .refl s⟩
  · exact ⟨_, _, rfl, (readSlots_err_readsOnly hr).drivesOnly⟩
  · exact ⟨_, _, rfl, (readSlots_readsOnly hr).drivesOnly.trans (writeSlots_err_drivesOnly hw)⟩
  · exact ⟨_, _, rfl, (readSlots_readsOnly hr).drivesOnly.trans (writeSlots_drivesOnly hw)⟩

theorem execEncodeStripe_drivesOnly {D : BitVec 16} (h : execEncodeStripe D s = .next t) :
    ∃ e u, t = finish e u ∧ DrivesOnly s u := by
  rcases execEncodeStripe_next h with ⟨_, -, rfl⟩
    | ⟨-, -, -, -, ⟨_, hr, rfl⟩ | ⟨_, _, hr, ⟨_, hw, rfl⟩ | ⟨_, hw, rfl⟩⟩⟩
  · exact ⟨_, _, rfl, .refl s⟩
  · exact ⟨_, _, rfl, (readSlots_err_readsOnly hr).drivesOnly⟩
  · exact ⟨_, _, rfl, (readSlots_readsOnly hr).drivesOnly.trans (writeSlots_err_drivesOnly hw)⟩
  · exact ⟨_, _, rfl, (readSlots_readsOnly hr).drivesOnly.trans (writeSlots_drivesOnly hw)⟩

/-- READ_CHUNK and DECODE_CHUNK: reads, and on success one buffer. -/
theorem execReadChunk_readsOnly {p : BitVec 16} {b : BitVec 3} (h : execReadChunk p b s = .next t) :
    ∃ u, ReadsOnly s u ∧ ((∃ e, e ≠ .none ∧ t = finish e u) ∨ ∃ x, t = finish .none (u.setBuf b.toNat x)) := by
  rcases execReadChunk_next h with ⟨e, he, rfl⟩ | ⟨-, -, -, -, ⟨u, hr, rfl⟩ | ⟨x, u, hr, rfl⟩⟩
  · exact ⟨s, .refl s, .inl ⟨e, he, rfl⟩⟩
  · exact ⟨u, rdchunk_err_readsOnly hr, .inl ⟨_, by decide, rfl⟩⟩
  · exact ⟨u, rdchunk_readsOnly hr, .inr ⟨x, rfl⟩⟩

theorem execDecodeChunk_readsOnly {p : BitVec 16} {b : BitVec 3} (h : execDecodeChunk p b s = .next t) :
    ∃ u, ReadsOnly s u ∧ ((∃ e, e ≠ .none ∧ t = finish e u) ∨ ∃ x, t = finish .none (u.setBuf b.toNat x)) := by
  rcases execDecodeChunk_next h with ⟨e, he, rfl⟩
    | ⟨_, -, -, -, -, ⟨-, ⟨u, hr, rfl⟩ | ⟨x, u, hr, rfl⟩⟩ | ⟨-, -, ⟨u, hr, rfl⟩ | ⟨x, u, hr, rfl⟩⟩⟩
  · exact ⟨s, .refl s, .inl ⟨e, he, rfl⟩⟩
  · exact ⟨u, rdchunk_err_readsOnly hr, .inl ⟨_, by decide, rfl⟩⟩
  · exact ⟨u, rdchunk_readsOnly hr, .inr ⟨x, rfl⟩⟩
  · exact ⟨u, readSlots_err_readsOnly hr, .inl ⟨_, by decide, rfl⟩⟩
  · exact ⟨u, readSlots_readsOnly hr, .inr ⟨_, rfl⟩⟩

/-- PEEK: a read, and on success PEEK_DATA. -/
theorem execPeek_readsOnly {p : BitVec 16} (h : execPeek p s = .next t) :
    ∃ u, ReadsOnly s u ∧ ((∃ e, e ≠ .none ∧ t = finish e u) ∨ ∃ x, t = finish .none { u with peekData := x }) := by
  rcases execPeek_next h with ⟨e, he, rfl⟩ | ⟨-, -, -, -, ⟨u, hr, rfl⟩ | ⟨x, u, hr, rfl⟩⟩
  · exact ⟨s, .refl s, .inl ⟨e, he, rfl⟩⟩
  · exact ⟨u, ((driveRead_err_iff _ _ _ _ _ _).1 hr).2.2 ▸ .afterAccess _ _, .inl ⟨_, by decide, rfl⟩⟩
  · exact ⟨u, ((driveRead_ok_iff _ _ _ _ _ _ _).1 hr).2.2.2 ▸ .afterAccess _ _, .inr ⟨_, rfl⟩⟩

/-! ### REBUILD -/

/-- Rebuilding one target: nothing, drive accesses, or drive accesses and the commit. -/
theorem rebuildOne_drivesOnly {st : Strategy} {on : BitVec 512} {F : Nat → Nat → Bool} {p : Nat} {e : ReportEntry}
    (h : rebuildOne st on F p s = some (e, t)) :
    ∃ u, DrivesOnly s u ∧ (t = u ∨ ∃ k q, s.slotOf p = some k ∧ flagAt on p = false
      ∧ s.rebuildDest st p (s.domainOf p) = some q ∧ t = u.commitRebuild st p (s.domainOf p) k q) := by
  rcases rebuildOne_cases h with ⟨-, rfl, -⟩ | ⟨k, hk, ⟨-, rfl, -⟩ | ⟨hon, ⟨-, rfl, -⟩ | ⟨-, ⟨-, rfl, -⟩ | ⟨q, hq, hrun⟩⟩⟩⟩
  · exact ⟨t, .refl t, .inl rfl⟩
  · exact ⟨t, .refl t, .inl rfl⟩
  · exact ⟨t, .refl t, .inl rfl⟩
  · exact ⟨t, .refl t, .inl rfl⟩
  · rcases hrun with ⟨c, hrun, -⟩ | ⟨u, hrun, rfl, -⟩
    · exact ⟨t, (rebuildChunks_frame _ _ _ _ _ _ _ _ (.inr ⟨c, hrun⟩)).1, .inl rfl⟩
    · exact ⟨u, (rebuildChunks_frame _ _ _ _ _ _ _ _ (.inl hrun)).1, .inr ⟨k, q, hk, hon, hq, rfl⟩⟩

/-- `t` is `s` but for what a REBUILD may write. -/
abbrev RebuildFrame (s t : State) : Prop := t = written (.rebuild .restoreInPlace) s t

theorem RebuildFrame.of_drivesOnly {u : State} (hs : RebuildFrame s t) (h : DrivesOnly t u) : RebuildFrame s u := by
  unfold RebuildFrame at *
  rw [h, hs]
  rfl

theorem RebuildFrame.commitRebuild (h : RebuildFrame s t) (st : Strategy) (p D k q : Nat) :
    RebuildFrame s (t.commitRebuild st p D k q) := by
  unfold RebuildFrame at *
  rw [h]
  cases st <;> rfl

theorem RebuildFrame.rebuildOne {u : State} {st : Strategy} {on : BitVec 512} {F : Nat → Nat → Bool} {p : Nat}
    {e : ReportEntry} (hs : RebuildFrame s u) (h : rebuildOne st on F p u = some (e, t)) : RebuildFrame s t := by
  obtain ⟨v, hv, rfl | ⟨k, q, -, -, -, rfl⟩⟩ := rebuildOne_drivesOnly h
  · exact hs.of_drivesOnly hv
  · exact (hs.of_drivesOnly hv).commitRebuild _ _ _ _ _

theorem RebuildFrame.writeReport (h : RebuildFrame s t) (n : Nat) (e : ReportEntry) :
    RebuildFrame s (t.writeReport n e) := by
  unfold RebuildFrame at *
  rw [h]
  rfl

/-- The targets of a REBUILD, processed one by one from `s`. -/
theorem rebuildTargets_frame {u : State} {st : Strategy} {on : BitVec 512} {F : Nat → Nat → Bool} {ps : List Nat}
    {n : Nat} {es : List ReportStatus} (hs : RebuildFrame s u) (h : rebuildTargets st on F ps n u = some (es, t)) :
    RebuildFrame s t :=
  rebuildTargets_induct (RebuildFrame s) h hs (fun _ _ _ _ _ hu hone => hu.rebuildOne hone)
    fun _ n e hu => hu.writeReport n e

/-- What REBUILD starts from when its checks pass (44_integrity_rebuild.md R311). -/
def rebuildStart (s : State) : State :=
  { s with classValid := false, reportCount := BitVec.ofNat 32 s.opTargets.length }

/-- REBUILD: an error with nothing done where the checks fail; else its targets processed in order from the start. -/
theorem execRebuild_run {st : Strategy} (h : execRebuild st s = .next t) :
    (∃ e, e ≠ .none ∧ t = finish e s ∧ (s.initialized = false ∨ ∃ p ∈ s.opTargets, s.total ≤ p))
      ∨ (s.initialized = true ∧ (∀ p ∈ s.opTargets, p < s.total)
        ∧ ∃ es u, rebuildTargets st s.latch.online (failureSet s.latch.online s.serve) (s.orderTargets s.opTargets) 0
              (rebuildStart s) = some (es, u)
            ∧ t = finish (aggregateError es) u) :=
  execRebuild_next h

/-! ### All commands -/

/-- A command changes its own fields and completes. -/
theorem exec_frame {i : Instr} (h : exec i s = .next t) : t = finish t.err (written i s t) := by
  cases i with
  | nop => rw [finishWith_next h]; rfl
  | init => rcases execInit_next h with ⟨_, -, rfl⟩ | ⟨-, -, rfl⟩ <;> rfl
  | reset => rw [execReset_next h]; cases s.initialized <;> rfl
  | setOnlineDrive p b => rcases execSetOnlineDrive_next h with ⟨_, -, rfl⟩ | ⟨-, -, rfl⟩ <;> rfl
  | setOnlineDomain D b => rcases execSetOnlineDomain_next h with ⟨_, -, rfl⟩ | ⟨-, -, rfl⟩ <;> rfl
  | writeChunk p b =>
    obtain ⟨e, u, rfl, hu⟩ := execWriteChunk_drivesOnly h
    exact congrArg (finish e) hu
  | encodeStripe D =>
    obtain ⟨e, u, rfl, hu⟩ := execEncodeStripe_drivesOnly h
    exact congrArg (finish e) hu
  | recombine b => rcases execRecombine_next h with ⟨-, rfl⟩ | ⟨-, rfl⟩ <;> rfl
  | readChunk p b =>
    obtain ⟨u, hu, ht⟩ := execReadChunk_readsOnly h
    obtain ⟨rs, tr, rfl⟩ := exists_of_readsOnly hu
    rcases ht with ⟨e, -, rfl⟩ | ⟨x, rfl⟩ <;> rfl
  | peek p =>
    obtain ⟨u, hu, ht⟩ := execPeek_readsOnly h
    obtain ⟨rs, tr, rfl⟩ := exists_of_readsOnly hu
    rcases ht with ⟨e, -, rfl⟩ | ⟨x, rfl⟩ <;> rfl
  | decodeChunk p b =>
    obtain ⟨u, hu, ht⟩ := execDecodeChunk_readsOnly h
    obtain ⟨rs, tr, rfl⟩ := exists_of_readsOnly hu
    rcases ht with ⟨e, -, rfl⟩ | ⟨x, rfl⟩ <;> rfl
  | classify =>
    rcases execClassify_next h with ⟨-, rfl⟩ | ⟨-, ht, -⟩
    · rfl
    · rw [ht]; rfl
  | rebuild st =>
    have h : execRebuild st s = .next t := h
    rcases execRebuild_run h with ⟨_, -, rfl, -⟩ | ⟨-, -, es, u, hrun, rfl⟩
    · rfl
    · have hu : RebuildFrame s u := rebuildTargets_frame rfl hrun
      exact congrArg (finish (aggregateError es)) hu
  | queryDrive p => rcases execQueryDrive_next h with ⟨_, -, rfl⟩ | ⟨-, -, rfl⟩ <;> rfl
  | queryGroup G => rcases execQueryGroup_next h with ⟨_, -, rfl⟩ | ⟨-, -, rfl⟩ <;> rfl
  | querySlot D => rcases execQuerySlot_next h with ⟨_, -, rfl⟩ | ⟨-, -, rfl⟩ <;> rfl

end Commands

/-! ### Steps -/

/-- What every input keeps, every step keeps: taking an input off the list, a host read's word, a host write, a write to
IRQ_STATUS that meets a completion, a command that runs, a word that does not decode, and hardware reset. -/
theorem step_keeps (P : State → Prop)
    (hinputs : ∀ s rest, P s → P { s with inputs := rest })
    (hread : ∀ s w, P s → P { s with readData := w })
    (hwrite : ∀ s a v, P s → P (s.windowWrite a v))
    (hirq : ∀ s v, P s → P (s.writeIrqStatus v))
    (hexec : ∀ i s t, P s → exec i s = .next t → P t)
    (hillegal : ∀ s, P s → P (finish .invalidCommand s))
    (hreset : ∀ s n junk bufs report, P s → P (hardwareReset n junk bufs report s))
    {s t : State} (hs : P s) (h : step s = .next t) : P t := by
  have hcomplete : ∀ u, P u → completeFlight u = .next t → P t := by
    intro u hu hc
    unfold completeFlight at hc
    split at hc
    · rw [← Host.Outcome.next.inj hc]; exact hu
    · unfold runWord at hc
      split at hc
      · exact hexec _ _ _ hu hc
      · rw [finishWith_next hc]; exact hillegal u hu
  unfold step advance at h
  split at h
  · exact hcomplete s hs h
  · rename_i i rest _
    have hu := hinputs s rest hs
    cases i with
    | hostRead off size draw =>
      simp only [takeInput, hostRead] at h
      split at h
      · cases h
      · rw [← Host.Outcome.next.inj h]; exact hread _ _ hu
    | hostWrite off size data =>
      simp only [takeInput, hostWrite] at h
      split at h
      · cases h
      · rw [← Host.Outcome.next.inj h]; exact hwrite _ _ _ hu
    | complete => exact hcomplete _ hu h
    | completeWithIrqWrite v => exact hcomplete _ (hirq _ v hu) h
    | hardwareReset n junk bufs report =>
      rw [← Host.Outcome.next.inj h]; exact hreset _ n junk bufs report hu

/-- The fields that only the engine and hardware reset write: a host write leaves them (10_state.md R32). -/
def engineFields (s : State) : State :=
  { State.reset with
    initialized := s.initialized, classValid := s.classValid, peekData := s.peekData, qres0 := s.qres0, qres1 := s.qres1
    reportCount := s.reportCount, topo := s.topo, derived := s.derived, online := s.online, classGrp := s.classGrp
    classDom := s.classDom, classRollup := s.classRollup, report := s.report, serve := s.serve, pstate := s.pstate
    drives := s.drives, responses := s.responses, readData := s.readData }

theorem writeReg_engineFields (s : State) (v : Word) (r : Reg) : engineFields (s.writeReg v r) = engineFields s := by
  cases r <;> rfl

theorem windowWrite_engineFields (s : State) (a : Nat) (v : Word) :
    engineFields (s.windowWrite a v) = engineFields s := by
  unfold State.windowWrite
  split
  · rfl
  · split
    · rfl
    · exact writeReg_engineFields s v _

end Sys2Proof.Proofs
end

section
/-! PROOFS. Every step keeps the byte memories canonical and the latched operands equal to their registers
(10_state.md R34, R66, R67). -/

namespace Sys2Proof.Proofs

open Sys2Proof.Machine

/-! ### Canonical memories -/

section Memories

variable {s t : State}

theorem writeSlots_wf {D c : Nat} {xs : SlotChunks}
    (h : (∃ u, writeSlots D c xs s = .err u ∧ t = finish .driveIo u)
      ∨ ∃ u, writeSlots D c xs s = .ok () u ∧ t = finish .none u) (hs : Memory.wf s.drives) : Memory.wf t.drives := by
  rcases h with ⟨u, hw, rfl⟩ | ⟨u, hw, rfl⟩
  · obtain ⟨_, _, _, _, _, -, -, rfl⟩ := writeSlots_err hw
    exact withChunk_wf _ _ _ _ (writeAll_wf _ _ _ _ _ hs)
  · obtain ⟨rfl, -⟩ := writeSlots_ok hw
    exact writeAll_wf _ _ _ _ _ hs

theorem execWriteChunk_wf {p : BitVec 16} {b : BitVec 3} (h : execWriteChunk p b s = .next t)
    (hs : Memory.wf s.drives) : Memory.wf t.drives := by
  rcases execWriteChunk_next h with ⟨_, -, rfl⟩ | ⟨_, -, -, -, -, -, -, ⟨u, hr, rfl⟩ | ⟨_, u, hr, hw⟩⟩
  · exact hs
  · rw [finish_drives, (readSlots_err_readsOnly hr).drives]; exact hs
  · exact writeSlots_wf hw ((readSlots_readsOnly hr).drives ▸ hs)

theorem execEncodeStripe_wf {D : BitVec 16} (h : execEncodeStripe D s = .next t) (hs : Memory.wf s.drives) :
    Memory.wf t.drives := by
  rcases execEncodeStripe_next h with ⟨_, -, rfl⟩ | ⟨-, -, -, -, ⟨u, hr, rfl⟩ | ⟨_, u, hr, hw⟩⟩
  · exact hs
  · rw [finish_drives, (readSlots_err_readsOnly hr).drives]; exact hs
  · exact writeSlots_wf hw ((readSlots_readsOnly hr).drives ▸ hs)

theorem rebuildOne_canonical {st : Strategy} {on : BitVec 512} {F : Nat → Nat → Bool} {p : Nat} {e : ReportEntry}
    (h : rebuildOne st on F p s = some (e, t)) (hs : s.memoriesCanonical) : t.memoriesCanonical := by
  have run : ∀ u, DrivesOnly s u → (Memory.wf s.drives → Memory.wf u.drives) → u.memoriesCanonical := by
    intro u hu hwf
    refine ⟨?_, hwf hs.2⟩
    rw [hu]
    exact hs.1
  rcases rebuildOne_cases h with
    ⟨-, rfl, -⟩ | ⟨_, -, ⟨-, rfl, -⟩ | ⟨-, ⟨-, rfl, -⟩ | ⟨-, ⟨-, rfl, -⟩ | ⟨_, -, hrun⟩⟩⟩⟩
  · exact hs
  · exact hs
  · exact hs
  · exact hs
  · rcases hrun with ⟨c, hrun, -⟩ | ⟨u, hrun, rfl, -⟩
    · obtain ⟨hd, -, hwf⟩ := rebuildChunks_frame _ _ _ _ _ _ _ _ (.inr ⟨c, hrun⟩)
      exact run t hd hwf
    · obtain ⟨hd, -, hwf⟩ := rebuildChunks_frame _ _ _ _ _ _ _ _ (.inl hrun)
      cases st <;> exact run u hd hwf

theorem writeReport_canonical (n : Nat) (e : ReportEntry) (hs : s.memoriesCanonical) :
    (s.writeReport n e).memoriesCanonical :=
  ⟨Memory.writeBlock_wf _ _ _ _ hs.1, hs.2⟩

theorem execRebuild_canonical {st : Strategy} (h : execRebuild st s = .next t) (hs : s.memoriesCanonical) :
    t.memoriesCanonical := by
  rcases execRebuild_run h with ⟨_, -, rfl, -⟩ | ⟨-, -, es, u, hrun, rfl⟩
  · exact hs
  · have hu : u.memoriesCanonical := rebuildTargets_induct State.memoriesCanonical hrun hs
      (fun _ _ _ _ _ hu hone => rebuildOne_canonical hone hu) fun _ n e hu => writeReport_canonical n e hu
    exact hu

/-- The three commands that write a drive or the report keep their canonical form, and no other command writes them. -/
theorem exec_canonical {i : Instr} (h : exec i s = .next t) (hs : s.memoriesCanonical) : t.memoriesCanonical := by
  have hreport := congrArg State.report (exec_frame h)
  have hdrives := congrArg State.drives (exec_frame h)
  cases i with
  | rebuild st => exact execRebuild_canonical (st := st) h hs
  | writeChunk p b => exact ⟨hreport ▸ hs.1, execWriteChunk_wf h hs.2⟩
  | encodeStripe D => exact ⟨hreport ▸ hs.1, execEncodeStripe_wf h hs.2⟩
  | _ => exact ⟨hreport ▸ hs.1, hdrives ▸ hs.2⟩

theorem replayAccesses_wf (junk : Chunk) (n : Nat) (l : List DriveAccess) (m : Memory) (hm : Memory.wf m) :
    Memory.wf (replayAccesses junk n l m) := by
  induction l generalizing n m with
  | nil => cases n <;> exact hm
  | cons a l ih =>
    cases n <;> cases a
    · exact hm
    · exact Memory.writeBlock_wf _ _ _ _ hm
    · exact ih _ _ hm
    · exact ih _ _ (Memory.writeBlock_wf _ _ _ _ hm)

theorem hardwareReset_canonical (n : Nat) (junk : Chunk) (bufs : Vector Chunk 4) (report : BitVec 131072)
    (hs : s.memoriesCanonical) : (hardwareReset n junk bufs report s).memoriesCanonical := by
  refine ⟨Memory.writeBlock_wf _ _ _ _ Memory.nil_wf, ?_⟩
  show Memory.wf (s.abandonedDrives n junk)
  unfold State.abandonedDrives
  split
  · exact hs.2
  · exact replayAccesses_wf _ _ _ _ hs.2

/-- The memories are fields that no host write touches. -/
theorem windowWrite_canonical (a : Nat) (v : Word) (hs : s.memoriesCanonical) :
    (s.windowWrite a v).memoriesCanonical := by
  have h := windowWrite_engineFields s a v
  exact ⟨congrArg State.report h ▸ hs.1, congrArg State.drives h ▸ hs.2⟩

end Memories

/-! ### The latch (10_state.md R66, R67) -/

section Latch

variable {s t : State}

theorem latchHolds_of_no_flight (h : s.flight = none) : s.latchHolds := by
  intro f hf
  rw [h] at hf
  cases hf

/-- A write to a register that is not held leaves the latch and what it was latched from. -/
theorem writeReg_latchHolds (v : Word) (r : Reg) (hs : s.latchHolds) (hr : r.held = false) :
    (s.writeReg v r).latchHolds := by
  cases r
  case cmd | arg0 | arg1 | cfgTotal | cfgDpd | cfgSpares | cfgNgroups | cfgChunks | cfgScheme | cfgGsize | target
    | bufWord => cases hr
  all_goals exact hs

/-- With no command in flight, a write either leaves it so or is the acceptance, which latches the registers. -/
theorem writeReg_latchHolds_of_no_flight (v : Word) (r : Reg) (hs : s.flight = none) :
    (s.writeReg v r).latchHolds := by
  cases r
  case cmd =>
    intro f hf
    obtain rfl := Option.some.inj hf
    exact ⟨rfl, rfl, rfl⟩
  all_goals exact latchHolds_of_no_flight hs

theorem windowWrite_latchHolds (a : Nat) (v : Word) (hs : s.latchHolds) : (s.windowWrite a v).latchHolds := by
  unfold State.windowWrite
  split
  · exact hs
  · rename_i r _
    split
    · exact hs
    · rename_i hb
      cases hf : s.flight with
      | none => exact writeReg_latchHolds_of_no_flight v r hf
      | some f =>
        have hr : r.held = false := by simpa [busy_of_flight hf] using hb
        exact writeReg_latchHolds v r hs hr

/-- A command that answers is no longer in flight. -/
theorem exec_flight {i : Instr} (h : exec i s = .next t) : t.flight = none := congrArg State.flight (exec_frame h)

end Latch

/-- Settles O58: both invariants hold through every input of a step. -/
theorem stepKeepsMemoriesAndLatch : Obligations.StepKeepsMemoriesAndLatch := by
  refine ⟨fun s t hs h => ?memories, fun s t hs h => ?latch⟩
  case memories =>
    exact step_keeps State.memoriesCanonical (fun _ _ hu => hu) (fun _ _ hu => hu)
      (fun _ a v hu => windowWrite_canonical a v hu) (fun _ _ hu => hu) (fun _ _ _ hu he => exec_canonical he hu)
      (fun _ hu => hu) (fun _ n junk bufs report hu => hardwareReset_canonical n junk bufs report hu) hs h
  case latch =>
    exact step_keeps State.latchHolds (fun _ _ hu => hu) (fun _ _ hu => hu)
      (fun _ a v hu => windowWrite_latchHolds a v hu) (fun _ _ hu => hu)
      (fun _ _ _ _ he => latchHolds_of_no_flight (exec_flight he)) (fun _ _ => latchHolds_of_no_flight rfl)
      (fun _ _ _ _ _ _ => latchHolds_of_no_flight rfl) hs h

end Sys2Proof.Proofs
end

section
/-! PROOFS. The topology, the flags and the slot assignment: what INIT builds, and that every step keeps it legal
(10_state.md R44 to R46, R60 to R63; 40_topology_control.md R151 to R157). -/

namespace Sys2Proof.Proofs

open Sys2Proof.Machine

/-! ### The topology invariant -/

/-- The parts of the machine's invariant that speak of topology, flags and assignment. -/
structure TopologyInv (s : State) : Prop where
  cleared : s.uninitializedClear
  topology : s.topologyLegal
  shape : s.assignmentShape
  assignment : s.assignmentLegal

/-- The fields the topology invariant speaks of, every other one at its reset value. -/
def topologyPart (s : State) : State :=
  { State.reset with
    initialized := s.initialized, topo := s.topo, derived := s.derived, online := s.online, serve := s.serve
    pstate := s.pstate, classGrp := s.classGrp, classDom := s.classDom, classRollup := s.classRollup
    classValid := s.classValid, reportCount := s.reportCount }

theorem topologyInv_topologyPart (s : State) : TopologyInv (topologyPart s) ↔ TopologyInv s :=
  ⟨fun h => ⟨h.cleared, h.topology, h.shape, h.assignment⟩, fun h => ⟨h.cleared, h.topology, h.shape, h.assignment⟩⟩

theorem TopologyInv.congr {s t : State} (hs : TopologyInv s) (h : topologyPart t = topologyPart s) : TopologyInv t := by
  rw [← topologyInv_topologyPart, h, topologyInv_topologyPart]
  exact hs

/-- Where no topology is latched, only the cleared registers count. -/
theorem TopologyInv.of_cleared {s : State} (hi : s.initialized = false) (hc : s.uninitializedClear) : TopologyInv s := by
  refine ⟨hc, ?_, ?_, ?_⟩ <;>
  · intro h
    rw [hi] at h
    cases h

/-- While a topology is latched, the registers of R301 and R302 and the report count are free, and so is every field the
invariant does not speak of. -/
theorem TopologyInv.congr_initialized {s t : State} (hs : TopologyInv s) (hi : s.initialized = true)
    (h : topologyPart t = { topologyPart s with
      online := t.online, classGrp := t.classGrp, classDom := t.classDom, classRollup := t.classRollup
      classValid := t.classValid, reportCount := t.reportCount })
    (hon : ∀ p, p < 512 → s.total ≤ p → flagAt t.online p = false) : TopologyInv t := by
  rw [← topologyInv_topologyPart, h]
  obtain ⟨hvalid, hlatched, hderived, -⟩ := hs.topology hi
  exact ⟨fun hn => absurd (hi.symm.trans hn) (by decide), fun _ => ⟨hvalid, hlatched, hderived, hon⟩, hs.shape,
    hs.assignment⟩

/-! ### Flags (10_state.md R46) -/

theorem flags_past_total_setFlag {s : State} {p : Nat} {b : Bool} (hp : p < s.total)
    (hs : ∀ q, q < 512 → s.total ≤ q → flagAt s.online q = false) :
    ∀ q, q < 512 → s.total ≤ q → flagAt (setFlag s.online p b) q = false := by
  intro q hq hle
  rw [flagAt_setFlag_of_ne _ _ _ _ (by omega)]
  exact hs q hq hle

theorem flags_past_total_setFlags {s : State} {D : Nat} {b : Bool} (hb : s.Bounds) (hD : D < s.ndom)
    (hs : ∀ q, q < 512 → s.total ≤ q → flagAt s.online q = false) :
    ∀ q, q < 512 → s.total ≤ q → flagAt (setFlags s.online (D * s.dpd) s.dpd b) q = false := by
  intro q hq hle
  rw [flagAt_setFlags _ _ _ _ _ hq, if_neg, hs q hq hle]
  rintro ⟨hlo, hhi⟩
  exact absurd (hb.drive_of_domain hD hlo hhi).1 (by omega)

/-! ### INIT (40_topology_control.md R152, R153) -/

section Init

variable {t : TopoParams}

theorem latchedSize_of_lt {i : Nat} (hi : i < t.ngroups.toNat) : t.latchedSize i = t.gsize[i]?.getD 0 := if_pos hi

theorem latchedSize_of_ge {i : Nat} (hi : t.ngroups.toNat ≤ i) : t.latchedSize i = 0 := if_neg (by omega)

/-- A latched size register. -/
theorem latched_gsize (t : TopoParams) (i : Nat) (hi : i < 8) : t.latched.gsize[i]? = some (t.latchedSize i) := by
  obtain rfl | rfl | rfl | rfl | rfl | rfl | rfl | rfl :
    i = 0 ∨ i = 1 ∨ i = 2 ∨ i = 3 ∨ i = 4 ∨ i = 5 ∨ i = 6 ∨ i = 7 := by omega
  all_goals rfl

theorem latched_gsizeAt {i : Nat} (hn : t.ngroups.toNat ≤ 8) (hi : i < t.ngroups.toNat) :
    t.latched.gsizeAt i = t.gsizeAt i := by
  rw [TopoParams.gsizeAt, latched_gsize t i (by omega), latchedSize_of_lt hi]
  rfl

theorem latched_sizes (hn : t.ngroups.toNat ≤ 8) : t.latched.sizes = t.sizes := by
  apply List.map_congr_left
  intro i hi
  exact latched_gsizeAt hn (List.mem_range.1 hi)

theorem latched_valid (hn : t.ngroups.toNat ≤ 8) : t.latched.valid = t.valid := by
  unfold TopoParams.valid
  rw [latched_sizes hn]
  rfl

theorem latched_derive (hn : t.ngroups.toNat ≤ 8) : t.latched.derive = t.derive := by
  unfold TopoParams.derive
  rw [latched_sizes hn]
  rfl

theorem latched_layout (hn : t.ngroups.toNat ≤ 8) : t.latched.layout = t.layout := by
  unfold TopoParams.layout
  rw [latched_sizes hn]
  rfl

theorem latchedSize_latched {i : Nat} (hi : i < 8) : t.latched.latchedSize i = t.latchedSize i := by
  by_cases hn : i < t.ngroups.toNat
  · rw [latchedSize_of_lt (t := t.latched) hn, latched_gsize t i hi]; rfl
  · rw [latchedSize_of_ge (t := t.latched) (Nat.le_of_not_lt hn), latchedSize_of_ge (Nat.le_of_not_lt hn)]

/-- Latching twice is latching once. -/
theorem latched_latched (t : TopoParams) : t.latched.latched = t.latched := by
  rw [TopoParams.latched]
  iterate 8 rw [latchedSize_latched (by omega)]
  rfl

/-- The identity assignment: a served slot of a domain is served by the drive at its place. -/
theorem serveOf_identityServe {D k : Nat} (hD : D < t.total.toNat / t.dpd.toNat) (hk : k < t.layout.served) :
    serveOf t.identityServe D k = D * t.dpd.toNat + k := by
  unfold serveOf TopoParams.identityServe
  simp [List.getD_eq_getElem?_getD, hD, hk]

theorem getD_initialPState {p : Nat} (hp : p < t.total.toNat) :
    t.initialPState.getD p .retired = if p % t.dpd.toNat < t.layout.served then .native else .spareFree := by
  unfold TopoParams.initialPState
  simp [List.getD_eq_getElem?_getD, hp]

end Init

/-! ### slot_of -/

theorem slotOf_isSome_iff (s : State) (p : Nat) :
    (s.slotOf p).isSome = true ↔ ∃ k, k < s.layout.served ∧ s.serveAt (s.domainOf p) k = p := by
  constructor
  · intro h
    obtain ⟨k, hk⟩ := Option.isSome_iff_exists.1 h
    exact ⟨k, slotOf_some hk⟩
  · rintro ⟨k, hk, hp⟩
    obtain ⟨j, hj⟩ := slotOf_isSome_of_serves hk hp
    rw [hj]; rfl

/-- The assignment INIT builds is legal: slot k of domain D is served by drive D·DPD + k. -/
theorem assignmentLegal_of_identity {s : State} (hb : s.Bounds)
    (hserve : ∀ D, D < s.ndom → ∀ k, k < s.layout.served → s.serveAt D k = D * s.dpd + k)
    (hstate : ∀ p, p < s.total → s.pstateAt p = if p % s.dpd < s.layout.served then .native else .spareFree) :
    s.assignmentLegal := by
  have hle := hb.servedLe
  intro _
  refine ⟨fun D hD k hk => ?drive, fun D hD k hk j hj he => ?inj, fun p hp => ?served⟩
  case drive =>
    rw [hserve D hD k hk]
    exact hb.drive_of_domain hD (by omega) (by omega)
  case inj =>
    rw [hserve D hD k hk, hserve D hD j hj] at he
    omega
  case served =>
    have hD := hb.domainOf_lt hp
    have hdiv : s.domainOf p * s.dpd + p % s.dpd = p := Nat.div_add_mod' p s.dpd
    have hslot : (s.slotOf p).isSome = true ↔ p % s.dpd < s.layout.served := by
      rw [slotOf_isSome_iff]
      constructor
      · rintro ⟨k, hk, he⟩
        rw [hserve _ hD k hk] at he
        have : k = p % s.dpd := by omega
        omega
      · intro hlt
        exact ⟨_, hlt, by rw [hserve _ hD _ hlt, hdiv]⟩
    rw [hslot, hstate p hp]
    by_cases hlt : p % s.dpd < s.layout.served <;> simp [hlt]

/-- A successful INIT leaves a legal topology and assignment. -/
theorem buildTopology_inv {s : State} (hv : s.cfg.valid = true) : TopologyInv s.buildTopology := by
  have hb := s.cfg.bounds_of_valid hv
  have hn := hb.ngMax
  have htopo : s.buildTopology.topologyLegal := by
    refine fun _ => ⟨(latched_valid hn).trans hv, latched_latched _, (latched_derive hn).symm, fun p hp hle => ?_⟩
    have hle : s.cfg.total.toNat ≤ p := hle
    show flagAt (setFlags 0 0 s.cfg.total.toNat true) p = false
    rw [flagAt_setFlags _ _ _ _ _ hp, if_neg (by omega), flagAt_zero]
  have hbounds : s.buildTopology.Bounds := State.bounds htopo rfl
  have hlayout : s.buildTopology.layout = s.cfg.layout := latched_layout hn
  refine ⟨fun h => absurd h.symm Bool.false_ne_true, htopo, fun _ => ⟨?domains, ?rows, ?states⟩, ?legal⟩
  case domains => exact (List.length_map _).trans List.length_range
  case rows =>
    intro row hrow
    obtain ⟨D, -, rfl⟩ := List.mem_map.1 hrow
    rw [List.length_map, List.length_range, hlayout]
  case states => exact (List.length_map _).trans List.length_range
  case legal =>
    refine assignmentLegal_of_identity hbounds (fun D hD k hk => ?_) fun p hp => ?_
    · rw [hlayout] at hk
      exact serveOf_identityServe hD hk
    · rw [hlayout]
      exact getD_initialPState hp

/-! ### REBUILD (44_integrity_rebuild.md R316, R317) -/

section Promote

variable {s : State} {p k q : Nat}

/-- Slot k of the target's domain goes to a free spare q of the domain. -/
structure Promotes (s : State) (p k q : Nat) : Prop where
  target : p < s.total
  slot : s.slotOf p = some k
  lower : s.domainOf p * s.dpd ≤ q
  upper : q < s.domainOf p * s.dpd + s.dpd
  free : s.pstateAt q = .spareFree

/-- The state after the promotion. -/
abbrev promoted (s : State) (p k q : Nat) : State := s.commitRebuild .promoteSpare p (s.domainOf p) k q

theorem promoted_shape (hs : s.assignmentShape) (hD : s.domainOf p < s.ndom) :
    (promoted s p k q).assignmentShape := by
  intro hi
  obtain ⟨hdom, hrow, hlen⟩ := hs hi
  refine ⟨?_, fun row hr => ?_, ?_⟩
  · exact List.length_set.trans hdom
  · rcases List.mem_or_eq_of_mem_set hr with hr | rfl
    · exact hrow row hr
    · have hlt : s.domainOf p < s.serve.length := by rw [hdom]; exact hD
      rw [List.length_set, List.getD_eq_getElem _ _ hlt]
      exact hrow _ (List.getElem_mem hlt)
  · exact List.length_set.trans (List.length_set.trans hlen)

/-- The assignment and the drive states after a promotion. -/
theorem promoted_assignment (hi : s.initialized = true) (hs : TopologyInv s) (hp : Promotes s p k q) :
    (∀ E j, (promoted s p k q).serveAt E j = if E = s.domainOf p ∧ j = k then q else s.serveAt E j)
      ∧ ∀ r, (promoted s p k q).pstateAt r = if r = p then .retired else if r = q then .promoted else s.pstateAt r := by
  have hb := State.bounds hs.topology hi
  obtain ⟨hdom, hrow, hlen⟩ := hs.shape hi
  have hD := hb.domainOf_lt hp.target
  have hq := (hb.drive_of_domain hD hp.lower hp.upper).1
  have hlt : s.domainOf p < s.serve.length := by rw [hdom]; exact hD
  refine commit_promote s p _ k q hlt ?_ (by rw [hlen]; exact hq) (by rw [hlen]; exact hp.target)
  rw [List.getD_eq_getElem _ _ hlt, hrow _ (List.getElem_mem hlt)]
  exact (slotOf_some hp.slot).1

theorem promoted_legal (hi : s.initialized = true) (hs : TopologyInv s) (hp : Promotes s p k q) :
    (promoted s p k q).assignmentLegal := by
  have hb := State.bounds hs.topology hi
  obtain ⟨hserve, hstate⟩ := promoted_assignment hi hs hp
  obtain ⟨hk, hpk⟩ := slotOf_some hp.slot
  have hD := hb.domainOf_lt hp.target
  obtain ⟨hq, hqD⟩ := hb.drive_of_domain hD hp.lower hp.upper
  have hfree : ∀ D j, D < s.ndom → j < s.layout.served → s.serveAt D j ≠ q :=
    fun D j hD hj => hs.assignment.serveAt_ne_spare hi hD hj hp.free
  have hpq : p ≠ q := fun h => hfree _ k hD hk (hpk.trans h)
  intro _
  refine ⟨fun D hDl j hj => ?drive, fun D hDl i hil j hj he => ?inj, fun r hr => ?served⟩
  case drive =>
    rw [hserve]
    split
    · next h => exact ⟨hq, hqD.trans h.1.symm⟩
    · exact (hs.assignment hi).1 D hDl j hj
  case inj =>
    rw [hserve, hserve] at he
    split at he <;> split at he
    · next h h' => exact h.2.trans h'.2.symm
    · exact absurd he.symm (hfree D j hDl hj)
    · exact absurd he (hfree D i hDl hil)
    · exact hs.assignment.serveAt_inj hi hDl hil hj he
  case served =>
    rw [slotOf_isSome_iff, hstate]
    have hrD := hb.domainOf_lt (p := r) hr
    by_cases hrp : r = p
    · subst hrp
      rw [if_pos rfl]
      refine iff_of_false ?_ (by simp)
      rintro ⟨j, hj, he⟩
      replace he : (promoted s r k q).serveAt (s.domainOf r) j = r := he
      rw [hserve] at he
      split at he
      · exact hpq he.symm
      · next hne => exact hne ⟨rfl, hs.assignment.serveAt_inj hi hD hj hk (he.trans hpk.symm)⟩
    · rw [if_neg hrp]
      by_cases hrq : r = q
      · subst hrq
        rw [if_pos rfl]
        refine iff_of_true ⟨k, hk, ?_⟩ (.inr rfl)
        show (promoted s p k r).serveAt (s.domainOf r) k = r
        rw [hserve, if_pos ⟨hqD, rfl⟩]
      · rw [if_neg hrq, ← (hs.assignment hi).2.2 r hr, slotOf_isSome_iff]
        refine exists_congr fun j => and_congr_right fun hj => ?_
        show (promoted s p k q).serveAt (s.domainOf r) j = r ↔ _
        rw [hserve]
        split
        · next h =>
          rw [h.1, h.2, hpk]
          exact iff_of_false (Ne.symm hrq) (Ne.symm hrp)
        · rfl

/-- A promotion keeps the topology invariant. -/
theorem promoted_inv (hi : s.initialized = true) (hs : TopologyInv s) (hp : Promotes s p k q) :
    TopologyInv (promoted s p k q) :=
  ⟨fun h => absurd (hi.symm.trans h) (by decide), hs.topology,
    promoted_shape hs.shape ((State.bounds hs.topology hi).domainOf_lt hp.target), promoted_legal hi hs hp⟩

/-- Bringing a drive online keeps it. -/
theorem restored_inv {D : Nat} (hi : s.initialized = true) (hs : TopologyInv s) (hp : p < s.total) :
    TopologyInv (s.commitRebuild .restoreInPlace p D k q) :=
  hs.congr_initialized hi rfl (flags_past_total_setFlag hp (hs.topology hi).2.2.2)

end Promote

theorem topologyPart_of_drivesOnly {s t : State} (h : DrivesOnly s t) : topologyPart t = topologyPart s := by
  rw [h]; rfl

/-- The spare that a promotion chooses, seen from a state that differs in drive bytes. -/
theorem promotes_of_freeSpare {s u : State} {p k q : Nat} (hp : p < s.total) (hk : s.slotOf p = some k)
    (hq : s.freeSpare (s.domainOf p) = some q) (hu : DrivesOnly s u) :
    Promotes u p k q ∧ u.domainOf p = s.domainOf p := by
  obtain ⟨h1, h2, h3, -⟩ := freeSpare_some hq
  have hd : u.domainOf p = s.domainOf p := by rw [State.domainOf, hu.dpd]; rfl
  refine ⟨⟨by rw [hu.total]; exact hp, by rw [hu.slotOf]; exact hk, ?_, ?_, by rw [hu.pstateAt]; exact h3⟩, hd⟩
  · rw [hd, hu.dpd]; exact h1
  · rw [hd, hu.dpd]; exact h2

/-- Rebuilding one target keeps the topology invariant, and a topology stays latched. -/
theorem rebuildOne_inv {s t : State} {st : Strategy} {on : BitVec 512} {F : Nat → Nat → Bool} {p : Nat}
    {e : ReportEntry} (hi : s.initialized = true) (hs : TopologyInv s) (hp : p < s.total)
    (h : rebuildOne st on F p s = some (e, t)) : t.initialized = true ∧ TopologyInv t ∧ t.topo = s.topo := by
  obtain ⟨u, hu, rfl | ⟨k, q, hk, -, hq, rfl⟩⟩ := rebuildOne_drivesOnly h
  · exact ⟨by rw [hu]; exact hi, hs.congr (topologyPart_of_drivesOnly hu), hu.topo⟩
  · have hiu : u.initialized = true := by rw [hu]; exact hi
    have hsu : TopologyInv u := hs.congr (topologyPart_of_drivesOnly hu)
    cases st with
    | restoreInPlace => exact ⟨hiu, restored_inv hiu hsu (by rw [hu.total]; exact hp), hu.topo⟩
    | promoteSpare =>
      obtain ⟨hpr, hd⟩ := promotes_of_freeSpare hp hk hq hu
      refine ⟨hiu, ?_, hu.topo⟩
      rw [← hd]
      exact promoted_inv hiu hsu hpr

theorem rebuildTargets_inv {s t : State} {st : Strategy} {on : BitVec 512} {F : Nat → Nat → Bool} {ps : List Nat}
    {n : Nat} {es : List ReportStatus} (hi : s.initialized = true) (hs : TopologyInv s) (hps : ∀ p ∈ ps, p < s.total)
    (h : rebuildTargets st on F ps n s = some (es, t)) : TopologyInv t := by
  refine (rebuildTargets_induct (fun u => u.initialized = true ∧ TopologyInv u ∧ u.topo = s.topo) h ⟨hi, hs, rfl⟩
    (fun p hp u v e hu hone => ?_) fun u n e hu => ⟨hu.1, hu.2.1.congr rfl, hu.2.2⟩).2.1
  obtain ⟨hiu, hsu, htopo⟩ := hu
  obtain ⟨hiv, hsv, hv⟩ := rebuildOne_inv hiu hsu (by rw [State.total, htopo]; exact hps p hp) hone
  exact ⟨hiv, hsv, hv.trans htopo⟩

/-! ### Every step -/

/-- The commands that write none of the fields the topology invariant speaks of. -/
theorem topologyPart_written {i : Instr} {s t : State} (hinit : i ≠ .init) (hreset : i ≠ .reset)
    (hdrive : ∀ p b, i ≠ .setOnlineDrive p b) (hdomain : ∀ D b, i ≠ .setOnlineDomain D b) (hclassify : i ≠ .classify)
    (hrebuild : ∀ st, i ≠ .rebuild st) : topologyPart (written i s t) = topologyPart s := by
  cases i with
  | init => exact absurd rfl hinit
  | reset => exact absurd rfl hreset
  | setOnlineDrive p b => exact absurd rfl (hdrive p b)
  | setOnlineDomain D b => exact absurd rfl (hdomain D b)
  | classify => exact absurd rfl hclassify
  | rebuild st => exact absurd rfl (hrebuild st)
  | _ => rfl

theorem TopologyInv.finish {s : State} (hs : TopologyInv s) (e : ErrCode) : TopologyInv (finish e s) := hs.congr rfl

/-- Every command keeps the topology invariant. -/
theorem exec_topologyInv {i : Instr} {s t : State} (hs : TopologyInv s) (h : exec i s = .next t) : TopologyInv t := by
  cases i with
  | init =>
    rcases execInit_next h with ⟨e, -, rfl⟩ | ⟨-, hv, rfl⟩
    · exact hs.finish e
    · exact (buildTopology_inv hv).finish _
  | reset =>
    rw [execReset_next h]
    refine TopologyInv.finish ?_ _
    cases hi : s.initialized with
    | true => exact .of_cleared rfl fun _ => ⟨rfl, rfl, rfl, rfl, rfl, rfl, rfl, rfl, rfl, rfl⟩
    | false =>
      obtain ⟨ht, hd, ho, hv, hp, hg, hdm, hr, -, hc⟩ := hs.cleared hi
      exact .of_cleared hi fun _ => ⟨ht, hd, ho, hv, hp, hg, hdm, hr, rfl, hc⟩
  | setOnlineDrive p b =>
    rcases execSetOnlineDrive_next h with ⟨e, -, rfl⟩ | ⟨hi, hp, rfl⟩
    · exact hs.finish e
    · exact hs.congr_initialized hi rfl (flags_past_total_setFlag hp (hs.topology hi).2.2.2)
  | setOnlineDomain D b =>
    rcases execSetOnlineDomain_next h with ⟨e, -, rfl⟩ | ⟨hi, hD, rfl⟩
    · exact hs.finish e
    · exact hs.congr_initialized hi rfl
        (flags_past_total_setFlags (State.bounds hs.topology hi) hD (hs.topology hi).2.2.2)
  | classify =>
    rcases execClassify_next h with ⟨-, rfl⟩ | ⟨hi, ht, -⟩
    · exact hs.finish _
    · rw [ht]
      exact hs.congr_initialized hi rfl (hs.topology hi).2.2.2
  | rebuild st =>
    have h : execRebuild st s = .next t := h
    rcases execRebuild_run h with ⟨e, -, rfl, -⟩ | ⟨hi, hall, es, u, hrun, rfl⟩
    · exact hs.finish e
    · have h0 : TopologyInv (rebuildStart s) := hs.congr_initialized hi rfl (hs.topology hi).2.2.2
      have hu : TopologyInv u :=
        rebuildTargets_inv (s := rebuildStart s) hi h0 (fun p hp => hall p ((mem_orderTargets s p _).1 hp)) hrun
      exact hu.finish _
  | _ =>
    refine hs.congr ?_
    rw [exec_frame h]
    exact topologyPart_written (by simp) (by simp) (by simp) (by simp) (by simp) (by simp)

theorem reset_cleared (s : State) (hs : topologyPart s = topologyPart State.reset) : TopologyInv s := by
  rw [← topologyInv_topologyPart, hs]
  exact .of_cleared rfl fun _ => ⟨rfl, rfl, rfl, rfl, rfl, rfl, rfl, rfl, rfl, rfl⟩

theorem windowWrite_topologyPart (s : State) (a : Nat) (v : Word) :
    topologyPart (s.windowWrite a v) = topologyPart s := by
  have h := congrArg topologyPart (windowWrite_engineFields s a v)
  exact h

/-- Every step keeps the topology invariant. -/
theorem step_topologyInv {s t : State} (hs : TopologyInv s) (h : step s = .next t) : TopologyInv t :=
  step_keeps TopologyInv (fun _ _ hu => hu.congr rfl) (fun _ _ hu => hu.congr rfl)
    (fun u a v hu => hu.congr (windowWrite_topologyPart u a v)) (fun _ _ hu => hu.congr rfl)
    (fun _ _ _ hu he => exec_topologyInv hu he) (fun _ hu => hu.finish _) (fun _ _ _ _ _ _ => reset_cleared _ rfl) hs h

/-- Settles O59: the topology invariant is kept by every input of a step. -/
theorem stepKeepsTopology : Obligations.StepKeepsTopology := by
  rintro s t ⟨hc, ht, hsh, ha⟩ - h
  have hinv := step_topologyInv ⟨hc, ht, hsh, ha⟩ h
  exact ⟨hinv.cleared, hinv.topology, hinv.shape, hinv.assignment⟩

/-- Settles O57: after reset nothing is latched and nothing is in flight. -/
theorem invariantAtReset : Obligations.InvariantAtReset :=
  have hinv := reset_cleared State.reset rfl
  { memories := reset_memories_canonical
    latch := latchHolds_of_no_flight rfl
    cleared := hinv.cleared
    topology := hinv.topology
    shape := hinv.shape
    assignment := hinv.assignment }

end Sys2Proof.Proofs
end

section
/-! PROOFS. The byte field GF(2^8) (41_parity_math.md R200 to R205, R229). -/

namespace Sys2Proof.Proofs

open Sys2Proof.Machine

/-! ### A byte is a sum of its bits -/

theorem sum_bits (a : Byte) :
    (List.finRange 8).foldr (fun i x => (if a.getLsbD i.val then 1#8 <<< i.val else 0) ^^^ x) 0 = a := by
  revert a; decide +kernel

/-- What holds of 0 and of the bytes with one bit, and is kept by sums, holds of every byte. -/
theorem byte_induction {P : Byte → Prop} (hzero : P 0) (hbit : ∀ i : Fin 8, P (1#8 <<< i.val))
    (hxor : ∀ a b, P a → P b → P (a ^^^ b)) (a : Byte) : P a := by
  rw [← sum_bits a]
  induction List.finRange 8 with
  | nil => exact hzero
  | cons i l ih =>
    refine hxor _ _ ?_ ih
    split
    · exact hbit i
    · exact hzero

/-! ### The loop of R201 -/

theorem xor_left_comm {n : Nat} (a b c : BitVec n) : a ^^^ (b ^^^ c) = b ^^^ (a ^^^ c) := by ac_rfl

theorem gfDouble_xor (a b : Byte) : gfDouble (a ^^^ b) = gfDouble a ^^^ gfDouble b := by
  unfold gfDouble
  rw [BitVec.getLsbD_xor, BitVec.shiftLeft_xor_distrib]
  cases a.getLsbD 7 <;> cases b.getLsbD 7 <;> simp [BitVec.xor_comm, xor_left_comm]

theorem gfDouble_zero : gfDouble 0 = 0 := rfl

/-- The loop adds to what was summed before. -/
theorem gfMulLoop_acc (n : Nat) (a b r : Byte) : gfMulLoop n a b r = r ^^^ gfMulLoop n a b 0 := by
  induction n generalizing a b r with
  | zero => exact (BitVec.xor_zero).symm
  | succ n ih =>
    rw [gfMulLoop, gfMulLoop, ih, ih (r := if b.getLsbD 0 then 0 ^^^ a else 0)]
    cases b.getLsbD 0
    · simp
    · simp [BitVec.xor_assoc]

/-- One turn of the loop. -/
theorem gfMulLoop_succ (n : Nat) (a b : Byte) :
    gfMulLoop (n + 1) a b 0 = (if b.getLsbD 0 then a else 0) ^^^ gfMulLoop n (gfDouble a) (b >>> 1) 0 := by
  rw [gfMulLoop, gfMulLoop_acc]
  simp

theorem gfMulLoop_xor_left (n : Nat) (a a' b : Byte) :
    gfMulLoop n (a ^^^ a') b 0 = gfMulLoop n a b 0 ^^^ gfMulLoop n a' b 0 := by
  induction n generalizing a a' b with
  | zero => simp [gfMulLoop]
  | succ n ih =>
    rw [gfMulLoop_succ, gfMulLoop_succ, gfMulLoop_succ, gfDouble_xor, ih]
    cases b.getLsbD 0 <;> simp [BitVec.xor_assoc, xor_left_comm]

theorem gfMulLoop_xor_right (n : Nat) (a b b' : Byte) :
    gfMulLoop n a (b ^^^ b') 0 = gfMulLoop n a b 0 ^^^ gfMulLoop n a b' 0 := by
  induction n generalizing a b b' with
  | zero => simp [gfMulLoop]
  | succ n ih =>
    rw [gfMulLoop_succ, gfMulLoop_succ, gfMulLoop_succ, BitVec.ushiftRight_xor_distrib, ih, BitVec.getLsbD_xor]
    cases b.getLsbD 0 <;> cases b'.getLsbD 0 <;> simp [BitVec.xor_assoc, xor_left_comm]

/-- Doubling goes through the loop. -/
theorem gfMulLoop_gfDouble (n : Nat) (a b : Byte) :
    gfMulLoop n (gfDouble a) b 0 = gfDouble (gfMulLoop n a b 0) := by
  induction n generalizing a b with
  | zero => exact gfDouble_zero.symm
  | succ n ih =>
    rw [gfMulLoop_succ, gfMulLoop_succ, ih, gfDouble_xor, apply_ite gfDouble, gfDouble_zero]

/-! ### Multiplication (R201, last sentence) -/

theorem gfMul_xor_left (a a' b : Byte) : gfMul (a ^^^ a') b = gfMul a b ^^^ gfMul a' b := gfMulLoop_xor_left 8 a a' b

theorem gfMul_xor_right (a b b' : Byte) : gfMul a (b ^^^ b') = gfMul a b ^^^ gfMul a b' := gfMulLoop_xor_right 8 a b b'

theorem gfMul_zero (a : Byte) : gfMul a 0 = 0 := by
  have h := gfMul_xor_right a 0 0
  rwa [BitVec.xor_self, BitVec.xor_self] at h

theorem gfMul_zero_left (a : Byte) : gfMul 0 a = 0 := by
  have h := gfMul_xor_left 0 0 a
  rwa [BitVec.xor_self, BitVec.xor_self] at h

theorem gfMul_comm (a b : Byte) : gfMul a b = gfMul b a := by
  have hbits : ∀ i j : Fin 8, gfMul (1#8 <<< i.val) (1#8 <<< j.val) = gfMul (1#8 <<< j.val) (1#8 <<< i.val) := by
    decide +kernel
  induction a using byte_induction with
  | hzero => rw [gfMul_zero, gfMul_zero_left]
  | hxor a a' ha ha' => rw [gfMul_xor_left, gfMul_xor_right, ha, ha']
  | hbit i =>
    induction b using byte_induction with
    | hzero => rw [gfMul_zero, gfMul_zero_left]
    | hxor b b' hb hb' => rw [gfMul_xor_left, gfMul_xor_right, hb, hb']
    | hbit j => exact hbits i j

theorem gfMul_one (a : Byte) : gfMul a 1 = a := by
  show gfMulLoop 8 a 1 0 = a
  iterate 8 rw [gfMulLoop_succ]
  simp [gfMulLoop]

theorem gfMul_gfDouble_left (a b : Byte) : gfMul (gfDouble a) b = gfDouble (gfMul a b) := gfMulLoop_gfDouble 8 a b

theorem gfMul_gfDouble_right (a b : Byte) : gfMul a (gfDouble b) = gfDouble (gfMul a b) := by
  rw [gfMul_comm, gfMul_gfDouble_left, gfMul_comm]

/-- A byte with one bit is 1 doubled so many times. -/
theorem one_shift_eq (i : Fin 8) : 1#8 <<< i.val = gfDouble^[i.val] 1 := by revert i; decide

/-- Multiplying by 1 doubled n times is doubling n times. -/
theorem gfMul_iterate_gfDouble (n : Nat) (a : Byte) : gfMul a (gfDouble^[n] 1) = gfDouble^[n] a := by
  induction n with
  | zero => exact gfMul_one a
  | succ n ih => rw [Function.iterate_succ_apply', Function.iterate_succ_apply', gfMul_gfDouble_right, ih]

theorem gfMul_assoc (a b c : Byte) : gfMul (gfMul a b) c = gfMul a (gfMul b c) := by
  have hdouble : ∀ n, gfMul a (gfDouble^[n] b) = gfDouble^[n] (gfMul a b) := by
    intro n
    induction n with
    | zero => rfl
    | succ n ih => rw [Function.iterate_succ_apply', Function.iterate_succ_apply', gfMul_gfDouble_right, ih]
  induction c using byte_induction with
  | hzero => rw [gfMul_zero, gfMul_zero, gfMul_zero]
  | hxor c c' hc hc' => rw [gfMul_xor_right, gfMul_xor_right, gfMul_xor_right, hc, hc']
  | hbit i => rw [one_shift_eq, gfMul_iterate_gfDouble, gfMul_iterate_gfDouble, hdouble]

theorem gfMul_one_left (a : Byte) : gfMul 1 a = a := by rw [gfMul_comm, gfMul_one]

/-- Settles O39, from the loop's two kinds of linearity and its value on bytes with one bit. -/
theorem fieldMultiplicationLaws : Obligations.FieldMultiplicationLaws :=
  ⟨gfMul_comm, gfMul_assoc, gfMul_xor_right, gfMul_one, gfMul_zero⟩

/-! ### Powers (R202) -/

theorem gfPow_add (a : Byte) (m n : Nat) : gfPow a (m + n) = gfMul (gfPow a m) (gfPow a n) := by
  induction n with
  | zero => exact (gfMul_one _).symm
  | succ n ih => rw [← Nat.add_assoc, gfPow, gfPow, ih, gfMul_assoc]

theorem gfPow_one (n : Nat) : gfPow 1 n = 1 := by
  induction n with
  | zero => rfl
  | succ n ih => rw [gfPow, ih, gfMul_one]

theorem gfPow_mul (a : Byte) (m n : Nat) : gfPow a (m * n) = gfPow (gfPow a m) n := by
  induction n with
  | zero => rfl
  | succ n ih => rw [Nat.mul_succ, gfPow_add, ih, gfPow]

/-- Multiplying by the generator is doubling, so its powers are 1 doubled. -/
theorem gfPow_two (n : Nat) : gfPow 2 n = gfDouble^[n] 1 := by
  induction n with
  | zero => rfl
  | succ n ih =>
    rw [gfPow, ih, Function.iterate_succ_apply', show (2 : Byte) = gfDouble^[1] 1 from rfl, gfMul_iterate_gfDouble]
    rfl

/-- `n` doublings of `a`, one after the other. -/
def doublings : Nat → Byte → List Byte
  | 0, _ => []
  | n + 1, a => a :: doublings n (gfDouble a)

theorem mem_doublings (n : Nat) (a b : Byte) : b ∈ doublings n a ↔ ∃ i, i < n ∧ gfDouble^[i] a = b := by
  induction n generalizing a with
  | zero => simp [doublings]
  | succ n ih =>
    rw [doublings, List.mem_cons, ih]
    constructor
    · rintro (rfl | ⟨i, hi, rfl⟩)
      · exact ⟨0, by omega, rfl⟩
      · exact ⟨i + 1, by omega, rfl⟩
    · rintro ⟨i, hi, rfl⟩
      cases i with
      | zero => exact .inl rfl
      | succ i => exact .inr ⟨i, by omega, rfl⟩

/-- The powers of 2 take every nonzero byte value. -/
theorem exists_gfPow_two {a : Byte} (ha : a ≠ 0) : ∃ n, n < 255 ∧ gfPow 2 n = a := by
  have hall : ∀ a : Byte, a ≠ 0 → a ∈ doublings 255 1 := by decide +kernel
  obtain ⟨n, hn, h⟩ := (mem_doublings 255 1 a).1 (hall a ha)
  exact ⟨n, hn, (gfPow_two n).trans h⟩

/-- 255 is a period of the powers of 2. -/
theorem gfPow_two_period : gfPow 2 255 = 1 := by
  rw [gfPow_two]
  decide +kernel

/-- No shorter run of doublings comes back to 1. -/
theorem gfPow_two_ne_one {n : Nat} (h0 : 0 < n) (hn : n < 255) : gfPow 2 n ≠ 1 := by
  have hall : (1 : Byte) ∉ doublings 254 2 := by decide +kernel
  intro h
  refine hall ((mem_doublings 254 2 1).2 ⟨n - 1, by omega, ?_⟩)
  rw [← h, gfPow_two, show n = n - 1 + 1 by omega]
  rfl

/-! ### Inverses (R203) -/

theorem gfMul_gfInv {a : Byte} (ha : a ≠ 0) : gfMul a (gfInv a) = 1 := by
  obtain ⟨n, -, rfl⟩ := exists_gfPow_two ha
  calc gfMul (gfPow 2 n) (gfInv (gfPow 2 n))
    _ = gfPow (gfPow 2 n) 255 := gfMul_comm _ _
    _ = 1 := by rw [← gfPow_mul, Nat.mul_comm, gfPow_mul, gfPow_two_period, gfPow_one]

theorem eq_gfInv_of_gfMul_eq_one {a b : Byte} (ha : a ≠ 0) (h : gfMul a b = 1) : b = gfInv a := by
  calc b = gfMul (gfMul (gfInv a) a) b := by rw [gfMul_comm _ a, gfMul_gfInv ha, gfMul_one_left]
    _ = gfInv a := by rw [gfMul_assoc, h, gfMul_one]

/-- Division undoes multiplication. -/
theorem gfDiv_gfMul {b : Byte} (hb : b ≠ 0) (c : Byte) : gfDiv (gfMul c b) b = c := by
  rw [gfDiv, gfMul_assoc, gfMul_gfInv hb, gfMul_one]

theorem gfMul_gfDiv {b : Byte} (hb : b ≠ 0) (a : Byte) : gfMul (gfDiv a b) b = a := by
  rw [gfDiv, gfMul_assoc, gfMul_comm _ b, gfMul_gfInv hb, gfMul_one]

theorem gfMul_eq_zero {a b : Byte} (h : gfMul a b = 0) (hb : b ≠ 0) : a = 0 := by
  rw [← gfDiv_gfMul hb a, h, gfDiv, gfMul_zero_left]

theorem gfPow_two_ne_zero (n : Nat) : gfPow 2 n ≠ 0 := by
  induction n with
  | zero => decide
  | succ n ih => exact fun h => ih (gfMul_eq_zero h (by decide))

/-- Below 255 no two powers of 2 are the same. -/
theorem gfPow_two_injective {m n : Nat} (hm : m < 255) (hn : n < 255) (h : gfPow 2 m = gfPow 2 n) : m = n := by
  have key : ∀ i j : Nat, j < 255 → i < j → gfPow 2 i ≠ gfPow 2 j := by
    intro i j hj hij h
    refine gfPow_two_ne_one (n := j - i) (by omega) (by omega) ?_
    rw [← gfDiv_gfMul (gfPow_two_ne_zero i) (gfPow 2 (j - i)), ← gfPow_add, Nat.sub_add_cancel hij.le, ← h, gfDiv,
      gfMul_gfInv (gfPow_two_ne_zero i)]
  rcases Nat.lt_trichotomy m n with hlt | heq | hgt
  · exact absurd h (key m n hn hlt)
  · exact heq
  · exact absurd h.symm (key n m hm hgt)

/-- Settles O40, from the powers of the generator. -/
theorem fieldInverseUnique : Obligations.FieldInverseUnique := by
  refine ⟨fun a ha => ⟨gfMul_gfInv ha, fun b hb => eq_gfInv_of_gfMul_eq_one ha hb⟩, fun _ => rfl, fun a b c hb => ?div,
    fun a ha => ?powers, gfPow_two_period⟩
  case div =>
    constructor
    · rintro rfl; exact (gfDiv_gfMul hb c).symm
    · rintro rfl; exact gfMul_gfDiv hb a
  case powers =>
    obtain ⟨n, hn, rfl⟩ := exists_gfPow_two ha
    exact ⟨n, hn, rfl, fun m hm h => gfPow_two_injective hm hn h⟩

/-- Who multiplies to 1 is the inverse. -/
theorem gfInv_eq {a b : Byte} (h : gfMul a b = 1) : gfInv a = b := by
  refine (eq_gfInv_of_gfMul_eq_one ?_ h).symm
  rintro rfl
  rw [gfMul_zero_left] at h
  exact absurd h (by decide)

/-- Settles O38, value by value; an inverse by its product. -/
theorem fieldWorkedValues : Obligations.FieldWorkedValues := by
  have hinv : ∀ k b, gfMul (gfPow 2 k) b = 1 → gfInv (gfPow 2 k) = b := fun _ _ => gfInv_eq
  refine ⟨by decide, by decide, by decide, by decide, by decide, by decide, gfPow_two_period, gfInv_eq (by decide),
    gfInv_eq (by decide), gfInv_eq (by decide), ?_⟩
  simp only [List.map_cons, List.map_nil]
  rw [hinv 0 0x01 (by decide), hinv 1 0x8e (by decide), hinv 2 0x47 (by decide), hinv 3 0xad (by decide),
    hinv 4 0xd8 (by decide), hinv 5 0x6c (by decide), hinv 6 0x36 (by decide), hinv 7 0x1b (by decide)]

/-! ### Coefficients (R205) -/

theorem coef_plain {L : Layout} (h : L.plain = true) (k : Nat) : L.coef k = 1 := if_pos h

theorem coef_weighted {L : Layout} (h : L.plain = false) (k : Nat) : L.coef k = gfPow 2 k :=
  if_neg (by rw [h]; exact Bool.false_ne_true)

theorem coef_ne_zero (L : Layout) (k : Nat) : L.coef k ≠ 0 := by
  cases h : L.plain
  · rw [coef_weighted h]; exact gfPow_two_ne_zero k
  · rw [coef_plain h]; decide

/-- Two bytes with sum 0 are the same. -/
theorem xor_ne_zero {n : Nat} {x y : BitVec n} (h : x ≠ y) : x ^^^ y ≠ 0 := fun h' => h (BitVec.xor_eq_zero_iff.1 h')

theorem coef_injective {L : Layout} (h : L.plain = false) (hn : L.ndata ≤ 62) {j k : Nat} (hj : j < L.ndata)
    (hk : k < L.ndata) (he : L.coef j = L.coef k) : j = k := by
  rw [coef_weighted h, coef_weighted h] at he
  exact gfPow_two_injective (by omega) (by omega) he

/-- Settles O41, from the powers of the generator below 255. -/
theorem coefficientsDistinct : Obligations.CoefficientsDistinct := by
  refine fun L => ⟨fun h hn j k hj hk => ⟨coef_weighted h k, coef_ne_zero L k, fun hne => ?_⟩, fun h => coef_plain h⟩
  have hc : L.coef j ≠ L.coef k := fun he => hne (coef_injective h hn hj hk he)
  exact ⟨hc, xor_ne_zero hc⟩

/-! ### Chunks, lane by lane (R204) -/

theorem laneAt_scale (c : Byte) (x : Chunk) {i : Nat} (hi : i < Config.CHUNK) :
    laneAt (scale c x) i = gfMul c (laneAt x i) := laneAt_mapLanes _ (gfMul_zero c) x i hi

theorem laneAt_unscale (x : Chunk) (c : Byte) {i : Nat} (hi : i < Config.CHUNK) :
    laneAt (unscale x c) i = gfDiv (laneAt x i) c := 
  laneAt_mapLanes (fun b => gfMul b (gfInv c)) (gfMul_zero_left _) x i hi

/-- Settles O42, from the laws of the lanes. -/
theorem chunkOperationsActOnLanes : Obligations.ChunkOperationsActOnLanes :=
  fun x y c i hi => ⟨laneAt_xor x y i, laneAt_scale c x hi, laneAt_unscale x c hi⟩

theorem scale_xor (c : Byte) (x y : Chunk) : scale c (x ^^^ y) = scale c x ^^^ scale c y := by
  refine Chunk.ext_lanes _ _ fun i hi => ?_
  rw [laneAt_scale c _ hi, laneAt_xor, laneAt_xor, gfMul_xor_right, laneAt_scale c _ hi, laneAt_scale c _ hi]

theorem scale_xor_left (c d : Byte) (x : Chunk) : scale (c ^^^ d) x = scale c x ^^^ scale d x := by
  refine Chunk.ext_lanes _ _ fun i hi => ?_
  rw [laneAt_scale _ _ hi, laneAt_xor, gfMul_xor_left, laneAt_scale c _ hi, laneAt_scale d _ hi]

theorem scale_one (x : Chunk) : scale 1 x = x :=
  Chunk.ext_lanes _ _ fun i hi => by rw [laneAt_scale _ _ hi, gfMul_one_left]

/-- Dividing a chunk undoes scaling it. -/
theorem unscale_scale {c : Byte} (hc : c ≠ 0) (x : Chunk) : unscale (scale c x) c = x :=
  Chunk.ext_lanes _ _ fun i hi => by
    rw [laneAt_unscale _ _ hi, laneAt_scale _ _ hi, gfMul_comm, gfDiv_gfMul hc]

end Sys2Proof.Proofs
end

section
/-! PROOFS. The solver: its cases, their sources, and that they are exact (41_parity_math.md R207 to R227). -/

namespace Sys2Proof.Proofs

open Sys2Proof.Machine

/-! ### Sums of chunks (00_scope.md R14) -/

theorem xorOver_perm {ks js : List Nat} (h : ks.Perm js) (f : Nat → Chunk) : xorOver ks f = xorOver js f := by
  induction h with
  | nil => rfl
  | cons k _ ih => rw [xorOver_cons, xorOver_cons, ih]
  | swap j k l => simp only [xorOver_cons]; exact xor_left_comm _ _ _
  | trans _ _ ih ih' => exact ih.trans ih'

/-- A sum without repetition depends only on which indices it has. -/
theorem xorOver_of_mem_iff {ks js : List Nat} (hk : ks.Nodup) (hj : js.Nodup) (h : ∀ k, k ∈ ks ↔ k ∈ js)
    (f : Nat → Chunk) : xorOver ks f = xorOver js f :=
  xorOver_perm ((List.perm_ext_iff_of_nodup hk hj).2 h) f

theorem xorOver_flatMap (ks : List Nat) (g : Nat → List Nat) (f : Nat → Chunk) :
    xorOver (ks.flatMap g) f = xorOver ks fun k => xorOver (g k) f := by
  induction ks with
  | nil => rfl
  | cons k ks ih => rw [List.flatMap_cons, xorOver_append, xorOver_cons, ih]

/-- One term taken out of a sum without repetition. -/
theorem xorOver_take_out {ks : List Nat} (hk : ks.Nodup) {k : Nat} (h : k ∈ ks) (f : Nat → Chunk) :
    xorOver ks f = f k ^^^ xorOver (ks.filter fun j => j != k) f := by
  refine xorOver_of_mem_iff (js := k :: ks.filter fun j => j != k) hk ?_ (fun j => ?_) f
  · exact List.nodup_cons.2 ⟨by simp, hk.filter _⟩
  · by_cases hj : j = k <;> simp [hj, h]

/-! ### Lost and kept slots -/

section Slots

variable {L : Layout} {off : Nat → Bool} {g k : Nat}

theorem xorOver_slotsOf (L : Layout) (off : Nat → Bool) (g : Nat) (f : Nat → Chunk) :
    xorOver (L.slotsOf g) f = xorOver (L.lost off g) f ^^^ xorOver (L.kept off g) f :=
  xorOver_split (L.slotsOf g) off f

theorem mem_lost_groupOf (hk : k < L.ndata) (ho : off k = true) : k ∈ L.lost off (L.groupOf k) :=
  (L.mem_lost off _ k (L.groupOf_spec k hk).1).2 ⟨⟨hk, rfl⟩, ho⟩

theorem mem_keptData_of_mem_kept (hg : g < L.ng) (h : k ∈ L.kept off g) : k ∈ L.keptData off := by
  obtain ⟨⟨hk, -⟩, ho⟩ := (L.mem_kept off g k hg).1 h
  exact (L.mem_keptData off k).2 ⟨hk, ho⟩

/-- A lost slot of another group makes that group one of the lossy ones. -/
theorem mem_otherLossy_of_lost {m : Nat} (hm : m < L.ndata) (ho : off m = true) (hne : L.groupOf m ≠ g) :
    L.groupOf m ∈ L.otherLossy off g :=
  (L.mem_otherLossy off g _).2
    ⟨⟨(L.groupOf_spec m hm).1, hne⟩, List.ne_nil_of_mem (mem_lost_groupOf hm ho)⟩

theorem lpSlot_lt_served (hg : g < L.ng) : L.lpSlot g < L.served := by
  unfold Layout.lpSlot Layout.served
  omega

theorem gpSlot_lt_served : L.gpSlot < L.served := by
  unfold Layout.gpSlot Layout.served
  omega

theorem data_lt_served (hk : k < L.ndata) : k < L.served := by
  unfold Layout.served
  omega

end Slots

/-! ### The cases of a lost data slot (41_parity_math.md R213, R214, R224) -/

section Cases

variable {L : Layout} {off : Nat → Bool} {k : Nat}

/-- Under WEIGHTED the local parity of another lossy group is online and gives its one lost slot. -/
structure OthersL (L : Layout) (off : Nat → Bool) (g : Nat) : Prop where
  gp : off L.gpSlot = false
  lp : ∀ h ∈ L.otherLossy off g, off (L.lpSlot h) = false
  one : ∀ m, m < L.ndata → off m = true → L.groupOf m ≠ g → L.lost off (L.groupOf m) = [m]

/-- The cases of R224 that a lost data slot of a recoverable group can have, each with what its formula rests on. -/
inductive Solvable (L : Layout) (off : Nat → Bool) (k : Nat) : Prop where
  | caseL (hc : L.solveCase off k = .caseL) (hl : L.lost off (L.groupOf k) = [k])
      (hp : off (L.lpSlot (L.groupOf k)) = false)
  | caseW2 (i j : Nat) (hw : L.plain = false) (hc : L.solveCase off k = .caseW2 i j)
      (hl : L.lost off (L.groupOf k) = [i, j]) (hp : off (L.lpSlot (L.groupOf k)) = false)
      (ho : OthersL L off (L.groupOf k))
  | caseW1 (hw : L.plain = false) (hc : L.solveCase off k = .caseW1) (hl : L.lost off (L.groupOf k) = [k])
      (hp : off (L.lpSlot (L.groupOf k)) = true) (ho : OthersL L off (L.groupOf k))
  | caseX1 (hw : L.plain = true) (hc : L.solveCase off k = .caseX1) (hl : L.lost off (L.groupOf k) = [k])
      (hp : off (L.lpSlot (L.groupOf k)) = true) (hq : off L.gpSlot = false)
      (ho : ∀ h ∈ L.otherLossy off (L.groupOf k), off (L.lpSlot h) = false)

/-- `need_h ≤ 0` of a group with a lost slot: one is lost, and the local parity is online. -/
theorem lossy_of_need_le_zero {h : Nat} (hn : L.need off h ≤ 0) (hl : L.lost off h ≠ []) :
    off (L.lpSlot h) = false ∧ (L.lost off h).length = 1 := by
  have hpos : 0 < (L.lost off h).length := List.length_pos_iff.2 hl
  unfold Layout.need Layout.lpOff at hn
  cases hp : off (L.lpSlot h)
  · rw [hp, if_neg Bool.false_ne_true] at hn
    exact ⟨rfl, by omega⟩
  · rw [hp, if_pos rfl] at hn
    omega

theorem othersL_of_need {g : Nat} (hq : L.gpOff off = false)
    (ho : ∀ h ∈ L.otherGroups g, L.need off h ≤ 0) : OthersL L off g := by
  refine ⟨hq, fun h hh => ?_, fun m hm hom hne => ?_⟩
  · obtain ⟨hg, hl⟩ := (L.mem_otherLossy off g h).1 hh
    exact (lossy_of_need_le_zero (ho h ((L.mem_otherGroups g h).2 hg)) hl).1
  · have hmem := mem_lost_groupOf hm hom
    have hg := (L.mem_otherGroups g (L.groupOf m)).2 ⟨(L.groupOf_spec m hm).1, hne⟩
    obtain ⟨a, ha⟩ := List.length_eq_one_iff.1 (lossy_of_need_le_zero (ho _ hg) (List.ne_nil_of_mem hmem)).2
    rw [ha] at hmem ⊢
    rw [List.mem_singleton.1 hmem]

/-- What determinedness says under WEIGHTED (R213). -/
theorem determined_weighted {g : Nat} (hw : L.plain = false) (hd : L.determined off g = true) :
    L.need off g ≤ 0 ∨ L.need off g = 1 ∧ OthersL L off g := by
  unfold Layout.determined at hd
  rw [hw, if_neg Bool.false_ne_true] at hd
  simp only [Bool.or_eq_true, Bool.and_eq_true, decide_eq_true_eq, Bool.not_eq_true', List.all_eq_true] at hd
  rcases hd with hd | ⟨⟨h1, hq⟩, ho⟩
  · exact .inl hd
  · exact .inr ⟨h1, othersL_of_need hq ho⟩

/-- What determinedness says under PLAIN_XOR (R214) of a group with a lost slot. -/
theorem determined_plain {g : Nat} (hw : L.plain = true) (hl : L.lost off g ≠ []) (hd : L.determined off g = true) :
    (L.lost off g).length = 1 ∧ (off (L.lpSlot g) = true →
      off L.gpSlot = false ∧ ∀ h ∈ L.otherLossy off g, off (L.lpSlot h) = false) := by
  have hpos : 0 < (L.lost off g).length := List.length_pos_iff.2 hl
  unfold Layout.determined at hd
  rw [hw, if_pos rfl] at hd
  cases hp : L.lpOff off g
  · rw [hp, if_neg Bool.false_ne_true, decide_eq_true_eq] at hd
    exact ⟨by omega, fun h => absurd (hp.symm.trans h) Bool.false_ne_true⟩
  · rw [hp, if_pos rfl] at hd
    simp only [Bool.or_eq_true, Bool.and_eq_true, beq_iff_eq, Bool.not_eq_true', List.all_eq_true] at hd
    rcases hd with hd | ⟨⟨h1, hq⟩, ho⟩
    · omega
    · refine ⟨h1, fun _ => ⟨hq, fun h hh => ?_⟩⟩
      obtain ⟨hg, hlh⟩ := (L.mem_otherLossy off g h).1 hh
      have hlen : ((L.lost off h).length != 0) = true := by simpa using hlh
      have := ho h ((L.mem_otherGroups g h).2 hg)
      rwa [hlen, Bool.and_true] at this

theorem lost_eq_singleton (hk : k < L.ndata) (ho : off k = true) (h : (L.lost off (L.groupOf k)).length = 1) :
    L.lost off (L.groupOf k) = [k] := by
  have hmem := mem_lost_groupOf hk ho
  obtain ⟨a, ha⟩ := List.length_eq_one_iff.1 h
  rw [ha] at hmem ⊢
  rw [List.mem_singleton.1 hmem]

theorem solveCase_singleton (ho : off k = true) (hl : L.lost off (L.groupOf k) = [k]) :
    L.solveCase off k =
      if !L.lpOff off (L.groupOf k) then .caseL else if L.plain then .caseX1 else .caseW1 := by
  unfold Layout.solveCase
  rw [ho, hl]
  rfl

theorem solveCase_pair {i j : Nat} (ho : off k = true) (hl : L.lost off (L.groupOf k) = [i, j]) :
    L.solveCase off k =
      if !L.plain && !L.lpOff off (L.groupOf k) then .caseW2 i j else .undetermined := by
  unfold Layout.solveCase
  rw [ho, hl]
  rfl

/-- A lost data slot of a group that is not DATA_LOSS has one of the cases, with all its formula rests on. -/
theorem solvable_of_gclass (hk : k < L.ndata) (ho : off k = true) (hc : L.gclass off (L.groupOf k) ≠ .dataLoss) :
    Solvable L off k := by
  have hmem := mem_lost_groupOf hk ho
  have hl := List.ne_nil_of_mem hmem
  have hd := L.determined_of_gclass off _ hl hc
  have hpos : 0 < (L.lost off (L.groupOf k)).length := List.length_pos_iff.2 hl
  have hlp : L.lpOff off (L.groupOf k) = off (L.lpSlot (L.groupOf k)) := rfl
  cases hw : L.plain
  · rcases determined_weighted hw hd with hn | ⟨hn, hoth⟩
    · obtain ⟨hp, h1⟩ := lossy_of_need_le_zero hn hl
      have hs := lost_eq_singleton hk ho h1
      exact .caseL (by rw [solveCase_singleton ho hs, hlp, hp]; rfl) hs hp
    · unfold Layout.need at hn
      cases hp : off (L.lpSlot (L.groupOf k))
      · rw [hlp, hp, if_neg Bool.false_ne_true] at hn
        obtain ⟨i, j, hs⟩ := List.length_eq_two.1 (by omega : (L.lost off (L.groupOf k)).length = 2)
        exact .caseW2 i j hw (by rw [solveCase_pair ho hs, hlp, hp, hw]; rfl) hs hp hoth
      · rw [hlp, hp, if_pos rfl] at hn
        have hs := lost_eq_singleton hk ho (by omega)
        exact .caseW1 hw (by rw [solveCase_singleton ho hs, hlp, hp, hw]; rfl) hs hp hoth
  · obtain ⟨h1, hrest⟩ := determined_plain hw hl hd
    have hs := lost_eq_singleton hk ho h1
    cases hp : off (L.lpSlot (L.groupOf k))
    · exact .caseL (by rw [solveCase_singleton ho hs, hlp, hp]; rfl) hs hp
    · obtain ⟨hq, hoth⟩ := hrest hp
      exact .caseX1 hw (by rw [solveCase_singleton ho hs, hlp, hp, hw]; rfl) hs hp hq hoth

/-! ### The value and the sources of each case (R224, R226) -/

theorem value_known (d : Nat → Chunk) (ho : off k = false) : L.value off d k = d k := by
  unfold Layout.value Layout.solveCase
  rw [ho]
  rfl

theorem value_caseL (d : Nat → Chunk) (hc : L.solveCase off k = .caseL) : L.value off d k = L.valueL d k := by
  rw [Layout.value, hc]

theorem value_caseW2 {i j : Nat} (d : Nat → Chunk) (hc : L.solveCase off k = .caseW2 i j) :
    L.value off d k =
      if k = i then unscale (L.qRest off d [i, j] ^^^ scale (L.coef j) (L.pRest off d (L.groupOf k)))
        (L.coef i ^^^ L.coef j)
      else L.pRest off d (L.groupOf k)
        ^^^ unscale (L.qRest off d [i, j] ^^^ scale (L.coef j) (L.pRest off d (L.groupOf k)))
          (L.coef i ^^^ L.coef j) := by
  rw [Layout.value, hc]

theorem value_caseW1 (d : Nat → Chunk) (hc : L.solveCase off k = .caseW1) :
    L.value off d k = unscale (L.qRest off d [k]) (L.coef k) := by
  rw [Layout.value, hc]

theorem value_caseX1 (d : Nat → Chunk) (hc : L.solveCase off k = .caseX1) :
    L.value off d k =
      d L.gpSlot ^^^ xorOver (L.keptData off) d ^^^ xorOver (L.otherLossy off (L.groupOf k)) (L.pRest off d) := by
  rw [Layout.value, hc]

theorem dataSources_caseL (hc : L.solveCase off k = .caseL) :
    L.dataSources off k = L.lpSlot (L.groupOf k) :: L.kept off (L.groupOf k) := by
  rw [Layout.dataSources, hc]

/-- The sources of W1 and W2: all that is kept, GP, the group's local parity where it is online, and the local parities
of the other lossy groups. -/
theorem mem_dataSources_caseW (hc : L.solveCase off k = .caseW1 ∨ ∃ i j, L.solveCase off k = .caseW2 i j) (t : Nat) :
    t ∈ L.dataSources off k ↔ t ∈ L.keptData off ∨ t = L.gpSlot
      ∨ (off (L.lpSlot (L.groupOf k)) = false ∧ t = L.lpSlot (L.groupOf k))
      ∨ ∃ h ∈ L.otherLossy off (L.groupOf k), L.lpSlot h = t := by
  have hlp : L.lpOff off (L.groupOf k) = off (L.lpSlot (L.groupOf k)) := rfl
  rcases hc with hc | ⟨i, j, hc⟩
  · rw [Layout.dataSources, hc]
    cases hp : off (L.lpSlot (L.groupOf k)) <;> simp [hlp, hp]
  · rw [Layout.dataSources, hc]
    cases hp : off (L.lpSlot (L.groupOf k)) <;> simp [hlp, hp]

theorem mem_dataSources_caseX1 (hc : L.solveCase off k = .caseX1) (t : Nat) :
    t ∈ L.dataSources off k ↔ t ∈ L.keptData off ∨ t = L.gpSlot
      ∨ ∃ h ∈ L.otherLossy off (L.groupOf k), L.lpSlot h = t := by
  rw [Layout.dataSources, hc]
  simp

/-- The sources of a lost data slot that has a case are online, served slots. -/
theorem dataSources_online (hk : k < L.ndata) (hs : Solvable L off k) :
    ∀ t ∈ L.dataSources off k, off t = false ∧ t < L.served := by
  have hg := (L.groupOf_spec k hk).1
  have hkept : ∀ t ∈ L.keptData off, off t = false ∧ t < L.served := fun t ht =>
    ⟨((L.mem_keptData off t).1 ht).2, data_lt_served ((L.mem_keptData off t).1 ht).1⟩
  have hother : ∀ t, (∃ h ∈ L.otherLossy off (L.groupOf k), L.lpSlot h = t) →
      (∀ h ∈ L.otherLossy off (L.groupOf k), off (L.lpSlot h) = false) → off t = false ∧ t < L.served := by
    rintro _ ⟨h, hh, rfl⟩ hlp
    exact ⟨hlp h hh, lpSlot_lt_served ((L.mem_otherLossy off _ h).1 hh).1.1⟩
  have weighted : (L.solveCase off k = .caseW1 ∨ ∃ i j, L.solveCase off k = .caseW2 i j) →
      OthersL L off (L.groupOf k) → ∀ t ∈ L.dataSources off k, off t = false ∧ t < L.served := by
    intro hc ho t ht
    rcases (mem_dataSources_caseW hc t).1 ht with ht | rfl | ⟨hp, rfl⟩ | ht
    · exact hkept t ht
    · exact ⟨ho.gp, gpSlot_lt_served⟩
    · exact ⟨hp, lpSlot_lt_served hg⟩
    · exact hother t ht ho.lp
  cases hs with
  | caseL hc hl hp =>
    intro t ht
    rw [dataSources_caseL hc] at ht
    rcases List.mem_cons.1 ht with rfl | ht
    · exact ⟨hp, lpSlot_lt_served hg⟩
    · exact hkept t (mem_keptData_of_mem_kept hg ht)
  | caseW2 i j hw hc hl hp ho => exact weighted (.inr ⟨i, j, hc⟩) ho
  | caseW1 hw hc hl hp ho => exact weighted (.inl hc) ho
  | caseX1 hw hc hl hp hq ho =>
    intro t ht
    rcases (mem_dataSources_caseX1 hc t).1 ht with ht | rfl | ht
    · exact hkept t ht
    · exact ⟨hq, gpSlot_lt_served⟩
    · exact hother t ht ho

/-! ### The value depends on its sources only (R227) -/

variable {d e : Nat → Chunk}

/-- Case L of a slot m: its group's local parity and the other slots of the group. -/
theorem valueL_congr {m : Nat} (hm : m < L.ndata) (hl : L.lost off (L.groupOf m) = [m])
    (hlp : d (L.lpSlot (L.groupOf m)) = e (L.lpSlot (L.groupOf m)))
    (hkept : ∀ t ∈ L.kept off (L.groupOf m), d t = e t) : L.valueL d m = L.valueL e m := by
  have hg := (L.groupOf_spec m hm).1
  unfold Layout.valueL
  rw [hlp, xorOver_congr _ d e]
  intro t ht
  obtain ⟨hts, htm⟩ := List.mem_filter.1 ht
  have hne : t ≠ m := by simpa using htm
  refine hkept t ((L.mem_kept off _ t hg).2 ⟨(L.mem_slotsOf _ t hg).1 hts, ?_⟩)
  by_contra hoff
  have hmem := (L.mem_lost off _ t hg).2 ⟨(L.mem_slotsOf _ t hg).1 hts, by simpa using hoff⟩
  rw [hl, List.mem_singleton] at hmem
  exact hne hmem

theorem pRest_congr {g : Nat} (hlp : d (L.lpSlot g) = e (L.lpSlot g)) (hkept : ∀ t ∈ L.kept off g, d t = e t) :
    L.pRest off d g = L.pRest off e g := by
  unfold Layout.pRest
  rw [hlp, xorOver_congr _ d e hkept]

/-- Q' of W2 and W1: the slots outside the group's lost ones are online, or of case L. -/
theorem qRest_congr {us : List Nat} {g : Nat} (ho : OthersL L off g) (hus : L.lost off g = us)
    (hgp : d L.gpSlot = e L.gpSlot) (hkept : ∀ t ∈ L.keptData off, d t = e t)
    (hlp : ∀ h ∈ L.otherLossy off g, d (L.lpSlot h) = e (L.lpSlot h)) : L.qRest off d us = L.qRest off e us := by
  unfold Layout.qRest
  rw [hgp, xorOver_congr _ _ (fun m => scale (L.coef m) (L.valueKnownOrL off e m))]
  intro m hm
  obtain ⟨hmr, hmu⟩ := List.mem_filter.1 hm
  have hmn : m < L.ndata := List.mem_range.1 hmr
  congr 1
  unfold Layout.valueKnownOrL
  cases hoff : off m
  · exact hkept m ((L.mem_keptData off m).2 ⟨hmn, hoff⟩)
  · have hne : L.groupOf m ≠ g := by
      rintro rfl
      have hmem := mem_lost_groupOf hmn hoff
      rw [hus] at hmem
      simp [hmem] at hmu
    have hg := (L.groupOf_spec m hmn).1
    exact valueL_congr hmn (ho.one m hmn hoff hne) (hlp _ (mem_otherLossy_of_lost hmn hoff hne))
      fun t ht => hkept t (mem_keptData_of_mem_kept hg ht)

/-- The value of a lost data slot that has a case depends only on the chunks of its sources. -/
theorem value_congr (hk : k < L.ndata) (hs : Solvable L off k) (h : ∀ t ∈ L.dataSources off k, d t = e t) :
    L.value off d k = L.value off e k := by
  have hg := (L.groupOf_spec k hk).1
  have hsub : ∀ g, g < L.ng → (∀ t ∈ L.keptData off, d t = e t) → ∀ t ∈ L.kept off g, d t = e t :=
    fun g hg hkd t ht => hkd t (mem_keptData_of_mem_kept hg ht)
  cases hs with
  | caseL hc hl hp =>
    rw [dataSources_caseL hc] at h
    rw [value_caseL d hc, value_caseL e hc]
    exact valueL_congr hk hl (h _ List.mem_cons_self) fun t ht => h t (List.mem_cons_of_mem _ ht)
  | caseW2 i j hw hc hl hp ho =>
    have hmem := mem_dataSources_caseW (.inr ⟨i, j, hc⟩)
    have hkd : ∀ t ∈ L.keptData off, d t = e t := fun t ht => h t ((hmem t).2 (.inl ht))
    have hq : L.qRest off d [i, j] = L.qRest off e [i, j] := qRest_congr ho hl (h _ ((hmem _).2 (.inr (.inl rfl)))) hkd
      fun g hg => h _ ((hmem _).2 (.inr (.inr (.inr ⟨g, hg, rfl⟩))))
    have hpr : L.pRest off d (L.groupOf k) = L.pRest off e (L.groupOf k) :=
      pRest_congr (h _ ((hmem _).2 (.inr (.inr (.inl ⟨hp, rfl⟩))))) (hsub _ hg hkd)
    rw [value_caseW2 d hc, value_caseW2 e hc, hq, hpr]
  | caseW1 hw hc hl hp ho =>
    have hmem := mem_dataSources_caseW (.inl hc)
    have hq : L.qRest off d [k] = L.qRest off e [k] := qRest_congr ho hl (h _ ((hmem _).2 (.inr (.inl rfl))))
      (fun t ht => h t ((hmem t).2 (.inl ht))) fun g hg => h _ ((hmem _).2 (.inr (.inr (.inr ⟨g, hg, rfl⟩))))
    rw [value_caseW1 d hc, value_caseW1 e hc, hq]
  | caseX1 hw hc hl hp hq ho =>
    have hmem := mem_dataSources_caseX1 hc
    have hkd : ∀ t ∈ L.keptData off, d t = e t := fun t ht => h t ((hmem t).2 (.inl ht))
    rw [value_caseX1 d hc, value_caseX1 e hc, h _ ((hmem _).2 (.inr (.inl rfl))), xorOver_congr _ d e hkd,
      xorOver_congr (L.otherLossy off (L.groupOf k)) (L.pRest off d) (L.pRest off e)]
    intro g hg'
    exact pRest_congr (h _ ((hmem _).2 (.inr (.inr ⟨g, hg', rfl⟩))))
      (hsub g ((L.mem_otherLossy off _ g).1 hg').1.1 hkd)

end Cases

/-! ### The content of a slot and its sources (R225, R226) -/

section Content

variable {L : Layout} {off : Nat → Bool} {g k : Nat} {d e : Nat → Chunk}

theorem content_data (d : Nat → Chunk) (hk : k < L.ndata) : L.content off d k = L.value off d k := by
  rw [Layout.content, L.kindOf_data k hk]

theorem content_lp (d : Nat → Chunk) (hg : g < L.ng) :
    L.content off d (L.lpSlot g) = if off (L.lpSlot g) then L.localParity (L.value off d) g else d (L.lpSlot g) := by
  rw [Layout.content, L.kindOf_lp g hg]

theorem content_gp (d : Nat → Chunk) :
    L.content off d L.gpSlot = if off L.gpSlot then L.globalParity (L.value off d) else d L.gpSlot := by
  rw [Layout.content, L.kindOf_gp]

theorem sourceMembers_data (hk : k < L.ndata) : L.sourceMembers off k = L.dataSources off k := by
  rw [Layout.sourceMembers, L.kindOf_data k hk]

theorem mem_sourceMembers_lp (hg : g < L.ng) (t : Nat) :
    t ∈ L.sourceMembers off (L.lpSlot g) ↔ t ∈ L.kept off g ∨ ∃ m ∈ L.lost off g, t ∈ L.dataSources off m := by
  rw [Layout.sourceMembers, L.kindOf_lp g hg, List.mem_append, List.mem_flatMap]

theorem mem_sourceMembers_gp (t : Nat) :
    t ∈ L.sourceMembers off L.gpSlot ↔
      t ∈ L.keptData off ∨ ∃ m, (m < L.ndata ∧ off m = true) ∧ t ∈ L.dataSources off m := by
  rw [Layout.sourceMembers, L.kindOf_gp, List.mem_append, List.mem_flatMap]
  simp

/-- The group of every data slot is recoverable where GP's class is, with GP lost. -/
theorem gclass_of_qclass (ho : off L.gpSlot = true) (hc : L.qclass off ≠ .dataLoss) (hg : g < L.ng) :
    L.gclass off g ≠ .dataLoss := by
  unfold Layout.qclass Layout.gpOff at hc
  rw [ho, Bool.not_true, if_neg Bool.false_ne_true] at hc
  split at hc
  · next hall => simpa using List.all_eq_true.1 hall g (List.mem_range.2 hg)
  · exact absurd rfl hc

/-- What a lost slot that is not DATA_LOSS says of the groups it rests on: each of its lost data slots has a case. -/
theorem solvable_members_lp (hg : g < L.ng) (hc : L.gclass off g ≠ .dataLoss) :
    ∀ m ∈ L.lost off g, m < L.ndata ∧ Solvable L off m := by
  intro m hm
  obtain ⟨⟨hmn, rfl⟩, ho⟩ := (L.mem_lost off g m hg).1 hm
  exact ⟨hmn, solvable_of_gclass hmn ho hc⟩

theorem solvable_members_gp (ho : off L.gpSlot = true) (hc : L.qclass off ≠ .dataLoss) {m : Nat} (hm : m < L.ndata)
    (hom : off m = true) : Solvable L off m :=
  solvable_of_gclass hm hom (gclass_of_qclass ho hc (L.groupOf_spec m hm).1)

/-- A source of a lost slot that is not DATA_LOSS is an online, served slot. -/
theorem sourceMembers_online (hk : k < L.served) (ho : off k = true) (hc : L.sclass off k ≠ .dataLoss) :
    ∀ t ∈ L.sourceMembers off k, off t = false ∧ t < L.served := by
  intro t ht
  rcases L.served_cases k hk with hkd | ⟨g, hg, rfl⟩ | rfl
  · rw [L.sclass_data off k hkd] at hc
    rw [sourceMembers_data hkd] at ht
    exact dataSources_online hkd (solvable_of_gclass hkd ho hc) t ht
  · rw [L.sclass_lp off g hg] at hc
    rcases (mem_sourceMembers_lp hg t).1 ht with ht | ⟨m, hm, ht⟩
    · obtain ⟨⟨htn, -⟩, hto⟩ := (L.mem_kept off g t hg).1 ht
      exact ⟨hto, data_lt_served htn⟩
    · obtain ⟨hmn, hs⟩ := solvable_members_lp hg hc m hm
      exact dataSources_online hmn hs t ht
  · rw [L.sclass_gp off] at hc
    rcases (mem_sourceMembers_gp t).1 ht with ht | ⟨m, ⟨hmn, hmo⟩, ht⟩
    · obtain ⟨htn, hto⟩ := (L.mem_keptData off t).1 ht
      exact ⟨hto, data_lt_served htn⟩
    · exact dataSources_online hmn (solvable_members_gp ho hc hmn hmo) t ht

/-- The content of a lost slot that is not DATA_LOSS depends only on the chunks of its source set. -/
theorem content_congr (hk : k < L.served) (ho : off k = true) (hc : L.sclass off k ≠ .dataLoss)
    (h : ∀ t ∈ L.sources off k, d t = e t) : L.content off d k = L.content off e k := by
  have hmem : ∀ t ∈ L.sourceMembers off k, d t = e t := fun t ht =>
    h t ((L.mem_sources off k t).2 ⟨(sourceMembers_online hk ho hc t ht).2, ht⟩)
  rcases L.served_cases k hk with hkd | ⟨g, hg, rfl⟩ | rfl
  · rw [L.sclass_data off k hkd] at hc
    rw [sourceMembers_data hkd] at hmem
    rw [content_data d hkd, content_data e hkd]
    exact value_congr hkd (solvable_of_gclass hkd ho hc) hmem
  · rw [L.sclass_lp off g hg] at hc
    rw [content_lp d hg, content_lp e hg, if_pos ho, if_pos ho]
    refine xorOver_congr _ _ _ fun m hm => ?_
    have hmg := (L.mem_slotsOf g m hg).1 hm
    cases hmo : off m
    · rw [value_known d hmo, value_known e hmo]
      exact hmem m ((mem_sourceMembers_lp hg m).2 (.inl ((L.mem_kept off g m hg).2 ⟨hmg, hmo⟩)))
    · have hml := (L.mem_lost off g m hg).2 ⟨hmg, hmo⟩
      exact value_congr hmg.1 (solvable_members_lp hg hc m hml).2
        fun t ht => hmem t ((mem_sourceMembers_lp hg t).2 (.inr ⟨m, hml, ht⟩))
  · rw [L.sclass_gp off] at hc
    rw [content_gp d, content_gp e, if_pos ho, if_pos ho]
    refine xorOver_congr _ _ _ fun m hm => congrArg (scale (L.coef m)) ?_
    have hmn := List.mem_range.1 hm
    cases hmo : off m
    · rw [value_known d hmo, value_known e hmo]
      exact hmem m ((mem_sourceMembers_gp m).2 (.inl ((L.mem_keptData off m).2 ⟨hmn, hmo⟩)))
    · exact value_congr hmn (solvable_members_gp ho hc hmn hmo)
        fun t ht => hmem t ((mem_sourceMembers_gp t).2 (.inr ⟨m, ⟨hmn, hmo⟩, ht⟩))

/-- Settles O44, from the sources of each case. -/
theorem sourcesSuffice : Obligations.SourcesSuffice := fun L off k hk ho hc =>
  ⟨fun t ht => sourceMembers_online hk ho hc t ((L.mem_sources off k t).1 ht).2,
    fun _ _ h => content_congr hk ho hc h⟩

end Content

/-! ### Reconstruction is exact (R224, R225) -/

section Exact

variable {L : Layout} {off : Nat → Bool} {g k : Nat} {d : Nat → Chunk}

/-- P' of a group of a consistent stripe is the sum of its lost slots' chunks. -/
theorem pRest_exact (hcon : L.consistent d) (hg : g < L.ng) : L.pRest off d g = xorOver (L.lost off g) d := by
  rw [Layout.pRest, hcon.1 g hg, Layout.localParity, xorOver_slotsOf L off, BitVec.xor_assoc, BitVec.xor_self,
    BitVec.xor_zero]

/-- Case L of any slot of a consistent stripe is its chunk. -/
theorem valueL_exact (hcon : L.consistent d) (hk : k < L.ndata) : L.valueL d k = d k := by
  have hg := (L.groupOf_spec k hk).1
  rw [Layout.valueL, hcon.1 _ hg, Layout.localParity,
    xorOver_take_out (L.slotsOf_nodup _) ((L.mem_slotsOf _ k hg).2 ⟨hk, rfl⟩), BitVec.xor_assoc, BitVec.xor_self,
    BitVec.xor_zero]

/-- Q' of a consistent stripe is the weighted sum of the unknowns' chunks. -/
theorem qRest_exact (hcon : L.consistent d) {us : List Nat} (hn : us.Nodup) (hus : ∀ m ∈ us, m < L.ndata) :
    L.qRest off d us = xorOver us fun m => scale (L.coef m) (d m) := by
  have hval : ∀ m ∈ (List.range L.ndata).filter (fun m => !us.contains m),
      scale (L.coef m) (L.valueKnownOrL off d m) = scale (L.coef m) (d m) := by
    intro m hm
    rw [Layout.valueKnownOrL, valueL_exact hcon (List.mem_range.1 (List.mem_filter.1 hm).1), ite_self]
  have hus' : xorOver ((List.range L.ndata).filter us.contains) (fun m => scale (L.coef m) (d m))
      = xorOver us fun m => scale (L.coef m) (d m) :=
    xorOver_of_mem_iff (List.nodup_range.filter _) hn (fun m => by simpa using hus m) _
  rw [Layout.qRest, hcon.2, Layout.globalParity, xorOver_split (List.range L.ndata) us.contains, xorOver_congr _ _ _ hval,
    BitVec.xor_assoc, BitVec.xor_self, BitVec.xor_zero, hus']

/-- The lost data slots are those of the slot's group and those of the other lossy groups. -/
theorem xorOver_lostData (hk : k < L.ndata) (f : Nat → Chunk) :
    xorOver ((List.range L.ndata).filter off) f =
      xorOver (L.lost off (L.groupOf k)) f
        ^^^ xorOver (L.otherLossy off (L.groupOf k)) fun h => xorOver (L.lost off h) f := by
  have hg := (L.groupOf_spec k hk).1
  have hlt : ∀ h ∈ L.otherLossy off (L.groupOf k), h < L.ng ∧ h ≠ L.groupOf k := fun h hh =>
    ((L.mem_otherLossy off _ h).1 hh).1
  rw [← xorOver_flatMap, ← xorOver_append]
  refine xorOver_of_mem_iff (List.nodup_range.filter _) ?_ (fun m => ?_) f
  · refine List.Nodup.append (L.lost_nodup off _) (List.nodup_flatMap.2 ⟨fun h _ => L.lost_nodup off h, ?_⟩) ?_
    · refine List.Pairwise.imp_of_mem (fun {a b} ha hb hab => ?_)
        ((List.nodup_range.filter _).filter _ : (L.otherLossy off (L.groupOf k)).Nodup)
      intro m hma hmb
      exact hab (((L.mem_lost off a m (hlt a ha).1).1 hma).1.2.symm.trans
        ((L.mem_lost off b m (hlt b hb).1).1 hmb).1.2)
    · intro m hm hm'
      obtain ⟨h, hh, hmh⟩ := List.mem_flatMap.1 hm'
      exact (hlt h hh).2 (((L.mem_lost off h m (hlt h hh).1).1 hmh).1.2.symm.trans
        ((L.mem_lost off _ m hg).1 hm).1.2)
  · rw [List.mem_filter, List.mem_range, List.mem_append, L.mem_lost off _ m hg, List.mem_flatMap]
    constructor
    · rintro ⟨hmn, hmo⟩
      by_cases hmg : L.groupOf m = L.groupOf k
      · exact .inl ⟨⟨hmn, hmg⟩, hmo⟩
      · exact .inr ⟨_, mem_otherLossy_of_lost hmn hmo hmg, mem_lost_groupOf hmn hmo⟩
    · rintro (⟨⟨hmn, -⟩, hmo⟩ | ⟨h, hh, hmh⟩)
      · exact ⟨hmn, hmo⟩
      · obtain ⟨⟨hmn, -⟩, hmo⟩ := (L.mem_lost off h m (hlt h hh).1).1 hmh
        exact ⟨hmn, hmo⟩

/-- W2: the two weighted equations give both lost chunks. -/
theorem unscale_pair {c c' : Byte} (hc : c ≠ c') (x y : Chunk) :
    unscale (scale c x ^^^ scale c' y ^^^ scale c' (x ^^^ y)) (c ^^^ c') = x := by
  have h : scale c x ^^^ scale c' y ^^^ scale c' (x ^^^ y) = scale (c ^^^ c') x := by
    rw [scale_xor, scale_xor_left, BitVec.xor_assoc, xor_left_comm (scale c' y), BitVec.xor_self, BitVec.xor_zero]
  rw [h, unscale_scale (xor_ne_zero hc)]

/-- From a consistent stripe the value of a data slot is its chunk. -/
theorem value_exact (hleg : L.legal) (hcon : L.consistent d) (hk : k < L.ndata) (hs : off k = true → Solvable L off k) :
    L.value off d k = d k := by
  cases ho : off k
  · exact value_known d ho
  have hg := (L.groupOf_spec k hk).1
  have hlost : ∀ m ∈ L.lost off (L.groupOf k), m < L.ndata := fun m hm => ((L.mem_lost off _ m hg).1 hm).1.1
  have hnodup := L.lost_nodup off (L.groupOf k)
  have hself := mem_lost_groupOf hk ho
  cases hs ho with
  | caseL hc hl hp => rw [value_caseL d hc, valueL_exact hcon hk]
  | caseW2 i j hw hc hl hp hoth =>
    rw [hl] at hlost hnodup hself
    have hij : i ≠ j := by simpa using hnodup
    have hci : L.coef i ≠ L.coef j := fun he => hij
      (coef_injective hw hleg.2 (hlost i (by simp)) (hlost j (by simp)) he)
    have hp' : L.pRest off d (L.groupOf k) = d i ^^^ d j := by rw [pRest_exact hcon hg, hl]; simp
    have hq' : L.qRest off d [i, j] = scale (L.coef i) (d i) ^^^ scale (L.coef j) (d j) := by
      rw [qRest_exact hcon hnodup hlost]; simp
    rw [value_caseW2 d hc, hp', hq', unscale_pair hci]
    split
    · next h => rw [h]
    · next h =>
      have hkj : k = j := by simpa [h] using hself
      rw [hkj, BitVec.xor_comm (d i), BitVec.xor_assoc, BitVec.xor_self, BitVec.xor_zero]
  | caseW1 hw hc hl hp hoth =>
    rw [hl] at hlost hnodup
    have hq' : L.qRest off d [k] = scale (L.coef k) (d k) := by rw [qRest_exact hcon hnodup hlost]; simp
    rw [value_caseW1 d hc, hq', unscale_scale (coef_ne_zero L k)]
  | caseX1 hw hc hl hp hq hoth =>
    have hgp : d L.gpSlot = xorOver (List.range L.ndata) d := by
      rw [hcon.2, Layout.globalParity]
      exact xorOver_congr _ _ _ fun m _ => by rw [coef_plain hw, scale_one]
    have hother : xorOver (L.otherLossy off (L.groupOf k)) (L.pRest off d)
        = xorOver (L.otherLossy off (L.groupOf k)) fun h => xorOver (L.lost off h) d :=
      xorOver_congr _ _ _ fun h hh => pRest_exact hcon ((L.mem_otherLossy off _ h).1 hh).1.1
    have hsplit : xorOver (List.range L.ndata) d
        = d k ^^^ xorOver (L.otherLossy off (L.groupOf k)) (fun h => xorOver (L.lost off h) d)
          ^^^ xorOver (L.keptData off) d := by
      rw [xorOver_split (List.range L.ndata) off, xorOver_lostData hk, hl]
      simp [Layout.keptData]
    rw [value_caseX1 d hc, hgp, hother, hsplit]
    simp only [BitVec.xor_assoc, BitVec.xor_self, BitVec.xor_zero]

/-- From a consistent stripe the content of a slot that is not DATA_LOSS is its chunk. -/
theorem content_exact (hleg : L.legal) (hcon : L.consistent d) (hk : k < L.served) (hc : L.sclass off k ≠ .dataLoss) :
    L.content off d k = d k := by
  rcases L.served_cases k hk with hkd | ⟨g, hg, rfl⟩ | rfl
  · rw [L.sclass_data off k hkd] at hc
    rw [content_data d hkd]
    exact value_exact hleg hcon hkd fun ho => solvable_of_gclass hkd ho hc
  · rw [L.sclass_lp off g hg] at hc
    rw [content_lp d hg]
    split
    · rw [hcon.1 g hg]
      refine xorOver_congr _ _ _ fun m hm => ?_
      obtain ⟨hmn, hmg⟩ := (L.mem_slotsOf g m hg).1 hm
      exact value_exact hleg hcon hmn fun ho => solvable_of_gclass hmn ho (by rw [hmg]; exact hc)
    · rfl
  · rw [L.sclass_gp off] at hc
    rw [content_gp d]
    split
    · next ho =>
      rw [hcon.2]
      refine xorOver_congr _ _ _ fun m hm => congrArg (scale (L.coef m)) ?_
      have hmn := List.mem_range.1 hm
      exact value_exact hleg hcon hmn fun hmo => solvable_members_gp ho hc hmn hmo
    · rfl

/-- Settles O45: the content depends on the sources only, and from the stripe itself it is exact. -/
theorem reconstructionIsExact : Obligations.ReconstructionIsExact := by
  intro L off d e k hleg hcon hagree hk hc
  cases ho : off k
  · rcases L.served_cases k hk with hkd | ⟨g, hg, rfl⟩ | rfl
    · rw [content_data e hkd, value_known e ho, hagree k hk ho]
    · rw [content_lp e hg, ho, hagree _ hk ho]; rfl
    · rw [content_gp e, ho, hagree _ hk ho]; rfl
  · rw [content_congr hk ho hc (e := d), content_exact hleg hcon hk hc]
    intro t ht
    obtain ⟨hto, hts⟩ := sourceMembers_online hk ho hc t ((L.mem_sources off k t).1 ht).2
    exact hagree t hts hto

end Exact

end Sys2Proof.Proofs
end

section
/-! PROOFS. Determinedness against the rank criterion, and the classes (41_parity_math.md R211 to R223). -/

namespace Sys2Proof.Proofs

open Sys2Proof.Machine

/-! ### The rank criterion (41_parity_math.md R211 to R214) -/

section Rank

variable {L : Layout} {off : Nat → Bool} {k : Nat}

theorem byte_xor_zero (a : Byte) : a ^^^ 0 = a := BitVec.xor_zero

theorem byte_zero_xor (a : Byte) : 0 ^^^ a = a := BitVec.zero_xor

theorem length_le_one_of_forall_eq {l : List Nat} (hn : l.Nodup) (h : ∀ a ∈ l, ∀ b ∈ l, a = b) : l.length ≤ 1 := by
  match l, hn, h with
  | [], _, _ => simp
  | [_], _, _ => simp
  | a :: b :: l, hn, h =>
    have hab := h a (by simp) b (by simp)
    simp [hab] at hn

/-- A group whose one lost slot its own local parity gives. -/
theorem rankDetermined_of_localParity (hp : off (L.lpSlot (L.groupOf k)) = false)
    (hl : L.lost off (L.groupOf k) = [k]) : L.rankDetermined off k := by
  refine ⟨fun g => if g = L.groupOf k then 1 else 0, 0, fun g _ hg => if_neg ?_, fun _ => rfl, fun j hj ho => ?_⟩
  · rintro rfl
    rw [Layout.lpOff, hp] at hg
    exact Bool.false_ne_true hg
  · dsimp only
    rw [gfMul_zero_left, byte_xor_zero]
    refine if_congr ⟨fun h => ?_, fun h => by rw [h]⟩ rfl rfl
    have hm := mem_lost_groupOf hj ho
    rw [h, hl] at hm
    exact List.mem_singleton.1 hm

/-- The multipliers of the local-parity equations when the global one is taken `mu` times under WEIGHTED: in another
group they cancel the one lost slot. -/
def cancelling (L : Layout) (off : Nat → Bool) (mu : Byte) (g : Nat) : Byte :=
  if off (L.lpSlot g) then 0 else gfMul mu (L.coef ((L.lost off g).headD 0))

/-- With the global equation taken `mu` times and that of k's group `x` times, every other group's lost slot cancels. -/
theorem rankDetermined_of_global {x mu : Byte} (ho : OthersL L off (L.groupOf k))
    (hx : off (L.lpSlot (L.groupOf k)) = true → x = 0)
    (hg : ∀ j ∈ L.lost off (L.groupOf k), x ^^^ gfMul mu (L.coef j) = if j = k then 1 else 0) :
    L.rankDetermined off k := by
  refine ⟨fun g => if g = L.groupOf k then x else cancelling L off mu g, mu, fun g _ hlp => ?_, fun hq => ?_,
    fun j hj hoj => ?_⟩
  · dsimp only
    split
    · next h => exact hx (h ▸ hlp)
    · exact if_pos hlp
  · rw [Layout.gpOff, ho.gp] at hq
    exact absurd hq Bool.false_ne_true
  · dsimp only
    have hm := mem_lost_groupOf hj hoj
    split
    · next h => exact hg j (h ▸ hm)
    · next h =>
      have hne : j ≠ k := fun he => h (congrArg L.groupOf he)
      have hlp := ho.lp _ (mem_otherLossy_of_lost hj hoj h)
      rw [cancelling, hlp, ho.one j hj hoj h, if_neg hne]
      exact BitVec.xor_self

/-- The closed forms are enough (R213, R214). -/
theorem rankDetermined_of_determined (hleg : L.legal) (hk : k < L.ndata) (ho : off k = true)
    (hd : L.determined off (L.groupOf k) = true) : L.rankDetermined off k := by
  have hg := (L.groupOf_spec k hk).1
  have hc : L.gclass off (L.groupOf k) ≠ .dataLoss := by
    rw [Ne, L.gclass_eq_dataLoss_iff]
    rintro ⟨-, h⟩
    exact Bool.false_ne_true (h.symm.trans hd)
  have hself := mem_lost_groupOf hk ho
  cases solvable_of_gclass hk ho hc with
  | caseL _ hl hp => exact rankDetermined_of_localParity hp hl
  | caseW2 i j hw _ hl hp hoth =>
    have hnodup := L.lost_nodup off (L.groupOf k)
    have hlt : ∀ m ∈ [i, j], m < L.ndata := fun m hm => ((L.mem_lost off _ m hg).1 (hl ▸ hm)).1.1
    rw [hl] at hself hnodup
    have hij : i ≠ j := by simpa using hnodup
    obtain ⟨o, ho', hok⟩ : ∃ o ∈ [i, j], o ≠ k ∧ ∀ m ∈ [i, j], m = k ∨ m = o := by
      rcases List.mem_pair.1 hself with rfl | rfl
      · exact ⟨j, by simp, hij.symm, fun m hm => List.mem_pair.1 hm⟩
      · exact ⟨i, by simp, hij, fun m hm => (List.mem_pair.1 hm).symm⟩
    have hne : L.coef o ^^^ L.coef k ≠ 0 := xor_ne_zero fun he =>
      hok.1 (coef_injective hw hleg.2 (hlt o ho') hk he)
    refine rankDetermined_of_global (x := gfMul (gfInv (L.coef o ^^^ L.coef k)) (L.coef o))
      (mu := gfInv (L.coef o ^^^ L.coef k)) hoth (fun h => absurd (hp.symm.trans h) Bool.false_ne_true) fun m hm => ?_
    rw [hl] at hm
    rcases hok.2 m hm with rfl | rfl
    · rw [if_pos rfl, ← gfMul_xor_right, gfMul_comm, gfMul_gfInv hne]
    · rw [if_neg hok.1]
      exact BitVec.xor_self
  | caseW1 hw _ hl hp hoth =>
    refine rankDetermined_of_global (x := 0) (mu := gfInv (L.coef k)) hoth (fun _ => rfl) fun m hm => ?_
    rw [hl] at hm
    obtain rfl := List.mem_singleton.1 hm
    rw [if_pos rfl, byte_zero_xor, gfMul_comm, gfMul_gfInv (coef_ne_zero L m)]
  | caseX1 hw _ hl hp hq hoth =>
    refine ⟨fun g => if off (L.lpSlot g) then 0 else 1, 1, fun g _ h => if_pos h, fun h => ?_, fun j hj hoj => ?_⟩
    · exact absurd (hq.symm.trans h) Bool.false_ne_true
    · dsimp only
      have hm := mem_lost_groupOf hj hoj
      rw [coef_plain hw, gfMul_one]
      by_cases hjg : L.groupOf j = L.groupOf k
      · rw [hjg, hl] at hm
        rw [hjg, hp, if_pos rfl, if_pos (List.mem_singleton.1 hm)]
        rfl
      · rw [hoth _ (mem_otherLossy_of_lost hj hoj hjg), if_neg fun he => hjg (congrArg L.groupOf he)]
        rfl

/-- What a combination that gives the unit row of k says of k's group and of the others. -/
structure UnitRow (L : Layout) (off : Nat → Bool) (k : Nat) (lam : Nat → Byte) (mu : Byte) : Prop where
  lp : ∀ g, g < L.ng → off (L.lpSlot g) = true → lam g = 0
  gp : off L.gpSlot = true → mu = 0
  self : lam (L.groupOf k) ^^^ gfMul mu (L.coef k) = 1
  other : ∀ j, j < L.ndata → off j = true → j ≠ k → lam (L.groupOf j) = gfMul mu (L.coef j)

theorem unitRow_of_rankDetermined (hk : k < L.ndata) (ho : off k = true) (h : L.rankDetermined off k) :
    ∃ lam mu, UnitRow L off k lam mu := by
  obtain ⟨lam, mu, hlp, hgp, hrow⟩ := h
  refine ⟨lam, mu, hlp, hgp, by rw [hrow k hk ho, if_pos rfl], fun j hj hoj hne => ?_⟩
  have := hrow j hj hoj
  rw [if_neg hne] at this
  exact BitVec.xor_eq_zero_iff.1 this

/-- Without the global equation only k itself can be lost in its group, and the group's equation is needed. -/
theorem lost_of_mu_zero {lam : Nat → Byte} (hk : k < L.ndata) (ho : off k = true) (h : UnitRow L off k lam 0) :
    (L.lost off (L.groupOf k)).length = 1 ∧ off (L.lpSlot (L.groupOf k)) = false := by
  have hg := (L.groupOf_spec k hk).1
  have hself := h.self
  rw [gfMul_zero_left, byte_xor_zero] at hself
  have hall : ∀ m ∈ L.lost off (L.groupOf k), m = k := by
    intro m hm
    obtain ⟨⟨hmn, hmg⟩, hmo⟩ := (L.mem_lost off _ m hg).1 hm
    by_contra hne
    have := h.other m hmn hmo hne
    rw [hmg, hself, gfMul_zero_left] at this
    exact absurd this (by decide)
  refine ⟨?_, ?_⟩
  · have hle := length_le_one_of_forall_eq (L.lost_nodup off (L.groupOf k)) fun a ha b hb => (hall a ha).trans (hall b hb).symm
    have hpos := List.length_pos_of_mem (mem_lost_groupOf hk ho)
    omega
  · by_contra hp
    rw [h.lp _ hg (by simpa using hp)] at hself
    exact absurd hself (by decide)

/-- Two lost slots other than k of one group have the same coefficient, and none where its local parity is offline. -/
theorem coef_eq_of_unitRow {lam : Nat → Byte} {mu : Byte} (h : UnitRow L off k lam mu) (hmu : mu ≠ 0) {i j : Nat}
    (hi : i < L.ndata) (hj : j < L.ndata) (hoi : off i = true) (hoj : off j = true) (hik : i ≠ k) (hjk : j ≠ k)
    (hg : L.groupOf i = L.groupOf j) : L.coef i = L.coef j := by
  have he := (h.other i hi hoi hik).symm.trans (hg ▸ h.other j hj hoj hjk)
  rw [← gfDiv_gfMul hmu (L.coef i), ← gfDiv_gfMul hmu (L.coef j), gfMul_comm, he, gfMul_comm]

theorem lp_online_of_unitRow {lam : Nat → Byte} {mu : Byte} (h : UnitRow L off k lam mu) (hmu : mu ≠ 0) {j : Nat}
    (hj : j < L.ndata) (hoj : off j = true) (hjk : j ≠ k) : off (L.lpSlot (L.groupOf j)) = false := by
  by_contra hp
  have he := h.other j hj hoj hjk
  rw [h.lp _ (L.groupOf_spec j hj).1 (by simpa using hp)] at he
  exact hmu (gfMul_eq_zero he.symm (coef_ne_zero L j))

/-- The lost slots of k's group but for k. -/
theorem length_lost_eq (hk : k < L.ndata) (ho : off k = true) :
    (L.lost off (L.groupOf k)).length = ((L.lost off (L.groupOf k)).erase k).length + 1 := by
  have hm := mem_lost_groupOf hk ho
  have hpos := List.length_pos_of_mem hm
  rw [List.length_erase_of_mem hm]
  omega

theorem mem_erase_lost (hk : k < L.ndata) {j : Nat} (hj : j ∈ (L.lost off (L.groupOf k)).erase k) :
    j ≠ k ∧ j < L.ndata ∧ off j = true ∧ L.groupOf j = L.groupOf k := by
  obtain ⟨hne, hm⟩ := (L.lost_nodup off _).mem_erase_iff.1 hj
  obtain ⟨⟨hn, hg⟩, ho⟩ := (L.mem_lost off _ j (L.groupOf_spec k hk).1).1 hm
  exact ⟨hne, hn, ho, hg⟩

/-- `need` under WEIGHTED where the global equation is taken: at most 1 in k's group, none in the others. -/
theorem need_of_unitRow {lam : Nat → Byte} {mu : Byte} (hleg : L.legal) (hw : L.plain = false) (hk : k < L.ndata)
    (ho : off k = true) (h : UnitRow L off k lam mu) (hmu : mu ≠ 0) :
    L.need off (L.groupOf k) ≤ 1 ∧ ∀ g ∈ L.otherGroups (L.groupOf k), L.need off g ≤ 0 := by
  have hlp : ∀ g, L.lpOff off g = off (L.lpSlot g) := fun _ => rfl
  constructor
  · have hlen := length_lost_eq hk ho
    have hrest : ((L.lost off (L.groupOf k)).erase k).length ≤ 1 := by
      refine length_le_one_of_forall_eq ((L.lost_nodup off _).erase k) fun a ha b hb => ?_
      obtain ⟨hak, han, hao, hag⟩ := mem_erase_lost hk ha
      obtain ⟨hbk, hbn, hbo, hbg⟩ := mem_erase_lost hk hb
      exact coef_injective hw hleg.2 han hbn
        (coef_eq_of_unitRow h hmu han hbn hao hbo hak hbk (hag.trans hbg.symm))
    unfold Layout.need
    cases hp : off (L.lpSlot (L.groupOf k))
    · rw [hlp, hp, if_neg Bool.false_ne_true]; omega
    · have hnil : (L.lost off (L.groupOf k)).erase k = [] := by
        rw [List.eq_nil_iff_forall_not_mem]
        intro a ha
        obtain ⟨hak, han, hao, hag⟩ := mem_erase_lost hk ha
        have := lp_online_of_unitRow h hmu han hao hak
        rw [hag, hp] at this
        cases this
      rw [hnil, List.length_nil] at hlen
      rw [hlp, hp, if_pos rfl, hlen]; decide
  · intro g hg
    obtain ⟨hgn, hne⟩ := (L.mem_otherGroups _ g).1 hg
    have hmem : ∀ a ∈ L.lost off g, a ≠ k ∧ a < L.ndata ∧ off a = true ∧ L.groupOf a = g := by
      intro a ha
      obtain ⟨⟨han, hag⟩, hao⟩ := (L.mem_lost off g a hgn).1 ha
      exact ⟨fun he => hne (by rw [← hag, he]), han, hao, hag⟩
    have hle : (L.lost off g).length ≤ 1 := by
      refine length_le_one_of_forall_eq (L.lost_nodup off g) fun a ha b hb => ?_
      obtain ⟨hak, han, hao, hag⟩ := hmem a ha
      obtain ⟨hbk, hbn, hbo, hbg⟩ := hmem b hb
      exact coef_injective hw hleg.2 han hbn
        (coef_eq_of_unitRow h hmu han hbn hao hbo hak hbk (hag.trans hbg.symm))
    unfold Layout.need
    cases hp : off (L.lpSlot g)
    · rw [hlp, hp, if_neg Bool.false_ne_true]; omega
    · have hnil : L.lost off g = [] := by
        rw [List.eq_nil_iff_forall_not_mem]
        intro a ha
        obtain ⟨hak, han, hao, hag⟩ := hmem a ha
        have := lp_online_of_unitRow h hmu han hao hak
        rw [hag, hp] at this
        cases this
      rw [hlp, hp, if_pos rfl, hnil]; decide

theorem gp_online_of_unitRow {lam : Nat → Byte} {mu : Byte} (h : UnitRow L off k lam mu) (hmu : mu ≠ 0) :
    L.gpOff off = false := by
  by_contra hq
  exact hmu (h.gp (by simpa [Layout.gpOff] using hq))

/-- The closed forms are needed (R213, R214). -/
theorem determined_of_rankDetermined (hleg : L.legal) (hk : k < L.ndata) (ho : off k = true)
    (h : L.rankDetermined off k) : L.determined off (L.groupOf k) = true := by
  obtain ⟨lam, mu, h⟩ := unitRow_of_rankDetermined hk ho h
  have hlp : ∀ g, L.lpOff off g = off (L.lpSlot g) := fun _ => rfl
  unfold Layout.determined
  cases hw : L.plain
  · rw [if_neg Bool.false_ne_true]
    by_cases hmu : mu = 0
    · subst hmu
      obtain ⟨h1, hp⟩ := lost_of_mu_zero hk ho h
      simp [Layout.need, hlp, hp, h1]
    · obtain ⟨hn, hoth⟩ := need_of_unitRow hleg hw hk ho h hmu
      have hall : (L.otherGroups (L.groupOf k)).all (fun g => decide (L.need off g ≤ 0)) = true :=
        List.all_eq_true.2 fun g hg => decide_eq_true (hoth g hg)
      rw [gp_online_of_unitRow h hmu, hall]
      simp only [Bool.not_false, Bool.and_true, Bool.or_eq_true, decide_eq_true_eq]
      omega
  · rw [if_pos rfl]
    have hself := h.self
    rw [coef_plain hw, gfMul_one] at hself
    have hother : ∀ j, j < L.ndata → off j = true → j ≠ k → lam (L.groupOf j) = mu := by
      intro j hj hoj hjk
      rw [h.other j hj hoj hjk, coef_plain hw, gfMul_one]
    have h1 : (L.lost off (L.groupOf k)).length = 1 := by
      have hnil : (L.lost off (L.groupOf k)).erase k = [] := by
        rw [List.eq_nil_iff_forall_not_mem]
        intro a ha
        obtain ⟨hak, han, hao, hag⟩ := mem_erase_lost hk ha
        have := hother a han hao hak
        rw [hag] at this
        rw [this, BitVec.xor_self] at hself
        exact absurd hself (by decide)
      rw [length_lost_eq hk ho, hnil]; rfl
    rw [h1]
    cases hp : off (L.lpSlot (L.groupOf k))
    · rw [hlp, hp]; rfl
    · rw [h.lp _ (L.groupOf_spec k hk).1 hp, byte_zero_xor] at hself
      have hmu : mu ≠ 0 := by rw [hself]; decide
      rw [hlp, hp, gp_online_of_unitRow h hmu, if_pos rfl]
      simp only [Bool.not_false, Bool.and_true, Bool.true_and, beq_self_eq_true, Bool.or_eq_true, List.all_eq_true]
      refine .inr fun g hg => ?_
      obtain ⟨hgn, hne⟩ := (L.mem_otherGroups _ g).1 hg
      cases hl : L.lost off g with
      | nil => simp
      | cons a l =>
        obtain ⟨⟨han, hag⟩, hao⟩ := (L.mem_lost off g a hgn).1 (by rw [hl]; exact List.mem_cons_self)
        have hak : a ≠ k := fun he => hne (by rw [← hag, he])
        have := lp_online_of_unitRow h hmu han hao hak
        rw [hag] at this
        rw [hlp, this]; rfl

theorem determined_iff_rankDetermined (hleg : L.legal) (hk : k < L.ndata) (ho : off k = true) :
    L.determined off (L.groupOf k) = true ↔ L.rankDetermined off k :=
  ⟨rankDetermined_of_determined hleg hk ho, determined_of_rankDetermined hleg hk ho⟩

end Rank

/-! ### The classes (41_parity_math.md R220 to R223) -/

section Classes

variable {L : Layout} {off : Nat → Bool} {g : Nat}

/-- A group is one of OK, RECOVERABLE and DATA_LOSS. -/
theorem gclass_cases (L : Layout) (off : Nat → Bool) (g : Nat) :
    L.gclass off g = .ok ∨ L.gclass off g = .recoverable ∨ L.gclass off g = .dataLoss := by
  unfold Layout.gclass
  split
  · exact .inl rfl
  · split
    · exact .inr (.inl rfl)
    · exact .inr (.inr rfl)

theorem gclass_ne_dataLoss_iff (hleg : L.legal) (hg : g < L.ng) :
    L.gclass off g ≠ .dataLoss ↔ ∀ k, k < L.ndata → L.groupOf k = g → off k = true → L.rankDetermined off k := by
  constructor
  · rintro hc k hk rfl ho
    refine (determined_iff_rankDetermined hleg hk ho).1 (L.determined_of_gclass off _ ?_ hc)
    exact List.ne_nil_of_mem (mem_lost_groupOf hk ho)
  · intro h hc
    obtain ⟨hl, hd⟩ := (L.gclass_eq_dataLoss_iff off g).1 hc
    obtain ⟨k, hk⟩ := List.exists_mem_of_ne_nil _ hl
    obtain ⟨⟨hkn, rfl⟩, ho⟩ := (L.mem_lost off g k hg).1 hk
    rw [(determined_iff_rankDetermined hleg hkn ho).2 (h k hkn rfl ho)] at hd
    cases hd

theorem qclass_ok_iff : L.qclass off = .ok ↔ off L.gpSlot = false := by
  unfold Layout.qclass Layout.gpOff
  cases off L.gpSlot
  · simp
  · simp only [Bool.not_true, Bool.false_eq_true, if_false]
    split <;> simp

theorem qclass_dataLoss_iff :
    L.qclass off = .dataLoss ↔ off L.gpSlot = true ∧ ∃ g, g < L.ng ∧ L.gclass off g = .dataLoss := by
  unfold Layout.qclass Layout.gpOff
  cases off L.gpSlot
  · simp
  · by_cases h : (List.range L.ng).all (fun g => L.gclass off g != .dataLoss) = true
    · rw [if_neg (by decide), if_pos h]
      simpa using h
    · rw [if_neg (by decide), if_neg h]
      simpa using h

/-- GP's class is one of OK, RECOVERABLE and DATA_LOSS. -/
theorem qclass_cases (L : Layout) (off : Nat → Bool) :
    L.qclass off = .ok ∨ L.qclass off = .recoverable ∨ L.qclass off = .dataLoss := by
  unfold Layout.qclass
  split
  · exact .inl rfl
  · split
    · exact .inr (.inl rfl)
    · exact .inr (.inr rfl)

/-- Of three classes, the middle one is what is neither of the others. -/
theorem eq_recoverable_iff {c : IntegrityClass} (h : c = .ok ∨ c = .recoverable ∨ c = .dataLoss) :
    c = .recoverable ↔ c ≠ .ok ∧ c ≠ .dataLoss := by
  rcases h with rfl | rfl | rfl <;> simp

/-- Settles O43: each closed form is the rank criterion's, and each class is what the others leave. -/
theorem determinedIffRank : Obligations.DeterminedIffRank := by
  intro L off hleg
  refine ⟨fun k hk ho => determined_iff_rankDetermined hleg hk ho, fun g hg => ?groups, qclass_ok_iff, ?recoverable,
    qclass_dataLoss_iff, fun k hk => L.sclass_data off k hk, fun g hg => L.sclass_lp off g hg, L.sclass_gp off⟩
  case groups =>
    have hok := L.gclass_eq_ok_iff off g hg
    have hloss := gclass_ne_dataLoss_iff (off := off) hleg hg
    refine ⟨hok, ?_, ?_⟩
    · rw [eq_recoverable_iff (gclass_cases L off g)]
      exact and_congr (not_congr hok) hloss
    · rw [← not_iff_not, not_not]
      exact hloss
  case recoverable =>
    rw [eq_recoverable_iff (qclass_cases L off), Ne, Ne, qclass_ok_iff, qclass_dataLoss_iff]
    have hq : (L.ndata + L.ng) = L.gpSlot := rfl
    rw [hq, Bool.not_eq_false]
    refine and_congr_right fun ho => ?_
    simp [ho]

/-- The closed forms where the other groups of the domain are intact: what is lost of the group and GP decide. -/
theorem determined_of_others_intact (h : ∀ h, h < L.ng → h ≠ g → L.lost off h = [] ∧ L.lpOff off h = false) :
    L.determined off g = true ↔
      if L.plain then
        if L.lpOff off g then
          (L.lost off g).length = 0 ∨ (L.lost off g).length = 1 ∧ L.gpOff off = false
        else (L.lost off g).length ≤ 1
      else (L.lost off g).length + (if L.lpOff off g then 1 else 0) ≤ 1
        ∨ (L.lost off g).length + (if L.lpOff off g then 1 else 0) = 2 ∧ L.gpOff off = false := by
  have hintact : ∀ h' ∈ L.otherGroups g, L.lost off h' = [] ∧ L.lpOff off h' = false := fun h' hm =>
    h h' ((L.mem_otherGroups g h').1 hm).1 ((L.mem_otherGroups g h').1 hm).2
  have hneed : (L.otherGroups g).all (fun h' => decide (L.need off h' ≤ 0)) = true :=
    List.all_eq_true.2 fun h' hm => by simp [Layout.need, hintact h' hm]
  have hplain : (L.otherGroups g).all (fun h' => !(L.lpOff off h' && (L.lost off h').length != 0)) = true :=
    List.all_eq_true.2 fun h' hm => by simp [hintact h' hm]
  unfold Layout.determined
  rw [hneed, hplain]
  cases L.plain
  · have hle : L.need off g ≤ 0 ↔ (L.lost off g).length + (if L.lpOff off g then 1 else 0) ≤ 1 := by
      unfold Layout.need
      split <;> omega
    have heq : L.need off g = 1 ↔ (L.lost off g).length + (if L.lpOff off g then 1 else 0) = 2 := by
      unfold Layout.need
      split <;> omega
    simp only [Bool.false_eq_true, if_false, Bool.and_true, Bool.or_eq_true, Bool.and_eq_true, decide_eq_true_eq,
      Bool.not_eq_true', hle, heq]
  · cases L.lpOff off g <;> simp

/-- At most two are lost of such a determined group and its LP, and with two lost GP is online. -/
theorem bound_of_determined (h : ∀ h, h < L.ng → h ≠ g → L.lost off h = [] ∧ L.lpOff off h = false)
    (hd : L.determined off g = true) :
    (L.lost off g).length + (if L.lpOff off g then 1 else 0) ≤ 2
      ∧ ((L.lost off g).length + (if L.lpOff off g then 1 else 0) = 2 → L.gpOff off = false) := by
  have hd := (determined_of_others_intact h).1 hd
  split at hd
  · split at hd
    · next hp =>
      rw [if_pos hp]
      exact ⟨by omega, fun h2 => (hd.resolve_left (by omega)).2⟩
    · next hp =>
      rw [if_neg hp]
      exact ⟨by omega, fun h2 => by omega⟩
  · exact ⟨by omega, fun h2 => (hd.resolve_left (by omega)).2⟩

/-- The class of a group by what is lost of it. -/
theorem gclass_of_not_ok (hn : ¬((L.lost off g).length = 0 ∧ L.lpOff off g = false)) :
    L.gclass off g = if L.determined off g then .recoverable else .dataLoss :=
  if_neg fun h => by
    rw [Bool.and_eq_true, List.isEmpty_iff, Bool.not_eq_true'] at h
    exact hn ⟨List.length_eq_zero_iff.2 h.1, h.2⟩

/-- Settles O46: each row is the closed form with the other groups intact. -/
theorem oneGroupFailureTable : Obligations.OneGroupFailureTable := by
  intro L off g hg hintact
  have hd := determined_of_others_intact hintact
  have hbound := bound_of_determined hintact
  refine ⟨fun hl hp => ?row0, fun hl hp => ?row1, fun hl hp => ?row1lp, fun hl hp hq => ?row2, fun hl hp hq => ?row2lp,
    fun hl hq => ?row2gp, fun hl => ?row3⟩
  case row0 =>
    unfold Layout.gclass
    rw [List.length_eq_zero_iff.1 hl, hp]
    rfl
  case row1 =>
    rw [gclass_of_not_ok (by omega), if_pos (hd.2 (by simp [hl, hp]))]
  case row1lp =>
    rw [gclass_of_not_ok (by simp [hp]), if_pos (hd.2 (by simp [hl, hp]))]
  case row2 =>
    rw [gclass_of_not_ok (by omega)]
    cases hw : L.plain
    · rw [if_pos (hd.2 (by simp [hl, hp, hq, hw]))]
      rfl
    · rw [if_neg fun h => by simpa [hl, hp, hw] using hd.1 h]
      rfl
  case row2lp =>
    rw [gclass_of_not_ok (by omega), if_pos (hd.2 (by simp [hl, hp, hq]))]
  case row2gp =>
    rw [gclass_of_not_ok (by rintro ⟨h0, hp⟩; simp [h0, hp] at hl), if_neg fun h => ?_]
    have hgp := (hbound h).2 hl
    exact Bool.false_ne_true (hgp.symm.trans hq)
  case row3 =>
    rw [gclass_of_not_ok (by rintro ⟨h0, hp⟩; simp [h0, hp] at hl), if_neg fun h => ?_]
    have hle := (hbound h).1
    omega

end Classes

end Sys2Proof.Proofs
end

section
/-! PROOFS. Steps, host accesses while idle, the interrupt line and STATUS (00_scope.md, 10_state.md R32 to R52, R94,
60_exceptions.md R340, R350). -/

namespace Sys2Proof.Proofs

open Sys2Proof.Machine

/-! ### The step that completes a command (30_encoding.md R120) -/

section Steps

variable {s : State} {f : Flight}

/-- A completion runs the word in flight. -/
theorem completeFlight_of_flight (hf : s.flight = some f) : completeFlight s = runWord f.word s := by
  unfold completeFlight
  rw [hf]

theorem runWord_of_decode {w : Word} {i : Instr} (hd : decode w = .ok i) (s : State) : runWord w s = exec i s := by
  unfold runWord
  rw [hd]

theorem runWord_of_error {w : Word} {e : DecodeError} (hd : decode w = .error e) (s : State) :
    runWord w s = .next (finish .invalidCommand s) := by
  unfold runWord
  rw [hd]
  rfl

/-- With no input left, the word in flight runs. -/
theorem step_of_no_input (hf : s.flight = some f) (hin : s.inputs = []) : step s = runWord f.word s := by
  rw [step, advance, hin]
  exact completeFlight_of_flight hf

/-- At a completion, the word in flight runs. -/
theorem step_of_complete {rest : List Input} (hf : s.flight = some f) (hin : s.inputs = .complete :: rest) :
    step s = runWord f.word { s with inputs := rest } := by
  rw [step, advance, hin]
  exact completeFlight_of_flight (s := { s with inputs := rest }) hf

/-- At a completion that meets a write to IRQ_STATUS, the word in flight runs after the write (10_state.md R38). -/
theorem step_of_completeWithIrqWrite {v : Word} {rest : List Input} (hf : s.flight = some f)
    (hin : s.inputs = .completeWithIrqWrite v :: rest) :
    step s = runWord f.word { s with inputs := rest, donePend := s.donePend && !v.getLsbD 0 } := by
  rw [step, advance, hin]
  exact completeFlight_of_flight (s := State.writeIrqStatus { s with inputs := rest } v) hf

end Steps

/-- Settles O4: each way a command completes is a run of its word, which decodes. -/
theorem stepRunsDecodedCommand : Obligations.StepRunsDecodedCommand := by
  refine ⟨fun s f i hf hd => ⟨fun hin => ?_, fun rest hin => ?_, fun v rest hin => ?_⟩, fun s w i hd => ?_⟩
  · rw [step_of_no_input hf hin, runWord_of_decode hd]
  · rw [step_of_complete hf hin, runWord_of_decode hd]
  · rw [step_of_completeWithIrqWrite hf hin, runWord_of_decode hd]
  · have hw : BitVec.ofNat 32 (w.toNat % 2 ^ 32) = w := by
      rw [Nat.mod_eq_of_lt w.isLt, BitVec.ofNat_toNat, BitVec.setWidth_eq]
    rw [State.withFetchWord, hw, step_of_complete (s := submitted s w) rfl rfl]
    exact runWord_of_decode hd _

/-- Settles O5: a word that does not decode ends in `finish`, and so does NOP. -/
theorem illegalWordAndNopOnlyComplete : Obligations.IllegalWordAndNopOnlyComplete := by
  refine ⟨fun s f e hf hd => ⟨fun hin => ?_, fun rest hin => ?_⟩, fun s => rfl⟩
  · rw [step_of_no_input hf hin, runWord_of_error hd]
    rfl
  · rw [step_of_complete hf hin, runWord_of_error hd]
    rfl

/-! ### Reads while idle (10_state.md R40 to R52) -/

/-- A read of any register while idle is exact. -/
theorem step_read_idle {s : State} {off : BitVec 16} {draw : Word} {rest : List Input} {r : Reg}
    (hf : s.flight = none) (hin : s.inputs = .hostRead off .word draw :: rest) (ha : off.toNat % 4 = 0)
    (hr : regAt off.toNat = some r) : step s = .next { s with inputs := rest, readData := s.regValue r } := by
  rw [step_hostRead s off draw rest hin ha, State.windowRead, hr]
  simp only [not_busy_of_flight hf, Bool.and_false, Bool.false_eq_true, if_false]

/-- The report word at its place in the array of 4096 words. -/
theorem regAt_reportIndex {i : Nat} (hi : i < 4096) : regAt (0x8000 + 4 * i) = some (.reportWord (i / 8) (i % 8)) := by
  have h := regAt_reportWord (i / 8) (i % 8) (by omega) (by omega)
  rwa [show 0x8000 + 32 * (i / 8) + 4 * (i % 8) = 0x8000 + 4 * i by omega] at h

theorem reportWordAt_index (s : State) (i : Nat) :
    s.reportWordAt (i / 8) (i % 8) = s.report.read (0x8000 + 4 * i + 3) ++ s.report.read (0x8000 + 4 * i + 2)
      ++ s.report.read (0x8000 + 4 * i + 1) ++ s.report.read (0x8000 + 4 * i) := by
  rw [State.reportWordAt, show 0x8000 + 32 * (i / 8) + 4 * (i % 8) = 0x8000 + 4 * i by omega, readBlock_word]

/-- Settles O9: each offset's register, read exactly while idle. -/
theorem idleReadsReturnResults : Obligations.IdleReadsReturnResults := by
  intro s off draw rest hf hin
  have reads : ∀ (r : Reg) {o : BitVec 16}, o.toNat % 4 = 0 → regAt o.toNat = some r → off = o →
      step s = .next { s with inputs := rest, readData := s.regValue r } :=
    fun r _ ha hr ho => step_read_idle hf hin (ho ▸ ha) (ho ▸ hr)
  have readsAt : ∀ (r : Reg) {a : Nat}, a % 4 = 0 → regAt a = some r → off.toNat = a →
      step s = .next { s with inputs := rest, readData := s.regValue r } :=
    fun r _ ha hr ho => step_read_idle hf hin (ho ▸ ha) (ho ▸ hr)
  refine ⟨reads .ctrl rfl rfl, reads .peekData rfl rfl, reads .qres0 rfl rfl, reads .qres1 rfl rfl,
    reads .reportCount rfl rfl, reads .topoNdom rfl rfl, reads .topoNdata rfl rfl, reads .topoTotalData rfl rfl,
    reads .topoTotalLp rfl rfl, reads .topoTotalGp rfl rfl, reads .topoTotalSpare rfl rfl, reads .topoDatacapLo rfl rfl,
    reads .topoDatacapHi rfl rfl, reads .topoTotal rfl rfl, reads .topoDpd rfl rfl, reads .topoSpares rfl rfl,
    reads .topoNgroups rfl rfl, reads .topoChunks rfl rfl, reads .topoScheme rfl rfl, ?gsize, ?online, ?classGrp, ?classDom,
    reads .classRollup rfl rfl, ?report, ?stale⟩
  case gsize =>
    intro i hi
    have hread := readsAt _ (by omega) (regAt_topoGsize i.val i.isLt) hi
    rwa [State.regValue, Vector.getElem?_eq_getElem i.isLt] at hread
  case online => exact fun w hw => readsAt _ (by omega) (regAt_online w hw)
  case classGrp => exact fun w hw => readsAt _ (by omega) (regAt_classGrp w hw)
  case classDom => exact fun w hw => readsAt _ (by omega) (regAt_classDom w hw)
  case report =>
    intro i hi ho hlt
    rw [readsAt _ (by omega) (regAt_reportIndex hi) ho, State.regValue, reportRead_of_lt s _ _ hlt, reportWordAt_index]
  case stale =>
    intro i hi ho hge
    rw [readsAt _ (by omega) (regAt_reportIndex hi) ho, State.regValue, reportRead_of_ge s _ _ hge]

/-! ### Writes while idle (10_state.md R36, R43, R47, R51) -/

theorem setIfInBounds_eq_set (v : Vector Word 8) (i : Fin 8) (x : Word) :
    v.setIfInBounds i.val x = v.set i.val x i.isLt := by
  ext j hj
  simp [Vector.getElem_setIfInBounds, Vector.getElem_set]

/-- Settles O13: each offset's register is written while idle. -/
theorem idleWritesStoreOperands : Obligations.IdleWritesStoreOperands := by
  refine ⟨fun s off v rest hf hin => ?registers, fun s off v rest w hf hin hw ho => ?targets⟩
  case registers =>
    have writes : ∀ (r : Reg) {o : BitVec 16}, o.toNat % 4 = 0 → regAt o.toNat = some r → off = o →
        step s = .next { s.writeReg v r with inputs := rest } :=
      fun r _ ha hr ho => step_write_taken hin (ho ▸ ha) (ho ▸ hr) (.inr (not_busy_of_flight hf))
    refine ⟨writes .arg0 rfl rfl, writes .arg1 rfl rfl, writes .cfgTotal rfl rfl, writes .cfgDpd rfl rfl,
      writes .cfgSpares rfl rfl, writes .cfgNgroups rfl rfl, writes .cfgChunks rfl rfl, writes .cfgScheme rfl rfl,
      fun i hi => ?_⟩
    have hr : regAt off.toNat = some (.cfgGsize i.val) := by rw [hi, regAt_cfgGsize i.val i.isLt]
    rw [step_write_taken hin (by omega) hr (.inr (not_busy_of_flight hf)), State.writeReg]
    rw [setIfInBounds_eq_set]
  case targets =>
    have hr : regAt off.toNat = some (.target w) := by rw [ho, regAt_target w hw]
    refine ⟨_, step_write_taken hin (by omega) hr (.inr (not_busy_of_flight hf)), rfl, fun p hp => ?_⟩
    exact getLsbD_setWordAt s.targets w v p hp

theorem bufAt_setBuf {s : State} {b e : Nat} {x : Chunk} (hb : b < 4) :
    (s.setBuf b x).bufAt e = if e = b then x else s.bufAt e := by
  unfold State.bufAt State.setBuf
  rw [Vector.getElem?_setIfInBounds]
  by_cases h : b = e
  · rw [if_pos h, if_pos h.symm, if_pos (h ▸ hb)]
    rfl
  · rw [if_neg h, if_neg (Ne.symm h)]

/-- Settles O14: a buffer word is written by `setWordAt` and read by `wordAt`, lane by lane. -/
theorem bufferWordsLittleEndian : Obligations.BufferWordsLittleEndian := by
  refine ⟨fun s off v rest b i hf hin hb hi ho => ?write, fun s off draw rest b i hf hin hb hi ho => ?read⟩
  case write =>
    have hr : regAt off.toNat = some (.bufWord b i) := by rw [ho, regAt_bufWord b i hb hi]
    refine ⟨_, step_write_taken hin (by omega) hr (.inr (not_busy_of_flight hf)), rfl, fun e k _ hk => ?_⟩
    have hbuf : ({ s.writeReg v (.bufWord b i) with inputs := rest } : State).bufAt e =
        if e = b then setWordAt (s.bufAt b) i v else s.bufAt e := bufAt_setBuf hb
    rw [hbuf]
    by_cases he : e = b
    · subst he
      rw [if_pos rfl, laneAt_setWordAt _ _ _ _ hk]
      simp only [true_and]
    · rw [if_neg he, if_neg fun h => he h.1]
  case read =>
    have hr : regAt off.toNat = some (.bufWord b i) := by rw [ho, regAt_bufWord b i hb hi]
    rw [step_read_idle hf hin (by omega) hr, State.regValue, wordAt_lanes]

/-! ### STATUS (10_state.md R34, 60_exceptions.md R340) -/

/-- Settles O10: STATUS is its fields put side by side. -/
theorem statusRegisterFields : Obligations.StatusRegisterFields := by
  refine ⟨fun s => ?fields, by decide⟩
  unfold State.statusWord
  generalize s.err.code = code
  refine ⟨?_, ?_, ?_, ?_, ?_, ?_, ?_, ?_⟩
  · simp only [BitVec.getLsbD_append]
    simp [State.busy]
  · simp only [BitVec.getLsbD_append]
    simp
  · simp only [BitVec.getLsbD_append]
    simp
  · simp only [BitVec.getLsbD_append]
    simp
  · simp only [BitVec.getLsbD_append]
    simp
  · simp only [BitVec.extractLsb'_append_eq_of_add_le, BitVec.extractLsb'_append_eq_of_le, Nat.reduceLeDiff,
      Nat.reduceSub]
    rfl
  · simp only [BitVec.extractLsb'_append_eq_of_add_le, BitVec.extractLsb'_append_eq_of_le, Nat.reduceLeDiff,
      Nat.reduceSub]
    exact BitVec.extractLsb'_eq_self
  · simp only [BitVec.extractLsb'_append_eq_of_le, Nat.reduceLeDiff, Nat.reduceSub]
    rfl

/-! ### The interrupt line (60_exceptions.md R350) -/

/-- A taken write clears a pending interrupt only where it is one to IRQ_STATUS with bit 0 set. -/
theorem writeReg_donePend {s : State} {v : Word} {r : Reg} (hs : s.donePend = true)
    (ht : (s.writeReg v r).donePend = false) : r = .irqStatus ∧ v.getLsbD 0 = true := by
  cases r
  case irqStatus =>
    have ht : (s.donePend && !v.getLsbD 0) = false := ht
    rw [hs] at ht
    exact ⟨rfl, by simpa using ht⟩
  all_goals exact absurd (hs.symm.trans ht) (by decide)

/-- IRQ_STATUS has one offset. -/
theorem eq_of_regAt_irqStatus {a : Nat} (ha : a % 4 = 0) (hr : regAt a = some .irqStatus) : a = 0x001C := by
  by_contra hne
  by_cases hen : a = 0x0018
  · rw [hen] at hr
    exact absurd hr (by decide)
  · by_cases hct : a = 0x0020
    · rw [hct] at hr
      exact absurd hr (by decide)
    · exact (regAt_ne_taken a ha hen hne hct).2.1 hr

/-- A host write that clears a pending interrupt is one to IRQ_STATUS with bit 0 set. -/
theorem windowWrite_donePend {s : State} {a : Nat} {v : Word} (ha : a % 4 = 0) (hs : s.donePend = true)
    (ht : (s.windowWrite a v).donePend = false) : a = 0x001C ∧ v.getLsbD 0 = true := by
  unfold State.windowWrite at ht
  cases hr : regAt a with
  | none =>
    rw [hr] at ht
    exact absurd (hs.symm.trans ht) (by decide)
  | some r =>
    simp only [hr] at ht
    split at ht
    · exact absurd (hs.symm.trans ht) (by decide)
    · obtain ⟨rfl, hv⟩ := writeReg_donePend hs ht
      exact ⟨eq_of_regAt_irqStatus ha hr, hv⟩

/-- A completion leaves an interrupt pending: it sets it, or nothing is in flight. -/
theorem completeFlight_donePend {s t : State} (hs : s.donePend = true) (h : completeFlight s = .next t) :
    t.donePend = true := by
  cases hf : s.flight with
  | none =>
    rw [completeFlight, hf] at h
    rw [← Host.Outcome.next.inj h, hs]
  | some f =>
    obtain ⟨e, u, rfl⟩ := completeFlight_next_finish hf h
    exact finish_donePend e u

/-- The bus carries aligned words only (20_memory.md R92). -/
theorem aligned_of_busRefusal {off : BitVec 16} {size : AccessSize} (h : busRefusal off size = none) :
    size = .word ∧ off.toNat % 4 = 0 := by
  unfold busRefusal at h
  split at h
  · cases h
  · next hsize =>
    split at h
    · cases h
    · next halign => exact ⟨not_not.1 hsize, not_not.1 halign⟩

/-- Settles O18: a pending interrupt outlives every input but the ones named. -/
theorem interruptLineFollowsEnableAndPending : Obligations.InterruptLineFollowsEnableAndPending := by
  refine ⟨fun s => Bool.and_eq_true_iff, fun s t h hs ht => ?stays, fun s t v rest hin h => ?enable⟩
  case stays =>
    have contra : t.donePend ≠ true := fun he => Bool.false_ne_true (ht.symm.trans he)
    rw [step, advance] at h
    cases hin : s.inputs with
    | nil =>
      rw [hin] at h
      exact absurd (completeFlight_donePend hs h) contra
    | cons i rest =>
      simp only [hin] at h
      cases i with
      | hostRead off size draw =>
        simp only [takeInput, hostRead] at h
        split at h
        · cases h
        · rw [← Host.Outcome.next.inj h] at contra
          exact absurd hs contra
      | hostWrite off size v =>
        simp only [takeInput, hostWrite] at h
        split at h
        · cases h
        · next hb =>
          obtain ⟨rfl, ha⟩ := aligned_of_busRefusal hb
          rw [← Host.Outcome.next.inj h] at ht
          obtain ⟨hoff, hv⟩ := windowWrite_donePend (s := { s with inputs := rest }) ha hs ht
          obtain rfl : off = 0x001C := BitVec.eq_of_toNat_eq hoff
          exact .inl ⟨v, rest, .inl rfl, hv⟩
      | complete => exact absurd (completeFlight_donePend (s := { s with inputs := rest }) hs h) contra
      | completeWithIrqWrite v =>
        refine .inl ⟨v, rest, .inr rfl, ?_⟩
        by_contra hv
        refine contra (completeFlight_donePend (s := State.writeIrqStatus { s with inputs := rest } v) ?_ h)
        show (s.donePend && !v.getLsbD 0) = true
        rw [hs, Bool.eq_false_iff.2 hv]
        rfl
      | hardwareReset n junk bufs report => exact .inr ⟨n, junk, bufs, report, rest, rfl⟩
  case enable =>
    rw [step_write_taken (r := .irqEn) hin (by decide) rfl (.inl rfl)] at h
    rw [← Host.Outcome.next.inj h]
    exact ⟨rfl, rfl⟩

/-! ### The registers after reset (10_state.md R32, 70_reset_and_hazards.md R370) -/

/-- The registers below the buffers, read after reset, as R32 lists them. -/
def resetWord (a : Nat) : Word :=
  if a = 0x0000 then 0x56504531
  else if a = 0x0004 then 0x00000001
  else if 0x0200 ≤ a ∧ a < 0x0218 then 0xFFFFFFFF
  else if a = 0x0218 then 0x00000003
  else 0x00000000

/-- After reset nothing is in flight, so that no read is a draw. -/
theorem windowRead_reset (a : Nat) (draw : Word) :
    State.reset.windowRead a draw = (regAt a).elim 0 State.reset.regValue := by
  unfold State.windowRead
  cases regAt a with
  | none => rfl
  | some r => simp [State.busy, State.reset]

/-- The mapped offsets below 0x21C, checked offset by offset. -/
theorem resetWord_low : ∀ n : Fin 135, (regAt (4 * n.val)).elim 0 State.reset.regValue = resetWord (4 * n.val) := by
  decide +kernel

/-- Settles O55: offset by offset below 0x21C, and nothing is mapped from there up to the buffers. -/
theorem resetRegisterValues : Obligations.ResetRegisterValues := by
  intro a draw ha hlt
  rw [windowRead_reset]
  change _ = resetWord a
  by_cases hlo : a < 0x21C
  · have hn := resetWord_low ⟨a / 4, by omega⟩
    have hdiv : 4 * (a / 4) = a := by omega
    simpa only [hdiv] using hn
  · rw [regAt_of_ge a (by omega), if_neg (by omega), if_neg (by omega), resetWord, if_neg (by omega), if_neg (by omega),
      if_neg (by omega), if_neg (by omega)]
    rfl

end Sys2Proof.Proofs
end

section
/-! PROOFS. Engine control, flags, queries, CLASSIFY, RECOMBINE, and the order of the checks (40_topology_control.md,
42_encode.md R263, 44_integrity_rebuild.md R301, R319, 60_exceptions.md R342). -/

namespace Sys2Proof.Proofs

open Sys2Proof.Machine

/-! ### Checks (60_exceptions.md R342) -/

section Checks

variable {s : State} {o : Host.Outcome State Fault Refusal}

/-- The first check of a command that needs a topology. -/
theorem checkInit_fails (h : s.initialized = false) :
    (if !s.initialized then finishWith .notInitialized s else o) = .next (finish .notInitialized s) := by
  rw [h]; rfl

theorem checkInit_passes (h : s.initialized = true) : (if !s.initialized then finishWith .notInitialized s else o) = o := by
  rw [h]; rfl

end Checks

/-- Settles O19: NOT_INITIALIZED is the first check of every command but the four. -/
theorem commandsNeedInit : Obligations.CommandsNeedInit := by
  intro i s h hnop hinit hreset hrec
  cases i with
  | nop => exact absurd rfl hnop
  | init => exact absurd rfl hinit
  | reset => exact absurd rfl hreset
  | recombine b => exact absurd rfl (hrec b)
  | rebuild st =>
    have hexec : execRebuild st s = .next (finish .notInitialized s) := checkInit_fails h
    exact hexec
  | setOnlineDrive p v => exact checkInit_fails h
  | setOnlineDomain D v => exact checkInit_fails h
  | writeChunk p b => exact checkInit_fails h
  | encodeStripe D => exact checkInit_fails h
  | readChunk p b => exact checkInit_fails h
  | peek p => exact checkInit_fails h
  | decodeChunk p b => exact checkInit_fails h
  | classify => exact checkInit_fails h
  | queryDrive p => exact checkInit_fails h
  | queryGroup G => exact checkInit_fails h
  | querySlot D => exact checkInit_fails h

section DriveCommands

variable {s : State} {p : BitVec 16} {b : BitVec 3} {D : BitVec 16} {k : Nat}

/-- WRITE_CHUNK once its checks pass. -/
theorem execWriteChunk_of_checks (hi : s.initialized = true) (hp : p.toNat < s.total) (hc : s.opArg0 < s.chunks)
    (hs : s.slotOf p.toNat = some k) (hk : k < s.ndata)
    (hon : (s.layout.writeNeeds (s.layout.groupOf k)).all (s.slotOnline (s.domainOf p.toNat)) = true) :
    execWriteChunk p b s =
      (readSlots (s.domainOf p.toNat) s.opArg0 ((List.range s.ndata).filter fun j => j != k) s).orDriveIo
        fun known s1 =>
          (writeSlots (s.domainOf p.toNat) s.opArg0
            (s.layout.stripeUpdate k (s.opBuf b.toNat) (chunkOfSlot known)) s1).orDriveIo
            fun _ s2 => finishWith .none s2 := by
  unfold execWriteChunk
  rw [checkInit_passes hi, if_neg (Nat.not_le.2 hp), if_neg (Nat.not_le.2 hc), hs]
  simp only [Nat.not_le.2 hk, hon, if_false, Bool.not_true, Bool.false_eq_true]

/-- ENCODE_STRIPE once its checks pass. -/
theorem execEncodeStripe_of_checks (hi : s.initialized = true) (hD : D.toNat < s.ndom) (hc : s.opArg0 < s.chunks)
    (hon : (List.range s.layout.served).all (s.slotOnline D.toNat) = true) :
    execEncodeStripe D s =
      (readSlots D.toNat s.opArg0 (List.range s.ndata) s).orDriveIo fun known s1 =>
        (writeSlots D.toNat s.opArg0 (s.layout.stripeParities (chunkOfSlot known)) s1).orDriveIo
          fun _ s2 => finishWith .none s2 := by
  unfold execEncodeStripe
  rw [checkInit_passes hi, if_neg (by omega), hon]
  rfl

/-- READ_CHUNK once its checks pass. -/
theorem execReadChunk_of_checks (hi : s.initialized = true) (hp : p.toNat < s.total) (hc : s.opArg0 < s.chunks)
    (hon : flagAt s.online p.toNat = true) :
    execReadChunk p b s =
      (rdchunk p.toNat s.opArg0 s).orDriveIo fun x s1 => finishWith .none (s1.setBuf b.toNat x) := by
  unfold execReadChunk
  rw [checkInit_passes hi, if_neg (Nat.not_le.2 hp), if_neg (Nat.not_le.2 hc), hon]
  rfl

/-- The legal ranges of PEEK. -/
theorem peekInRange_iff (s : State) (off n : Nat) :
    s.peekInRange off n = true ↔ 1 ≤ n ∧ n ≤ 4 ∧ off + n ≤ s.chunks * Config.CHUNK := by
  simp only [State.peekInRange, Bool.and_eq_true, decide_eq_true_eq, and_assoc]

/-- PEEK once its checks pass. -/
theorem execPeek_of_checks (hi : s.initialized = true) (hp : p.toNat < s.total)
    (hr : s.peekInRange s.opArg0 s.opArg1 = true) (hon : flagAt s.online p.toNat = true) :
    execPeek p s =
      (driveRead p.toNat s.opArg0 s.opArg1
          (fun m => m.readBytes (driveKey p.toNat s.opArg0) s.opArg1) s).orDriveIo
        fun v s1 => finishWith .none { s1 with peekData := BitVec.ofNat 32 v } := by
  unfold execPeek
  rw [checkInit_passes hi, if_neg (Nat.not_le.2 hp), hr, hon]
  rfl

/-- DECODE_CHUNK of an online drive, once its checks pass. -/
theorem execDecodeChunk_online (hi : s.initialized = true) (hp : p.toNat < s.total) (hc : s.opArg0 < s.chunks)
    (hs : s.slotOf p.toNat = some k) (hon : flagAt s.online p.toNat = true) :
    execDecodeChunk p b s =
      (rdchunk p.toNat s.opArg0 s).orDriveIo fun x s1 => finishWith .none (s1.setBuf b.toNat x) := by
  unfold execDecodeChunk
  rw [checkInit_passes hi, if_neg (Nat.not_le.2 hp), if_neg (Nat.not_le.2 hc), hs]
  exact if_pos hon

/-- DECODE_CHUNK of an offline drive, once its checks pass. -/
theorem execDecodeChunk_offline (hi : s.initialized = true) (hp : p.toNat < s.total) (hc : s.opArg0 < s.chunks)
    (hs : s.slotOf p.toNat = some k) (hoff : flagAt s.online p.toNat = false) :
    execDecodeChunk p b s =
      if s.layout.sclass (failureSet s.latch.online s.serve (s.domainOf p.toNat)) k = .dataLoss then
        finishWith .unrecoverableData s
      else
        (readSlots (s.domainOf p.toNat) s.opArg0
          (s.layout.sources (failureSet s.latch.online s.serve (s.domainOf p.toNat)) k) s).orDriveIo fun known s1 =>
          finishWith .none (s1.setBuf b.toNat
            (s.layout.content (failureSet s.latch.online s.serve (s.domainOf p.toNat)) (chunkOfSlot known) k)) := by
  unfold execDecodeChunk
  rw [checkInit_passes hi, if_neg (Nat.not_le.2 hp), if_neg (Nat.not_le.2 hc), hs]
  exact if_neg (by rw [hoff]; exact Bool.false_ne_true)

end DriveCommands

/-- Settles O20: the checks of each command, in their order. -/
theorem driveCommandChecksInOrder : Obligations.DriveCommandChecksInOrder := by
  refine ⟨fun s p b hi => ⟨?drive, ?capacity, ?range, ?noRole, ?parityRole, ?writeOffline, ?readOffline, ?peekOffline⟩,
    fun s D hi => ⟨?domain, ?encodeOffline⟩⟩
  case drive =>
    intro hp
    refine ⟨?_, ?_, ?_, ?_⟩
    all_goals exact (checkInit_passes hi).trans (if_pos hp)
  case capacity =>
    intro hp hc
    refine ⟨?_, ?_, ?_⟩
    all_goals exact ((checkInit_passes hi).trans (if_neg (Nat.not_le.2 hp))).trans (if_pos hc)
  case range =>
    intro hp hr
    have hbad : s.peekInRange s.opArg0 s.opArg1 = false := by
      rw [← Bool.not_eq_true, peekInRange_iff]
      omega
    show execPeek p s = _
    unfold execPeek
    rw [checkInit_passes hi, if_neg (Nat.not_le.2 hp), hbad]
    rfl
  case noRole =>
    intro hp hc hs
    constructor
    · show execWriteChunk p b s = _
      unfold execWriteChunk
      rw [checkInit_passes hi, if_neg (Nat.not_le.2 hp), if_neg (Nat.not_le.2 hc), hs]
      rfl
    · show execDecodeChunk p b s = _
      unfold execDecodeChunk
      rw [checkInit_passes hi, if_neg (Nat.not_le.2 hp), if_neg (Nat.not_le.2 hc), hs]
      rfl
  case parityRole =>
    intro k hp hc hs hk
    show execWriteChunk p b s = _
    unfold execWriteChunk
    rw [checkInit_passes hi, if_neg (Nat.not_le.2 hp), if_neg (Nat.not_le.2 hc), hs]
    exact if_pos hk
  case writeOffline =>
    intro k j hp hc hs hk hj hoff
    have hmem : j ∈ s.layout.writeNeeds (s.layout.groupOf k) := by
      have hng : s.layout.ng = s.ng := s.topo.layout_ng
      simp only [Layout.writeNeeds, Layout.lpSlot, Layout.gpSlot, List.mem_append, List.mem_range, List.mem_cons,
        List.not_mem_nil, or_false, hng]
      exact hj
    have hall : (s.layout.writeNeeds (s.layout.groupOf k)).all (s.slotOnline (s.domainOf p.toNat)) = false :=
      List.all_eq_false.2 ⟨j, hmem, Bool.eq_false_iff.1 hoff⟩
    show execWriteChunk p b s = _
    unfold execWriteChunk
    rw [checkInit_passes hi, if_neg (Nat.not_le.2 hp), if_neg (Nat.not_le.2 hc), hs]
    simp only [Nat.not_le.2 hk, hall, if_false, Bool.not_false, if_true]
    rfl
  case readOffline =>
    intro hp hc hoff
    show execReadChunk p b s = _
    unfold execReadChunk
    rw [checkInit_passes hi, if_neg (Nat.not_le.2 hp), if_neg (Nat.not_le.2 hc), hoff]
    rfl
  case peekOffline =>
    intro hp h1 h4 hr hoff
    show execPeek p s = _
    unfold execPeek
    rw [checkInit_passes hi, if_neg (Nat.not_le.2 hp), (peekInRange_iff s _ _).2 ⟨h1, h4, hr⟩, hoff]
    rfl
  case domain =>
    intro hD
    show execEncodeStripe D s = _
    unfold execEncodeStripe
    rw [checkInit_passes hi, if_pos hD]
    rfl
  case encodeOffline =>
    intro k hD hc hk hoff
    have hserved : s.layout.served = s.ndata + s.ng + 1 := by
      rw [Layout.served, State.layout, s.topo.layout_ng]; rfl
    have hall : (List.range s.layout.served).all (s.slotOnline D.toNat) = false :=
      List.all_eq_false.2 ⟨k, List.mem_range.2 (by omega), Bool.eq_false_iff.1 hoff⟩
    show execEncodeStripe D s = _
    unfold execEncodeStripe
    rw [checkInit_passes hi, if_neg (by omega), hall]
    rfl

/-! ### INIT, RESET and SET_ONLINE_* (40_topology_control.md R152 to R157) -/

/-- The counts of 40_topology_control.md R153 fit their registers. -/
theorem derive_toNat {t : TopoParams} (hb : t.Bounds) :
    t.derive.ndom.toNat = t.total.toNat / t.dpd.toNat
      ∧ t.derive.ndata.toNat = t.sizes.sum
      ∧ t.derive.totalData.toNat = t.total.toNat / t.dpd.toNat * t.sizes.sum
      ∧ t.derive.totalLp.toNat = t.total.toNat / t.dpd.toNat * t.ngroups.toNat
      ∧ t.derive.totalSpare.toNat = t.total.toNat / t.dpd.toNat * t.spares.toNat
      ∧ t.derive.datacap.toNat = t.total.toNat / t.dpd.toNat * t.sizes.sum * t.chunks.toNat * 4096 := by
  have hndom := hb.ndomMax
  have hgroups := hb.groupsMax
  have htiles := hb.tiles
  have hdpd := hb.dpdMax
  rw [Layout.served, TopoParams.layout_ng, TopoParams.layout_ndata] at htiles
  have hdata : t.total.toNat / t.dpd.toNat * t.sizes.sum ≤ 32 * 64 := Nat.mul_le_mul hndom (by omega)
  have hspare : t.total.toNat / t.dpd.toNat * t.spares.toNat ≤ 32 * 64 := Nat.mul_le_mul hndom (by omega)
  have hcap : t.total.toNat / t.dpd.toNat * t.sizes.sum * t.chunks.toNat ≤ 32 * 64 * 2 ^ 20 :=
    Nat.mul_le_mul hdata hb.chunksMax
  refine ⟨?_, ?_, ?_, ?_, ?_, ?_⟩
  all_goals
    refine (BitVec.toNat_ofNat _ _).trans (Nat.mod_eq_of_lt ?_)
  · omega
  · omega
  · omega
  · omega
  · omega
  · show _ * 4096 < 2 ^ 64
    omega

/-- Settles O21: INIT builds the latched configuration, its counts and the identity assignment. -/
theorem initBuildsTopology : Obligations.InitBuildsTopology := by
  refine ⟨fun s hi => ?already, fun s hi hv => ?illegal, fun s hi hv => ?build⟩
  case already =>
    show execInit s = _
    unfold execInit
    rw [if_pos hi]
    rfl
  case illegal =>
    show execInit s = _
    unfold execInit
    rw [hi, hv]
    rfl
  case build =>
    have hb := s.cfg.bounds_of_valid hv
    have hsum : s.cfg.layout.served = s.cfg.sizes.sum + s.cfg.ngroups.toNat + 1 := by
      rw [Layout.served, TopoParams.layout_ng, TopoParams.layout_ndata]
    obtain ⟨hndom, hndata, hdata, hlp, hspare, hcap⟩ := derive_toNat hb
    have hexec : execInit s = .next (finish .none s.buildTopology) := by
      unfold execInit
      rw [hi, hv]
      rfl
    refine ⟨_, hexec, rfl, rfl, fun i => ?gsize, hndom, hndata, hdata.trans (by rw [← hndom, ← hndata]; rfl),
      hlp.trans (by rw [← hndom]; rfl), rfl, hspare.trans (by rw [← hndom]; rfl),
      hcap.trans (by rw [← hdata]; rfl), fun p hp => ?online, fun D hD k hk => ?serve, fun p hp => ?pstate⟩
    case gsize =>
      have h := latched_gsize s.cfg i.val i.isLt
      rw [Vector.getElem?_eq_getElem i.isLt] at h
      refine (Option.some.inj h).trans ?_
      rw [TopoParams.latchedSize, Vector.getElem?_eq_getElem i.isLt]
      rfl
    case online =>
      refine (flagAt_setFlags _ _ _ _ _ hp).trans ?_
      rw [flagAt_zero]
      simp
    case serve =>
      have hD : D < s.cfg.total.toNat / s.cfg.dpd.toNat := hndom ▸ hD
      have hk : k ≤ s.cfg.sizes.sum + s.cfg.ngroups.toNat := hndata ▸ hk
      exact serveOf_identityServe hD (by omega)
    case pstate =>
      refine (getD_initialPState hp).trans ?_
      have hn : (finish .none s.buildTopology).derived.ndata.toNat = s.cfg.sizes.sum := hndata
      rw [hn, hsum]
      exact if_congr Nat.lt_succ_iff rfl rfl

/-- Settles O23. -/
theorem resetDropsTopology : Obligations.ResetDropsTopology := by
  refine fun s => ⟨fun hi => ?_, fun hi => ?_⟩
  · show execReset s = _
    unfold execReset
    rw [if_pos hi]
    rfl
  · show execReset s = _
    unfold execReset
    rw [if_neg (by rw [hi]; exact Bool.false_ne_true)]
    rfl

/-- Settles O24: the flags set are those of `setFlags`. -/
theorem setOnlineSetsFlags : Obligations.SetOnlineSetsFlags := by
  refine ⟨fun s p v hi => ⟨fun hp hlt => ?drive, fun hp => ?noDrive⟩,
    fun s D v hi => ⟨fun hD => ?domain, fun hD => ?noDomain⟩⟩
  case drive =>
    refine ⟨_, (checkInit_passes hi).trans (if_neg (Nat.not_le.2 hp)), rfl, ?_, fun q hq => ?_⟩
    · exact flagAt_setFlag_self s.online p.toNat v hlt
    · exact flagAt_setFlag_of_ne s.online p.toNat q v hq
  case noDrive => exact (checkInit_passes hi).trans (if_pos hp)
  case domain =>
    exact ⟨_, (checkInit_passes hi).trans (if_neg (Nat.not_le.2 hD)), rfl, fun q hq => flagAt_setFlags _ _ _ _ _ hq⟩
  case noDomain => exact (checkInit_passes hi).trans (if_pos hD)

end Sys2Proof.Proofs
end

section
/-! PROOFS. The query records, CLASSIFY, RECOMBINE and the aggregate error (40_topology_control.md R165 to R170,
44_integrity_rebuild.md R301, R319, 42_encode.md R263). -/

namespace Sys2Proof.Proofs

open Sys2Proof.Machine

/-! ### Queries (40_topology_control.md R165 to R170) -/

section Queries

variable {s : State}

/-- A number that fits a field is read back from it. -/
theorem toNat_ofNat_of_lt {n x : Nat} (h : x < 2 ^ n) : (BitVec.ofNat n x).toNat = x :=
  (BitVec.toNat_ofNat _ _).trans (Nat.mod_eq_of_lt h)

/-- The fields of QRES0 in a drive's record. -/
theorem driveRecord0_fields (s : State) (p : Nat) :
    (s.driveRecord0 p).extractLsb' 0 3 = (s.roleOf p).code
      ∧ (s.driveRecord0 p).getLsbD 3 = flagAt s.online p
      ∧ (s.driveRecord0 p).getLsbD 4 = (s.pstateAt p == .promoted)
      ∧ (s.driveRecord0 p).extractLsb' 5 3 = 0
      ∧ (s.driveRecord0 p).extractLsb' 8 8 = BitVec.ofNat 8 (s.domainOf p)
      ∧ (s.driveRecord0 p).extractLsb' 16 8 = BitVec.ofNat 8 ((s.slotOf p).getD (p % s.dpd))
      ∧ (s.driveRecord0 p).extractLsb' 24 8 = BitVec.ofNat 8 (((s.servedKind p).bind SlotKind.group?).getD 0xFF) := by
  unfold State.driveRecord0
  generalize (s.roleOf p).code = role
  generalize ((s.servedKind p).bind SlotKind.group?).getD 0xFF = group
  refine ⟨?_, ?_, ?_, ?_, ?_, ?_, ?_⟩
  · simp only [BitVec.extractLsb'_append_eq_of_add_le, Nat.reduceLeDiff]
    exact BitVec.extractLsb'_eq_self
  · simp only [BitVec.getLsbD_append]
    simp
  · simp only [BitVec.getLsbD_append]
    simp
  · simp only [BitVec.extractLsb'_append_eq_of_add_le, BitVec.extractLsb'_append_eq_of_le, Nat.reduceLeDiff,
      Nat.reduceSub]
    rfl
  · simp only [BitVec.extractLsb'_append_eq_of_add_le, BitVec.extractLsb'_append_eq_of_le, Nat.reduceLeDiff,
      Nat.reduceSub]
    exact BitVec.extractLsb'_eq_self
  · simp only [BitVec.extractLsb'_append_eq_of_add_le, BitVec.extractLsb'_append_eq_of_le, Nat.reduceLeDiff,
      Nat.reduceSub]
    exact BitVec.extractLsb'_eq_self
  · simp only [BitVec.extractLsb'_append_eq_of_le, Nat.reduceLeDiff, Nat.reduceSub]
    exact BitVec.extractLsb'_eq_self

/-- The fields of QRES1 in a drive's record. -/
theorem driveRecord1_fields (s : State) (p : Nat) :
    (s.driveRecord1 p).extractLsb' 16 16 = 0
      ∧ (s.driveRecord1 p).extractLsb' 0 16 = BitVec.ofNat 16
          (((s.servedKind p).bind SlotKind.group?).elim 0xFFFF fun g => s.domainOf p * s.ng + g) := by
  unfold State.driveRecord1
  constructor
  · simp only [BitVec.extractLsb'_append_eq_of_le, Nat.reduceLeDiff, Nat.reduceSub]
    rfl
  · simp only [BitVec.extractLsb'_append_eq_of_add_le, Nat.reduceLeDiff]
    refine BitVec.extractLsb'_eq_self.trans ?_
    cases (s.servedKind p).bind SlotKind.group? <;> rfl

theorem servedKind_of_slotOf {p k : Nat} (h : s.slotOf p = some k) : s.servedKind p = some (s.layout.kindOf k) := by
  rw [State.servedKind, h]; rfl

theorem servedKind_of_slotOf_none {p : Nat} (h : s.slotOf p = none) : s.servedKind p = none := by
  rw [State.servedKind, h]; rfl

theorem roleOf_of_slotOf {p k : Nat} (h : s.slotOf p = some k) : s.roleOf p = (s.layout.kindOf k).role := by
  rw [State.roleOf, servedKind_of_slotOf h]

theorem roleOf_of_slotOf_none {p : Nat} (h : s.slotOf p = none) :
    (s.roleOf p).code = if s.pstateAt p = .spareFree then 3 else 4 := by
  rw [State.roleOf, servedKind_of_slotOf_none h]
  dsimp only
  split <;> rfl

/-- The kinds of the served slots, by their numbers. -/
theorem kindOf_of_ge (L : Layout) {k : Nat} (h1 : L.ndata ≤ k) (h2 : k < L.gpSlot) :
    L.kindOf k = .localParity (k - L.ndata) := by
  rw [Layout.kindOf, if_neg (Nat.not_lt.2 h1), if_pos h2]

/-- A slot, its group and its global group fit their fields. -/
theorem group_bounds (hb : s.Bounds) {p g : Nat} (hp : p < s.total) (hg : g < s.ng) :
    g < 2 ^ 8 ∧ s.domainOf p * s.ng + g < 2 ^ 16 := by
  have hng := hb.ngMax
  have hdom := hb.domainOf_lt hp
  have hgroups := hb.groupsMax
  have hmul : (s.domainOf p + 1) * s.ng ≤ s.ndom * s.ng := Nat.mul_le_mul_right _ hdom
  rw [Nat.add_mul, Nat.one_mul] at hmul
  exact ⟨by omega, by omega⟩

/-- Settles O25: each field of the record, by the slot the drive serves. -/
theorem queryDriveRecord : Obligations.QueryDriveRecord := by
  refine ⟨fun s p hi hp => (checkInit_passes hi).trans (if_pos hp), fun s p hinv hi hp => ?record⟩
  have hb := hinv.bounds hi
  obtain ⟨hrole, honline, hpromoted, hzero, hdomain, hslot, hgroup⟩ := driveRecord0_fields s p.toNat
  obtain ⟨hzero1, hglobal⟩ := driveRecord1_fields s p.toNat
  have hdom := hb.domainOf_lt hp
  have hndom := hb.ndomMax
  refine ⟨_, (checkInit_passes hi).trans (if_neg (Nat.not_le.2 hp)), rfl, honline, ?promoted, hzero, ?domain, hzero1,
    fun k hk => ?served, fun hk => ?spare⟩
  case promoted => exact hpromoted.trans (by rw [beq_eq_decide])
  case domain => exact (congrArg BitVec.toNat hdomain).trans (toNat_ofNat_of_lt (by omega))
  case served =>
    have hkind := servedKind_of_slotOf hk
    have hserved := (slotOf_some hk).1
    have hdpd := hb.dpdMax
    have hle := hb.servedLe
    have hgp : s.layout.gpSlot = s.ndata + s.ng := hb.gpSlot_eq
    rw [hk] at hslot
    rw [hkind] at hgroup hglobal
    rw [roleOf_of_slotOf hk] at hrole
    refine ⟨(congrArg BitVec.toNat hslot).trans (toNat_ofNat_of_lt ?_), fun hdata => ?_, fun hge hlt => ?_, fun he => ?_⟩
    · show k < 2 ^ 8
      omega
    · have hg : s.layout.groupOf k < s.ng := hb.ngLayout ▸ (s.layout.groupOf_spec k hdata).1
      obtain ⟨hg8, hg16⟩ := group_bounds hb hp hg
      rw [s.layout.kindOf_data k hdata] at hrole hgroup hglobal
      exact ⟨hrole, (congrArg BitVec.toNat hgroup).trans (toNat_ofNat_of_lt hg8),
        (congrArg BitVec.toNat hglobal).trans (toNat_ofNat_of_lt hg16)⟩
    · obtain ⟨hg8, hg16⟩ := group_bounds hb hp (g := k - s.ndata) (by omega)
      rw [kindOf_of_ge s.layout hge (hgp ▸ hlt)] at hrole hgroup hglobal
      exact ⟨hrole, (congrArg BitVec.toNat hgroup).trans (toNat_ofNat_of_lt hg8),
        (congrArg BitVec.toNat hglobal).trans (toNat_ofNat_of_lt hg16)⟩
    · rw [he, ← hgp, s.layout.kindOf_gp] at hrole hgroup hglobal
      exact ⟨hrole, hgroup, hglobal⟩
  case spare =>
    rw [hk] at hslot
    rw [servedKind_of_slotOf_none hk] at hgroup hglobal
    rw [roleOf_of_slotOf_none hk] at hrole
    have hmod : p.toNat % s.dpd < s.dpd := Nat.mod_lt _ (by have := hb.dpdMin; omega)
    have hdpd := hb.dpdMax
    refine ⟨(congrArg BitVec.toNat hslot).trans (toNat_ofNat_of_lt ?_), hrole, hgroup, hglobal⟩
    show p.toNat % s.dpd < 2 ^ 8
    omega

/-- The fields of a group's record. -/
theorem groupRecord_fields (s : State) (G : Nat) :
    (s.groupRecord0 G).extractLsb' 0 8 = BitVec.ofNat 8 (G / s.ng)
      ∧ (s.groupRecord0 G).extractLsb' 8 8 = BitVec.ofNat 8 (G % s.ng)
      ∧ (s.groupRecord0 G).extractLsb' 16 8 = BitVec.ofNat 8 (s.layout.start (G % s.ng))
      ∧ (s.groupRecord0 G).extractLsb' 24 8 = BitVec.ofNat 8 (s.layout.size (G % s.ng))
      ∧ (s.groupRecord1 G).extractLsb' 0 8 = BitVec.ofNat 8 (s.layout.lpSlot (G % s.ng))
      ∧ (s.groupRecord1 G).extractLsb' 8 8 = BitVec.ofNat 8 s.layout.gpSlot
      ∧ (s.groupRecord1 G).extractLsb' 16 16 = 0 := by
  unfold State.groupRecord0 State.groupRecord1
  refine ⟨?_, ?_, ?_, ?_, ?_, ?_, ?_⟩
  · simp only [BitVec.extractLsb'_append_eq_of_add_le, Nat.reduceLeDiff]
    exact BitVec.extractLsb'_eq_self
  · simp only [BitVec.extractLsb'_append_eq_of_add_le, BitVec.extractLsb'_append_eq_of_le, Nat.reduceLeDiff,
      Nat.reduceSub]
    exact BitVec.extractLsb'_eq_self
  · simp only [BitVec.extractLsb'_append_eq_of_add_le, BitVec.extractLsb'_append_eq_of_le, Nat.reduceLeDiff,
      Nat.reduceSub]
    exact BitVec.extractLsb'_eq_self
  · simp only [BitVec.extractLsb'_append_eq_of_le, Nat.reduceLeDiff, Nat.reduceSub]
    exact BitVec.extractLsb'_eq_self
  · simp only [BitVec.extractLsb'_append_eq_of_add_le, Nat.reduceLeDiff]
    exact BitVec.extractLsb'_eq_self
  · simp only [BitVec.extractLsb'_append_eq_of_add_le, BitVec.extractLsb'_append_eq_of_le, Nat.reduceLeDiff,
      Nat.reduceSub]
    exact BitVec.extractLsb'_eq_self
  · simp only [BitVec.extractLsb'_append_eq_of_le, Nat.reduceLeDiff, Nat.reduceSub]
    rfl

/-- The size of one of the groups. -/
theorem size_eq_gsizeAt {g : Nat} (hg : g < s.ng) : s.layout.size g = s.topo.gsizeAt g := by
  show ((List.range s.topo.ngroups.toNat).map s.topo.gsizeAt).getD g 0 = _
  have hg : g < s.topo.ngroups.toNat := hg
  simp [List.getD_eq_getElem?_getD, hg]

/-- Settles O26: each field of the record. -/
theorem queryGroupRecord : Obligations.QueryGroupRecord := by
  intro s G hinv hi
  refine ⟨fun hG => ?record, fun hG => (checkInit_passes hi).trans (if_pos hG)⟩
  have hb := hinv.bounds hi
  obtain ⟨hdomain, hnumber, hstart, hsize, hlp, hgp, hzero⟩ := groupRecord_fields s G.toNat
  have hngPos := hb.ngPos
  have hngMax := hb.ngMax
  have hserved := hb.served_eq
  have hle := hb.servedLe
  have hdpd := hb.dpdMax
  have hndom := hb.ndomMax
  have hmod : G.toNat % s.ng < s.ng := Nat.mod_lt _ (by omega)
  have hdiv : G.toNat / s.ng < s.ndom := (Nat.div_lt_iff_lt_mul (by omega)).2 hG
  have hsum : s.layout.start (G.toNat % s.ng) + s.layout.size (G.toNat % s.ng) ≤ s.ndata :=
    take_sum_add_getD_le s.layout.sizes (G.toNat % s.ng)
  refine ⟨_, (checkInit_passes hi).trans (if_neg (Nat.not_le.2 hG)), rfl, ?_, ?_, ?_, ?_, ?_, ?_, hzero⟩
  · exact (congrArg BitVec.toNat hdomain).trans (toNat_ofNat_of_lt (by omega))
  · exact (congrArg BitVec.toNat hnumber).trans (toNat_ofNat_of_lt (by omega))
  · exact (congrArg BitVec.toNat hstart).trans (toNat_ofNat_of_lt (by omega))
  · refine ((congrArg BitVec.toNat hsize).trans (toNat_ofNat_of_lt (by omega))).trans (size_eq_gsizeAt hmod)
  · refine (congrArg BitVec.toNat hlp).trans (toNat_ofNat_of_lt ?_)
    show s.ndata + G.toNat % s.ng < 2 ^ 8
    omega
  · refine ((congrArg BitVec.toNat hgp).trans (toNat_ofNat_of_lt ?_)).trans hb.gpSlot_eq
    rw [hb.gpSlot_eq]
    omega

/-- The fields of a slot's record. -/
theorem slotRecord_fields (s : State) (D k : Nat) :
    (s.slotRecord0 D k).extractLsb' 0 16 = BitVec.ofNat 16 (s.serveAt D k)
      ∧ (s.slotRecord0 D k).extractLsb' 16 3 = (s.layout.kindOf k).role.code
      ∧ (s.slotRecord0 D k).getLsbD 19 = flagAt s.online (s.serveAt D k)
      ∧ (s.slotRecord0 D k).extractLsb' 20 12 = 0
      ∧ (s.slotRecord1 k).extractLsb' 0 8 = BitVec.ofNat 8 ((s.layout.kindOf k).group?.getD 0xFF)
      ∧ (s.slotRecord1 k).extractLsb' 8 24 = 0 := by
  unfold State.slotRecord0 State.slotRecord1
  generalize (s.layout.kindOf k).role.code = role
  refine ⟨?_, ?_, ?_, ?_, ?_, ?_⟩
  · simp only [BitVec.extractLsb'_append_eq_of_add_le, Nat.reduceLeDiff]
    exact BitVec.extractLsb'_eq_self
  · simp only [BitVec.extractLsb'_append_eq_of_add_le, BitVec.extractLsb'_append_eq_of_le, Nat.reduceLeDiff,
      Nat.reduceSub]
    exact BitVec.extractLsb'_eq_self
  · simp only [BitVec.getLsbD_append]
    simp
  · simp only [BitVec.extractLsb'_append_eq_of_le, Nat.reduceLeDiff, Nat.reduceSub]
    rfl
  · simp only [BitVec.extractLsb'_append_eq_of_add_le, Nat.reduceLeDiff]
    exact BitVec.extractLsb'_eq_self
  · simp only [BitVec.extractLsb'_append_eq_of_le, Nat.reduceLeDiff, Nat.reduceSub]
    rfl

/-- Settles O27: each field of the record, by the kind of the slot. -/
theorem querySlotRecord : Obligations.QuerySlotRecord := by
  intro s D hinv hi
  have hb := hinv.bounds hi
  have hgp : s.layout.gpSlot = s.ndata + s.ng := hb.gpSlot_eq
  refine ⟨fun hD hk => ?record, fun h => (checkInit_passes hi).trans (if_pos (by rwa [hgp]))⟩
  have hngMax := hb.ngMax
  have htotal := hb.totalMax
  have hserved := hb.served_eq
  obtain ⟨hdrive, hrole, honline, hzero, hgroup, hzero1⟩ := slotRecord_fields s D.toNat s.opArg0
  have hlt : s.serveAt D.toNat s.opArg0 < s.total := hinv.assignment.serveAt_lt hi hD (by omega)
  refine ⟨_, (checkInit_passes hi).trans (if_neg (by omega)), rfl, ?drive, honline, hzero, hzero1, fun hdata => ?data,
    fun hge hlt => ?lp, fun he => ?gp⟩
  case drive => exact (congrArg BitVec.toNat hdrive).trans (toNat_ofNat_of_lt (by omega))
  case data =>
    have hg : s.layout.groupOf s.opArg0 < s.ng := hb.ngLayout ▸ (s.layout.groupOf_spec _ hdata).1
    rw [s.layout.kindOf_data _ hdata] at hrole hgroup
    refine ⟨hrole, (congrArg BitVec.toNat hgroup).trans (toNat_ofNat_of_lt ?_)⟩
    show s.layout.groupOf s.opArg0 < 2 ^ 8
    omega
  case lp =>
    rw [kindOf_of_ge s.layout hge (hgp ▸ hlt)] at hrole hgroup
    refine ⟨hrole, (congrArg BitVec.toNat hgroup).trans (toNat_ofNat_of_lt ?_)⟩
    show s.opArg0 - s.ndata < 2 ^ 8
    omega
  case gp =>
    rw [he, ← hgp, s.layout.kindOf_gp] at hrole hgroup
    rw [he, ← hgp]
    exact ⟨hrole, hgroup⟩

end Queries

/-! ### The aggregate error (44_integrity_rebuild.md R319) -/

/-- The successes of R319. -/
theorem success_iff (e : ReportStatus) :
    e.success = true ↔ e = .restored ∨ e = .promoted ∨ e = .skippedOnline := by
  cases e <;> decide

/-- Settles O53. -/
theorem aggregateErrorRule : Obligations.AggregateErrorRule := by
  intro es
  simp only [← success_iff]
  have hall : es.all ReportStatus.success = true ↔ ∀ e ∈ es, e.success = true := List.all_eq_true
  have hany : (!es.any ReportStatus.success && es.any fun e => e == .unrecoverable) = true
      ↔ .unrecoverable ∈ es ∧ ∀ e ∈ es, ¬e.success = true := by
    rw [Bool.and_eq_true, Bool.not_eq_true', List.any_eq_false, List.any_eq_true]
    simp only [beq_iff_eq, exists_eq_right]
    exact and_comm
  unfold aggregateError
  by_cases h1 : es.all ReportStatus.success = true
  · rw [if_pos h1]
    refine ⟨iff_of_true rfl (hall.1 h1), iff_of_false (by decide) fun h => ?_, fun h => absurd rfl h⟩
    exact h.2 _ h.1 (hall.1 h1 _ h.1)
  · rw [if_neg h1]
    by_cases h2 : (!es.any ReportStatus.success && es.any fun e => e == .unrecoverable) = true
    · rw [if_pos h2]
      exact ⟨iff_of_false (by decide) fun h => h1 (hall.2 h), iff_of_true rfl (hany.1 h2), fun _ h => absurd rfl h⟩
    · rw [if_neg h2]
      exact ⟨iff_of_false (by decide) fun h => h1 (hall.2 h), iff_of_false (by decide) fun h => h2 (hany.2 h),
        fun _ _ => rfl⟩

/-! ### CLASSIFY (44_integrity_rebuild.md R301) -/

theorem rollup_eq_dataLoss_iff (cs : List IntegrityClass) : rollup cs = .dataLoss ↔ .dataLoss ∈ cs := by
  unfold rollup
  by_cases h1 : (cs.any fun c => c == .dataLoss) = true
  · rw [if_pos h1]
    exact iff_of_true rfl (by simpa using h1)
  · rw [if_neg h1]
    refine iff_of_false ?_ (by simpa using h1)
    split <;> decide

theorem rollup_eq_ok_iff (cs : List IntegrityClass) : rollup cs = .ok ↔ ∀ c ∈ cs, c ≠ .dataLoss ∧ c ≠ .recoverable := by
  unfold rollup
  by_cases h1 : (cs.any fun c => c == .dataLoss) = true
  · rw [if_pos h1]
    refine iff_of_false (by decide) fun h => ?_
    exact (h _ (by simpa using h1)).1 rfl
  · rw [if_neg h1]
    by_cases h2 : (cs.any fun c => c == .recoverable) = true
    · rw [if_pos h2]
      refine iff_of_false (by decide) fun h => ?_
      exact (h _ (by simpa using h2)).2 rfl
    · rw [if_neg h2]
      refine iff_of_true rfl fun c hc => ⟨fun he => h1 ?_, fun he => h2 ?_⟩
      · exact List.any_eq_true.2 ⟨c, hc, by rw [he]; rfl⟩
      · exact List.any_eq_true.2 ⟨c, hc, by rw [he]; rfl⟩

theorem rollup_ne_notPresent (cs : List IntegrityClass) : rollup cs ≠ .notPresent := by
  unfold rollup
  split
  · decide
  · split <;> decide

/-- Of a class that is not NOT_PRESENT, being OK is being neither of the others. -/
theorem eq_ok_iff {c : IntegrityClass} (h : c = .ok ∨ c = .recoverable ∨ c = .dataLoss) :
    c = .ok ↔ c ≠ .dataLoss ∧ c ≠ .recoverable := by
  rcases h with rfl | rfl | rfl <;> simp

theorem code_injective {c d : IntegrityClass} : c.code = d.code ↔ c = d := by
  cases c <;> cases d <;> decide

/-- Settles O47: the packed fields are the classes, and the rollup is over all of them. -/
theorem classifyWritesFields : Obligations.ClassifyWritesFields := by
  intro s hi
  have hmem : ∀ P : IntegrityClass → Prop,
      (∀ c ∈ (List.range s.ndom).flatMap fun D => s.layout.qclass (failureSet s.latch.online s.serve D)
        :: (List.range s.ng).map fun g => s.layout.gclass (failureSet s.latch.online s.serve D) g, P c)
      ↔ ∀ D, D < s.ndom → (∀ g, g < s.ng → P (s.layout.gclass (failureSet s.latch.online s.serve D) g))
          ∧ P (s.layout.qclass (failureSet s.latch.online s.serve D)) := by
    intro P
    simp only [List.mem_flatMap, List.mem_range, List.mem_cons, List.mem_map]
    constructor
    · intro h D hD
      exact ⟨fun g hg => h _ ⟨D, hD, .inr ⟨g, hg, rfl⟩⟩, h _ ⟨D, hD, .inl rfl⟩⟩
    · rintro h c ⟨D, hD, rfl | ⟨g, hg, rfl⟩⟩
      · exact (h D hD).2
      · exact (h D hD).1 g hg
  refine ⟨_, checkInit_passes hi, rfl, fun G hG => ?groups, fun D hD => ?domains, ?loss, ?ok, ?present⟩
  case groups =>
    refine (fieldAt_packFields _ Config.MAX_GROUPS G hG rfl).trans ?_
    unfold State.groupClass
    split <;> rfl
  case domains =>
    refine (fieldAt_packFields _ Config.MAX_DOMAINS D hD rfl).trans ?_
    unfold State.domainClass
    split <;> rfl
  case loss =>
    refine (code_injective (d := .dataLoss)).trans ?_
    rw [State.rollupClass, rollup_eq_dataLoss_iff, ← not_iff_not]
    refine (Iff.trans ?_ (hmem fun c => c ≠ .dataLoss)).trans ?_
    · exact ⟨fun h c hc he => h (he ▸ hc), fun h hc => h _ hc rfl⟩
    · push Not
      rfl
  case ok =>
    refine (code_injective (d := .ok)).trans ?_
    rw [State.rollupClass, rollup_eq_ok_iff]
    refine (hmem fun c => c ≠ .dataLoss ∧ c ≠ .recoverable).trans ?_
    refine forall₂_congr fun D _ => and_congr (forall₂_congr fun g _ => ?_) ?_
    · exact (eq_ok_iff (gclass_cases _ _ _)).symm
    · exact (eq_ok_iff (qclass_cases _ _)).symm
  case present => exact fun h => rollup_ne_notPresent _ ((code_injective (d := .notPresent)).1 h)

/-! ### RECOMBINE (42_encode.md R263) -/

theorem xorOver_filter (l : List Nat) (q : Nat → Bool) (f : Nat → Chunk) :
    xorOver (l.filter q) f = xorOver l fun k => if q k then f k else 0 := by
  induction l with
  | nil => rfl
  | cons k l ih =>
    rw [List.filter_cons]
    show _ = (if q k then f k else 0) ^^^ xorOver l fun k => if q k then f k else 0
    rw [← ih]
    split
    · rfl
    · exact BitVec.zero_xor.symm

/-- A byte lane of the exclusive-or of the masked buffers. -/
theorem laneAt_xorOver_masked (mask : Word) (f : Nat → Chunk) {i : Nat} :
    laneAt (xorOver (maskedBuffers mask) f) i =
      (if mask.getLsbD 0 then laneAt (f 0) i else 0) ^^^ (if mask.getLsbD 1 then laneAt (f 1) i else 0)
        ^^^ (if mask.getLsbD 2 then laneAt (f 2) i else 0) ^^^ (if mask.getLsbD 3 then laneAt (f 3) i else 0) := by
  have hlane : ∀ k, laneAt (if mask.getLsbD k then f k else 0) i = if mask.getLsbD k then laneAt (f k) i else 0 :=
    fun k => (apply_ite (laneAt · i) _ _ _).trans (congrArg (fun z => ite _ _ z) (laneAt_zero i))
  rw [maskedBuffers, xorOver_filter, ← hlane, ← hlane, ← hlane, ← hlane, ← laneAt_xor, ← laneAt_xor, ← laneAt_xor]
  refine congrArg (laneAt · i) ?_
  show _ ^^^ (_ ^^^ (_ ^^^ (_ ^^^ 0))) = _
  rw [BitVec.xor_assoc, BitVec.xor_assoc]
  exact congrArg _ (congrArg _ (congrArg _ BitVec.xor_zero))

/-- The mask has no bit above bit 3. -/
theorem mask_high_eq_zero_iff (mask : Word) : mask.extractLsb' 4 28 = 0 ↔ mask.toNat < 16 := by
  rw [← BitVec.toNat_inj, BitVec.extractLsb'_toNat, Nat.shiftRight_eq_div_pow]
  have := mask.isLt
  show mask.toNat / 2 ^ 4 % 2 ^ 28 = 0 ↔ _
  omega

/-- Settles O33. -/
theorem recombineXorsBuffers : Obligations.RecombineXorsBuffers := by
  intro s b hb
  have hb4 : b.toNat < 4 := of_decide_eq_true hb
  refine ⟨fun hm => ?xors, fun hm => ?refused⟩
  case xors =>
    refine ⟨_, if_neg (not_not.2 ((mask_high_eq_zero_iff _).2 hm)), rfl, fun e _ he => ?_, fun i _ => ?_⟩
    · exact (bufAt_setBuf hb4).trans (if_neg he)
    · exact (congrArg (laneAt · i) ((bufAt_setBuf hb4).trans (if_pos rfl))).trans (laneAt_xorOver_masked _ _)
  case refused =>
    refine if_pos fun h => ?_
    have := (mask_high_eq_zero_iff _).1 h
    omega

end Sys2Proof.Proofs
end

section
/-! PROOFS. The commands that read and write stripes: WRITE_CHUNK, ENCODE_STRIPE, READ_CHUNK, PEEK and DECODE_CHUNK
(42_encode.md R260 to R262, 43_access_decode.md R281 to R284). -/

namespace Sys2Proof.Proofs

open Sys2Proof.Machine

/-! ### Reads of some slots, then writes of others (42_encode.md R260) -/

section Stripe

/-- The drive accesses of WRITE_CHUNK and ENCODE_STRIPE: the chunks of some slots are read, and what is made of them is
written to others. -/
def stripeRun (D c : Nat) (ks : List Nat) (xs : SlotChunks → SlotChunks) (s : State) :
    Host.Outcome State Fault Refusal :=
  (readSlots D c ks s).orDriveIo fun known s1 => (writeSlots D c (xs known) s1).orDriveIo fun _ s2 => finishWith .none s2

variable {s : State} {D c : Nat} {ks : List Nat} {xs : SlotChunks → SlotChunks} {ys : SlotChunks}

/-- Answers that are ok one by one are ok in two runs. -/
theorem take_ok_split {l : List DriveResponse} {m n : Nat} (h : ∀ r ∈ l.take (m + n), r = .ok) :
    (∀ r ∈ l.take m, r = .ok) ∧ ∀ r ∈ (l.drop m).take n, r = .ok := by
  rw [List.take_add] at h
  exact ⟨fun r hr => h r (List.mem_append_left _ hr), fun r hr => h r (List.mem_append_right _ hr)⟩

theorem take_ok_of_portOk (h : s.portOk) (n : Nat) : ∀ r ∈ s.responses.take n, r = .ok :=
  fun r hr => h r (List.mem_of_mem_take hr)

/-- Every access answered ok: the command completes, and all its chunks are written. -/
theorem stripeRun_of_ok (hks : ∀ k ∈ ks, s.serveAt D k < s.total) (hc : c < s.chunks)
    (hys : xs (readAll s D c ks) = ys) (hw : ∀ y ∈ ys, s.serveAt D y.1 < s.total)
    (hr : ∀ r ∈ s.responses.take (ks.length + ys.length), r = .ok) :
    ∃ t, stripeRun D c ks xs s = .next t
      ∧ t = finish .none { s with drives := t.drives, responses := t.responses, traffic := t.traffic }
      ∧ t.drives = writeAll s D c ys s.drives := by
  obtain ⟨hr1, hr2⟩ := take_ok_split hr
  have hwrite := writeSlots_of_ok D c ys
    { s with responses := s.responses.drop ks.length, traffic := slotReads s D c ks ++ s.traffic } hw hc hr2
  unfold stripeRun
  rw [readSlots_of_ok D c ks s hks hc hr1]
  simp only [PortResult.orDriveIo, hys]
  rw [hwrite]
  exact ⟨_, rfl, rfl, rfl⟩

/-- A read answered with an error: DRIVE_IO, and nothing is written. -/
theorem stripeRun_of_read_err {j : Nat} {junk : Chunk} (hks : ∀ k ∈ ks, s.serveAt D k < s.total) (hc : c < s.chunks)
    (hj : j < ks.length) (hr : ∀ r ∈ s.responses.take j, r = .ok) (he : s.responses[j]? = some (.err junk)) :
    ∃ t, stripeRun D c ks xs s = .next t
      ∧ t = finish .driveIo { s with responses := s.responses.drop (j + 1), traffic := t.traffic } := by
  obtain ⟨s1, hread, hs1, hresp⟩ := readSlots_of_err D c ks s j junk hks hc hj hr he
  unfold stripeRun
  rw [hread]
  refine ⟨finish .driveIo s1, rfl, congrArg (finish .driveIo) ?_⟩
  rw [hs1, hresp]
  rfl

/-- A write answered with an error: DRIVE_IO, the chunks before it are written and its own holds the port's draw. -/
theorem stripeRun_of_write_err {j k : Nat} {v junk : Chunk} (hks : ∀ k ∈ ks, s.serveAt D k < s.total) (hc : c < s.chunks)
    (hys : xs (readAll s D c ks) = ys) (hw : ∀ y ∈ ys, s.serveAt D y.1 < s.total) (hj : ys[j]? = some (k, v))
    (hr : ∀ r ∈ s.responses.take (ks.length + j), r = .ok)
    (he : s.responses[ks.length + j]? = some (.err junk)) :
    ∃ t, stripeRun D c ks xs s = .next t
      ∧ t = finish .driveIo
          { s with drives := t.drives, responses := s.responses.drop (ks.length + j + 1), traffic := t.traffic }
      ∧ t.drives = withChunk (writeAll s D c (ys.take j) s.drives) (s.serveAt D k) c junk := by
  obtain ⟨hr1, hr2⟩ := take_ok_split hr
  obtain ⟨s2, hwrite, hs2, hdrives, hresp⟩ := writeSlots_of_err D c ys
    { s with responses := s.responses.drop ks.length, traffic := slotReads s D c ks ++ s.traffic } j k v junk hw hc hj hr2
    (by simpa using he)
  unfold stripeRun
  rw [readSlots_of_ok D c ks s hks hc hr1]
  simp only [PortResult.orDriveIo, hys]
  rw [hwrite]
  refine ⟨finish .driveIo s2, rfl, congrArg (finish .driveIo) ?_, hdrives⟩
  have hdrop : s2.responses = s.responses.drop (ks.length + j + 1) := by
    rw [hresp, List.drop_drop, Nat.add_assoc]
  rw [← hdrop]
  exact hs2

/-- The drives of two of the written slots are different. -/
theorem serveAt_ne_of_getElem? (hd : ys.Pairwise fun x y => s.serveAt D x.1 ≠ s.serveAt D y.1) {i j : Nat}
    {x y : Nat × Chunk} (hi : ys[i]? = some x) (hj : ys[j]? = some y) (hij : i ≠ j) :
    s.serveAt D x.1 ≠ s.serveAt D y.1 := by
  obtain ⟨hil, rfl⟩ := List.getElem?_eq_some_iff.1 hi
  obtain ⟨hjl, rfl⟩ := List.getElem?_eq_some_iff.1 hj
  rcases Nat.lt_or_gt_of_ne hij with h | h
  · exact List.pairwise_iff_getElem.1 hd i j hil hjl h
  · exact (List.pairwise_iff_getElem.1 hd j i hjl hil h).symm

/-- The written slots' chunks after a write error: those before it are written, its own is the draw, the others stay. -/
theorem chunkIn_of_write_err {m : Memory} {junk : Chunk} {i j : Nat} {x y : Nat × Chunk} (hc : c < Config.MAX_CHUNKS)
    (hd : ys.Pairwise fun x y => s.serveAt D x.1 ≠ s.serveAt D y.1) (hj : ys[j]? = some y) (hi : ys[i]? = some x) :
    chunkIn (withChunk (writeAll s D c (ys.take j) m) (s.serveAt D y.1) c junk) (s.serveAt D x.1) c =
      if i < j then x.2 else if i = j then junk else chunkIn m (s.serveAt D x.1) c := by
  by_cases hij : i = j
  · subst hij
    obtain rfl := Option.some.inj (hi.symm.trans hj)
    rw [if_neg (Nat.lt_irrefl i), if_pos rfl, chunkIn_withChunk]
  · rw [chunkIn_withChunk_of_ne _ _ _ _ _ _ hc hc (.inl (serveAt_ne_of_getElem? hd hj hi (Ne.symm hij)))]
    by_cases hlt : i < j
    · rw [if_pos hlt]
      refine chunkIn_writeAll s D c _ m hc (hd.sublist (List.take_sublist j ys)) x ?_
      exact List.mem_of_getElem? ((List.getElem?_take_of_lt hlt).trans hi)
    · rw [if_neg hlt, if_neg hij]
      refine chunkIn_writeAll_of_ne s D c _ m _ c hc hc fun z hz => .inl ?_
      obtain ⟨n, hn⟩ := List.mem_iff_getElem?.1 hz
      have hnj : n < j := by
        by_contra hge
        rw [List.getElem?_take, if_neg hge] at hn
        cases hn
      rw [List.getElem?_take_of_lt hnj] at hn
      exact serveAt_ne_of_getElem? hd hn hi (by omega)

/-- Every byte outside the chunks a stopped run of writes could write stays. -/
theorem read_of_write_err {m : Memory} {junk : Chunk} {j : Nat} {y : Nat × Chunk} {a : Nat} (hj : ys[j]? = some y)
    (ha : ∀ x ∈ ys, ¬inChunk (s.serveAt D x.1) c a) :
    (withChunk (writeAll s D c (ys.take j) m) (s.serveAt D y.1) c junk).read a = m.read a := by
  rw [read_withChunk, if_neg (ha y (List.mem_of_getElem? hj))]
  exact read_writeAll_of_outside s D c _ m a fun x hx => ha x (List.mem_of_mem_take hx)

end Stripe

/-! ### What WRITE_CHUNK and ENCODE_STRIPE write (42_encode.md R261, R262) -/

section Writes

variable {L : Layout} {s : State} {D c k : Nat}

theorem localParity_congr {d e : Nat → Chunk} {g : Nat} (hg : g < L.ng) (h : ∀ j, j < L.ndata → d j = e j) :
    L.localParity d g = L.localParity e g :=
  xorOver_congr _ _ _ fun j hj => h j ((L.mem_slotsOf g j hg).1 hj).1

theorem globalParity_congr {d e : Nat → Chunk} (h : ∀ j, j < L.ndata → d j = e j) :
    L.globalParity d = L.globalParity e :=
  xorOver_congr _ _ _ fun j hj => by rw [h j (List.mem_range.1 hj)]

/-- A stripe is consistent when its data are `d` and its parities those of `d`. -/
theorem consistent_of_parities {d e : Nat → Chunk} (hd : ∀ j, j < L.ndata → e j = d j)
    (hlp : ∀ g, g < L.ng → e (L.lpSlot g) = L.localParity d g) (hgp : e L.gpSlot = L.globalParity d) : L.consistent e :=
  ⟨fun g hg => (hlp g hg).trans (localParity_congr hg fun j hj => (hd j hj).symm),
    hgp.trans (globalParity_congr fun j hj => (hd j hj).symm)⟩

/-- What WRITE_CHUNK writes depends on the other data slots' chunks only, which are those it reads. -/
theorem stripeUpdate_readAll (x : Chunk) (hk : k < s.ndata) :
    s.layout.stripeUpdate k x (chunkOfSlot (readAll s D c ((List.range s.ndata).filter fun j => j != k)))
      = s.layout.stripeUpdate k x (s.slotChunk D c) := by
  have hdata : ∀ j, j < s.layout.ndata →
      (if j = k then x else chunkOfSlot (readAll s D c ((List.range s.ndata).filter fun j => j != k)) j)
        = if j = k then x else s.slotChunk D c j := by
    intro j hj
    by_cases hjk : j = k
    · rw [if_pos hjk, if_pos hjk]
    · rw [if_neg hjk, if_neg hjk]
      exact chunkOfSlot_readAll s D c _ j (List.mem_filter.2 ⟨List.mem_range.2 hj, by simpa using hjk⟩)
  unfold Layout.stripeUpdate
  dsimp only
  rw [localParity_congr (s.layout.groupOf_spec k hk).1 hdata, globalParity_congr hdata]

/-- ENCODE_STRIPE's writes, one for each parity slot. -/
def parityOf (L : Layout) (d : Nat → Chunk) (i : Nat) : Chunk := if i < L.ng then L.localParity d i else L.globalParity d

theorem stripeParities_eq (L : Layout) (d : Nat → Chunk) :
    L.stripeParities d = (List.range (L.ng + 1)).map fun i => (L.lpSlot i, parityOf L d i) := by
  rw [Layout.stripeParities, List.range_succ, List.map_append, List.map_singleton]
  congr 1
  · refine List.map_congr_left fun g hg => ?_
    rw [parityOf, if_pos (List.mem_range.1 hg)]
  · rw [parityOf, if_neg (Nat.lt_irrefl _)]
    rfl

theorem stripeParities_readAll :
    s.layout.stripeParities (chunkOfSlot (readAll s D c (List.range s.ndata)))
      = s.layout.stripeParities (s.slotChunk D c) := by
  have hdata : ∀ j, j < s.layout.ndata →
      chunkOfSlot (readAll s D c (List.range s.ndata)) j = s.slotChunk D c j :=
    fun j hj => chunkOfSlot_readAll s D c _ j (List.mem_range.2 hj)
  rw [stripeParities_eq, stripeParities_eq]
  refine List.map_congr_left fun i _ => ?_
  unfold parityOf
  split
  · next hi => rw [localParity_congr hi hdata]
  · rw [globalParity_congr hdata]

theorem stripeParities_getElem? (d : Nat → Chunk) {i : Nat} (hi : i ≤ L.ng) :
    (L.stripeParities d)[i]? = some (L.lpSlot i, parityOf L d i) := by
  rw [stripeParities_eq, List.getElem?_map, List.getElem?_range (by omega)]
  rfl

theorem mem_stripeParities {d : Nat → Chunk} {x : Nat × Chunk} :
    x ∈ L.stripeParities d ↔ ∃ i, i ≤ L.ng ∧ x = (L.lpSlot i, parityOf L d i) := by
  rw [stripeParities_eq]
  simp only [List.mem_map, List.mem_range, Nat.lt_succ_iff]
  exact exists_congr fun i => and_congr_right fun _ => eq_comm

/-- The slots written are served ones, no two of them the same. -/
structure WrittenSlots (L : Layout) (ys : SlotChunks) : Prop where
  served : ∀ y ∈ ys, y.1 < L.served
  distinct : ys.Pairwise fun x y => x.1 ≠ y.1

theorem stripeUpdate_slots {x : Chunk} {d : Nat → Chunk} (hk : k < L.ndata) : WrittenSlots L (L.stripeUpdate k x d) := by
  have hg := (L.groupOf_spec k hk).1
  constructor
  · simp only [Layout.stripeUpdate, List.mem_cons, List.not_mem_nil, or_false, forall_eq_or_imp, forall_eq,
      Layout.served, Layout.lpSlot, Layout.gpSlot]
    omega
  · simp only [Layout.stripeUpdate, List.pairwise_cons, List.mem_cons, List.not_mem_nil, or_false, forall_eq_or_imp,
      forall_eq, Layout.lpSlot, Layout.gpSlot, List.Pairwise.nil, and_true, false_imp_iff, implies_true]
    omega

theorem stripeParities_slots (d : Nat → Chunk) : WrittenSlots L (L.stripeParities d) := by
  constructor
  · intro y hy
    obtain ⟨i, hi, rfl⟩ := mem_stripeParities.1 hy
    show L.ndata + i < L.ndata + L.ng + 1
    omega
  · rw [stripeParities_eq]
    refine List.pairwise_map.2 (List.pairwise_lt_range.imp fun {i j} hij => ?_)
    show L.ndata + i ≠ L.ndata + j
    omega

/-- In a legal assignment the drives of the written slots exist and are different. -/
theorem WrittenSlots.drives {ys : SlotChunks} (h : WrittenSlots s.layout ys) (ha : s.assignmentLegal)
    (hi : s.initialized = true) (hD : D < s.ndom) :
    (∀ y ∈ ys, s.serveAt D y.1 < s.total) ∧ ys.Pairwise fun x y => s.serveAt D x.1 ≠ s.serveAt D y.1 := by
  refine ⟨fun y hy => ha.serveAt_lt hi hD (h.served y hy), List.Pairwise.imp_of_mem ?_ h.distinct⟩
  intro x y hx hy hne
  exact ha.serveAt_ne hi hD hD (h.served x hx) (h.served y hy) (.inr hne)

/-- The other data slots of a stripe: one fewer than the data slots. -/
theorem length_otherData {n k : Nat} (hk : k < n) : ((List.range n).filter fun j => j != k).length = n - 1 := by
  have h : (List.range n).filter (fun j => j != k) = (List.range n).erase k :=
    (List.nodup_range.erase_eq_filter k).symm
  rw [h, List.length_erase_of_mem (List.mem_range.2 hk), List.length_range]

end Writes

end Sys2Proof.Proofs
end

section
/-! PROOFS. WRITE_CHUNK and ENCODE_STRIPE: success, read errors, write errors (42_encode.md R261, R262). -/

namespace Sys2Proof.Proofs

open Sys2Proof.Machine

/-! ### WRITE_CHUNK (42_encode.md R261) -/

section WriteChunk

variable {s : State} {p : BitVec 16} {b : BitVec 3} {k : Nat}

/-- The other data slots, whose chunks WRITE_CHUNK reads. -/
def otherData (s : State) (k : Nat) : List Nat := (List.range s.ndata).filter fun j => j != k

/-- What WRITE_CHUNK writes, from the chunks it read. -/
def chunkWrites (s : State) (b : BitVec 3) (k : Nat) (known : SlotChunks) : SlotChunks :=
  s.layout.stripeUpdate k (s.opBuf b.toNat) (chunkOfSlot known)

/-- What WRITE_CHUNK writes, from the stripe as it stands. -/
def chunkUpdate (s : State) (p : BitVec 16) (b : BitVec 3) (k : Nat) : SlotChunks :=
  s.layout.stripeUpdate k (s.opBuf b.toNat) (s.slotChunk (s.domainOf p.toNat) s.opArg0)

/-- WRITE_CHUNK of a data slot with its drives online: a run of reads and writes of served slots. -/
structure WriteChunkRuns (s : State) (p : BitVec 16) (b : BitVec 3) (k : Nat) : Prop where
  initialized : s.initialized = true
  domain : s.domainOf p.toNat < s.ndom
  chunk : s.opArg0 < s.chunks
  chunkMax : s.opArg0 < Config.MAX_CHUNKS
  serves : s.serveAt (s.domainOf p.toNat) k = p.toNat
  data : k < s.ndata
  gpSlot : s.layout.gpSlot = s.ndata + s.ng
  run : exec (.writeChunk p b) s = stripeRun (s.domainOf p.toNat) s.opArg0 (otherData s k)
    (chunkWrites s b k) s
  reads : ∀ j ∈ otherData s k, s.serveAt (s.domainOf p.toNat) j < s.total
  update : chunkWrites s b k (readAll s (s.domainOf p.toNat) s.opArg0 (otherData s k)) = chunkUpdate s p b k
  writes : ∀ y ∈ chunkUpdate s p b k, s.serveAt (s.domainOf p.toNat) y.1 < s.total
  distinct : (chunkUpdate s p b k).Pairwise fun x y =>
    s.serveAt (s.domainOf p.toNat) x.1 ≠ s.serveAt (s.domainOf p.toNat) y.1

theorem writeChunkRuns (hinv : s.Inv) (hi : s.initialized = true) (hp : p.toNat < s.total) (hc : s.opArg0 < s.chunks)
    (hs : s.slotOf p.toNat = some k) (hk : k < s.ndata)
    (hon : (s.layout.writeNeeds (s.layout.groupOf k)).all (s.slotOnline (s.domainOf p.toNat)) = true) :
    WriteChunkRuns s p b k := by
  have hb := hinv.bounds hi
  have hD := hb.domainOf_lt hp
  have hslots := (stripeUpdate_slots (L := s.layout) (x := s.opBuf b.toNat)
    (d := s.slotChunk (s.domainOf p.toNat) s.opArg0) hk).drives hinv.assignment hi hD
  exact {
    initialized := hi
    domain := hD
    chunk := hc
    chunkMax := hb.chunk_lt hc
    serves := (slotOf_some hs).2
    data := hk
    gpSlot := hb.gpSlot_eq
    run := execWriteChunk_of_checks hi hp hc hs hk hon
    reads := fun j hj => by
      have hj := List.mem_range.1 (List.mem_filter.1 hj).1
      have hserved := hb.served_eq
      exact hinv.assignment.serveAt_lt hi hD (by omega)
    update := stripeUpdate_readAll _ hk
    writes := hslots.1
    distinct := hslots.2 }

/-- The slots of `writeNeeds` are online when each kind of them is. -/
theorem writeNeeds_online {D g : Nat} (hgp : s.layout.gpSlot = s.ndata + s.ng)
    (hdata : ∀ j, j < s.ndata → flagAt s.online (s.serveAt D j) = true)
    (hlp : flagAt s.online (s.serveAt D (s.ndata + g)) = true)
    (hq : flagAt s.online (s.serveAt D (s.ndata + s.ng)) = true) :
    (s.layout.writeNeeds g).all (s.slotOnline D) = true := by
  rw [List.all_eq_true]
  intro j hj
  rcases List.mem_append.1 hj with hj | hj
  · exact hdata j (List.mem_range.1 hj)
  · rcases List.mem_pair.1 hj with rfl | rfl
    · exact hlp
    · rw [hgp]
      exact hq

theorem length_otherData_eq (hk : k < s.ndata) : (otherData s k).length = s.ndata - 1 := length_otherData hk

/-- Settles O29: the three chunks are written, each on a drive of its own. -/
theorem writeChunkWritesStripe : Obligations.WriteChunkWritesStripe := by
  intro s p b k hinv hi _ hp hc hs hk hdata hlp hq hport
  have hw : WriteChunkRuns s p b k := writeChunkRuns hinv hi hp hc hs hk
    (writeNeeds_online (hinv.bounds hi).gpSlot_eq hdata hlp hq)
  obtain ⟨t, hrun, ht, hdrives⟩ := stripeRun_of_ok hw.reads hc hw.update hw.writes (take_ok_of_portOk hport _)
  have hchunk : ∀ y ∈ chunkUpdate s p b k, t.driveChunk (s.serveAt (s.domainOf p.toNat) y.1) s.opArg0 = y.2 := by
    intro y hy
    rw [State.driveChunk, hdrives]
    exact chunkIn_writeAll s _ _ _ _ hw.chunkMax hw.distinct y hy
  have hread := read_writeAll_of_outside s (s.domainOf p.toNat) s.opArg0 (chunkUpdate s p b k) s.drives
  rw [← hdrives] at hread
  simp only [chunkUpdate, Layout.stripeUpdate, List.mem_cons, List.not_mem_nil, or_false, forall_eq_or_imp, forall_eq,
    hw.gpSlot, hw.serves] at hchunk hread
  obtain ⟨hdrive, hlpc, hgpc⟩ := hchunk
  refine ⟨t, hw.run.trans hrun, ht, hdrive, hlpc, hgpc, fun a ha => hread a ?_⟩
  simp only [List.mem_cons, List.not_mem_nil, or_false, forall_eq_or_imp, forall_eq] at ha
  exact ha

/-- Settles O31: the written chunks are the new stripe's parities; the other groups' parities were right before. -/
theorem writeChunkKeepsConsistency : Obligations.WriteChunkKeepsConsistency := by
  intro s t p b hinv hi hport h herr hcon
  rcases execWriteChunk_next h with ⟨e, he, rfl⟩ | ⟨k, -, hp, hc, hs, hk, hon, -⟩
  · exact absurd herr he
  have hw : WriteChunkRuns s p b k := writeChunkRuns hinv hi hp hc hs hk hon
  obtain ⟨t', hrun, ht, hdrives⟩ := stripeRun_of_ok hw.reads hc hw.update hw.writes (take_ok_of_portOk hport _)
  obtain rfl : t = t' := Host.Outcome.next.inj (h.symm.trans (hw.run.trans hrun))
  have hserve : ∀ j, t.serveAt (s.domainOf p.toNat) j = s.serveAt (s.domainOf p.toNat) j := fun j => by rw [ht]; rfl
  have hlayout : t.layout = s.layout := by rw [ht]; rfl
  have hwritten : ∀ y ∈ chunkUpdate s p b k, t.slotChunk (s.domainOf p.toNat) s.opArg0 y.1 = y.2 := by
    intro y hy
    rw [State.slotChunk, hserve, State.driveChunk, hdrives]
    exact chunkIn_writeAll s _ _ _ _ hw.chunkMax hw.distinct y hy
  have hstays : ∀ j, j < s.layout.served → (∀ y ∈ chunkUpdate s p b k, y.1 ≠ j) →
      t.slotChunk (s.domainOf p.toNat) s.opArg0 j = s.slotChunk (s.domainOf p.toNat) s.opArg0 j := by
    intro j hj hne
    rw [State.slotChunk, hserve, State.driveChunk, hdrives]
    refine chunkIn_writeAll_of_ne s _ _ _ _ _ _ hw.chunkMax hw.chunkMax fun y hy => .inl ?_
    have hslots : WrittenSlots s.layout (chunkUpdate s p b k) := stripeUpdate_slots hk
    exact hinv.assignment.serveAt_ne hi hw.domain hw.domain (hslots.served y hy) hj (.inr (hne y hy))
  simp only [chunkUpdate, Layout.stripeUpdate, List.mem_cons, List.not_mem_nil, or_false, forall_eq_or_imp,
    forall_eq] at hwritten hstays
  obtain ⟨hdrive, hlp, hgp⟩ := hwritten
  have hk : k < s.layout.ndata := hk
  unfold State.stripeConsistent
  rw [hlayout]
  refine consistent_of_parities (d := fun j => if j = k then s.opBuf b.toNat
    else s.slotChunk (s.domainOf p.toNat) s.opArg0 j) (fun j hj => ?data) (fun g hg => ?lp) hgp
  case data =>
    by_cases hjk : j = k
    · rw [hjk, if_pos rfl]
      exact hdrive
    · rw [if_neg hjk]
      refine hstays j (by unfold Layout.served; omega) ⟨Ne.symm hjk, ?_, ?_⟩
      · unfold Layout.lpSlot; omega
      · unfold Layout.gpSlot; omega
  case lp =>
    by_cases hgk : g = s.layout.groupOf k
    · rw [hgk]
      exact hlp
    · refine (hstays (s.layout.lpSlot g) (by unfold Layout.served Layout.lpSlot; omega) ⟨?_, ?_, ?_⟩).trans
        ((hcon.1 g hg).trans (xorOver_congr _ _ _ fun j hj => ?_))
      · unfold Layout.lpSlot; omega
      · unfold Layout.lpSlot; omega
      · unfold Layout.lpSlot Layout.gpSlot; omega
      · have hjg := ((s.layout.mem_slotsOf g j hg).1 hj).2
        refine (if_neg fun hjk => hgk ?_).symm
        rw [← hjg, hjk]

end WriteChunk

/-! ### ENCODE_STRIPE (42_encode.md R262) -/

section EncodeStripe

variable {s : State} {D : BitVec 16}

/-- What ENCODE_STRIPE writes, from the chunks it read. -/
def parityWrites (s : State) (known : SlotChunks) : SlotChunks := s.layout.stripeParities (chunkOfSlot known)

/-- ENCODE_STRIPE of a domain whose drives are online: a run of reads and writes of served slots. -/
structure EncodeStripeRuns (s : State) (D : BitVec 16) : Prop where
  chunkMax : s.opArg0 < Config.MAX_CHUNKS
  layoutNg : s.layout.ng = s.ng
  gpSlot : s.layout.gpSlot = s.ndata + s.ng
  run : exec (.encodeStripe D) s = stripeRun D.toNat s.opArg0 (List.range s.ndata)
    (parityWrites s) s
  update : parityWrites s (readAll s D.toNat s.opArg0 (List.range s.ndata))
    = s.layout.stripeParities (s.slotChunk D.toNat s.opArg0)
  reads : ∀ j ∈ List.range s.ndata, s.serveAt D.toNat j < s.total
  writes : ∀ y ∈ s.layout.stripeParities (s.slotChunk D.toNat s.opArg0), s.serveAt D.toNat y.1 < s.total
  distinct : (s.layout.stripeParities (s.slotChunk D.toNat s.opArg0)).Pairwise fun x y =>
    s.serveAt D.toNat x.1 ≠ s.serveAt D.toNat y.1

theorem encodeStripeRuns (hinv : s.Inv) (hi : s.initialized = true) (hD : D.toNat < s.ndom) (hc : s.opArg0 < s.chunks)
    (hon : ∀ k, k ≤ s.ndata + s.ng → flagAt s.online (s.serveAt D.toNat k) = true) : EncodeStripeRuns s D := by
  have hb := hinv.bounds hi
  have hserved := hb.served_eq
  have hslots := (stripeParities_slots (L := s.layout) (s.slotChunk D.toNat s.opArg0)).drives hinv.assignment hi hD
  have hall : (List.range s.layout.served).all (s.slotOnline D.toNat) = true :=
    List.all_eq_true.2 fun k hk => hon k (by have := List.mem_range.1 hk; omega)
  exact {
    chunkMax := hb.chunk_lt hc
    layoutNg := hb.ngLayout
    gpSlot := hb.gpSlot_eq
    run := execEncodeStripe_of_checks hi hD hc hall
    update := stripeParities_readAll
    reads := fun j hj => hinv.assignment.serveAt_lt hi hD (by have := List.mem_range.1 hj; omega)
    writes := hslots.1
    distinct := hslots.2 }

/-- Settles O32: every parity slot is written with its parity of the data, which no write touches. -/
theorem encodeStripeMakesConsistent : Obligations.EncodeStripeMakesConsistent := by
  intro s D hinv hi hD hc hon hport
  have hw := encodeStripeRuns hinv hi hD hc hon
  obtain ⟨t, hrun, ht, hdrives⟩ :=
    stripeRun_of_ok hw.reads hc hw.update hw.writes (take_ok_of_portOk hport _)
  have hserve : ∀ j, t.serveAt D.toNat j = s.serveAt D.toNat j := fun j => by rw [ht]; rfl
  have hparity : ∀ i, i ≤ s.layout.ng → t.slotChunk D.toNat s.opArg0 (s.layout.lpSlot i)
      = parityOf s.layout (s.slotChunk D.toNat s.opArg0) i := by
    intro i hi'
    rw [State.slotChunk, hserve, State.driveChunk, hdrives]
    exact chunkIn_writeAll s _ _ _ _ hw.chunkMax hw.distinct
      (s.layout.lpSlot i, parityOf s.layout (s.slotChunk D.toNat s.opArg0) i) (mem_stripeParities.2 ⟨i, hi', rfl⟩)
  refine ⟨t, hw.run.trans hrun, ht, ?consistent, fun a ha => ?outside⟩
  case consistent =>
    have hlayout : t.layout = s.layout := by rw [ht]; rfl
    unfold State.stripeConsistent
    rw [hlayout]
    refine consistent_of_parities (d := s.slotChunk D.toNat s.opArg0) (fun j hj => ?_) (fun g hg => ?_) ?_
    · rw [State.slotChunk, hserve, State.driveChunk, hdrives]
      refine chunkIn_writeAll_of_ne s _ _ _ _ _ _ hw.chunkMax hw.chunkMax fun y hy => .inl ?_
      obtain ⟨i, hi', rfl⟩ := mem_stripeParities.1 hy
      have hslot : s.layout.lpSlot i < s.layout.served := (stripeParities_slots _).served _ hy
      refine hinv.assignment.serveAt_ne hi hD hD hslot (by unfold Layout.served; omega) (.inr ?_)
      show s.layout.ndata + i ≠ j
      omega
    · exact (hparity g (Nat.le_of_lt hg)).trans (if_pos hg)
    · exact (hparity s.layout.ng (Nat.le_refl _)).trans (if_neg (Nat.lt_irrefl _))
  case outside =>
    rw [hdrives]
    refine read_writeAll_of_outside s _ _ _ _ a fun y hy => ?_
    obtain ⟨i, hi', rfl⟩ := mem_stripeParities.1 hy
    exact ha (s.ndata + i) (Nat.le_add_right _ _) (by rw [← hw.layoutNg]; omega)

end EncodeStripe

/-! ### Port errors (20_memory.md R97) -/

/-- Settles O30: the first error at a read ends the run before any write. -/
theorem writeChunkReadErrorWritesNothing : Obligations.WriteChunkReadErrorWritesNothing := by
  refine ⟨fun s p b k n junk hinv hi hp hc hs hk hon hn hr he => ?_, fun s D n junk hinv hi hD hc hon hn hr he => ?_⟩
  · have hw : WriteChunkRuns s p b k := writeChunkRuns hinv hi hp hc hs hk hon
    rw [hw.run]
    exact stripeRun_of_read_err hw.reads hc (by rw [length_otherData_eq hk]; omega) hr he
  · have hw := encodeStripeRuns hinv hi hD hc hon
    rw [hw.run]
    exact stripeRun_of_read_err hw.reads hc (by rw [List.length_range]; exact hn) hr he

end Sys2Proof.Proofs
end

section
/-! PROOFS. READ_CHUNK, PEEK and DECODE_CHUNK (43_access_decode.md R281 to R284). -/

namespace Sys2Proof.Proofs

open Sys2Proof.Machine

section Access

variable {s : State} {p : BitVec 16} {b : BitVec 3} {k : Nat}

theorem bufAt_setBuf_of_ne {s : State} {n e : Nat} {x : Chunk} (hn : n < 4) (he : e ≠ n) :
    (s.setBuf n x).bufAt e = s.bufAt e := (bufAt_setBuf hn).trans (if_neg he)

theorem bufAt_setBuf_self {s : State} {n : Nat} {x : Chunk} (hn : n < 4) : (s.setBuf n x).bufAt n = x :=
  (bufAt_setBuf hn).trans (if_pos rfl)

/-- A read answered ok into a buffer. -/
theorem rdchunk_toBuf_ok {q c : Nat} (hq : q < s.total) (hc : c < s.chunks) (hr : s.response = .ok) :
    (rdchunk q c s).orDriveIo (fun x s1 => finishWith .none (s1.setBuf b.toNat x)) =
      .next (finish .none ((s.afterAccess (.read q (c * Config.CHUNK) Config.CHUNK true)).setBuf b.toNat
        (s.driveChunk q c))) := by
  have h : rdchunk q c s = _ := (rdchunk_ok_iff q c s _ _).2 ⟨⟨hq, hc⟩, hr, rfl, rfl⟩
  rw [h]
  rfl

/-- A read answered with an error. -/
theorem rdchunk_toBuf_err {q c : Nat} {junk : Chunk} (hq : q < s.total) (hc : c < s.chunks)
    (hr : s.response = .err junk) :
    (rdchunk q c s).orDriveIo (fun x s1 => finishWith .none (s1.setBuf b.toNat x)) =
      .next (finish .driveIo (s.afterAccess (.read q (c * Config.CHUNK) Config.CHUNK false))) := by
  have h : rdchunk q c s = _ := (rdchunk_err_iff q c s _).2 ⟨⟨hq, hc⟩, ⟨junk, hr⟩, rfl⟩
  rw [h]
  rfl

/-- Settles O34. -/
theorem readChunkReadsDrive : Obligations.ReadChunkReadsDrive := by
  intro s p b hi hb hp hc hon
  have hb4 : b.toNat < 4 := of_decide_eq_true hb
  have hexec : exec (.readChunk p b) s = _ := execReadChunk_of_checks hi hp hc hon
  refine ⟨fun hr => ⟨_, hexec.trans (rdchunk_toBuf_ok hp hc hr), rfl, fun e _ he => ?_, fun i hlane => ?_⟩,
    fun junk hr => ⟨_, hexec.trans (rdchunk_toBuf_err hp hc hr), rfl⟩⟩
  · exact bufAt_setBuf_of_ne hb4 he
  · refine (congrArg (laneAt · i) (bufAt_setBuf_self hb4)).trans ((laneAt_chunkIn _ _ _ _ hlane).trans ?_)
    rw [State.driveByte, driveKey, driveKey, Nat.add_assoc]
    rfl

/-- The bytes of a little-endian number of at most four bytes, in its 32-bit word. -/
theorem extractLsb'_readBytes (m : Memory) (a n : Nat) (hn : n ≤ 4) (j : Nat) :
    (BitVec.ofNat 32 (m.readBytes a n)).extractLsb' (8 * j) 8 = if j < n then m.read (a + j) else 0 := by
  have hlt : m.readBytes a n < 2 ^ (8 * n) := m.readBytes_lt a n
  have hle : 2 ^ (8 * n) ≤ 2 ^ 32 := Nat.pow_le_pow_right (by decide) (by omega)
  have hbyte : (BitVec.ofNat 32 (m.readBytes a n)).extractLsb' (8 * j) 8 = byteOf (m.readBytes a n) j := by
    apply BitVec.eq_of_toNat_eq
    rw [BitVec.extractLsb'_toNat, BitVec.toNat_ofNat, Nat.mod_eq_of_lt (Nat.lt_of_lt_of_le hlt hle),
      Nat.shiftRight_eq_div_pow, byteOf, BitVec.toNat_ofNat]
  rw [hbyte]
  split
  · next h => exact m.byteOf_readBytes a n j h
  · next h =>
    have hpow : 2 ^ (8 * n) ≤ 2 ^ (8 * j) := Nat.pow_le_pow_right (by decide) (by omega)
    rw [byteOf, Nat.div_eq_of_lt (Nat.lt_of_lt_of_le hlt hpow)]
    rfl

/-- Settles O35. -/
theorem peekReadsBytes : Obligations.PeekReadsBytes := by
  intro s p hi hp h1 h4 hrange hon
  have hexec : exec (.peek p) s = _ := execPeek_of_checks hi hp ((peekInRange_iff s _ _).2 ⟨h1, h4, hrange⟩) hon
  have hspace : s.inDriveSpace p.toNat s.opArg0 s.opArg1 = true :=
    Bool.and_eq_true_iff.2 ⟨decide_eq_true hp, decide_eq_true hrange⟩
  refine ⟨fun hr => ?ok, fun junk hr => ?err⟩
  case ok =>
    have hread := (driveRead_ok_iff p.toNat s.opArg0 s.opArg1
      (fun m => m.readBytes (driveKey p.toNat s.opArg0) s.opArg1) s _ _).2 ⟨hspace, hr, rfl, rfl⟩
    rw [hexec, hread]
    refine ⟨_, rfl, rfl, fun j _ => ?_⟩
    refine (extractLsb'_readBytes s.drives _ s.opArg1 h4 j).trans ?_
    rw [State.driveByte, driveKey, driveKey, Nat.add_assoc]
  case err =>
    have hread := (driveRead_err_iff p.toNat s.opArg0 s.opArg1
      (fun m => m.readBytes (driveKey p.toNat s.opArg0) s.opArg1) s _).2 ⟨hspace, ⟨junk, hr⟩, rfl⟩
    rw [hexec, hread]
    exact ⟨_, rfl, rfl⟩

end Access

/-! ### DECODE_CHUNK (43_access_decode.md R284) -/

section Decode

variable {s : State} {p : BitVec 16} {b : BitVec 3} {k : Nat}

/-- While the latch holds, what a command works on is what an acceptance now would latch. -/
theorem latch_eq (h : s.latchHolds) : s.latch = s.latchFor s.cmd := by
  unfold State.latch
  cases hf : s.flight with
  | none => rfl
  | some f => exact (h f hf).1

theorem latch_online (h : s.latchHolds) : s.latch.online = s.online := by
  rw [latch_eq h]
  rfl

/-- The failure set of domain D, from the flags as they stand. -/
def offlineSlots (s : State) (D : Nat) (j : Nat) : Bool := !flagAt s.online (s.serveAt D j)

theorem failureSet_latch (h : s.latchHolds) (D : Nat) : failureSet s.latch.online s.serve D = offlineSlots s D := by
  rw [latch_online h]
  rfl

/-- An offline drive's slot is in the failure set. -/
theorem offlineSlots_of_slotOf {p : Nat} (hs : s.slotOf p = some k) (hoff : flagAt s.online p = false) :
    offlineSlots s (s.domainOf p) k = true := by
  rw [offlineSlots, (slotOf_some hs).2, hoff]
  rfl

/-- The content made from the source chunks that were read is the content made from the stripe. -/
theorem content_readAll {D c : Nat} (hk : k < s.layout.served) (ho : offlineSlots s D k = true)
    (hc : s.layout.sclass (offlineSlots s D) k ≠ .dataLoss) :
    s.layout.content (offlineSlots s D) (chunkOfSlot (readAll s D c (s.layout.sources (offlineSlots s D) k))) k
      = s.layout.content (offlineSlots s D) (s.slotChunk D c) k :=
  content_congr hk ho hc fun t ht => chunkOfSlot_readAll s D c _ t ht

/-- DECODE_CHUNK of an offline, recoverable slot is a run of reads of its sources, which exist. -/
theorem decode_runs (hinv : s.Inv) (hi : s.initialized = true) (hp : p.toNat < s.total) (hc : s.opArg0 < s.chunks)
    (hs : s.slotOf p.toNat = some k) (hoff : flagAt s.online p.toNat = false)
    (hclass : s.layout.sclass (offlineSlots s (s.domainOf p.toNat)) k ≠ .dataLoss) :
    (∀ j ∈ s.layout.sources (offlineSlots s (s.domainOf p.toNat)) k, s.serveAt (s.domainOf p.toNat) j < s.total)
      ∧ exec (.decodeChunk p b) s =
        (readSlots (s.domainOf p.toNat) s.opArg0 (s.layout.sources (offlineSlots s (s.domainOf p.toNat)) k) s).orDriveIo
          fun known s1 => finishWith .none (s1.setBuf b.toNat
            (s.layout.content (offlineSlots s (s.domainOf p.toNat)) (chunkOfSlot known) k)) := by
  have hexec : exec (.decodeChunk p b) s = _ := execDecodeChunk_offline hi hp hc hs hoff
  refine ⟨fun j hj => ?_, ?_⟩
  · exact hinv.assignment.serveAt_lt hi ((hinv.bounds hi).domainOf_lt hp) (s.layout.lt_served_of_mem_sources _ _ _ hj)
  · rw [hexec, failureSet_latch hinv.latch]
    exact if_neg hclass

/-- DECODE_CHUNK of an offline, recoverable slot whose reads are answered ok. -/
theorem decode_ok (hinv : s.Inv) (hi : s.initialized = true) (hb : b.toNat < 4) (hp : p.toNat < s.total)
    (hc : s.opArg0 < s.chunks) (hs : s.slotOf p.toNat = some k) (hoff : flagAt s.online p.toNat = false)
    (hclass : s.layout.sclass (offlineSlots s (s.domainOf p.toNat)) k ≠ .dataLoss)
    (hr : ∀ r ∈ s.responses.take (s.layout.sources (offlineSlots s (s.domainOf p.toNat)) k).length, r = .ok) :
    ∃ t, exec (.decodeChunk p b) s = .next t
      ∧ t = finish .none
          { s with
            bufs := t.bufs
            responses := s.responses.drop (s.layout.sources (offlineSlots s (s.domainOf p.toNat)) k).length
            traffic := t.traffic }
      ∧ (∀ e, e < 4 → e ≠ b.toNat → t.bufAt e = s.bufAt e)
      ∧ t.bufAt b.toNat = s.layout.content (offlineSlots s (s.domainOf p.toNat))
          (s.slotChunk (s.domainOf p.toNat) s.opArg0) k := by
  obtain ⟨hreads, hexec⟩ := decode_runs (b := b) hinv hi hp hc hs hoff hclass
  rw [hexec, readSlots_of_ok _ _ _ s hreads hc hr]
  refine ⟨_, rfl, rfl, fun e _ he => bufAt_setBuf_of_ne hb he, (bufAt_setBuf_self hb).trans ?_⟩
  exact content_readAll (slotOf_some hs).1 (offlineSlots_of_slotOf hs hoff) hclass

/-- Settles O36: an online drive is read; an offline one's slot is reconstructed from its sources. -/
theorem decodeChunkGivesContent : Obligations.DecodeChunkGivesContent := by
  intro s p b k hinv hi hb hp hc hs
  have hb4 : b.toNat < 4 := of_decide_eq_true hb
  refine ⟨fun hon => ?online, fun hoff hclass => ⟨fun hr => ?ok, fun n junk hn hr he => ?err⟩, fun hoff hclass => ?loss⟩
  case online =>
    have hexec : exec (.decodeChunk p b) s = _ := execDecodeChunk_online hi hp hc hs hon
    refine ⟨fun hr => ⟨_, hexec.trans (rdchunk_toBuf_ok hp hc hr), rfl, fun e _ he => ?_, ?_⟩,
      fun junk hr => ⟨_, hexec.trans (rdchunk_toBuf_err hp hc hr), rfl⟩⟩
    · exact bufAt_setBuf_of_ne hb4 he
    · exact bufAt_setBuf_self hb4
  case ok => exact decode_ok hinv hi hb4 hp hc hs hoff hclass hr
  case err =>
    obtain ⟨hreads, hexec⟩ := decode_runs (b := b) hinv hi hp hc hs hoff hclass
    obtain ⟨s1, hread, hs1, hresp⟩ := readSlots_of_err _ _ _ s n junk hreads hc hn hr he
    rw [hexec, hread]
    refine ⟨finish .driveIo s1, rfl, congrArg (finish .driveIo) ?_⟩
    rw [hs1, hresp]
    rfl
  case loss =>
    have hexec : exec (.decodeChunk p b) s = _ := execDecodeChunk_offline hi hp hc hs hoff
    rw [hexec, failureSet_latch hinv.latch]
    exact if_pos hclass

/-- The layout of a legal topology is a legal one (41_parity_math.md R211). -/
theorem layout_legal (hb : s.Bounds) : s.layout.legal := by
  have hserved := hb.served_eq
  have hle := hb.servedLe
  have hdpd := hb.dpdMax
  have hng := hb.ngPos
  refine ⟨hb.sizesPos, ?_⟩
  show s.ndata ≤ 62
  omega

/-- Settles O37: the content of a slot of a consistent stripe is the slot's chunk. -/
theorem decodeRecoversLostChunk : Obligations.DecodeRecoversLostChunk := by
  intro s p b k hinv hi hb hp hc hs hport hoff hclass hcon
  obtain ⟨t, hexec, ht, -, hbuf⟩ := decode_ok hinv hi (of_decide_eq_true hb) hp hc hs hoff hclass
    (take_ok_of_portOk hport _)
  refine ⟨t, hexec, by rw [ht]; rfl, hbuf.trans ?_⟩
  refine (content_exact (layout_legal (hinv.bounds hi)) hcon (slotOf_some hs).1 hclass).trans ?_
  exact congrArg (s.driveChunk · s.opArg0) (slotOf_some hs).2

end Decode

end Sys2Proof.Proofs
end

section
/-! PROOFS. What a command may write, and what its errors leave (60_exceptions.md R341, 70_reset_and_hazards.md R386). -/

namespace Sys2Proof.Proofs

open Sys2Proof.Machine

/-! ### The drive bytes a run of accesses can change -/

section Bytes

variable {s t : State} {D c a : Nat}

/-- A run of slot writes, finished or stopped, changes its slots' chunks only. -/
theorem read_of_writeSlots {xs : SlotChunks} (h : writeSlots D c xs s = .ok () t ∨ writeSlots D c xs s = .err t)
    (ha : ∀ x ∈ xs, ¬inChunk (s.serveAt D x.1) c a) : t.drives.read a = s.drives.read a := by
  rcases h with h | h
  · rw [(writeSlots_ok h).1]
    exact read_writeAll_of_outside s D c xs s.drives a ha
  · obtain ⟨pre, k, v, post, junk, rfl, -, rfl⟩ := writeSlots_err h
    refine (read_withChunk _ _ _ _ _).trans ((if_neg (ha (k, v) (by simp))).trans ?_)
    exact read_writeAll_of_outside s D c pre s.drives a fun x hx => ha x (List.mem_append_left _ hx)

/-- The reads and writes of a stripe, with whatever answers, change the written slots' chunks only. -/
theorem read_of_stripe {s1 : State} {ks : List Nat} {known : SlotChunks} {xs : SlotChunks}
    (hr : readSlots D c ks s = .ok known s1)
    (hw : (∃ s2, writeSlots D c xs s1 = .err s2 ∧ t = finish .driveIo s2)
      ∨ ∃ s2, writeSlots D c xs s1 = .ok () s2 ∧ t = finish .none s2)
    (ha : ∀ x ∈ xs, ¬inChunk (s.serveAt D x.1) c a) : t.drives.read a = s.drives.read a := by
  have hs1 := readSlots_readsOnly hr
  have ha1 : ∀ x ∈ xs, ¬inChunk (s1.serveAt D x.1) c a := fun x hx => by
    rw [hs1.drivesOnly.serveAt]
    exact ha x hx
  rw [← hs1.drives]
  rcases hw with ⟨s2, hw, rfl⟩ | ⟨s2, hw, rfl⟩
  · exact read_of_writeSlots (t := s2) (.inr hw) ha1
  · exact read_of_writeSlots (t := s2) (.inl hw) ha1

theorem execWriteChunk_read {p : BitVec 16} {b : BitVec 3} (h : execWriteChunk p b s = .next t)
    (ha : ∀ k, s.slotOf p.toNat = some k → ∀ j ∈ [k, s.ndata + s.layout.groupOf k, s.ndata + s.ng],
      ¬inChunk (s.serveAt (p.toNat / s.dpd) j) s.opArg0 a) : t.drives.read a = s.drives.read a := by
  rcases execWriteChunk_next h with ⟨e, -, rfl⟩ | ⟨k, -, -, -, hs, -, -, ⟨s1, hr, rfl⟩ | ⟨known, s1, hr, hw⟩⟩
  · rfl
  · exact congrArg (Memory.read · a) (readSlots_err_readsOnly hr).drives
  · refine read_of_stripe hr hw fun x hx => ?_
    have hng : s.layout.ng = s.ng := s.topo.layout_ng
    have hgp : s.layout.gpSlot = s.ndata + s.ng := congrArg (s.ndata + ·) hng
    simp only [Layout.stripeUpdate, List.mem_cons, List.not_mem_nil, or_false] at hx
    refine ha k hs x.1 ?_
    rcases hx with rfl | rfl | rfl
    · exact List.mem_cons_self
    · exact List.mem_cons_of_mem _ List.mem_cons_self
    · exact List.mem_cons_of_mem _ (List.mem_cons_of_mem _ (List.mem_singleton.2 hgp))

theorem execEncodeStripe_read {D : BitVec 16} (h : execEncodeStripe D s = .next t)
    (ha : ∀ j, s.ndata ≤ j → j ≤ s.ndata + s.ng → ¬inChunk (s.serveAt D.toNat j) s.opArg0 a) :
    t.drives.read a = s.drives.read a := by
  rcases execEncodeStripe_next h with ⟨e, -, rfl⟩ | ⟨-, -, -, -, ⟨s1, hr, rfl⟩ | ⟨known, s1, hr, hw⟩⟩
  · rfl
  · exact congrArg (Memory.read · a) (readSlots_err_readsOnly hr).drives
  · refine read_of_stripe hr hw fun x hx => ?_
    have hng : s.layout.ng = s.ng := s.topo.layout_ng
    obtain ⟨i, hi, rfl⟩ := mem_stripeParities.1 hx
    refine ha (s.ndata + i) (Nat.le_add_right _ _) ?_
    omega

/-- A run of chunk reconstructions, finished or stopped, changes its chunks of the destination only. -/
theorem read_of_rebuildChunks {off : Nat → Bool} {k dest n : Nat}
    (h : rebuildChunks off D k dest n c s = .finished t ∨ ∃ e, rebuildChunks off D k dest n c s = .stoppedAt e t)
    (ha : ∀ e, c ≤ e → e < c + n → ¬inChunk dest e a) : t.drives.read a = s.drives.read a := by
  induction n generalizing c s with
  | zero =>
    rcases h with h | ⟨e, h⟩
    · rw [RebuildRun.finished.inj h]
    · cases h
  | succ n ih =>
    unfold rebuildChunks at h
    cases hr : readSlots D c (s.layout.sources off k) s with
    | absent => simp [hr] at h
    | err s1 =>
      have ht : s1 = t := by simpa [hr] using h
      rw [← ht, (readSlots_err_readsOnly hr).drives]
    | ok known s1 =>
      have hs1 := (readSlots_readsOnly hr).drives
      have hc := ha c (Nat.le_refl c) (by omega)
      simp only [hr] at h
      cases hw : wrchunk dest c (s.layout.content off (chunkOfSlot known) k) s1 with
      | absent => simp [hw] at h
      | err s2 =>
        obtain ⟨-, junk, -, hs2⟩ := (wrchunk_err_iff _ _ _ _ _).1 hw
        have ht : s2 = t := by simpa [hw] using h
        rw [← ht, hs2, ← hs1]
        exact (read_withChunk _ _ _ _ _).trans (if_neg hc)
      | ok u s2 =>
        simp only [hw] at h
        obtain ⟨-, -, rfl⟩ := (wrchunk_ok_iff _ _ _ _ _ _).1 hw
        rw [ih h fun e he he' => ha e (by omega) (by omega), ← hs1]
        exact (read_withChunk _ _ _ _ _).trans (if_neg hc)

/-- A chunk below n lies in the first n chunks. -/
theorem not_inChunk_of_not_inFirstChunks {q n e : Nat} (he : e < n) (ha : ¬inFirstChunks q n a) : ¬inChunk q e a := by
  have h1 : (e + 1) * Config.CHUNK = e * Config.CHUNK + Config.CHUNK := Nat.succ_mul _ _
  have h2 : (e + 1) * Config.CHUNK ≤ n * Config.CHUNK := Nat.mul_le_mul_right _ he
  unfold inFirstChunks driveKey at ha
  unfold inChunk driveKey
  omega

/-- Rebuilding one target changes the first chunks of its destination only. -/
theorem rebuildOne_read {st : Strategy} {on : BitVec 512} {F : Nat → Nat → Bool} {p : Nat} {e : ReportEntry}
    (h : rebuildOne st on F p s = some (e, t))
    (ha : ∀ q, s.rebuildDest st p (s.domainOf p) = some q → ¬inFirstChunks q s.chunks a) :
    t.drives.read a = s.drives.read a := by
  rcases rebuildOne_cases h with ⟨-, rfl, -⟩ | ⟨k, -, ⟨-, rfl, -⟩ | ⟨-, ⟨-, rfl, -⟩ | ⟨-, ⟨-, rfl, -⟩ | ⟨q, hq, hrun⟩⟩⟩⟩
  · rfl
  · rfl
  · rfl
  · rfl
  · have hout : ∀ e, 0 ≤ e → e < 0 + s.chunks → ¬inChunk q e a :=
      fun e _ he => not_inChunk_of_not_inFirstChunks (by omega) (ha q hq)
    rcases hrun with ⟨c, hrun, -⟩ | ⟨u, hrun, rfl, -⟩
    · exact read_of_rebuildChunks (.inr ⟨c, hrun⟩) hout
    · refine Eq.trans ?_ (read_of_rebuildChunks (.inl hrun) hout)
      cases st <;> rfl

end Bytes

/-! ### What a REBUILD keeps, target by target -/

section Rebuild

variable {s t : State} {st : Strategy}

/-- A drive state written over that is free afterwards was so before. -/
theorem getD_set_eq_spareFree {l : List PState} {p r : Nat} {x : PState} (hx : x ≠ .spareFree)
    (h : (l.set p x).getD r .retired = .spareFree) : l.getD r .retired = .spareFree := by
  by_cases hp : p < l.length
  · rw [pstateAt_set l p r x hp] at h
    split at h
    · exact absurd h hx
    · exact h
  · rwa [List.set_eq_of_length_le (Nat.le_of_not_lt hp)] at h

/-- What a PROMOTE keeps of the state it started from: the flags, and that a free drive was free. -/
structure PromoteKeeps (s u : State) : Prop where
  chunks : u.chunks = s.chunks
  online : u.online = s.online
  free : ∀ q, u.pstateAt q = .spareFree → s.pstateAt q = .spareFree

theorem PromoteKeeps.rebuildOne {u v : State} {on : BitVec 512} {F : Nat → Nat → Bool} {p : Nat} {e : ReportEntry}
    (hu : PromoteKeeps s u) (h : rebuildOne .promoteSpare on F p u = some (e, v)) : PromoteKeeps s v := by
  obtain ⟨w, hw, rfl | ⟨k, q, -, -, -, rfl⟩⟩ := rebuildOne_drivesOnly h
  · exact ⟨hw.chunks.trans hu.chunks, hw.online.trans hu.online, fun q hq => hu.free q (hw.pstateAt q ▸ hq)⟩
  · refine ⟨hw.chunks.trans hu.chunks, hw.online.trans hu.online, fun r hr => hu.free r ?_⟩
    rw [← hw.pstateAt]
    exact getD_set_eq_spareFree (by decide) (getD_set_eq_spareFree (by decide) hr)

/-- A PROMOTE writes the first chunks of free, online spares only. -/
theorem promote_read {u : State} {on : BitVec 512} {F : Nat → Nat → Bool} {ps : List Nat} {n a : Nat}
    {es : List ReportStatus} (h : rebuildTargets .promoteSpare on F ps n s = some (es, u))
    (ha : ∀ q, s.pstateAt q = .spareFree → flagAt s.online q = true → ¬inFirstChunks q s.chunks a) :
    u.drives.read a = s.drives.read a := by
  refine (rebuildTargets_induct (fun v => PromoteKeeps s v ∧ v.drives.read a = s.drives.read a) h
    ⟨⟨rfl, rfl, fun _ hq => hq⟩, rfl⟩ (fun p _ v w e hv hone => ?_) fun v m e hv => ?_).2
  · refine ⟨hv.1.rebuildOne hone, (rebuildOne_read hone fun q hq => ?_).trans hv.2⟩
    obtain ⟨-, -, hfree, honl⟩ := freeSpare_some hq
    rw [hv.1.chunks]
    exact ha q (hv.1.free q hfree) (hv.1.online ▸ honl)
  · exact ⟨⟨hv.1.chunks, hv.1.online, hv.1.free⟩, hv.2⟩

/-- What a RESTORE keeps: the assignment, and the flags but those of targets that were offline. -/
structure RestoreKeeps (s u : State) (on : BitVec 512) (ps : List Nat) : Prop where
  chunks : u.chunks = s.chunks
  serve : u.serve = s.serve
  pstate : u.pstate = s.pstate
  online : ∀ p, flagAt u.online p ≠ flagAt s.online p → p ∈ ps ∧ flagAt on p = false ∧ flagAt u.online p = true

theorem RestoreKeeps.rebuildOne {u v : State} {on : BitVec 512} {F : Nat → Nat → Bool} {p : Nat} {e : ReportEntry}
    {ps : List Nat} (hp : p ∈ ps) (hlt : p < 512) (hu : RestoreKeeps s u on ps)
    (h : rebuildOne .restoreInPlace on F p u = some (e, v)) : RestoreKeeps s v on ps := by
  obtain ⟨w, hw, rfl | ⟨k, q, -, hoff, -, rfl⟩⟩ := rebuildOne_drivesOnly h
  · exact ⟨hw.chunks.trans hu.chunks, hw.serve.trans hu.serve, hw.pstate.trans hu.pstate, by rw [hw.online]; exact hu.online⟩
  · refine ⟨hw.chunks.trans hu.chunks, hw.serve.trans hu.serve, hw.pstate.trans hu.pstate, fun r hr => ?_⟩
    by_cases hrp : r = p
    · rw [hrp]
      exact ⟨hp, hoff, flagAt_setFlag_self _ _ _ hlt⟩
    · have hkeep := flagAt_setFlag_of_ne w.online p r true hrp
      rw [hw.online] at hkeep
      have hnew : flagAt (w.commitRebuild .restoreInPlace p (u.domainOf p) k q).online r = flagAt u.online r :=
        (congrArg (fun v => flagAt (setFlag v p true) r) hw.online).trans hkeep
      rw [hnew] at hr ⊢
      exact hu.online r hr

theorem restore_keeps {u : State} {on : BitVec 512} {F : Nat → Nat → Bool} {ps : List Nat} {n : Nat}
    {es : List ReportStatus} (h : rebuildTargets .restoreInPlace on F ps n s = some (es, u)) (hlt : ∀ p ∈ ps, p < 512) :
    RestoreKeeps s u on ps :=
  rebuildTargets_induct (fun v => RestoreKeeps s v on ps) h ⟨rfl, rfl, rfl, fun _ hp => absurd rfl hp⟩
    (fun p hp _ _ _ hv hone => hv.rebuildOne hp (hlt p hp) hone) fun _ _ _ hv => ⟨hv.chunks, hv.serve, hv.pstate, hv.online⟩

/-- A RESTORE writes the first chunks of its targets only. -/
theorem restore_read {u : State} {on : BitVec 512} {F : Nat → Nat → Bool} {ps : List Nat} {n a : Nat}
    {es : List ReportStatus} (h : rebuildTargets .restoreInPlace on F ps n s = some (es, u))
    (ha : ∀ p ∈ ps, ¬inFirstChunks p s.chunks a) : u.drives.read a = s.drives.read a := by
  refine (rebuildTargets_induct (fun v => v.chunks = s.chunks ∧ v.drives.read a = s.drives.read a) h ⟨rfl, rfl⟩
    (fun p hp v w e hv hone => ?_) fun v m e hv => hv).2
  refine ⟨?_, (rebuildOne_read hone fun q hq => ?_).trans hv.2⟩
  · obtain ⟨x, hx, rfl | ⟨k, q, -, -, -, rfl⟩⟩ := rebuildOne_drivesOnly hone
    · exact hx.chunks.trans hv.1
    · exact hx.chunks.trans hv.1
  · rw [hv.1, ← Option.some.inj hq]
    exact ha p hp

theorem aggregateError_cases (es : List ReportStatus) :
    aggregateError es = .none ∨ aggregateError es = .unrecoverableData ∨ aggregateError es = .partialRebuild := by
  unfold aggregateError
  split
  · exact .inl rfl
  · split
    · exact .inr (.inl rfl)
    · exact .inr (.inr rfl)

end Rebuild

/-! ### Errors (60_exceptions.md R341) -/

section Errors

variable {s t : State}

/-- `t` is a completion of `s`; if with an error, nothing else but answers used up and traffic. -/
def ErrorOnly (s t : State) : Prop :=
  t.err ≠ .none → t = finish t.err { s with responses := t.responses, traffic := t.traffic }

theorem ErrorOnly.of_finish (e : ErrCode) (h : ReadsOnly s t) : ErrorOnly s (finish e t) :=
  fun _ => congrArg (finish e) h

theorem ErrorOnly.of_success {u : State} (h : t = finish .none u) : ErrorOnly s t := fun he => by
  rw [h] at he
  exact absurd rfl he

/-- A command with checks only before what it does. -/
theorem errorOnly_of_checks {u : State} (h : (∃ e, e ≠ .none ∧ t = finish e s) ∨ t = finish .none u) :
    ErrorOnly s t := by
  rcases h with ⟨e, -, rfl⟩ | h
  · exact .of_finish e (.refl s)
  · exact .of_success h

/-- An error of any command but WRITE_CHUNK, ENCODE_STRIPE and REBUILD has no effect beyond the completion. -/
theorem exec_errorOnly {i : Instr} (h : exec i s = .next t) (hw : ∀ p b, i ≠ .writeChunk p b)
    (he : ∀ D, i ≠ .encodeStripe D) (hr : ∀ st, i ≠ .rebuild st) : ErrorOnly s t := by
  cases i with
  | writeChunk p b => exact absurd rfl (hw p b)
  | encodeStripe D => exact absurd rfl (he D)
  | rebuild st => exact absurd rfl (hr st)
  | nop => exact .of_success (finishWith_next h)
  | init => exact errorOnly_of_checks ((execInit_next h).imp_right fun h => h.2.2)
  | reset => exact .of_success (execReset_next h)
  | setOnlineDrive p v => exact errorOnly_of_checks ((execSetOnlineDrive_next h).imp_right fun h => h.2.2)
  | setOnlineDomain D v => exact errorOnly_of_checks ((execSetOnlineDomain_next h).imp_right fun h => h.2.2)
  | recombine b =>
    rcases execRecombine_next h with ⟨-, rfl⟩ | ⟨-, ht⟩
    · exact .of_finish _ (.refl s)
    · exact .of_success ht
  | readChunk p b =>
    obtain ⟨u, hu, ⟨e, -, rfl⟩ | ⟨x, ht⟩⟩ := execReadChunk_readsOnly h
    · exact .of_finish e hu
    · exact .of_success ht
  | peek p =>
    obtain ⟨u, hu, ⟨e, -, rfl⟩ | ⟨x, ht⟩⟩ := execPeek_readsOnly h
    · exact .of_finish e hu
    · exact .of_success ht
  | decodeChunk p b =>
    obtain ⟨u, hu, ⟨e, -, rfl⟩ | ⟨x, ht⟩⟩ := execDecodeChunk_readsOnly h
    · exact .of_finish e hu
    · exact .of_success ht
  | classify =>
    rcases execClassify_next h with ⟨-, rfl⟩ | ⟨-, ht, -⟩
    · exact .of_finish _ (.refl s)
    · exact .of_success ht
  | queryDrive p => exact errorOnly_of_checks ((execQueryDrive_next h).imp_right fun h => h.2.2)
  | queryGroup G => exact errorOnly_of_checks ((execQueryGroup_next h).imp_right fun h => h.2.2)
  | querySlot D => exact errorOnly_of_checks ((execQuerySlot_next h).imp_right fun h => h.2.2)

/-- An error of WRITE_CHUNK other than DRIVE_IO is a failed check. -/
theorem execWriteChunk_check {p : BitVec 16} {b : BitVec 3} (h : execWriteChunk p b s = .next t) (he : t.err ≠ .none)
    (hio : t.err ≠ .driveIo) : t = finish t.err s := by
  rcases execWriteChunk_next h with ⟨e, -, rfl⟩ | ⟨k, -, -, -, -, -, -, ⟨s1, -, rfl⟩ | ⟨_, _, -, ⟨s2, -, rfl⟩ | ⟨s2, -, rfl⟩⟩⟩
  · rfl
  · exact absurd rfl hio
  · exact absurd rfl hio
  · exact absurd rfl he

theorem execEncodeStripe_check {D : BitVec 16} (h : execEncodeStripe D s = .next t) (he : t.err ≠ .none)
    (hio : t.err ≠ .driveIo) : t = finish t.err s := by
  rcases execEncodeStripe_next h with ⟨e, -, rfl⟩ | ⟨-, -, -, -, ⟨s1, -, rfl⟩ | ⟨_, _, -, ⟨s2, -, rfl⟩ | ⟨s2, -, rfl⟩⟩⟩
  · rfl
  · exact absurd rfl hio
  · exact absurd rfl hio
  · exact absurd rfl he

theorem execRebuild_check {st : Strategy} (h : execRebuild st s = .next t)
    (he : t.err = .notInitialized ∨ t.err = .invalidDrive) : t = finish t.err s := by
  rcases execRebuild_run h with ⟨e, -, rfl, -⟩ | ⟨-, -, es, u, -, rfl⟩
  · rfl
  · rw [finish_err] at he
    rcases aggregateError_cases es with ha | ha | ha <;> rw [ha] at he <;> exact absurd he (by decide)

theorem execRestore_read {a : Nat} (h : execRebuild .restoreInPlace s = .next t)
    (ha : ∀ p ∈ s.opTargets, ¬inFirstChunks p s.chunks a) : t.drives.read a = s.drives.read a := by
  rcases execRebuild_run h with ⟨e, -, rfl, -⟩ | ⟨-, -, es, u, hrun, rfl⟩
  · rfl
  · have hread : u.drives.read a = (rebuildStart s).drives.read a :=
      restore_read hrun fun p hp => ha p ((mem_orderTargets _ _ _).1 hp)
    exact hread

theorem execPromote_read {a : Nat} (h : execRebuild .promoteSpare s = .next t)
    (ha : ∀ q, s.pstateAt q = .spareFree → flagAt s.online q = true → ¬inFirstChunks q s.chunks a) :
    t.drives.read a = s.drives.read a := by
  rcases execRebuild_run h with ⟨e, -, rfl, -⟩ | ⟨-, -, es, u, hrun, rfl⟩
  · rfl
  · have hread : u.drives.read a = (rebuildStart s).drives.read a := promote_read hrun ha
    exact hread

end Errors

/-- The chunks a WRITE_CHUNK writes, by drive. -/
theorem chunkUpdate_drives {s : State} {p : BitVec 16} {b : BitVec 3} {k : Nat} (hw : WriteChunkRuns s p b k) :
    (chunkUpdate s p b k).map (fun y => (s.serveAt (s.domainOf p.toNat) y.1, y.2)) =
      [(p.toNat, s.opBuf b.toNat),
        (s.serveAt (s.domainOf p.toNat) (s.ndata + s.layout.groupOf k),
          xorOver (s.layout.slotsOf (s.layout.groupOf k)) fun m =>
            if m = k then s.opBuf b.toNat else s.slotChunk (s.domainOf p.toNat) s.opArg0 m),
        (s.serveAt (s.domainOf p.toNat) (s.ndata + s.ng), xorOver (List.range s.ndata) fun m =>
          scale (s.layout.coef m)
            (if m = k then s.opBuf b.toNat else s.slotChunk (s.domainOf p.toNat) s.opArg0 m))] := by
  simp only [chunkUpdate, Layout.stripeUpdate, List.map_cons, List.map_nil, hw.serves, hw.gpSlot]
  rfl

/-- Settles O16: each command's errors; REBUILD's bytes by an induction over its targets; and where a write errs, the run
of writes stops there. -/
theorem errorsHaveNoOtherEffect : Obligations.ErrorsHaveNoOtherEffect := by
  refine ⟨fun i s t h => ?every, fun s p b k j junk hinv hi hp hc hs hk hon hj hr he => ?writeChunk,
    fun s D j junk hinv hi hD hc hon hj hr he => ?encodeStripe⟩
  case every =>
    obtain ⟨e, u, hfin⟩ := exec_next_finish h
    refine ⟨by rw [hfin]; rfl, by rw [hfin]; rfl, by rw [hfin]; rfl,
      fun herr hw he hr => exec_errorOnly h hw he hr herr, ?stripe, ?writeBytes, ?encodeBytes, ?rebuild⟩
    case stripe =>
      rintro (⟨p, b, rfl⟩ | ⟨D, rfl⟩)
      · exact ⟨exec_frame h, execWriteChunk_check h⟩
      · exact ⟨exec_frame h, execEncodeStripe_check h⟩
    case writeBytes =>
      rintro p b rfl a ha
      exact execWriteChunk_read h ha
    case encodeBytes =>
      rintro D rfl a ha
      exact execEncodeStripe_read h ha
    case rebuild =>
      rintro st rfl
      have hrun : execRebuild st s = .next t := h
      refine ⟨execRebuild_check hrun, exec_frame h, ?_, ?_⟩
      · rintro rfl a ha
        exact execRestore_read hrun ha
      · rintro rfl a ha
        exact execPromote_read hrun ha
  case writeChunk =>
    have hw : WriteChunkRuns s p b k := writeChunkRuns hinv hi hp hc hs hk hon
    have hlen := length_otherData_eq hk
    obtain ⟨y, hy⟩ : ∃ y, (chunkUpdate s p b k)[j]? = some y :=
      ⟨_, List.getElem?_eq_getElem (show j < (chunkUpdate s p b k).length from hj)⟩
    obtain ⟨t, hrun, ht, hdrives⟩ := stripeRun_of_write_err hw.reads hc hw.update hw.writes hy (by rwa [hlen])
      (by rwa [hlen])
    have hdrop : (otherData s k).length + j + 1 = s.ndata + j := by omega
    rw [hdrop] at ht
    dsimp only
    have hwrites := chunkUpdate_drives hw
    refine ⟨t, hw.run.trans hrun, ht, fun i q v hiv => ?_, fun a ha => ?_⟩
    · obtain ⟨x, hx, hxq⟩ : ∃ x, (chunkUpdate s p b k)[i]? = some x
          ∧ (s.serveAt (s.domainOf p.toNat) x.1, x.2) = (q, v) := by
        rw [← Option.map_eq_some_iff, ← List.getElem?_map, hwrites]
        exact hiv
      obtain ⟨rfl, rfl⟩ := Prod.mk.inj hxq
      rw [State.driveChunk, hdrives]
      exact chunkIn_of_write_err hw.chunkMax hw.distinct hy hx
    · rw [hdrives]
      refine read_of_write_err hy fun x hx => ha (s.serveAt (s.domainOf p.toNat) x.1, x.2) ?_
      have := List.mem_map_of_mem (f := fun y => (s.serveAt (s.domainOf p.toNat) y.1, y.2)) hx
      rwa [hwrites] at this
  case encodeStripe =>
    have hw := encodeStripeRuns hinv hi hD hc hon
    have hng := hw.layoutNg
    have hy := stripeParities_getElem? (L := s.layout) (s.slotChunk D.toNat s.opArg0) (i := j) (by omega)
    obtain ⟨t, hrun, ht, hdrives⟩ := stripeRun_of_write_err hw.reads hc hw.update hw.writes hy
      (by rwa [List.length_range]) (by rwa [List.length_range])
    rw [List.length_range] at ht
    dsimp only
    refine ⟨t, hw.run.trans hrun, ht, fun i hi' => ?_, fun a ha => ?_⟩
    · rw [State.driveChunk, hdrives, ← hng]
      have hx := stripeParities_getElem? (L := s.layout) (s.slotChunk D.toNat s.opArg0) (i := i) (by omega)
      have key := chunkIn_of_write_err (m := s.drives) (junk := junk) hw.chunkMax hw.distinct hy hx
      have hslot : s.ndata + i = s.layout.lpSlot i := rfl
      rw [hslot]
      rw [key]
      unfold parityOf
      rfl
    · have hout : ∀ x ∈ s.layout.stripeParities (s.slotChunk D.toNat s.opArg0),
          ¬inChunk (s.serveAt D.toNat x.1) s.opArg0 a := by
        intro x hx
        obtain ⟨i, hi', rfl⟩ := mem_stripeParities.1 hx
        exact ha i (by omega)
      have hread := read_of_write_err (m := s.drives) (junk := junk) hy hout
      rw [hdrives]
      exact hread

end Sys2Proof.Proofs
end

section
/-! PROOFS. Which commands write which registers (10_state.md R36 to R47, 44_integrity_rebuild.md R316,
70_reset_and_hazards.md R386). -/

namespace Sys2Proof.Proofs

open Sys2Proof.Machine

section Registers

variable {i : Instr} {s t : State}

/-- No command writes what the host writes. -/
theorem exec_hostRegisters (h : exec i s = .next t) :
    t.cmd = s.cmd ∧ t.arg0 = s.arg0 ∧ t.arg1 = s.arg1 ∧ t.irqEn = s.irqEn ∧ t.overrun = s.overrun
      ∧ t.targets = s.targets ∧ t.cfg = s.cfg ∧ t.inputs = s.inputs ∧ t.readData = s.readData := by
  have hw : (written i s t).cmd = s.cmd ∧ (written i s t).arg0 = s.arg0 ∧ (written i s t).arg1 = s.arg1
      ∧ (written i s t).irqEn = s.irqEn ∧ (written i s t).overrun = s.overrun ∧ (written i s t).targets = s.targets
      ∧ (written i s t).cfg = s.cfg ∧ (written i s t).inputs = s.inputs ∧ (written i s t).readData = s.readData := by
    cases i <;> exact ⟨rfl, rfl, rfl, rfl, rfl, rfl, rfl, rfl, rfl⟩
  rw [exec_frame h]
  exact hw

/-- PEEK_DATA changes only at a PEEK that succeeds. -/
theorem exec_peekData (h : exec i s = .next t) (hne : t.peekData ≠ s.peekData) : (∃ p, i = .peek p) ∧ t.err = .none := by
  cases i with
  | peek p =>
    obtain ⟨u, hu, ⟨e, -, rfl⟩ | ⟨x, rfl⟩⟩ := execPeek_readsOnly h
    · rw [hu] at hne
      exact absurd rfl hne
    · exact ⟨⟨p, rfl⟩, rfl⟩
  | _ => exact absurd (congrArg State.peekData (exec_frame h)) hne

/-- A query that changes a result register succeeds. -/
theorem err_of_checks {u : State} (h : (∃ e, e ≠ .none ∧ t = finish e s) ∨ t = finish .none u)
    (hne : t.qres0 ≠ s.qres0 ∨ t.qres1 ≠ s.qres1) : t.err = .none := by
  rcases h with ⟨e, -, rfl⟩ | rfl
  · exact (hne.elim (absurd rfl) (absurd rfl))
  · rfl

theorem exec_qres (h : exec i s = .next t) (hne : t.qres0 ≠ s.qres0 ∨ t.qres1 ≠ s.qres1) :
    ((∃ p, i = .queryDrive p) ∨ (∃ G, i = .queryGroup G) ∨ ∃ D, i = .querySlot D) ∧ t.err = .none := by
  cases i with
  | queryDrive p => exact ⟨.inl ⟨p, rfl⟩, err_of_checks ((execQueryDrive_next h).imp_right fun h => h.2.2) hne⟩
  | queryGroup G => exact ⟨.inr (.inl ⟨G, rfl⟩), err_of_checks ((execQueryGroup_next h).imp_right fun h => h.2.2) hne⟩
  | querySlot D => exact ⟨.inr (.inr ⟨D, rfl⟩), err_of_checks ((execQuerySlot_next h).imp_right fun h => h.2.2) hne⟩
  | _ =>
    rcases hne with hne | hne
    · exact absurd (congrArg State.qres0 (exec_frame h)) hne
    · exact absurd (congrArg State.qres1 (exec_frame h)) hne

theorem exec_reportCount (h : exec i s = .next t) (hne : t.reportCount ≠ s.reportCount) :
    i = .init ∨ i = .reset ∨ ∃ st, i = .rebuild st := by
  cases i with
  | init => exact .inl rfl
  | reset => exact .inr (.inl rfl)
  | rebuild st => exact .inr (.inr ⟨st, rfl⟩)
  | _ => exact absurd (congrArg State.reportCount (exec_frame h)) hne

theorem exec_topo (h : exec i s = .next t)
    (hne : t.topo ≠ s.topo ∨ t.derived ≠ s.derived ∨ t.initialized ≠ s.initialized) : i = .init ∨ i = .reset := by
  cases i with
  | init => exact .inl rfl
  | reset => exact .inr rfl
  | _ =>
    rcases hne with hne | hne | hne
    · exact absurd (congrArg State.topo (exec_frame h)) hne
    · exact absurd (congrArg State.derived (exec_frame h)) hne
    · exact absurd (congrArg State.initialized (exec_frame h)) hne

/-- A RESTORE keeps the assignment, and sets flags of offline targets only (44_integrity_rebuild.md R316). -/
theorem execRestore_keeps (h : execRebuild .restoreInPlace s = .next t) :
    RestoreKeeps s t s.latch.online s.opTargets := by
  rcases execRebuild_run h with ⟨e, -, rfl, -⟩ | ⟨-, -, es, u, hrun, rfl⟩
  · exact ⟨rfl, rfl, rfl, fun _ hp => absurd rfl hp⟩
  · have hu : RestoreKeeps (rebuildStart s) u s.latch.online (s.orderTargets s.opTargets) :=
      restore_keeps hrun fun p hp => ((mem_opTargets s p).1 ((mem_orderTargets _ _ _).1 hp)).1
    refine ⟨hu.chunks, hu.serve, hu.pstate, fun p hp => ?_⟩
    obtain ⟨hmem, hoff, hon⟩ := hu.online p hp
    exact ⟨(mem_orderTargets _ _ _).1 hmem, hoff, hon⟩

/-- A PROMOTE keeps the flags. -/
theorem execPromote_online (h : execRebuild .promoteSpare s = .next t) : t.online = s.online := by
  rcases execRebuild_run h with ⟨e, -, rfl, -⟩ | ⟨-, -, es, u, hrun, rfl⟩
  · rfl
  · have hu : PromoteKeeps (rebuildStart s) u :=
      rebuildTargets_induct (PromoteKeeps (rebuildStart s)) hrun ⟨rfl, rfl, fun _ hq => hq⟩
        (fun _ _ _ _ _ hv hone => hv.rebuildOne hone) fun _ _ _ hv => ⟨hv.chunks, hv.online, hv.free⟩
    exact hu.online

theorem exec_assignment (h : exec i s = .next t) (hne : t.serve ≠ s.serve ∨ t.pstate ≠ s.pstate) :
    i = .init ∨ i = .reset ∨ i = .rebuild .promoteSpare := by
  cases i with
  | init => exact .inl rfl
  | reset => exact .inr (.inl rfl)
  | rebuild st =>
    cases st with
    | promoteSpare => exact .inr (.inr rfl)
    | restoreInPlace =>
      have hkeep := execRestore_keeps h
      exact hne.elim (absurd hkeep.serve) (absurd hkeep.pstate)
  | _ =>
    rcases hne with hne | hne
    · exact absurd (congrArg State.serve (exec_frame h)) hne
    · exact absurd (congrArg State.pstate (exec_frame h)) hne

theorem exec_classRegs (h : exec i s = .next t)
    (hne : t.classGrp ≠ s.classGrp ∨ t.classDom ≠ s.classDom ∨ t.classRollup ≠ s.classRollup) :
    i = .init ∨ i = .reset ∨ i = .classify := by
  cases i with
  | init => exact .inl rfl
  | reset => exact .inr (.inl rfl)
  | classify => exact .inr (.inr rfl)
  | _ =>
    rcases hne with hne | hne | hne
    · exact absurd (congrArg State.classGrp (exec_frame h)) hne
    · exact absurd (congrArg State.classDom (exec_frame h)) hne
    · exact absurd (congrArg State.classRollup (exec_frame h)) hne

theorem exec_bufs (h : exec i s = .next t) (hne : t.bufs ≠ s.bufs) :
    (∃ p b, i = .readChunk p b) ∨ (∃ p b, i = .decodeChunk p b) ∨ ∃ b, i = .recombine b := by
  cases i with
  | readChunk p b => exact .inl ⟨p, b, rfl⟩
  | decodeChunk p b => exact .inr (.inl ⟨p, b, rfl⟩)
  | recombine b => exact .inr (.inr ⟨b, rfl⟩)
  | _ => exact absurd (congrArg State.bufs (exec_frame h)) hne

theorem exec_report (h : exec i s = .next t) (hne : t.report ≠ s.report) : ∃ st, i = .rebuild st := by
  cases i with
  | rebuild st => exact ⟨st, rfl⟩
  | _ => exact absurd (congrArg State.report (exec_frame h)) hne

theorem exec_drives (h : exec i s = .next t) (hne : t.drives ≠ s.drives) :
    (∃ p b, i = .writeChunk p b) ∨ (∃ D, i = .encodeStripe D) ∨ ∃ st, i = .rebuild st := by
  cases i with
  | writeChunk p b => exact .inl ⟨p, b, rfl⟩
  | encodeStripe D => exact .inr (.inl ⟨D, rfl⟩)
  | rebuild st => exact .inr (.inr ⟨st, rfl⟩)
  | _ => exact absurd (congrArg State.drives (exec_frame h)) hne

/-- The flag that SET_ONLINE_DRIVE changes is its drive's. -/
theorem execSetOnlineDrive_flag {q : BitVec 16} {v : Bool} {p : Nat} (h : execSetOnlineDrive q v s = .next t)
    (hne : flagAt t.online p ≠ flagAt s.online p) : q = BitVec.ofNat 16 p := by
  rcases execSetOnlineDrive_next h with ⟨e, -, rfl⟩ | ⟨-, -, rfl⟩
  · exact absurd rfl hne
  · by_cases hp : p = q.toNat
    · rw [hp, BitVec.ofNat_toNat, BitVec.setWidth_eq]
    · exact absurd (flagAt_setFlag_of_ne s.online q.toNat p v hp) hne

/-- The flags that SET_ONLINE_DOMAIN changes are its drives'. -/
theorem execSetOnlineDomain_flag {D : BitVec 16} {v : Bool} {p : Nat} (h : execSetOnlineDomain D v s = .next t)
    (hne : flagAt t.online p ≠ flagAt s.online p) : D.toNat * s.dpd ≤ p ∧ p < D.toNat * s.dpd + s.dpd := by
  rcases execSetOnlineDomain_next h with ⟨e, -, rfl⟩ | ⟨-, -, rfl⟩
  · exact absurd rfl hne
  · by_contra hout
    refine hne ?_
    by_cases hp : p < 512
    · exact (flagAt_setFlags s.online _ _ _ p hp).trans (if_neg hout)
    · exact (flagAt_of_ge _ p (Nat.le_of_not_lt hp)).trans (flagAt_of_ge _ p (Nat.le_of_not_lt hp)).symm

theorem exec_online (h : exec i s = .next t) {p : Nat} (hne : flagAt t.online p ≠ flagAt s.online p) :
    i = .init ∨ i = .reset ∨ (∃ v, i = .setOnlineDrive (BitVec.ofNat 16 p) v)
      ∨ (∃ D v, i = .setOnlineDomain D v ∧ D.toNat * s.dpd ≤ p ∧ p < D.toNat * s.dpd + s.dpd)
      ∨ (i = .rebuild .restoreInPlace ∧ p ∈ s.opTargets ∧ flagAt s.latch.online p = false
          ∧ flagAt t.online p = true) := by
  cases i with
  | init => exact .inl rfl
  | reset => exact .inr (.inl rfl)
  | setOnlineDrive q v =>
    rw [execSetOnlineDrive_flag h hne]
    exact .inr (.inr (.inl ⟨v, rfl⟩))
  | setOnlineDomain D v => exact .inr (.inr (.inr (.inl ⟨D, v, rfl, execSetOnlineDomain_flag h hne⟩)))
  | rebuild st =>
    cases st with
    | restoreInPlace =>
      have hkeep := execRestore_keeps h
      exact .inr (.inr (.inr (.inr ⟨rfl, hkeep.online p hne⟩)))
    | promoteSpare =>
      have hkeep := execPromote_online h
      exact absurd (by rw [hkeep]) hne
  | _ => exact absurd (congrArg (fun u => flagAt (State.online u) p) (exec_frame h)) hne

/-- Settles O17, register by register. -/
theorem registersWrittenOnlyByTheirCommands : Obligations.RegistersWrittenOnlyByTheirCommands := fun _ _ _ h =>
  ⟨exec_hostRegisters h, exec_peekData h, exec_qres h, exec_reportCount h, exec_topo h, exec_assignment h,
    exec_classRegs h, exec_bufs h, exec_report h, exec_drives h, fun _ hne => exec_online h hne⟩

end Registers

end Sys2Proof.Proofs
end

section
/-! PROOFS. The order of a REBUILD's targets and the words of its report entries (44_integrity_rebuild.md R312, R318). -/

namespace Sys2Proof.Proofs

open Sys2Proof.Machine

/-! ### Target order (44_integrity_rebuild.md R312) -/

section Order

variable {s : State} {p q : Nat}

/-- A target's key as a list. -/
def keyList (a : TargetKey) : List Nat := [a.domain, a.group, a.kind, a.slot]

theorem before_iff (a b : TargetKey) : a.before b = true ↔ keyList a < keyList b := by
  simp only [TargetKey.before, keyList, List.cons_lt_cons_iff, List.not_lt_nil, and_false, or_false, Bool.or_eq_true,
    Bool.and_eq_true, decide_eq_true_eq, beq_iff_eq]

/-- R312's key is the model's. -/
theorem orderKey_eq (hb : s.Bounds) (p : Nat) : s.orderKey p = keyList (s.targetKey p) := by
  unfold State.orderKey State.targetKey
  cases hs : s.slotOf p with
  | none => rfl
  | some k =>
    have hgp := hb.gpSlot_eq
    dsimp only
    rcases s.layout.served_cases k (slotOf_some hs).1 with hk | ⟨g, hg, rfl⟩ | rfl
    · rw [s.layout.kindOf_data k hk]
      exact if_pos hk
    · have hng := hb.ngLayout
      have h1 : ¬s.layout.lpSlot g < s.ndata := Nat.not_lt.2 (Nat.le_add_right _ _)
      have h2 : s.layout.lpSlot g < s.ndata + s.ng := Nat.add_lt_add_left (hng ▸ hg) _
      have h3 : s.layout.lpSlot g - s.ndata = g := Nat.add_sub_cancel_left _ _
      rw [s.layout.kindOf_lp g hg, if_neg h1, if_pos h2, h3]
      rfl
    · rw [s.layout.kindOf_gp, if_neg (by omega), if_neg (by omega)]
      rfl

/-- The key of a target that serves a slot. -/
theorem orderKey_of_slot {k : Nat} (hb : s.Bounds) (h : s.slotOf p = some k) :
    ∃ g x, g ≤ s.ng ∧ s.orderKey p = [s.domainOf p, g, x, k] := by
  rw [State.orderKey, h]
  dsimp only
  split
  · next hk =>
    have hg := (s.layout.groupOf_spec k hk).1
    exact ⟨_, _, Nat.le_of_lt (hb.ngLayout ▸ hg), rfl⟩
  · split
    · exact ⟨_, _, by omega, rfl⟩
    · exact ⟨_, _, Nat.le_refl _, rfl⟩

/-- Different targets have different keys. -/
theorem orderKey_injective (hb : s.Bounds) (h : s.orderKey p = s.orderKey q) : p = q := by
  have hfree : ∀ r, s.slotOf r = none → s.orderKey r = [s.domainOf r, s.ng + 1, 0, r % s.dpd] := by
    intro r hr
    rw [State.orderKey, hr]
    rfl
  cases hp : s.slotOf p with
  | none =>
    cases hq : s.slotOf q with
    | none =>
      rw [hfree p hp, hfree q hq] at h
      simp only [List.cons.injEq, and_true, true_and] at h
      obtain ⟨hD, hm⟩ := h
      rw [← Nat.div_add_mod' p s.dpd, ← Nat.div_add_mod' q s.dpd, hm]
      exact congrArg (fun D => D * s.dpd + q % s.dpd) hD
    | some k =>
      obtain ⟨g, x, hg, hkey⟩ := orderKey_of_slot hb hq
      rw [hfree p hp, hkey] at h
      simp only [List.cons.injEq] at h
      omega
  | some k =>
    obtain ⟨g, x, hg, hkey⟩ := orderKey_of_slot hb hp
    cases hq : s.slotOf q with
    | none =>
      rw [hfree q hq, hkey] at h
      simp only [List.cons.injEq] at h
      omega
    | some j =>
      obtain ⟨g', x', -, hkey'⟩ := orderKey_of_slot hb hq
      rw [hkey, hkey'] at h
      simp only [List.cons.injEq, and_true] at h
      obtain ⟨hD, -, -, rfl⟩ := h
      rw [← (slotOf_some hp).2, ← (slotOf_some hq).2, hD]

theorem insertTarget_perm (s : State) (p : Nat) (l : List Nat) : (s.insertTarget p l).Perm (p :: l) := by
  induction l with
  | nil => exact .refl _
  | cons q l ih =>
    rw [State.insertTarget]
    split
    · exact .refl _
    · exact (ih.cons q).trans (.swap p q l)

theorem orderTargets_perm (s : State) (l : List Nat) : (s.orderTargets l).Perm l := by
  induction l with
  | nil => exact .refl _
  | cons p l ih => exact (insertTarget_perm s p _).trans (ih.cons p)

theorem insertTarget_sorted (hb : s.Bounds) {l : List Nat} (hl : l.Pairwise fun a b => s.orderKey a < s.orderKey b)
    (hp : p ∉ l) : (s.insertTarget p l).Pairwise fun a b => s.orderKey a < s.orderKey b := by
  induction l with
  | nil => exact List.pairwise_singleton _ _
  | cons q l ih =>
    obtain ⟨hq, hrest⟩ := List.pairwise_cons.1 hl
    rw [State.insertTarget]
    split
    · next hbefore =>
      rw [before_iff, ← orderKey_eq hb, ← orderKey_eq hb] at hbefore
      refine List.pairwise_cons.2 ⟨fun r hr => ?_, hl⟩
      rcases List.mem_cons.1 hr with rfl | hr
      · exact hbefore
      · exact lt_trans hbefore (hq r hr)
    · next hafter =>
      rw [before_iff, ← orderKey_eq hb, ← orderKey_eq hb] at hafter
      have hne : s.orderKey q ≠ s.orderKey p := fun h => hp (orderKey_injective hb h ▸ List.mem_cons_self)
      refine List.pairwise_cons.2 ⟨fun r hr => ?_, ih hrest fun h => hp (List.mem_cons_of_mem _ h)⟩
      rcases (mem_insertTarget s p r l).1 hr with rfl | hr
      · exact lt_of_le_of_ne (not_lt.1 hafter) hne
      · exact hq r hr

theorem orderTargets_sorted (hb : s.Bounds) {l : List Nat} (hl : l.Nodup) :
    (s.orderTargets l).Pairwise fun a b => s.orderKey a < s.orderKey b := by
  induction l with
  | nil => exact .nil
  | cons p l ih =>
    obtain ⟨hp, hl⟩ := List.nodup_cons.1 hl
    exact insertTarget_sorted hb (ih hl) fun h => hp ((mem_orderTargets s p l).1 h)

theorem opTargets_nodup (s : State) : s.opTargets.Nodup := List.nodup_range.filter _

end Order

/-! ### Report entries (44_integrity_rebuild.md R318) -/

section Report

variable {u v : State} {n : Nat}

theorem setWidth_ofNat_of_lt {x : Nat} (h : x < 2 ^ 16) : (BitVec.ofNat 16 x).setWidth 32 = BitVec.ofNat 32 x := by
  apply BitVec.eq_of_toNat_eq
  rw [BitVec.toNat_setWidth, BitVec.toNat_ofNat, BitVec.toNat_ofNat, Nat.mod_eq_of_lt h]

theorem getLsbD_sourceBitmap (u : State) (D : Nat) (src : List Nat) {i : Nat} (hi : i < 64) :
    (u.sourceBitmap D src).getLsbD i = true ↔ D * u.dpd + i ∈ src.map (u.serveAt D) := by
  rw [State.sourceBitmap, BitVec.getLsbD_ofNat, testBit_packBits _ _ _ hi, decide_eq_true hi, Bool.true_and,
    List.any_eq_true, List.mem_map]
  simp only [beq_iff_eq]

/-- Bit i of the source bitmap stands in word 4 + i/32 of the entry. -/
theorem getLsbD_sourceWords (v : State) (n : Nat) (e : ReportEntry) {i : Nat} (hi : i < 64) :
    ((v.writeReport n e).reportWordAt n (4 + i / 32)).getLsbD (i % 32) = e.sources.getLsbD i := by
  obtain ⟨-, -, -, -, hlow, hhigh, -⟩ := e.words_eq
  have hmod : i % 32 < 32 := Nat.mod_lt _ (by decide)
  rw [reportWordAt_writeReport _ _ _ _ (by omega)]
  by_cases h : i < 32
  · rw [Nat.div_eq_of_lt h, hlow, BitVec.getLsbD_extractLsb', Nat.mod_eq_of_lt h, decide_eq_true h, Bool.true_and,
      Nat.zero_add]
  · have hdiv : i / 32 = 1 := by omega
    have hsum : 32 + i % 32 = i := by omega
    rw [hdiv, hhigh, BitVec.getLsbD_extractLsb', decide_eq_true hmod, Bool.true_and, hsum]

/-- An entry of a target for which nothing was attempted, written into the report. -/
theorem reportEntry_unattempted (v : State) (n : Nat) {p : Nat} (hp : p < 2 ^ 16) (status : ReportStatus)
    (first : Option Nat) {w : Word}
    (hw : (ReportEntry.unattempted p status first).words.extractLsb' (32 * 2) 32 = w) (D : Nat) :
    (v.writeReport n (.unattempted p status first)).reportEntry n p status 0 w 0xFFFF D [] := by
  obtain ⟨h0, h1, -, h3, -, -, h6, h7⟩ := (ReportEntry.unattempted p status first).words_eq
  refine ⟨?_, ?_, ?_, ?_, fun i hi => ?_, ?_, ?_⟩
  · refine (reportWordAt_writeReport _ _ _ _ (by decide)).trans (h0.trans ?_)
    exact congrArg (status.code.setWidth 32 <<< 16 ||| ·) (setWidth_ofNat_of_lt hp)
  · exact (reportWordAt_writeReport _ _ _ _ (by decide)).trans h1
  · exact (reportWordAt_writeReport _ _ _ _ (by decide)).trans hw
  · exact (reportWordAt_writeReport _ _ _ _ (by decide)).trans h3
  · rw [getLsbD_sourceWords v n _ hi]
    simp [ReportEntry.unattempted]
  · exact (reportWordAt_writeReport _ _ _ _ (by decide)).trans h6
  · exact (reportWordAt_writeReport _ _ _ _ (by decide)).trans h7

/-- The entry of a target that was reconstructed onto drive `dest`, from the source slots `src`, written into the
report. -/
theorem reportEntry_attempted (v : State) (n : Nat) {e : ReportEntry} {dest D : Nat} {src : List Nat} {w : Word}
    (hp : e.target < 2 ^ 16) (hd : dest < 2 ^ 16) (hdest : e.dest = some dest)
    (hw : e.words.extractLsb' (32 * 2) 32 = w) (hdpd : v.dpd = u.dpd) (hsrc : e.sources = u.sourceBitmap D src) :
    (v.writeReport n e).reportEntry n e.target e.status (BitVec.ofNat 32 e.count) w (BitVec.ofNat 32 dest) D
      (src.map (u.serveAt D)) := by
  obtain ⟨h0, h1, -, h3, -, -, h6, h7⟩ := e.words_eq
  refine ⟨?_, ?_, ?_, ?_, fun i hi => ?_, ?_, ?_⟩
  · rw [reportWordAt_writeReport _ _ _ _ (by decide), h0, setWidth_ofNat_of_lt hp]
  · exact (reportWordAt_writeReport _ _ _ _ (by decide)).trans h1
  · exact (reportWordAt_writeReport _ _ _ _ (by decide)).trans hw
  · rw [reportWordAt_writeReport _ _ _ _ (by decide), h3, hdest]
    exact setWidth_ofNat_of_lt hd
  · have hdpd' : (v.writeReport n e).dpd = u.dpd := hdpd
    rw [getLsbD_sourceWords v n _ hi, hsrc, getLsbD_sourceBitmap u D src hi, hdpd']
  · exact (reportWordAt_writeReport _ _ _ _ (by decide)).trans h6
  · exact (reportWordAt_writeReport _ _ _ _ (by decide)).trans h7

end Report

end Sys2Proof.Proofs
end

section
/-! PROOFS. What a REBUILD does with one target, from the state at acceptance (44_integrity_rebuild.md R313 to R318). -/

namespace Sys2Proof.Proofs

open Sys2Proof.Machine

/-! ### The states a REBUILD passes through -/

section Reached

variable {s u v : State} {st : Strategy} {p k q : Nat} {e : ReportEntry}

/-- `u` is the state at acceptance `s` but for the fields a REBUILD writes target by target. -/
abbrev RebuildWrites (s u : State) : Prop :=
  u = { rebuildStart s with
    report := u.report, online := u.online, serve := u.serve, pstate := u.pstate, drives := u.drives
    responses := u.responses, traffic := u.traffic }

/-- A REBUILD accepted in `s` may pass through `u`: no online drive has gone offline, and a slot whose drive was online at
acceptance is still served by it. -/
structure Rebuilding (s u : State) : Prop where
  writes : RebuildWrites s u
  topology : TopologyInv u
  online : ∀ q, flagAt s.online q = true → flagAt u.online q = true
  serve : ∀ D m, flagAt s.online (s.serveAt D m) = true → u.serveAt D m = s.serveAt D m

theorem Rebuilding.start (hs : s.Inv) (hi : s.initialized = true) : Rebuilding s (rebuildStart s) where
  writes := rfl
  topology := TopologyInv.congr_initialized ⟨hs.cleared, hs.topology, hs.shape, hs.assignment⟩ hi rfl
    (hs.topology hi).2.2.2
  online := fun _ h => h
  serve := fun _ _ _ => rfl

theorem Rebuilding.topo (hu : Rebuilding s u) : u.topo = s.topo := by rw [hu.writes]; rfl
theorem Rebuilding.initialized (hu : Rebuilding s u) : u.initialized = s.initialized := by rw [hu.writes]; rfl
theorem Rebuilding.total (hu : Rebuilding s u) : u.total = s.total := congrArg (·.total.toNat) hu.topo
theorem Rebuilding.dpd (hu : Rebuilding s u) : u.dpd = s.dpd := congrArg (·.dpd.toNat) hu.topo
theorem Rebuilding.layout (hu : Rebuilding s u) : u.layout = s.layout := congrArg TopoParams.layout hu.topo
theorem Rebuilding.domainOf (hu : Rebuilding s u) (p : Nat) : u.domainOf p = s.domainOf p :=
  congrArg (p / ·) hu.dpd

theorem Rebuilding.writeReport (hu : Rebuilding s u) (n : Nat) (e : ReportEntry) : Rebuilding s (u.writeReport n e) where
  writes := by
    unfold RebuildWrites
    rw [hu.writes]
    rfl
  topology := hu.topology.congr rfl
  online := hu.online
  serve := hu.serve

theorem Rebuilding.of_drivesOnly (hu : Rebuilding s u) (h : DrivesOnly u v) : Rebuilding s v where
  writes := by
    unfold RebuildWrites
    rw [h, hu.writes]
  topology := hu.topology.congr (topologyPart_of_drivesOnly h)
  online := by rw [h.online]; exact hu.online
  serve := fun D m hm => (h.serveAt D m).trans (hu.serve D m hm)

/-- A commit keeps what was online, and takes over a slot of an offline drive only. -/
theorem Rebuilding.commitRebuild (hu : Rebuilding s u) (hi : s.initialized = true) (hp : p < s.total)
    (hk : u.slotOf p = some k) (hoff : flagAt s.online p = false)
    (hq : st = .promoteSpare → Promotes u p k q) : Rebuilding s (u.commitRebuild st p (u.domainOf p) k q) := by
  have hiu : u.initialized = true := hu.initialized.trans hi
  have hpu : p < u.total := hu.total ▸ hp
  cases st with
  | restoreInPlace =>
    refine ⟨?_, restored_inv hiu hu.topology hpu, fun r hr => ?_, hu.serve⟩
    · unfold RebuildWrites
      rw [hu.writes]
      rfl
    · have h512 : p < 512 := Nat.lt_of_lt_of_le hpu (State.bounds hu.topology.topology hiu).totalMax
      refine (flagAt_setFlag u.online p r true h512).trans ?_
      split
      · rfl
      · exact hu.online r hr
  | promoteSpare =>
    have hpr := hq rfl
    refine ⟨?_, promoted_inv hiu hu.topology hpr, hu.online, fun D m hm => ?_⟩
    · unfold RebuildWrites
      rw [hu.writes]
      rfl
    · refine ((promoted_assignment hiu hu.topology hpr).1 D m).trans ?_
      split
      · next h =>
        obtain ⟨rfl, rfl⟩ := h
        have hserve := hu.serve _ _ hm
        rw [(slotOf_some hk).2] at hserve
        rw [← hserve, hoff] at hm
        cases hm
      · exact hu.serve D m hm

theorem Rebuilding.rebuildOne {F : Nat → Nat → Bool} (hu : Rebuilding s u) (hi : s.initialized = true)
    (hp : p < s.total) (h : rebuildOne st s.online F p u = some (e, v)) : Rebuilding s v := by
  obtain ⟨w, hw, rfl | ⟨k, q, hk, hoff, hq, rfl⟩⟩ := rebuildOne_drivesOnly h
  · exact hu.of_drivesOnly hw
  · have hwu := hu.of_drivesOnly hw
    have hD : w.domainOf p = u.domainOf p := (hwu.domainOf p).trans (hu.domainOf p).symm
    rw [← hD]
    refine hwu.commitRebuild hi hp (by rw [hw.slotOf]; exact hk) hoff fun hst => ?_
    subst hst
    exact (promotes_of_freeSpare (hu.total ▸ hp) hk hq hw).1

/-! ### The spare (44_integrity_rebuild.md R314) -/

theorem freeSpare_eq_some_iff (u : State) (D q : Nat) : u.freeSpare D = some q ↔ u.chosenSpare D q := by
  unfold State.freeSpare State.chosenSpare
  rw [List.find?_range'_eq_some]
  simp only [Bool.and_eq_true, beq_iff_eq, List.mem_range'_1, Bool.not_eq_true', ← Bool.not_eq_true]
  tauto

theorem freeSpare_eq_none {D : Nat} (h : ∀ q, ¬u.chosenSpare D q) : u.freeSpare D = none :=
  Option.eq_none_iff_forall_ne_some.2 fun q hq => h q ((freeSpare_eq_some_iff u D q).1 hq)

theorem rebuildDest_of_destinationOf (h : u.destinationOf st p q) : u.rebuildDest st p (u.domainOf p) = some q := by
  cases st with
  | restoreInPlace =>
    have h : q = p := h
    rw [h]
    rfl
  | promoteSpare => exact (freeSpare_eq_some_iff u _ q).2 h

/-! ### One target (44_integrity_rebuild.md R313) -/

section One

variable {on : BitVec 512} {F : Nat → Nat → Bool} {c : Nat}

theorem rebuildOne_of_free (hk : u.slotOf p = none) :
    rebuildOne st on F p u = some (.unattempted p .invalidTarget none, u) := by
  rw [Machine.rebuildOne, hk]

theorem rebuildOne_of_online (hk : u.slotOf p = some k) (hon : flagAt on p = true) :
    rebuildOne st on F p u = some (.unattempted p .skippedOnline none, u) := by
  rw [Machine.rebuildOne, hk]
  exact if_pos hon

theorem rebuildOne_of_loss (hk : u.slotOf p = some k) (hoff : flagAt on p = false)
    (hc : u.layout.sclass (F (u.domainOf p)) k = .dataLoss) :
    rebuildOne st on F p u = some (.unattempted p .unrecoverable (some 0), u) := by
  rw [Machine.rebuildOne, hk]
  exact (if_neg (by simp [hoff])).trans (if_pos hc)

/-- The target is offline and recoverable: what follows depends on its destination. -/
theorem rebuildOne_of_attempt (hk : u.slotOf p = some k) (hoff : flagAt on p = false)
    (hc : u.layout.sclass (F (u.domainOf p)) k ≠ .dataLoss) (hq : u.rebuildDest st p (u.domainOf p) = none) :
    rebuildOne st on F p u = some (.unattempted p .noSpare none, u) := by
  rw [Machine.rebuildOne, hk]
  refine (if_neg (by simp [hoff])).trans ((if_neg hc).trans ?_)
  rw [hq]

theorem rebuildOne_of_stopped (hk : u.slotOf p = some k) (hoff : flagAt on p = false)
    (hc : u.layout.sclass (F (u.domainOf p)) k ≠ .dataLoss) (hq : u.rebuildDest st p (u.domainOf p) = some q)
    (hrun : rebuildChunks (F (u.domainOf p)) (u.domainOf p) k q u.chunks 0 u = .stoppedAt c v) :
    rebuildOne st on F p u =
      some ({ target := p, status := .partialRebuild, count := c, first := some c, dest := some q,
              sources := u.sourceBitmap (u.domainOf p) (u.layout.sources (F (u.domainOf p)) k) }, v) := by
  rw [Machine.rebuildOne, hk]
  refine (if_neg (by simp [hoff])).trans ((if_neg hc).trans ?_)
  rw [hq]
  dsimp only
  rw [hrun]

theorem rebuildOne_of_finished (hk : u.slotOf p = some k) (hoff : flagAt on p = false)
    (hc : u.layout.sclass (F (u.domainOf p)) k ≠ .dataLoss) (hq : u.rebuildDest st p (u.domainOf p) = some q)
    (hrun : rebuildChunks (F (u.domainOf p)) (u.domainOf p) k q u.chunks 0 u = .finished v) :
    rebuildOne st on F p u =
      some ({ target := p, status := successStatus st, count := u.chunks, first := none, dest := some q,
              sources := u.sourceBitmap (u.domainOf p) (u.layout.sources (F (u.domainOf p)) k) },
            v.commitRebuild st p (u.domainOf p) k q) := by
  rw [Machine.rebuildOne, hk]
  refine (if_neg (by simp [hoff])).trans ((if_neg hc).trans ?_)
  rw [hq]
  dsimp only
  rw [hrun]

end One

end Reached

/-! ### A target whose chunks are reconstructed (44_integrity_rebuild.md R315) -/

/-- In the REBUILD accepted in `s`, state `u` is reached, and the chunks of target p, which serves slot k, are
reconstructed onto drive q. -/
structure Attempt (s u : State) (st : Strategy) (p k q : Nat) : Prop where
  initialized : s.initialized = true
  reached : Rebuilding s u
  target : p < s.total
  slot : u.slotOf p = some k
  offline : flagAt s.online p = false
  recoverable : u.layout.sclass (offlineSlots s (u.domainOf p)) k ≠ .dataLoss
  dest : u.rebuildDest st p (u.domainOf p) = some q

section Attempts

variable {s u v : State} {st : Strategy} {p k q : Nat} {e : ReportEntry}

theorem Attempt.bounds (h : Attempt s u st p k q) : u.Bounds :=
  State.bounds h.reached.topology.topology (h.reached.initialized.trans h.initialized)

theorem Attempt.target_lt (h : Attempt s u st p k q) : p < u.total := h.reached.total ▸ h.target

/-- The slot was in the failure set at acceptance. -/
theorem Attempt.failed (h : Attempt s u st p k q) : offlineSlots s (u.domainOf p) k = true := by
  unfold offlineSlots
  cases hon : flagAt s.online (s.serveAt (u.domainOf p) k) with
  | false => rfl
  | true =>
    have hserve := h.reached.serve _ _ hon
    rw [(slotOf_some h.slot).2] at hserve
    rw [← hserve, h.offline] at hon
    cases hon

/-- A source's drive exists, was online at acceptance, and is not the destination. -/
theorem Attempt.source (h : Attempt s u st p k q) {m : Nat}
    (hm : m ∈ u.layout.sources (offlineSlots s (u.domainOf p)) k) :
    u.serveAt (u.domainOf p) m < u.total ∧ u.serveAt (u.domainOf p) m ≠ q
      ∧ flagAt s.online (u.serveAt (u.domainOf p) m) = true := by
  have hi : u.initialized = true := h.reached.initialized.trans h.initialized
  have hD := h.bounds.domainOf_lt h.target_lt
  have hassign := h.reached.topology.assignment
  obtain ⟨hserved, hmem⟩ := (u.layout.mem_sources _ _ _).1 hm
  have hoff : offlineSlots s (u.domainOf p) m = false :=
    (sourceMembers_online (slotOf_some h.slot).1 h.failed h.recoverable m hmem).1
  have hon : flagAt s.online (s.serveAt (u.domainOf p) m) = true := by
    unfold offlineSlots at hoff
    simpa using hoff
  have honline : flagAt s.online (u.serveAt (u.domainOf p) m) = true := by
    rw [h.reached.serve _ _ hon]
    exact hon
  refine ⟨hassign.serveAt_lt hi hD hserved, fun heq => ?_, honline⟩
  have hdest := h.dest
  cases st with
  | restoreInPlace =>
    rw [heq, ← Option.some.inj hdest, h.offline] at honline
    cases honline
  | promoteSpare => exact hassign.serveAt_ne_spare hi hD hserved (freeSpare_some hdest).2.2.1 heq

/-- The destination exists. -/
theorem Attempt.dest_lt (h : Attempt s u st p k q) : q < u.total := by
  have hdest := h.dest
  cases st with
  | restoreInPlace =>
    rw [← Option.some.inj hdest]
    exact h.target_lt
  | promoteSpare =>
    obtain ⟨hlo, hhi, -⟩ := freeSpare_some hdest
    exact (h.bounds.drive_of_domain (h.bounds.domainOf_lt h.target_lt) hlo hhi).1

theorem Attempt.not_absent (h : Attempt s u st p k q) :
    rebuildChunks (offlineSlots s (u.domainOf p)) (u.domainOf p) k q u.chunks 0 u ≠ .absent :=
  rebuildChunks_not_absent _ _ _ _ _ _ _ (fun _ hm => (h.source hm).1) h.dest_lt (by omega)

/-- The content is made from the sources that were read. -/
theorem Attempt.content (h : Attempt s u st p k q) (c : Nat) :
    u.layout.content (offlineSlots s (u.domainOf p))
        (chunkOfSlot (readAll u (u.domainOf p) c (u.layout.sources (offlineSlots s (u.domainOf p)) k))) k
      = u.layout.content (offlineSlots s (u.domainOf p)) (u.slotChunk (u.domainOf p) c) k :=
  content_congr (slotOf_some h.slot).1 h.failed h.recoverable fun t ht => chunkOfSlot_readAll u _ c _ t ht

/-- What a commit does (44_integrity_rebuild.md R316, R317). -/
theorem Attempt.commits (h : Attempt s u st p k q) (hv : DrivesOnly u v) :
    u.commits (v.commitRebuild st p (u.domainOf p) k q) st p k q := by
  have hdest := h.dest
  cases st with
  | restoreInPlace =>
    have h512 : p < 512 := Nat.lt_of_lt_of_le h.target_lt h.bounds.totalMax
    refine ⟨hv.serve, hv.pstate, flagAt_setFlag_self _ _ _ h512, fun r hr => ?_⟩
    refine (flagAt_setFlag_of_ne v.online p r true hr).trans ?_
    rw [hv.online]
  | promoteSpare =>
    have hi : u.initialized = true := h.reached.initialized.trans h.initialized
    have hvi : v.initialized = true := by rw [hv]; exact hi
    obtain ⟨hpr, hD⟩ := promotes_of_freeSpare h.target_lt h.slot hdest hv
    obtain ⟨hserve, hstate⟩ := promoted_assignment hvi (h.reached.of_drivesOnly hv).topology hpr
    obtain ⟨hk, hpk⟩ := slotOf_some h.slot
    have hne : p ≠ q := fun heq => h.reached.topology.assignment.serveAt_ne_spare hi
      (h.bounds.domainOf_lt h.target_lt) hk (freeSpare_some hdest).2.2.1 (hpk.trans heq)
    unfold promoted at hserve hstate
    rw [hD] at hserve hstate
    refine ⟨hv.online, fun E j _ _ => (hserve E j).trans ?_, fun r _ => (hstate r).trans ?_⟩
    · rw [hv.serveAt]
      rfl
    · rw [hv.pstateAt]
      by_cases hrp : r = p
      · rw [if_pos hrp, if_pos hrp, if_neg (hrp ▸ hne)]
      · rw [if_neg hrp, if_neg hrp]

end Attempts

end Sys2Proof.Proofs
end

section
/-! PROOFS. REBUILD: each target's outcome, the run over all of them, and runs of one target (44_integrity_rebuild.md R311
to R318). -/

namespace Sys2Proof.Proofs

open Sys2Proof.Machine

/-! ### The outcome of a reconstruction (44_integrity_rebuild.md R315) -/

section Attempts

variable {s u v : State} {st : Strategy} {p k q n : Nat} {e : ReportEntry}

/-- A drive run changes drive bytes, answers and traffic. -/
theorem exists_of_drivesOnly (h : DrivesOnly u v) :
    ∃ dr rs tr, v = { u with drives := dr, responses := rs, traffic := tr } := ⟨_, _, _, h⟩

/-- All accesses answered ok: everything is written, and the commit follows. -/
theorem Attempt.succeeds (h : Attempt s u st p k q) (hone : rebuildOne st s.online (offlineSlots s) p u = some (e, v))
    (hr : ∀ r ∈ u.responses.take
      (u.chunks * ((u.layout.sources (offlineSlots s (u.domainOf p)) k).length + 1)), r = .ok) :
    ∃ w, DrivesOnly u w ∧ v = w.commitRebuild st p (u.domainOf p) k q
      ∧ e = { target := p, status := successStatus st, count := u.chunks, first := none, dest := some q,
              sources := u.sourceBitmap (u.domainOf p) (u.layout.sources (offlineSlots s (u.domainOf p)) k) }
      ∧ w.responses = u.responses.drop
          (u.chunks * ((u.layout.sources (offlineSlots s (u.domainOf p)) k).length + 1))
      ∧ (∀ c, c < u.chunks → w.driveChunk q c =
          u.layout.content (offlineSlots s (u.domainOf p)) (u.slotChunk (u.domainOf p) c) k)
      ∧ ∀ a, ¬inFirstChunks q u.chunks a → w.drives.read a = u.drives.read a := by
  obtain ⟨w, hrun, hdo, hresp, hchunks, hout⟩ := rebuildChunks_of_ok (offlineSlots s (u.domainOf p)) (u.domainOf p) k q
    u.chunks 0 u hr (fun m hm => ⟨(h.source hm).1, (h.source hm).2.1⟩) h.dest_lt (Nat.le_of_eq (Nat.zero_add _))
    h.bounds.chunksMax
  have hev := hone.symm.trans (rebuildOne_of_finished h.slot h.offline h.recoverable h.dest hrun)
  obtain ⟨rfl, rfl⟩ := Prod.mk.inj (Option.some.inj hev)
  refine ⟨w, hdo, rfl, rfl, hresp, fun c hc => ?_, fun a ha => hout a ?_⟩
  · exact (hchunks c (Nat.zero_le _) (by omega)).trans (h.content c)
  · rwa [Nat.zero_mul, Nat.zero_add]

/-- Access j the first that is answered with an error: the run stops at its chunk, and nothing is committed. -/
theorem Attempt.stops (h : Attempt s u st p k q) (hone : rebuildOne st s.online (offlineSlots s) p u = some (e, v))
    {per j : Nat} {junk : Chunk} (hper : per = (u.layout.sources (offlineSlots s (u.domainOf p)) k).length + 1)
    (hj : j < u.chunks * per) (hr : ∀ r ∈ u.responses.take j, r = .ok) (he : u.responses[j]? = some (.err junk)) :
    DrivesOnly u v
      ∧ e = { target := p, status := .partialRebuild, count := j / per, first := some (j / per), dest := some q,
              sources := u.sourceBitmap (u.domainOf p) (u.layout.sources (offlineSlots s (u.domainOf p)) k) }
      ∧ v.responses = u.responses.drop (j + 1)
      ∧ (∀ c, c < j / per → v.driveChunk q c =
          u.layout.content (offlineSlots s (u.domainOf p)) (u.slotChunk (u.domainOf p) c) k)
      ∧ v.driveChunk q (j / per) = (if j % per = per - 1 then junk else u.driveChunk q (j / per))
      ∧ ∀ a, ¬inFirstChunks q (j / per + 1) a → v.drives.read a = u.drives.read a := by
  subst hper
  obtain ⟨w, hrun, hdo, hresp, hchunks, hfail, hout⟩ := rebuildChunks_of_err (offlineSlots s (u.domainOf p))
    (u.domainOf p) k q u.chunks 0 u j junk hj hr he (fun m hm => ⟨(h.source hm).1, (h.source hm).2.1⟩) h.dest_lt
    (Nat.le_of_eq (Nat.zero_add _)) h.bounds.chunksMax
  rw [Nat.zero_add] at hrun hchunks hfail hout
  have hev := hone.symm.trans (rebuildOne_of_stopped h.slot h.offline h.recoverable h.dest hrun)
  obtain ⟨rfl, rfl⟩ := Prod.mk.inj (Option.some.inj hev)
  refine ⟨hdo, rfl, hresp, fun c hc => ?_, hfail, fun a ha => hout a ?_⟩
  · exact (hchunks c (Nat.zero_le _) hc).trans (h.content c)
  · rwa [Nat.zero_mul]

/-- Numbers of drives fit the report's fields. -/
theorem Attempt.lt_report (h : Attempt s u st p k q) : p < 2 ^ 16 ∧ q < 2 ^ 16 := by
  have h1 := h.target_lt
  have h2 := h.dest_lt
  have h3 := h.bounds.totalMax
  omega

theorem Attempt.reconstructs (h : Attempt s u st p k q)
    (hone : rebuildOne st s.online (offlineSlots s) p u = some (e, v)) :
    u.reconstructs (v.writeReport n e) st n p k q e.status (offlineSlots s (u.domainOf p)) := by
  obtain ⟨hp16, hq16⟩ := h.lt_report
  refine ⟨fun hr => ?ok, fun j junk hj hr he => ?err⟩
  case ok =>
    obtain ⟨w, hdo, rfl, rfl, hresp, hchunks, hout⟩ := h.succeeds hone hr
    have hcommits := h.commits hdo
    have hdpd : (w.commitRebuild st p (u.domainOf p) k q).dpd = u.dpd := by
      rw [← hdo.dpd]
      cases st <;> rfl
    have hdrives : (w.commitRebuild st p (u.domainOf p) k q).drives = w.drives := by cases st <;> rfl
    have hentry := reportEntry_attempted (u := u) (w.commitRebuild st p (u.domainOf p) k q) n
      (e := { target := p, status := successStatus st, count := u.chunks, first := none, dest := some q,
              sources := u.sourceBitmap (u.domainOf p) (u.layout.sources (offlineSlots s (u.domainOf p)) k) })
      hp16 hq16 rfl (ReportEntry.words_eq _).2.2.1 hdpd rfl
    refine ⟨rfl, ?_, ?_, fun c hc => ?_, fun a ha => ?_, ?_⟩
    · rw [← hresp]
      obtain ⟨dr, rs, tr, rfl⟩ := exists_of_drivesOnly hdo
      cases st <;> rfl
    · cases st <;> exact hcommits
    · refine Eq.trans ?_ (hchunks c hc)
      exact congrArg (fun m => chunkIn m q c) hdrives
    · refine Eq.trans ?_ (hout a ha)
      exact congrArg (Memory.read · a) hdrives
    · have hcount : BitVec.ofNat 32 u.chunks = u.topo.chunks := (BitVec.ofNat_toNat 32 _).trans (BitVec.setWidth_eq _)
      rw [← hcount]
      exact hentry
  case err =>
    obtain ⟨hdo, rfl, hresp, hchunks, hfail, hout⟩ := h.stops hone rfl hj hr he
    have hentry := reportEntry_attempted (u := u) v n
      (e := { target := p, status := .partialRebuild
              count := j / ((u.layout.sources (offlineSlots s (u.domainOf p)) k).length + 1)
              first := some (j / ((u.layout.sources (offlineSlots s (u.domainOf p)) k).length + 1)), dest := some q
              sources := u.sourceBitmap (u.domainOf p) (u.layout.sources (offlineSlots s (u.domainOf p)) k) })
      hp16 hq16 rfl (ReportEntry.words_eq _).2.2.1 hdo.dpd rfl
    refine ⟨rfl, ?_, hchunks, hfail, hout, hentry⟩
    rw [← hresp]
    obtain ⟨dr, rs, tr, rfl⟩ := exists_of_drivesOnly hdo
    rfl

/-- What `rebuild_one` does with a target, and its report entry. -/
theorem Rebuilding.rebuildsTarget (hu : Rebuilding s u) (hi : s.initialized = true) (hp : p < s.total)
    (hone : Machine.rebuildOne st s.online (offlineSlots s) p u = some (e, v)) :
    s.rebuildsTarget u (v.writeReport n e) st n p e.status := by
  have hp16 : p < 2 ^ 16 := by
    have hmax := (State.bounds hu.topology.topology (hu.initialized.trans hi)).totalMax
    have htotal := hu.total
    omega
  have hdpd := hu.dpd
  have hD : p / s.dpd = u.domainOf p := (hu.domainOf p).symm
  have hunattempted : ∀ {status} (first : Option Nat) {w : Word},
      w = (match first with | some c => BitVec.ofNat 32 c | none => 0xFFFFFFFF) →
      Machine.rebuildOne st s.online (offlineSlots s) p u = some (.unattempted p status first, u) →
      e.status = status ∧ u.onlyReported (v.writeReport n e) n p e.status w := by
    intro status first w hw heq
    obtain ⟨rfl, rfl⟩ := Prod.mk.inj (Option.some.inj (hone.symm.trans heq))
    have hword := (ReportEntry.unattempted p status first).words_eq.2.2.1
    exact ⟨rfl, rfl, reportEntry_unattempted v n hp16 status first (hword.trans hw.symm) _⟩
  refine ⟨fun a ha => ?report, fun hk => ?free, fun k hk => ⟨fun hon => ?online, fun hoff hc => ?loss,
    fun hoff hc hst hspare => ?noSpare, fun dest hoff hc hdest => ?attempt⟩⟩
  case report =>
    refine (read_writeReport_of_outside v n e a ha).trans ?_
    obtain ⟨w, hw, rfl | ⟨k, q, -, -, -, rfl⟩⟩ := rebuildOne_drivesOnly hone
    · rw [hw]
    · rw [hw]
      cases st <;> rfl
  case free => exact hunattempted none rfl (rebuildOne_of_free hk)
  case online => exact hunattempted none rfl (rebuildOne_of_online hk hon)
  case loss =>
    rw [hD, ← hu.layout] at hc
    exact hunattempted (some 0) rfl (rebuildOne_of_loss (F := offlineSlots s) hk hoff hc)
  case noSpare =>
    rw [hD, ← hu.layout] at hc
    rw [hD] at hspare
    subst hst
    exact hunattempted none rfl
      (rebuildOne_of_attempt (F := offlineSlots s) hk hoff hc (freeSpare_eq_none hspare))
  case attempt =>
    rw [hD, ← hu.layout] at hc
    rw [hD]
    have hattempt : Attempt s u st p k dest := ⟨hi, hu, hp, hk, hoff, hc, rebuildDest_of_destinationOf hdest⟩
    exact hattempt.reconstructs hone

end Attempts

end Sys2Proof.Proofs
end

section
/-! PROOFS. The run of a REBUILD over its targets, and runs of one target (44_integrity_rebuild.md R311 to R319). -/

namespace Sys2Proof.Proofs

open Sys2Proof.Machine

section Run

variable {s t : State} {st : Strategy}

/-! ### The run over all targets (44_integrity_rebuild.md R311, R312) -/

/-- A REBUILD past its checks is the run over its targets. -/
theorem execRebuild_of_checks {es : List ReportStatus} (hs : s.Inv) (hi : s.initialized = true)
    (hall : ∀ p ∈ s.opTargets, p < s.total)
    (hrun : rebuildTargets st s.online (offlineSlots s) (s.orderTargets s.opTargets) 0 (rebuildStart s) = some (es, t)) :
    exec (.rebuild st) s = .next (finish (aggregateError es) t) := by
  have hany : (s.opTargets.any fun p => decide (s.total ≤ p)) = false :=
    List.any_eq_false.2 fun p hp => by simpa using hall p hp
  have hF : failureSet s.latch.online s.serve = offlineSlots s := funext (failureSet_latch hs.latch)
  have hrun' : rebuildTargets st s.latch.online (failureSet s.latch.online s.serve) (s.orderTargets s.opTargets) 0
      (rebuildStart s) = some (es, t) := by
    rw [hF, latch_online hs.latch]
    exact hrun
  unfold rebuildStart at hrun'
  show execRebuild st s = _
  unfold execRebuild
  refine (if_neg (by rw [hi]; decide)).trans ((if_neg (by rw [hany]; decide)).trans ?_)
  rw [hrun']
  rfl

/-- A REBUILD of targets that exist processes all of them. -/
theorem rebuildTargets_runs (hs : s.Inv) (hi : s.initialized = true) (hall : ∀ p ∈ s.opTargets, p < s.total) :
    ∃ es t, rebuildTargets st s.online (offlineSlots s) (s.orderTargets s.opTargets) 0 (rebuildStart s) = some (es, t)
      ∧ Rebuilding s t := by
  have hlt : ∀ p ∈ s.orderTargets s.opTargets, p < s.total := fun p hp => hall p ((mem_orderTargets s p _).1 hp)
  have hone : ∀ p ∈ s.orderTargets s.opTargets, ∀ (u v : State) (e : ReportEntry), Rebuilding s u →
      rebuildOne st s.online (offlineSlots s) p u = some (e, v) → Rebuilding s v :=
    fun p hp u v e hu h => hu.rebuildOne hi (hlt p hp) h
  obtain ⟨es, t, hrun, -⟩ := rebuildTargets_isSome (Rebuilding s) (s.orderTargets s.opTargets) 0 (rebuildStart s)
    (.start hs hi) hone (fun u n e hu => hu.writeReport n e) fun p hp u hu hnone => by
      obtain ⟨k, q, hk, hoff, hc, hq, habsent⟩ := rebuildOne_none hnone
      exact Attempt.not_absent ⟨hi, hu, hlt p hp, hk, hoff, hc, hq⟩ habsent
  exact ⟨es, t, hrun, rebuildTargets_induct (Rebuilding s) hrun (.start hs hi) hone fun u n e hu => hu.writeReport n e⟩

/-- Settles O48: no target's run leaves the drive space, so all of them are processed. -/
theorem rebuildCompletes : Obligations.RebuildCompletes := by
  intro s st hs hi
  refine ⟨fun hall => ?_, fun hpast => ?_⟩
  · obtain ⟨es, t, hrun, ht⟩ := rebuildTargets_runs (st := st) hs hi hall
    refine ⟨_, execRebuild_of_checks hs hi hall hrun, ?_, aggregateError_cases es⟩
    exact congrArg (finish (aggregateError es)) ht.writes
  · obtain ⟨p, hp, hle⟩ := hpast
    have hany : (s.opTargets.any fun p => decide (s.total ≤ p)) = true :=
      List.any_eq_true.2 ⟨p, hp, decide_eq_true hle⟩
    show execRebuild st s = _
    unfold execRebuild
    rw [hi, hany]
    rfl

/-- In a chain of states where step m writes only report entry m, what entry n holds after step n stays. -/
theorem reportWordAt_of_chain {σ : Nat → State} {N n j : Nat} (hj : j < 8) (hn : n < N)
    (hstep : ∀ m, m < N → ∀ a, ¬(reportAddr m ≤ a ∧ a < reportAddr m + 32) →
      (σ (m + 1)).report.read a = (σ m).report.read a) :
    (σ N).reportWordAt n j = (σ (n + 1)).reportWordAt n j := by
  have key : ∀ d, n + 1 + d ≤ N → (σ (n + 1 + d)).reportWordAt n j = (σ (n + 1)).reportWordAt n j := by
    intro d
    induction d with
    | zero => exact fun _ => rfl
    | succ d ih =>
      intro hd
      refine Eq.trans (reportWordAt_congr _ _ _ _ fun i hi => ?_) (ih (by omega))
      exact hstep (n + 1 + d) (by omega) _ (by unfold reportAddr; omega)
  have h := key (N - (n + 1)) (by omega)
  rwa [Nat.add_sub_cancel' hn] at h

/-- A target's entry names it. -/
theorem rebuildOne_target {on : BitVec 512} {F : Nat → Nat → Bool} {p : Nat} {e : ReportEntry}
    (h : rebuildOne st on F p s = some (e, t)) : e.target = p := by
  rcases rebuildOne_cases h with ⟨rfl, -⟩ | ⟨k, -, ⟨rfl, -⟩ | ⟨-, ⟨rfl, -⟩ | ⟨-, ⟨rfl, -⟩ | ⟨q, -, ⟨c, -, rfl⟩ | ⟨u, -, -, rfl⟩⟩⟩⟩⟩
  · rfl
  · rfl
  · rfl
  · rfl
  · rfl
  · rfl

/-- Settles O49: the chain of states of the run, in the order of the sorted targets. -/
theorem rebuildOrderSorted : Obligations.RebuildOrderSorted := by
  intro s st hs hi hall
  obtain ⟨es, t, hrun, -⟩ := rebuildTargets_runs (st := st) hs hi hall
  obtain ⟨σ, e, h0, hlast, hes, hstep⟩ := rebuildTargets_chain hrun
  rw [hes, ← hlast] at hrun
  have hb := hs.bounds hi
  have hlt : ∀ n p, (s.orderTargets s.opTargets)[n]? = some p → p < s.total :=
    fun n p hp => hall p ((mem_orderTargets s p _).1 (List.mem_of_getElem? hp))
  have hreached : ∀ n, n ≤ (s.orderTargets s.opTargets).length → Rebuilding s (σ n) := by
    intro n
    induction n with
    | zero =>
      intro _
      rw [h0]
      exact .start hs hi
    | succ n ih =>
      intro hn
      have hp := List.getElem?_eq_getElem (l := s.orderTargets s.opTargets) hn
      obtain ⟨v, hv, hnext⟩ := hstep n _ hp
      rw [hnext]
      exact ((ih (by omega)).rebuildOne hi (hlt n _ hp) hv).writeReport _ _
  have htarget : ∀ n p, (s.orderTargets s.opTargets)[n]? = some p →
      s.rebuildsTarget (σ n) (σ (n + 1)) st n p (e n).status := by
    intro n p hp
    obtain ⟨v, hv, hnext⟩ := hstep n p hp
    have hn : n < (s.orderTargets s.opTargets).length := (List.getElem?_eq_some_iff.1 hp).1
    rw [hnext, Nat.zero_add]
    exact (hreached n (Nat.le_of_lt hn)).rebuildsTarget hi (hlt n p hp) hv
  refine ⟨s.orderTargets s.opTargets, σ, fun n => (e n).status, orderTargets_perm s _,
    orderTargets_sorted hb (opTargets_nodup s), h0, htarget, fun n p hp => ?_, execRebuild_of_checks hs hi hall hrun⟩
  have hn : n < (s.orderTargets s.opTargets).length := (List.getElem?_eq_some_iff.1 hp).1
  have hkeep : ∀ j, j < 8 →
      (σ (s.orderTargets s.opTargets).length).reportWordAt n j = (σ (n + 1)).reportWordAt n j := fun j hj =>
    reportWordAt_of_chain hj hn fun m hm => (htarget m _ (List.getElem?_eq_getElem hm)).1
  refine ⟨(hkeep 0 (by decide)).trans ?_, hkeep⟩
  obtain ⟨v, hv, hnext⟩ := hstep n p hp
  have hword : (e n).words.extractLsb' (32 * 0) 32 = _ := (e n).words_eq.1
  have hp16 : p < 2 ^ 16 := by
    have := hlt n p hp
    have := hb.totalMax
    omega
  rw [hnext, Nat.zero_add, reportWordAt_writeReport _ _ _ _ (by decide), hword, rebuildOne_target hv,
    setWidth_ofNat_of_lt hp16]

end Run

end Sys2Proof.Proofs
end

section
/-! PROOFS. A REBUILD of one target (44_integrity_rebuild.md R313 to R318). -/

namespace Sys2Proof.Proofs

open Sys2Proof.Machine

section Single

variable {s v : State} {st : Strategy} {p : Nat} {status : ReportStatus}

theorem rebuildStart_single (ht : s.opTargets = [p]) :
    rebuildStart s = { s with classValid := false, reportCount := 1 } := by
  unfold rebuildStart
  rw [ht]
  rfl

/-- A REBUILD of one target that exists does what it does with that target. -/
theorem rebuild_single (st : Strategy) (hs : s.Inv) (hi : s.initialized = true) (ht : s.opTargets = [p])
    (hp : p < s.total) :
    ∃ v status, exec (.rebuild st) s = .next (finish (aggregateError [status]) v)
      ∧ s.rebuildsTarget (rebuildStart s) v st 0 p status := by
  obtain ⟨order, σ, status, hperm, -, h0, htarget, -, hexec⟩ := rebuildOrderSorted s st hs hi fun q hq => by
    rw [ht] at hq
    rwa [List.mem_singleton.1 hq]
  rw [ht] at hperm
  obtain rfl := List.perm_singleton.1 hperm
  have h := htarget 0 p rfl
  have h0 : σ 0 = rebuildStart s := h0
  rw [h0] at h
  exact ⟨σ 1, status 0, hexec, h⟩

/-- A target that is only reported, with error `e`, word 0 `w` above the drive number, and word 2 `first`. -/
def Skipped (s : State) (st : Strategy) (p : Nat) (e : ErrCode) (w first : Word) : Prop :=
  ∃ t, exec (.rebuild st) s = .next t
    ∧ t = finish e { s with classValid := false, reportCount := 1, report := t.report }
    ∧ t.reportWordAt 0 0 = w ||| BitVec.ofNat 32 p ∧ t.reportWordAt 0 1 = 0
    ∧ t.reportWordAt 0 2 = first ∧ t.reportWordAt 0 3 = 0xFFFF
    ∧ (∀ j, 4 ≤ j → j < 8 → t.reportWordAt 0 j = 0)
    ∧ ∀ a, ¬(0x8000 ≤ a ∧ a < 0x8020) → t.report.read a = s.report.read a

/-- An entry with no sources: its words 4 to 7 are 0. -/
theorem reportEntry_no_sources {n j D : Nat} {count first dest : Word}
    (h : v.reportEntry n p status count first dest D []) (h4 : 4 ≤ j) (h8 : j < 8) : v.reportWordAt n j = 0 := by
  obtain ⟨-, -, -, -, hbits, h6, h7⟩ := h
  have hsource : ∀ w b, w < 2 → b < 32 → (v.reportWordAt n (4 + w)).getLsbD b = false := by
    intro w b hw hb
    have hdiv : (32 * w + b) / 32 = w := by omega
    have hmod : (32 * w + b) % 32 = b := by omega
    have hbit := hbits (32 * w + b) (by omega)
    rw [hdiv, hmod] at hbit
    exact Bool.eq_false_iff.2 fun h => by cases hbit.1 h
  obtain rfl | rfl | rfl | rfl : j = 4 ∨ j = 5 ∨ j = 6 ∨ j = 7 := by omega
  · exact BitVec.eq_of_getLsbD_eq fun b hb => (hsource 0 b (by decide) hb).trans BitVec.getLsbD_zero.symm
  · exact BitVec.eq_of_getLsbD_eq fun b hb => (hsource 1 b (by decide) hb).trans BitVec.getLsbD_zero.symm
  · exact h6
  · exact h7

theorem skipped_of_onlyReported {first : Word}
    (hexec : exec (.rebuild st) s = .next (finish (aggregateError [status]) v))
    (hread : ∀ a, ¬(reportAddr 0 ≤ a ∧ a < reportAddr 0 + 32) → v.report.read a = s.report.read a)
    (ht : s.opTargets = [p]) (h : (rebuildStart s).onlyReported v 0 p status first) :
    Skipped s st p (aggregateError [status]) (status.code.setWidth 32 <<< 16) first := by
  obtain ⟨hv, hentry⟩ := h
  rw [rebuildStart_single ht] at hv
  have hsources := fun j h4 h8 => reportEntry_no_sources (j := j) hentry h4 h8
  obtain ⟨h0, h1, h2, h3, -⟩ := hentry
  exact ⟨_, hexec, congrArg (finish (aggregateError [status])) hv, h0, h1, h2, h3, hsources, hread⟩

/-- Settles O50: the first four cases of `rebuild_one`. -/
theorem rebuildSkipsTarget : Obligations.RebuildSkipsTarget := by
  intro s st p hs hi ht hp
  obtain ⟨v, status, hexec, hread, hfree, hslot⟩ := rebuild_single st hs hi ht hp
  refine ⟨fun hk => ?free, fun k hk hon => ?online, fun k hk hoff hc => ?loss, fun k hk hoff hc hst hspare => ?noSpare⟩
  case free =>
    obtain ⟨rfl, h⟩ := hfree hk
    exact skipped_of_onlyReported hexec hread ht h
  case online =>
    obtain ⟨rfl, h⟩ := (hslot k hk).1 hon
    exact skipped_of_onlyReported hexec hread ht h
  case loss =>
    obtain ⟨rfl, h⟩ := (hslot k hk).2.1 hoff hc
    exact skipped_of_onlyReported hexec hread ht h
  case noSpare =>
    obtain ⟨rfl, h⟩ := (hslot k hk).2.2.1 hoff hc hst fun q hq => hspare q hq.1 hq.2.1 ⟨hq.2.2.1, hq.2.2.2.1⟩
    exact skipped_of_onlyReported hexec hread ht h

/-- Settles O51: with every access answered ok the target's reconstruction succeeds. -/
theorem restoreRebuildsDrive : Obligations.RestoreRebuildsDrive := by
  intro s p k hs hi ht hp hk hoff hc hport
  obtain ⟨v, status, hexec, hread, -, hslot⟩ := rebuild_single .restoreInPlace hs hi ht hp
  obtain ⟨-, -, -, hattempt⟩ := hslot k hk
  obtain ⟨rfl, hv, ⟨hserve, hpstate, hon, hflags⟩, hchunks, hout, h0, h1, h2, h3, hbits, h6, h7⟩ :=
    (hattempt p hoff hc rfl).1 (take_ok_of_portOk hport _)
  have hdpd : v.dpd = s.dpd := by
    rw [hv]
    rfl
  rw [hdpd] at hbits
  refine ⟨_, hexec, ?_, hon, hflags, hchunks, hout, h0, h1, h2, h3, fun i hi => (hbits i hi).trans List.mem_map, h6, h7,
    hread⟩
  refine congrArg (finish .none) ?_
  rw [hserve, hpstate, rebuildStart_single ht] at hv
  rw [hv]
  rfl

/-- Settles O52: the same onto the chosen spare, which takes the slot over. -/
theorem promoteMovesSlotToSpare : Obligations.PromoteMovesSlotToSpare := by
  intro s p k q hs hi ht hp hk hoff hc hport hlo hhi hfree hqon hleast
  obtain ⟨v, status, hexec, hread, -, hslot⟩ := rebuild_single .promoteSpare hs hi ht hp
  obtain ⟨-, -, -, hattempt⟩ := hslot k hk
  obtain ⟨rfl, hv, ⟨honline, hserve, hpstate⟩, hchunks, hout, h0, h1, h2, h3, hbits, h6, h7⟩ :=
    (hattempt q hoff hc ⟨hlo, hhi, hfree, hqon, hleast⟩).1 (take_ok_of_portOk hport _)
  have hdpd : v.dpd = s.dpd := by
    rw [hv]
    rfl
  rw [hdpd] at hbits
  refine ⟨_, hexec, ?_, hserve, hpstate, hchunks, hout, h0, h1, h2, h3, fun i hi => (hbits i hi).trans List.mem_map,
    h6, h7, hread⟩
  refine congrArg (finish .none) ?_
  rw [honline, rebuildStart_single ht] at hv
  rw [hv]
  rfl

end Single

end Sys2Proof.Proofs
end

section
/-! PROOFS. The drives the engine reads and writes (20_memory.md R96, 43_access_decode.md R280). -/

namespace Sys2Proof.Proofs

open Sys2Proof.Machine

section Traffic

variable {s t u : State} {w : Nat → Prop}

/-- An access of an online drive, or a write of a drive of `w`. -/
def OnlineAccess (s : State) (w : Nat → Prop) : DriveAccess → Prop
  | .read p _ _ _ => flagAt s.online p = true
  | .write p _ _ _ => flagAt s.online p = true ∨ w p

/-- Every access made since `s` is one of an online drive, or a write of a drive of `w`. -/
def OnlineTraffic (s : State) (w : Nat → Prop) (u : State) : Prop := ∀ a ∈ u.traffic, a ∈ s.traffic ∨ OnlineAccess s w a

theorem OnlineTraffic.refl (s : State) (w : Nat → Prop) : OnlineTraffic s w s := fun _ ha => .inl ha

theorem OnlineTraffic.of_new {new : List DriveAccess} (hu : OnlineTraffic s w u)
    (ht : t.traffic = new ++ u.traffic) (hnew : ∀ a ∈ new, OnlineAccess s w a) : OnlineTraffic s w t := by
  intro a ha
  rw [ht] at ha
  rcases List.mem_append.1 ha with ha | ha
  · exact .inr (hnew a ha)
  · exact hu a ha

theorem OnlineTraffic.of_access {a : DriveAccess} (hu : OnlineTraffic s w u) (ha : OnlineAccess s w a) :
    OnlineTraffic s w (u.afterAccess a) :=
  hu.of_new (new := [a]) rfl fun b hb => by rwa [List.mem_singleton.1 hb]

/-- A command that makes no access. -/
theorem OnlineTraffic.of_eq (h : t.traffic = s.traffic) : OnlineTraffic s w t := fun _ ha => .inl (h ▸ ha)

/-! ### Runs of accesses -/

theorem OnlineTraffic.readSlots {D c : Nat} {ks : List Nat} (hu : OnlineTraffic s w u)
    (hks : ∀ k ∈ ks, flagAt s.online (u.serveAt D k) = true)
    (h : (∃ known, readSlots D c ks u = .ok known t) ∨ readSlots D c ks u = .err t) : OnlineTraffic s w t := by
  have hreads : ∀ js : List Nat, (∀ k ∈ js, k ∈ ks) → ∀ a ∈ slotReads u D c js, OnlineAccess s w a := by
    intro js hjs a ha
    simp only [slotReads, List.mem_reverse, List.mem_map] at ha
    obtain ⟨k, hk, rfl⟩ := ha
    exact hks k (hjs k hk)
  rcases h with ⟨known, h⟩ | h
  · obtain ⟨-, ht, -, -⟩ := readSlots_ok h
    exact hu.of_new (new := slotReads u D c ks) (by rw [ht]) (hreads ks fun _ hk => hk)
  · obtain ⟨pre, k, post, rfl, -, -, -, ht⟩ := readSlots_err h
    refine hu.of_new (new := .read (u.serveAt D k) (c * Config.CHUNK) Config.CHUNK false :: slotReads u D c pre)
      (by rw [ht]; rfl) fun a ha => ?_
    rcases List.mem_cons.1 ha with rfl | ha
    · exact hks k (List.mem_append_right _ List.mem_cons_self)
    · exact hreads pre (fun k hk => List.mem_append_left _ hk) a ha

theorem OnlineTraffic.writeSlots {D c : Nat} {xs : SlotChunks} (hu : OnlineTraffic s w u)
    (hxs : ∀ x ∈ xs, flagAt s.online (u.serveAt D x.1) = true)
    (h : writeSlots D c xs u = .ok () t ∨ writeSlots D c xs u = .err t) : OnlineTraffic s w t := by
  have hwrites : ∀ ys : SlotChunks, (∀ x ∈ ys, x ∈ xs) → ∀ a ∈ slotWrites u D c ys, OnlineAccess s w a := by
    intro ys hys a ha
    simp only [slotWrites, List.mem_reverse, List.mem_map] at ha
    obtain ⟨x, hx, rfl⟩ := ha
    exact .inl (hxs x (hys x hx))
  rcases h with h | h
  · obtain ⟨ht, -⟩ := writeSlots_ok h
    exact hu.of_new (new := slotWrites u D c xs) (by rw [ht]) (hwrites xs fun _ hx => hx)
  · obtain ⟨pre, k, v, post, junk, rfl, -, ht⟩ := writeSlots_err h
    refine hu.of_new (new := .write (u.serveAt D k) (c * Config.CHUNK) junk false :: slotWrites u D c pre)
      (by rw [ht]; rfl) fun a ha => ?_
    rcases List.mem_cons.1 ha with rfl | ha
    · exact .inl (hxs (k, v) (List.mem_append_right _ List.mem_cons_self))
    · exact hwrites pre (fun x hx => List.mem_append_left _ hx) a ha

/-- The accesses of a stripe's slots that are all online. -/
theorem OnlineTraffic.stripe {D c : Nat} {ks : List Nat} {xs : SlotChunks → SlotChunks}
    (hks : ∀ k ∈ ks, flagAt s.online (s.serveAt D k) = true)
    (hxs : ∀ known, ∀ x ∈ xs known, flagAt s.online (s.serveAt D x.1) = true)
    (h : (∃ s1, Machine.readSlots D c ks s = .err s1 ∧ t = finish .driveIo s1)
      ∨ ∃ known s1, Machine.readSlots D c ks s = .ok known s1
        ∧ ((∃ s2, Machine.writeSlots D c (xs known) s1 = .err s2 ∧ t = finish .driveIo s2)
          ∨ ∃ s2, Machine.writeSlots D c (xs known) s1 = .ok () s2 ∧ t = finish .none s2)) : OnlineTraffic s w t := by
  rcases h with ⟨s1, hr, rfl⟩ | ⟨known, s1, hr, hw⟩
  · exact (OnlineTraffic.refl s w).readSlots (t := s1) hks (.inr hr)
  · have h1 : OnlineTraffic s w s1 := (OnlineTraffic.refl s w).readSlots hks (.inl ⟨known, hr⟩)
    have hxs1 : ∀ x ∈ xs known, flagAt s.online (s1.serveAt D x.1) = true := by
      intro x hx
      rw [(readSlots_readsOnly hr).drivesOnly.serveAt]
      exact hxs known x hx
    rcases hw with ⟨s2, hw, rfl⟩ | ⟨s2, hw, rfl⟩
    · exact h1.writeSlots (t := s2) hxs1 (.inr hw)
    · exact h1.writeSlots (t := s2) hxs1 (.inl hw)

theorem OnlineTraffic.rdchunk {q c : Nat} (hq : flagAt s.online q = true)
    (h : (∃ x, Machine.rdchunk q c s = .ok x t) ∨ Machine.rdchunk q c s = .err t) : OnlineTraffic s w t := by
  rcases h with ⟨x, h⟩ | h
  · obtain ⟨-, -, -, rfl⟩ := (rdchunk_ok_iff q c s t x).1 h
    exact (OnlineTraffic.refl s w).of_access hq
  · obtain ⟨-, -, rfl⟩ := (rdchunk_err_iff q c s t).1 h
    exact (OnlineTraffic.refl s w).of_access hq

/-! ### The commands -/

theorem execWriteChunk_traffic {p : BitVec 16} {b : BitVec 3} (h : execWriteChunk p b s = .next t) :
    OnlineTraffic s w t := by
  rcases execWriteChunk_next h with ⟨e, -, rfl⟩ | ⟨k, -, -, -, -, hk, hon, hrun⟩
  · exact .refl s w
  · have hneeds : ∀ j ∈ s.layout.writeNeeds (s.layout.groupOf k),
        flagAt s.online (s.serveAt (s.domainOf p.toNat) j) = true := List.all_eq_true.1 hon
    have hdata : ∀ j, j < s.ndata → flagAt s.online (s.serveAt (s.domainOf p.toNat) j) = true := fun j hj =>
      hneeds j (List.mem_append_left _ (List.mem_range.2 hj))
    refine OnlineTraffic.stripe (xs := fun known => s.layout.stripeUpdate k (s.opBuf b.toNat) (chunkOfSlot known))
      (fun j hj => hdata j (List.mem_range.1 (List.mem_filter.1 hj).1)) (fun known x hx => ?_) hrun
    simp only [Layout.stripeUpdate, List.mem_cons, List.not_mem_nil, or_false] at hx
    rcases hx with rfl | rfl | rfl
    · exact hdata k hk
    · exact hneeds _ (List.mem_append_right _ List.mem_cons_self)
    · exact hneeds _ (List.mem_append_right _ (List.mem_cons_of_mem _ List.mem_cons_self))

theorem execEncodeStripe_traffic {D : BitVec 16} (h : execEncodeStripe D s = .next t) : OnlineTraffic s w t := by
  rcases execEncodeStripe_next h with ⟨e, -, rfl⟩ | ⟨-, -, -, hon, hrun⟩
  · exact .refl s w
  · have hserved : ∀ j, j < s.layout.served → flagAt s.online (s.serveAt D.toNat j) = true := fun j hj =>
      List.all_eq_true.1 hon j (List.mem_range.2 hj)
    refine OnlineTraffic.stripe (xs := fun known => s.layout.stripeParities (chunkOfSlot known))
      (fun j hj => hserved j (data_lt_served (List.mem_range.1 hj))) (fun known x hx => ?_) hrun
    exact hserved x.1 ((stripeParities_slots _).served x hx)

theorem execReadChunk_traffic {p : BitVec 16} {b : BitVec 3} (h : execReadChunk p b s = .next t) :
    OnlineTraffic s w t := by
  rcases execReadChunk_next h with ⟨e, -, rfl⟩ | ⟨-, -, -, hon, ⟨u, hr, rfl⟩ | ⟨x, u, hr, rfl⟩⟩
  · exact .refl s w
  · exact OnlineTraffic.rdchunk (t := u) hon (.inr hr)
  · exact OnlineTraffic.rdchunk (t := u) hon (.inl ⟨x, hr⟩)

theorem execPeek_traffic {p : BitVec 16} (h : execPeek p s = .next t) : OnlineTraffic s w t := by
  rcases execPeek_next h with ⟨e, -, rfl⟩ | ⟨-, -, -, hon, ⟨u, hr, rfl⟩ | ⟨x, u, hr, rfl⟩⟩
  · exact .refl s w
  · obtain ⟨-, -, rfl⟩ := (driveRead_err_iff _ _ _ _ _ _).1 hr
    exact (OnlineTraffic.refl s w).of_access hon
  · obtain ⟨-, -, -, rfl⟩ := (driveRead_ok_iff _ _ _ _ _ _ _).1 hr
    exact (OnlineTraffic.refl s w).of_access hon

theorem execDecodeChunk_traffic {p : BitVec 16} {b : BitVec 3} (hs : s.latchHolds)
    (h : execDecodeChunk p b s = .next t) : OnlineTraffic s w t := by
  rcases execDecodeChunk_next h with ⟨e, -, rfl⟩ | ⟨k, -, -, -, hk, ⟨hon, ⟨u, hr, rfl⟩ | ⟨x, u, hr, rfl⟩⟩ | ⟨hoff, hc, hrun⟩⟩
  · exact .refl s w
  · exact OnlineTraffic.rdchunk (t := u) hon (.inr hr)
  · exact OnlineTraffic.rdchunk (t := u) hon (.inl ⟨x, hr⟩)
  · rw [failureSet_latch hs] at hc hrun
    have hsources : ∀ m ∈ s.layout.sources (offlineSlots s (s.domainOf p.toNat)) k,
        flagAt s.online (s.serveAt (s.domainOf p.toNat) m) = true := by
      intro m hm
      have hm' := ((s.layout.mem_sources _ _ _).1 hm).2
      have := (sourceMembers_online (slotOf_some hk).1 (offlineSlots_of_slotOf hk hoff) hc m hm').1
      unfold offlineSlots at this
      simpa using this
    rcases hrun with ⟨u, hr, rfl⟩ | ⟨known, u, hr, rfl⟩
    · exact (OnlineTraffic.refl s w).readSlots (t := u) hsources (.inr hr)
    · exact (OnlineTraffic.refl s w).readSlots (t := u) hsources (.inl ⟨known, hr⟩)

/-! ### REBUILD -/

/-- The run of one target: its sources were online at acceptance, and so was a spare. -/
theorem OnlineTraffic.rebuildOne {v : State} {st : Strategy} {p : Nat} {e : ReportEntry} (hi : s.initialized = true)
    (hp : p < s.total) (hu : Rebuilding s u) (hflags : st = .promoteSpare → u.online = s.online)
    (hw : st = .restoreInPlace → w p) (htr : OnlineTraffic s w u)
    (h : Machine.rebuildOne st s.online (offlineSlots s) p u = some (e, v)) : OnlineTraffic s w v := by
  rcases rebuildOne_cases h with
    ⟨-, rfl, -⟩ | ⟨k, hk, ⟨-, rfl, -⟩ | ⟨hoff, ⟨-, rfl, -⟩ | ⟨hc, ⟨-, rfl, -⟩ | ⟨q, hq, hrun⟩⟩⟩⟩
  · exact htr
  · exact htr
  · exact htr
  · exact htr
  · have ha : Attempt s u st p k q := ⟨hi, hu, hp, hk, hoff, hc, hq⟩
    have hdest : flagAt s.online q = true ∨ w q := by
      cases st with
      | restoreInPlace => exact .inr (Option.some.inj hq ▸ hw rfl)
      | promoteSpare => exact .inl (hflags rfl ▸ (freeSpare_some hq).2.2.2)
    have hchunks : ∀ x, (rebuildChunks (offlineSlots s (u.domainOf p)) (u.domainOf p) k q u.chunks 0 u = .finished x
        ∨ ∃ c, rebuildChunks (offlineSlots s (u.domainOf p)) (u.domainOf p) k q u.chunks 0 u = .stoppedAt c x) →
        OnlineTraffic s w x := by
      intro x hx
      obtain ⟨-, ⟨new, hnew, haccess⟩, -⟩ := rebuildChunks_frame _ _ _ _ _ _ _ _ hx
      refine htr.of_new hnew fun a ham => ?_
      rcases haccess a ham with ⟨m, hm, o, l, ok, rfl⟩ | ⟨o, x, ok, rfl⟩
      · exact (ha.source hm).2.2
      · exact hdest
    rcases hrun with ⟨c, hrun, -⟩ | ⟨x, hrun, rfl, -⟩
    · exact hchunks v (.inr ⟨c, hrun⟩)
    · have hx := hchunks x (.inl hrun)
      cases st <;> exact hx

theorem execRebuild_traffic {st : Strategy} (hs : s.Inv) (hw : st = .restoreInPlace → ∀ p ∈ s.opTargets, w p)
    (h : execRebuild st s = .next t) : OnlineTraffic s w t := by
  rcases execRebuild_run h with ⟨e, -, rfl, -⟩ | ⟨hi, hall, es, u, hrun, rfl⟩
  · exact .refl s w
  · have hF : failureSet s.latch.online s.serve = offlineSlots s := funext (failureSet_latch hs.latch)
    rw [hF, latch_online hs.latch] at hrun
    have hu := rebuildTargets_induct
      (fun v => Rebuilding s v ∧ (st = .promoteSpare → PromoteKeeps (rebuildStart s) v) ∧ OnlineTraffic s w v) hrun
      ⟨.start hs hi, fun _ => ⟨rfl, rfl, fun _ hq => hq⟩, .refl s w⟩
      (fun p hp x v e ⟨hx, hkeep, htr⟩ hone => ?_) fun x n e ⟨hx, hkeep, htr⟩ => ?_
    · exact hu.2.2
    · have hmem := (mem_orderTargets s p _).1 hp
      refine ⟨hx.rebuildOne hi (hall p hmem) hone, fun hst => ?_, ?_⟩
      · subst hst
        exact (hkeep rfl).rebuildOne hone
      · exact htr.rebuildOne hi (hall p hmem) hx (fun hst => (hkeep hst).online) (fun hst => hw hst p hmem) hone
    · exact ⟨hx.writeReport n e, fun hst => ⟨(hkeep hst).chunks, (hkeep hst).online, (hkeep hst).free⟩, htr⟩

theorem exec_traffic {i : Instr} (hs : s.Inv) (h : exec i s = .next t) :
    OnlineTraffic s (fun p => i = .rebuild .restoreInPlace ∧ p ∈ s.opTargets) t := by
  cases i with
  | writeChunk p b => exact execWriteChunk_traffic h
  | encodeStripe D => exact execEncodeStripe_traffic h
  | readChunk p b => exact execReadChunk_traffic h
  | peek p => exact execPeek_traffic h
  | decodeChunk p b => exact execDecodeChunk_traffic hs.latch h
  | rebuild st =>
    have h : execRebuild st s = .next t := h
    exact execRebuild_traffic hs (fun hst p hp => ⟨by rw [hst], hp⟩) h
  | _ =>
    have htraffic := congrArg State.traffic (exec_frame h)
    exact .of_eq htraffic

/-- Settles O54: each command's accesses, and REBUILD's target by target. -/
theorem engineUsesOnlineDrives : Obligations.EngineUsesOnlineDrives := by
  intro i s t hs h a ha
  refine (exec_traffic hs h a ha).imp_right fun haccess => ?_
  cases a <;> exact haccess

end Traffic

end Sys2Proof.Proofs
end

section
/-! PROOFS. Hardware reset (70_reset_and_hazards.md R370, R371), and that every step goes on and every command completes
(60_exceptions.md R344, 70_reset_and_hazards.md R390). -/

namespace Sys2Proof.Proofs

open Sys2Proof.Machine

/-! ### Hardware reset (70_reset_and_hazards.md R370) -/

section Reset

/-- The access that a reset meets, if it is a write, leaves the draw. -/
def cutAccess (junk : Chunk) : Option DriveAccess → List DriveAccess
  | some (.write q off _ ok) => [.write q off junk ok]
  | _ => []

/-- The byte an access leaves, or the one there before it. -/
theorem read_of_access (m : Memory) (q off : Nat) (x : Chunk) (ok : Bool) (a : Nat) :
    (m.writeBlock Config.chunkLog (driveKey q off) x.toNat).read a =
      ((DriveAccess.write q off x ok).byteAt a).getD (m.read a) := by
  rw [Memory.read_writeBlock, chunk_two_pow, DriveAccess.byteAt]
  split
  · rw [Option.getD_some, laneAt_eq_byteOf]
  · rfl

/-- What an older access leaves shows through where no newer one writes. -/
theorem findSome?_reverse_cons (x : DriveAccess) (l : List DriveAccess) (a : Nat) (b : Byte) :
    ((x :: l).reverse.findSome? fun y => y.byteAt a).getD b =
      (l.reverse.findSome? fun y => y.byteAt a).getD ((x.byteAt a).getD b) := by
  rw [List.reverse_cons, List.findSome?_append, Option.getD_or]
  congr 1
  rw [List.findSome?_singleton]

/-- The bytes of the drives after the first n accesses, and the one that meets the reset. -/
theorem read_replayAccesses (junk : Chunk) (n : Nat) (l : List DriveAccess) (m : Memory) (a : Nat) :
    (replayAccesses junk n l m).read a =
      ((l.take n ++ cutAccess junk l[n]?).reverse.findSome? fun x => x.byteAt a).getD (m.read a) := by
  induction l generalizing n m with
  | nil => cases n <;> rfl
  | cons x l ih =>
    cases n with
    | zero =>
      cases x with
      | read q off len ok => rfl
      | write q off stored ok =>
        rw [replayAccesses, List.take_zero, List.nil_append, List.getElem?_cons_zero, cutAccess, findSome?_reverse_cons,
          ← read_of_access]
        rfl
    | succ n =>
      rw [List.take_succ_cons, List.getElem?_cons_succ, List.cons_append, findSome?_reverse_cons]
      cases x with
      | read q off len ok =>
        rw [replayAccesses]
        exact ih n m
      | write q off stored ok =>
        rw [← read_of_access, replayAccesses]
        exact ih n _

theorem byteOf_toNat {w : Nat} (x : BitVec w) (i : Nat) : byteOf x.toNat i = x.extractLsb' (8 * i) 8 := by
  apply BitVec.eq_of_toNat_eq
  rw [BitVec.extractLsb'_toNat, Nat.shiftRight_eq_div_pow, byteOf, BitVec.toNat_ofNat]

/-- Settles O56: the accesses of the command in flight are replayed up to the reset. -/
theorem hardwareResetClearsRegisters : Obligations.HardwareResetClearsRegisters := by
  intro s n junk bufs report rest hin
  have hstep : step s = .next (hardwareReset n junk bufs report { s with inputs := rest }) := by
    rw [step, advance, hin]
    rfl
  refine ⟨_, hstep, rfl, fun i hi => ?report, fun hf => ?idle, fun f u hf hu => ?busy⟩
  case report =>
    refine (Memory.read_writeBlock 14 [] 0x8000 report.toNat (0x8000 + i)).trans ?_
    rw [if_pos (by omega), Nat.add_sub_cancel_left, byteOf_toNat]
  case idle =>
    show State.abandonedDrives { s with inputs := rest } n junk = s.drives
    unfold State.abandonedDrives
    rw [show State.flight { s with inputs := rest } = none from hf]
  case busy =>
    have hflight : State.flightAccesses { s with inputs := rest } = u.traffic.reverse := by
      have hrun : completeFlight { s with inputs := rest, traffic := [] } = .next u := hu
      unfold State.flightAccesses
      rw [hrun]
    have hdrives : State.abandonedDrives { s with inputs := rest } n junk
        = replayAccesses junk n u.traffic.reverse s.drives := by
      unfold State.abandonedDrives
      rw [hflight, show State.flight { s with inputs := rest } = some f from hf]
    intro accesses cut a
    have hcut : cut = cutAccess junk accesses[n]? := by
      show (match accesses[n]? with | some (.write q off _ ok) => _ | _ => _) = _
      rcases accesses[n]? with _ | _ | _ <;> rfl
    rw [hcut]
    refine Eq.trans ?_ (read_replayAccesses junk n u.traffic.reverse s.drives a)
    exact congrArg (Memory.read · a) hdrives

end Reset

/-! ### Every command completes (70_reset_and_hazards.md R390) -/

section Completes

variable {s : State}

/-- An execution that goes on to a next state. -/
def Completes (o : Host.Outcome State Fault Refusal) : Prop := ∃ t, o = .next t

theorem completes_finishWith (e : ErrCode) (s : State) : Completes (finishWith e s) := ⟨_, rfl⟩

theorem completes_check {c : Prop} [Decidable c] {e : ErrCode} {o : Host.Outcome State Fault Refusal}
    (h : ¬c → Completes o) : Completes (if c then finishWith e s else o) := by
  split
  · exact completes_finishWith e s
  · next hc => exact h hc

theorem completes_orDriveIo {α : Type} {r : PortResult α} {after : α → State → Host.Outcome State Fault Refusal}
    (hr : r ≠ .absent) (h : ∀ a u, r = .ok a u → Completes (after a u)) : Completes (r.orDriveIo after) := by
  cases r with
  | ok a u => exact h a u rfl
  | err u => exact completes_finishWith .driveIo u
  | absent => exact absurd rfl hr

theorem initialized_of_check (h : ¬(!s.initialized) = true) : s.initialized = true := by simpa using h

/-- Reads and writes of served slots stay in the drive space. -/
theorem completes_stripeRun {D c : Nat} {ks : List Nat} {xs : SlotChunks → SlotChunks} (ha : s.assignmentLegal)
    (hi : s.initialized = true) (hD : D < s.ndom) (hc : c < s.chunks) (hks : ∀ k ∈ ks, k < s.layout.served)
    (hxs : ∀ known, ∀ x ∈ xs known, x.1 < s.layout.served) : Completes (stripeRun D c ks xs s) := by
  refine completes_orDriveIo (fun h => ?_) fun known u hu => completes_orDriveIo (fun h => ?_) fun _ v _ => ⟨_, rfl⟩
  · obtain ⟨k, hk, hn⟩ := readSlots_absent h
    exact hn ⟨ha.serveAt_lt hi hD (hks k hk), hc⟩
  · have hu := (readSlots_readsOnly hu).drivesOnly
    obtain ⟨x, hx, hn⟩ := writeSlots_absent h
    rw [hu.serveAt, hu.total, hu.chunks] at hn
    exact hn ⟨ha.serveAt_lt hi hD (hxs known x hx), hc⟩

theorem execWriteChunk_completes (hs : s.Inv) (p : BitVec 16) (b : BitVec 3) : Completes (execWriteChunk p b s) := by
  refine completes_check fun hi => completes_check fun hp => completes_check fun hc => ?_
  have hi := initialized_of_check hi
  cases hk : s.slotOf p.toNat with
  | none => exact completes_finishWith .invalidRole s
  | some k =>
    refine completes_check fun hdata => completes_check fun _ => ?_
    have hkn : k < s.layout.ndata := Nat.not_le.1 hdata
    exact completes_stripeRun (xs := fun known => s.layout.stripeUpdate k (s.opBuf b.toNat) (chunkOfSlot known))
      hs.assignment hi ((hs.bounds hi).domainOf_lt (Nat.not_le.1 hp)) (Nat.not_le.1 hc)
      (fun j hj => data_lt_served (List.mem_range.1 (List.mem_filter.1 hj).1))
      fun known => (stripeUpdate_slots hkn).served

theorem execEncodeStripe_completes (hs : s.Inv) (D : BitVec 16) : Completes (execEncodeStripe D s) := by
  refine completes_check fun hi => completes_check fun hrange => completes_check fun _ => ?_
  have hi := initialized_of_check hi
  obtain ⟨hD, hc⟩ := not_or.1 hrange
  exact completes_stripeRun (xs := fun known => s.layout.stripeParities (chunkOfSlot known)) hs.assignment hi
    (Nat.not_le.1 hD) (Nat.not_le.1 hc) (fun j hj => data_lt_served (List.mem_range.1 hj))
    fun known => (stripeParities_slots _).served

theorem rdchunk_completes {q c b : Nat} (hq : q < s.total) (hc : c < s.chunks) :
    Completes ((rdchunk q c s).orDriveIo fun x u => finishWith .none (u.setBuf b x)) :=
  completes_orDriveIo (fun h => (rdchunk_absent_iff q c s).1 h ⟨hq, hc⟩) fun _ _ _ => ⟨_, rfl⟩

theorem execReadChunk_completes (p : BitVec 16) (b : BitVec 3) : Completes (execReadChunk p b s) := by
  refine completes_check fun _ => completes_check fun hp => completes_check fun hc => completes_check fun _ => ?_
  exact rdchunk_completes (Nat.not_le.1 hp) (Nat.not_le.1 hc)

theorem execPeek_completes (p : BitVec 16) : Completes (execPeek p s) := by
  refine completes_check fun _ => completes_check fun hp => completes_check fun hrange => completes_check fun _ => ?_
  refine completes_orDriveIo (fun h => ?_) fun _ _ _ => ⟨_, rfl⟩
  have hrange : s.peekInRange s.opArg0 s.opArg1 = true := by simpa using hrange
  have hspace : s.inDriveSpace p.toNat s.opArg0 s.opArg1 = true :=
    Bool.and_eq_true_iff.2 ⟨decide_eq_true (Nat.not_le.1 hp), decide_eq_true ((peekInRange_iff s _ _).1 hrange).2.2⟩
  rw [driveRead_absent_iff, hspace] at h
  cases h

theorem execDecodeChunk_completes (hs : s.Inv) (p : BitVec 16) (b : BitVec 3) : Completes (execDecodeChunk p b s) := by
  refine completes_check fun hi => completes_check fun hp => completes_check fun hc => ?_
  have hi := initialized_of_check hi
  have hp := Nat.not_le.1 hp
  have hc := Nat.not_le.1 hc
  cases hk : s.slotOf p.toNat with
  | none => exact completes_finishWith .invalidRole s
  | some k =>
    cases hon : flagAt s.online p.toNat with
    | true => exact rdchunk_completes hp hc
    | false =>
      refine completes_check fun _ => ?_
      refine completes_orDriveIo (fun h => ?_) fun _ _ _ => ⟨_, rfl⟩
      obtain ⟨m, hm, hn⟩ := readSlots_absent h
      exact hn ⟨hs.assignment.serveAt_lt hi ((hs.bounds hi).domainOf_lt hp)
        (s.layout.lt_served_of_mem_sources _ _ _ hm), hc⟩

theorem execRebuild_completes (hs : s.Inv) (st : Strategy) : Completes (exec (.rebuild st) s) := by
  cases hi : s.initialized with
  | false =>
    show Completes (execRebuild st s)
    unfold execRebuild
    rw [if_pos (by rw [hi]; rfl)]
    exact completes_finishWith _ _
  | true =>
    obtain ⟨hok, hfail⟩ := rebuildCompletes s st hs hi
    by_cases hall : ∀ p ∈ s.opTargets, p < s.total
    · obtain ⟨t, ht, -⟩ := hok hall
      exact ⟨t, ht⟩
    · push Not at hall
      exact ⟨_, hfail hall⟩

theorem exec_completes (hs : s.Inv) (i : Instr) : Completes (exec i s) := by
  cases i with
  | nop => exact completes_finishWith _ _
  | init => exact completes_check fun _ => completes_check fun _ => ⟨_, rfl⟩
  | reset => exact completes_finishWith _ _
  | setOnlineDrive p v => exact completes_check fun _ => completes_check fun _ => ⟨_, rfl⟩
  | setOnlineDomain D v => exact completes_check fun _ => completes_check fun _ => ⟨_, rfl⟩
  | writeChunk p b => exact execWriteChunk_completes hs p b
  | encodeStripe D => exact execEncodeStripe_completes hs D
  | recombine b => exact completes_check fun _ => ⟨_, rfl⟩
  | readChunk p b => exact execReadChunk_completes p b
  | peek p => exact execPeek_completes p
  | decodeChunk p b => exact execDecodeChunk_completes hs p b
  | classify => exact completes_check fun _ => ⟨_, rfl⟩
  | rebuild st => exact execRebuild_completes hs st
  | queryDrive p => exact completes_check fun _ => completes_check fun _ => ⟨_, rfl⟩
  | queryGroup G => exact completes_check fun _ => completes_check fun _ => ⟨_, rfl⟩
  | querySlot D => exact completes_check fun _ => completes_check fun _ => ⟨_, rfl⟩

theorem runWord_completes (hs : s.Inv) (w : Word) : Completes (runWord w s) := by
  cases hd : decode w with
  | ok i =>
    rw [runWord_of_decode hd]
    exact exec_completes hs i
  | error e =>
    rw [runWord_of_error hd]
    exact ⟨_, rfl⟩

theorem completeFlight_completes (hs : s.Inv) : Completes (completeFlight s) := by
  cases hf : s.flight with
  | none =>
    rw [completeFlight, hf]
    exact ⟨s, rfl⟩
  | some f =>
    rw [completeFlight_of_flight hf]
    exact runWord_completes hs f.word

/-! ### Every step (60_exceptions.md R344) -/

/-- The inputs still to come are no part of the invariant. -/
theorem inv_with_inputs (hs : s.Inv) (rest : List Input) : State.Inv { s with inputs := rest } :=
  ⟨hs.memories, hs.latch, hs.cleared, hs.topology, hs.shape, hs.assignment⟩

/-- Nor is the pending interrupt. -/
theorem inv_with_donePend (hs : s.Inv) (b : Bool) : State.Inv { s with donePend := b } :=
  ⟨hs.memories, hs.latch, hs.cleared, hs.topology, hs.shape, hs.assignment⟩

theorem misfit_of_busRefusal {off : BitVec 16} {size : AccessSize} {r : Refusal} (h : busRefusal off size = some r) :
    size ≠ .word ∨ off.toNat % 4 ≠ 0 := by
  unfold busRefusal at h
  split at h
  · next hsize => exact .inl hsize
  · split at h
    · next halign => exact .inr halign
    · cases h

/-- A step goes on, or refuses a host access that the bus cannot carry. -/
theorem step_outcome (hs : s.Inv) : Completes (step s) ∨
    ∃ r off size v rest, step s = .refused r
      ∧ (s.inputs = .hostRead off size v :: rest ∨ s.inputs = .hostWrite off size v :: rest)
      ∧ (size ≠ .word ∨ off.toNat % 4 ≠ 0) := by
  unfold step advance
  cases hin : s.inputs with
  | nil => exact .inl (completeFlight_completes hs)
  | cons i rest =>
    have hrest := inv_with_inputs hs rest
    cases i with
    | hostRead off size v =>
      show Completes (hostRead off size v _) ∨ _
      cases hb : busRefusal off size with
      | none => exact .inl ⟨_, by rw [hostRead, hb]⟩
      | some r => exact .inr ⟨r, off, size, v, rest, by simp only [takeInput, hostRead, hb], .inl rfl,
          misfit_of_busRefusal hb⟩
    | hostWrite off size v =>
      show Completes (hostWrite off size v _) ∨ _
      cases hb : busRefusal off size with
      | none => exact .inl ⟨_, by rw [hostWrite, hb]⟩
      | some r => exact .inr ⟨r, off, size, v, rest, by simp only [takeInput, hostWrite, hb], .inr rfl,
          misfit_of_busRefusal hb⟩
    | complete => exact .inl (completeFlight_completes hrest)
    | completeWithIrqWrite v =>
      exact .inl (completeFlight_completes (inv_with_donePend hrest _))
    | hardwareReset n junk bufs report => exact .inl ⟨_, rfl⟩

/-- Running a word ends in a completion. -/
theorem runWord_answers (hs : s.Inv) (w : Word) :
    ∃ t, runWord w s = .next t ∧ t.flight = none ∧ t.done = true ∧ t.donePend = true := by
  obtain ⟨t, ht⟩ := runWord_completes hs w
  obtain ⟨e, u, rfl⟩ := runWord_next_finish ht
  exact ⟨_, ht, rfl, rfl, rfl⟩

/-- Settles O60. -/
theorem stepNeverFaultsAndCommandsComplete : Obligations.StepNeverFaultsAndCommandsComplete := by
  intro s hs
  refine ⟨fun r h => ?fault, fun r h => ?refused, fun f hf hin => ?complete⟩
  case fault =>
    rcases step_outcome hs with ⟨t, ht⟩ | ⟨r', -, -, -, -, hr, -⟩
    · rw [ht] at h
      cases h
    · rw [hr] at h
      cases h
  case refused =>
    rcases step_outcome hs with ⟨t, ht⟩ | ⟨r', off, size, v, rest, -, hin, hmisfit⟩
    · rw [ht] at h
      cases h
    · exact ⟨off, size, v, rest, hin, hmisfit⟩
  case complete =>
    rcases hin with hin | ⟨rest, hin⟩ | ⟨v, rest, hin⟩
    · rw [step_of_no_input hf hin]
      exact runWord_answers hs f.word
    · rw [step_of_complete hf hin]
      exact runWord_answers (inv_with_inputs hs rest) f.word
    · rw [step_of_completeWithIrqWrite hf hin]
      exact runWord_answers (inv_with_donePend (inv_with_inputs hs rest) _) f.word

end Completes

end Sys2Proof.Proofs
end
